-- ==== Sys2Proof/Word.lean ====
section
/-! DEFINITION. The word types of the LJ2804: window bytes, the 32-bit numbers of records and
sector headers, and the sets of ports of a set byte. -/

namespace Sys2Proof

/-- A byte of a window register, of a frame, of a response or of the array (R139, R172, R183). -/
abbrev Byte := BitVec 8

/-- A version, an activation sequence, a counter floor, a format base or a payload check (R3, R100). -/
abbrev Word32 := BitVec 32

/-- The largest value of a 32-bit counter, 4,294,967,295 (R7, R110). -/
abbrev lastWord : Word32 := 0xFFFFFFFF

/-- A set of the ports A to D, one bit each, port A in bit 0 (the set byte of NS_SET). -/
abbrev PortSet := BitVec 4

/-- The low byte of a number. -/
abbrev byteOf (n : Nat) : Byte := BitVec.ofNat 8 n

end Sys2Proof
end

