-- ==== Sys2Proof/Data.lean ====
section
/-! DEFINITION. The names the commands and the state share: ports, keys, places, record and sector
headers as their fields, and what a failed or cut-off array operation leaves. -/

namespace Sys2Proof

/-- The four host ports, A = 0 to D = 3. -/
inductive Port where
  | A | B | C | D
  deriving DecidableEq, Repr

/-- A record's name (R1). -/
structure Key where
  ns : Fin 8
  id : Fin 4096
  deriving DecidableEq, Repr

/-- A sector of the array (R139). -/
abbrev Sector := Fin 128

/-- The place of a record: sector and granule of its header, 1 to 511 in every place the part gives (R2). -/
structure Place where
  sector : Sector
  granule : Nat
  deriving DecidableEq, Repr

/-- The kind of a record (R3). -/
inductive RecKind where
  | data | tombstone
  deriving DecidableEq, Repr

/-- The three values of a record's state field (R4). -/
inductive RecState where
  | allocated | valid | superseded
  deriving DecidableEq, Repr

/-- The fields of a record header as a READ finds them (R3): `check` is the payload check, and whether
`headerCheck` matches the fields it covers is computed. The state field reads as one of its three
values or as none of them (a torn record, R5). -/
structure RecHeader where
  key : Key
  kind : RecKind
  version : Word32
  length : Nat
  check : Word32
  headerCheck : Byte
  state : Option RecState
  deriving DecidableEq, Repr

/-- A header granule that is not erased: its fields, or bytes that give no record's fields or that a
cut-off or failed program left, whose header check fails (R3, log 4). `state` is the value that the state
field of a broken one is known to read as: a program of that field alone may have left it (R140). -/
inductive RecCell where
  | written (h : RecHeader)
  | broken (state : Option RecState)
  deriving DecidableEq, Repr

/-- The six values of a sector header's state field; ERASED is the erased value (R100). -/
inductive SectorMark where
  | erased | active | full | draining | discarded | retired
  deriving DecidableEq, Repr

/-- An erase count, 0 to 16,777,215 (R100). -/
abbrev EraseCount := Fin 16777216

/-- The activation group of a sector header (R100). -/
structure Activation where
  sequence : Word32
  floor : Word32
  base : Word32
  deriving DecidableEq, Repr

/-- A guarded group of a sector header: wholly erased, written whole, or failing its check (R100). -/
inductive HeaderGroup (α : Type) where
  | erased
  | written (a : α)
  | bad
  deriving DecidableEq, Repr

/-- Granule 0 of a sector (R100): the identity group holds the erase count; the state field reads as
one of its six values or as none of them. -/
structure SectorHeader where
  identity : HeaderGroup EraseCount
  activation : HeaderGroup Activation
  mark : Option SectorMark
  deriving DecidableEq, Repr

/-- A wholly erased sector header, class BLANK (R101). -/
def SectorHeader.blank : SectorHeader := ⟨.erased, .erased, some .erased⟩

/-- Contents of one sector: its header, record headers by granule and payload bytes by byte offset
within the sector (what is unlisted is erased). It is what a failed or stopped erase leaves
(R144) or what a sector under erase shows to a READ (R141). -/
structure SectorImage where
  header : SectorHeader
  recs : List (Nat × RecCell)
  bytes : List (Nat × Byte)
  deriving DecidableEq, Repr

/-- What a PROGRAM that did not run to a good end leaves in one field: its old value, the value
requested, or neither (R142, R152). -/
inductive FieldLeft where
  | old
  | new
  | neither
  deriving DecidableEq, Repr

/-- What a failed, stopped or cut-off PROGRAM leaves in its span (R142, R143, R152): the old values,
the values requested, or neither. For a payload span `neither bs` gives the bytes left, position by
position; positions beyond `bs` keep their old value. `parts` tells the two fields of an activation
program apart: its group and its state field. -/
inductive SpanLeft where
  | old
  | new
  | neither (bs : List Byte)
  | parts (group mark : FieldLeft)
  deriving DecidableEq, Repr

/-- What is left in the header, the group or the one state field of the span. -/
def SpanLeft.field : SpanLeft → FieldLeft
  | .old => .old
  | .new => .new
  | .neither _ => .neither
  | .parts g _ => g

/-- What is left in the state field that an activation program writes with its group. -/
def SpanLeft.mark : SpanLeft → FieldLeft
  | .parts _ m => m
  | l => l.field

/-- A field short of the value requested: what would be that value is the old one. -/
def FieldLeft.short : FieldLeft → FieldLeft
  | .new => .old
  | l => l

/-- Every cell of the span took its value. -/
def SpanLeft.took (l : SpanLeft) : Bool := l.field == .new && l.mark == .new

/-- What a cut-off ERASE has done to a group or a state field: nothing yet, part of it, or all of it (R152). -/
inductive Cut where
  | kept
  | partly
  | erased
  deriving DecidableEq, Repr

/-- What a cut-off ERASE has done to a record header that it reached: its covered fields are partly
0FFH, its state field kept or not, or its state field alone is, or every byte is 0FFH (R152). -/
inductive RecCut where
  | broken (stateKept : Bool)
  | torn
  | erased
  deriving DecidableEq, Repr

/-- How far a cut-off ERASE has come: a mixture of old contents and 0FFH over the sector (R152). `recs` names
record headers by granule, `bytes` the payload bytes that are 0FFH by offset within the sector; what
is not named keeps its old contents. -/
structure EraseCut where
  identity : Cut
  activation : Cut
  mark : Cut
  recs : List (Nat × RecCut)
  bytes : List Nat
  deriving DecidableEq, Repr

/-- The partial contents of a sector whose erase is suspended: old contents in some places, 0FFH in others,
and in still others neither: `others` gives those payload bytes by offset within the sector (R141). -/
structure UnderErase where
  cut : EraseCut
  others : List (Nat × Byte)
  deriving DecidableEq, Repr

/-- What a program's cells hold: what its span is left with, and `under`, what a sector under erase held when
the program came (R150, log 8). -/
structure ProgramLeft where
  span : SpanLeft
  under : UnderErase
  deriving DecidableEq, Repr

/-- The two requesters of the Array Controller and of the Space Manager (R111, R146). -/
inductive Requester where
  | engine | drain
  deriving DecidableEq, Repr

end Sys2Proof
end

