-- ==== Sys2Proof/Syntax.lean ====
section
/-! DEFINITION. The commands of the LJ2804: one constructor for each row of spec/opcode_table.json. -/

namespace Sys2Proof

/-- The 44 rows. A granted port command names the port alone: its code and its parameters are in the
frame that the port's mailbox holds (R172, R173; log 3).
`arrivalFirst`: a requester's next request arrives together with the end of its operation, and the
arrival is taken first (R147, R149; log 10). -/
inductive Instr where
  /-- FETCH (R15). -/
  | fetch (p : Port)
  /-- PROBE (R17). -/
  | probe (p : Port)
  /-- SCAN (R18). -/
  | scan (p : Port)
  /-- PUT_OPEN (R27). -/
  | putOpen (p : Port)
  /-- PUT_COMMIT (R29). -/
  | putCommit (p : Port)
  /-- PUT_CANCEL (R28). -/
  | putCancel (p : Port)
  /-- REMOVE (R46). -/
  | remove (p : Port)
  /-- LEASE_TAKE (R70). -/
  | leaseTake (p : Port)
  /-- LEASE_RENEW (R72). -/
  | leaseRenew (p : Port)
  /-- LEASE_DROP (R74). -/
  | leaseDrop (p : Port)
  /-- WATCH (R86). -/
  | watch (p : Port)
  /-- UNWATCH (R87). -/
  | unwatch (p : Port)
  /-- STORE_QUERY (R118). -/
  | storeQuery (p : Port)
  /-- STORE_TUNE (R117). -/
  | storeTune (p : Port)
  /-- RECLAIM (R138). -/
  | reclaim (p : Port)
  /-- FORMAT (R164). -/
  | format (p : Port)
  /-- NS_SET (R57). -/
  | nsSet (p : Port)
  /-- NS_FREEZE (R61). -/
  | nsFreeze (p : Port)
  /-- TEARDOWN_REQUEST: the grant of port p's teardown request (R182). -/
  | teardownRequest (p : Port)
  /-- RELOCATE: the grant of the Drain Unit's RELOCATE request (R128). -/
  | relocate
  /-- PURGE: the grant of the Drain Unit's PURGE request (R131). -/
  | purge
  /-- ALLOCATION_REQUEST: the Space Manager takes the request of r (R106). -/
  | allocationRequest (r : Requester)
  /-- READ_COMPLETE (R141). `seen` is what a sector under erase shows to the READ (log 8). -/
  | readComplete (arrivalFirst : Bool) (seen : SectorImage)
  /-- PROGRAM_COMPLETE (R143): whether every cell took its value, and what the program leaves if not; the
  outcome is what the read-back then finds. -/
  | programComplete (pass : Bool) (left : ProgramLeft) (arrivalFirst : Bool)
  /-- PROGRAM_TIMEOUT (R142): what the stopped program leaves. -/
  | programTimeout (left : ProgramLeft) (arrivalFirst : Bool)
  /-- ERASE_COMPLETE (R144): whether every cell was erased, and what the erase leaves if not; the outcome
  is what the blank check then finds. -/
  | eraseComplete (pass : Bool) (left : SectorImage) (arrivalFirst : Bool)
  /-- ERASE_TIMEOUT (R144): what the stopped erase leaves. -/
  | eraseTimeout (left : SectorImage) (arrivalFirst : Bool)
  /-- TIMEBASE_STEP (R67). -/
  | timebaseStep
  /-- LEASE_EXPIRY of the lease on a key (R77). -/
  | leaseExpiry (k : Key)
  /-- CMD: a host writes CMD (R184). -/
  | cmd (p : Port) (b : Byte)
  /-- PARAM: a host writes PARAM (R185). -/
  | param (p : Port) (b : Byte)
  /-- SUBMIT: a host writes SUBMIT, the value ignored (R185). -/
  | submit (p : Port) (b : Byte)
  /-- RESP: a host reads RESP (R186). -/
  | resp (p : Port)
  /-- NOTICE: a host reads NOTICE (R96). -/
  | notice (p : Port)
  /-- STAGE: a host writes STAGE (R22). -/
  | stage (p : Port) (b : Byte)
  /-- FLAGS: a host writes FLAGS (R188). -/
  | flags (p : Port) (b : Byte)
  /-- PORT_RESET: a host writes CONTROL with bit 0 set; `rest` is bits 7 to 1 (R190; log 20). -/
  | portReset (p : Port) (rest : BitVec 7)
  /-- INTERRUPT_POLARITY: a host writes CONTROL with bit 0 clear; `rest` is bits 7 to 1 (R189; log 20). -/
  | interruptPolarity (p : Port) (rest : BitVec 7)
  /-- REGISTER_WRITE: a host writes another offset of the window (R183). -/
  | registerWrite (p : Port) (offset : Fin 16) (b : Byte)
  /-- POWER_GOOD_FALL (R190). -/
  | powerGoodFall (p : Port)
  /-- POWER_GOOD_RISE (R190, R192). -/
  | powerGoodRise (p : Port)
  /-- POWER_ON_RESET; the operands are what the abandoned program leaves and how far the abandoned erase
  has come (R152, R153). -/
  | powerOnReset (span : SpanLeft) (sector : EraseCut)
  /-- DEVICE_RESET: RESET_N is asserted, and held low or released at once (R193, R194; log 17). -/
  | deviceReset (held : Bool) (span : SpanLeft) (sector : EraseCut)
  /-- RESET_N_RISE (R194). -/
  | resetNRise
  deriving DecidableEq, Repr

end Sys2Proof
end

