-- ==== Sys2Proof/Decode.lean ====
section
/-! DEFINITION. The command a word spells by the table's bits. -/

namespace Sys2Proof

/-- No row of spec/opcode_table.json gives bits, so no word spells a command (log 31). -/
def decodeTableWord (_nbits _w : Nat) : Option Instr := none

end Sys2Proof
end

