-- ==== Sys2Proof/Config.lean ====
section
/-! DEFINITION. What the spec leaves to the implementation, without a body: no proof can see a value. -/

namespace Sys2Proof

/-- The 32-bit check over the payload bytes in order (R3); the spec gives no function, only that
it is a function of the bytes (log 5). -/
opaque Config.payloadCheck : List Byte → Word32

/-- The 8-bit header check over key, kind, version, payload length and payload check (R3); the spec
gives no function (log 5). -/
opaque Config.headerCheck : Key → RecKind → Word32 → Nat → Word32 → Byte

/-- The bytes of a header granule, by byte address; the spec gives no layout of a header (log 5). -/
opaque Config.cellByte : RecCell → Nat → Byte

/-- A byte of a header granule that is not 0FFH, its position and its value: by the granule's number; a
granule that holds a header is not erased (R3, log 5). -/
opaque Config.cellMark : RecCell → Nat → Fin 16 × Fin 255

/-- R172 refuses an over-long frame with BAD_LENGTH whatever its code, and R173 tests BAD_COMMAND
before BAD_LENGTH: for an over-long frame whose code is none of the eighteen the two rules disagree,
and which of the two results is given is left free (log 32). -/
opaque Config.lengthBeforeCode : Bool

end Sys2Proof
end

