-- ==== Sys2Proof/Machine/State.lean ====
section
/-! DEFINITION. The state of the LJ2804 as plain data, and the state after reset. -/

namespace Sys2Proof.Machine

open Sys2Proof

/-- The reasons a step could stop with a fault: the spec gives none. The part answers, flags, retires or
makes the store READ_ONLY, and goes on; no meaning raises this one (safe). -/
inductive Fault where
  /-- Raised by no meaning; it stands for the interface alone. Safe. -/
  | none_
  deriving DecidableEq, Repr

/-- The reasons a step could be refused. -/
inductive Refusal where
  /-- A row of the table without its meaning. Safe. No arm of `exec` answers it. -/
  | notModelled (mnemonic : String)
  deriving DecidableEq, Repr

/-! ### The Port Units (R20, R92, R172, R183 to R193) -/

/-- The mailbox states of STATUS bits 2 to 0 (R183). -/
inductive MailState where
  | idle | filling | waiting | running | done
  deriving DecidableEq, Repr

/-- A frame: code, up to 16 parameter bytes, over-long mark (R172). -/
structure Frame where
  code : Byte
  params : List Byte
  overLong : Bool
  deriving DecidableEq, Repr

/-- The mailbox; `response` holds the response bytes not yet read (R176, R186). -/
structure Mailbox where
  state : MailState
  frame : Frame
  response : List Byte
  deriving DecidableEq, Repr

/-- The condition of a write (R24). -/
inductive Condition where
  | none_
  | create
  | matching (v : Word32)
  deriving DecidableEq, Repr

/-- The transaction states of STATUS bits 5 and 4 (R20). -/
inductive TxnState where
  | none_ | open_ | committing
  deriving DecidableEq, Repr

/-- The transaction record (R20). -/
structure Txn where
  state : TxnState
  key : Key
  length : Nat
  cond : Condition
  staged : Nat
  deriving DecidableEq, Repr

/-- A notice (R92); lease notices carry no version. -/
inductive Notice where
  | changed (k : Key) (v : Word32)
  | deleted (k : Key) (v : Word32)
  | granted (k : Key)
  | lost (k : Key)
  deriving DecidableEq, Repr

/-- An entry of a notice queue: a notice, or OVERFLOW with its lost count (R92). -/
inductive NoticeEntry where
  | notice (n : Notice)
  | overflow (count : Nat)
  deriving DecidableEq, Repr

/-- A notice queue, head first; `taken` bytes of the head have been read, and the head is opened
exactly when `taken` is not 0 (R92, R96). -/
structure NoticeQueue where
  entries : List NoticeEntry
  taken : Nat
  deriving DecidableEq, Repr

/-- The six latched flags (R188). -/
structure Latched where
  collision : Bool
  responseLost : Bool
  underrun : Bool
  stageOverrun : Bool
  storeChange : Bool
  teardownDone : Bool
  deriving DecidableEq, Repr

/-- The link states (R190). -/
inductive Link where
  | present | teardown | absent
  deriving DecidableEq, Repr

/-- What one Port Unit holds. `dataOut` is the model's own: the byte the last read access with a row
of its own returned (R194; log 21). -/
structure PortUnit where
  mailbox : Mailbox
  txn : Txn
  buffer : Vector Byte 1024
  queue : NoticeQueue
  latched : Latched
  enable : Byte
  activeLow : Bool
  link : Link
  powerGood : Bool
  generation : Byte
  dataOut : Option Byte
  deriving DecidableEq, Repr

/-- The four Port Units. -/
structure Ports where
  a : PortUnit
  b : PortUnit
  c : PortUnit
  d : PortUnit
  deriving DecidableEq, Repr

/-! ### The Record Engine (R6, R9, R48, R177 to R180) -/

/-- The presence of a key that has an entry (R9, R10). -/
inductive Presence where
  | present | deleted
  deriving DecidableEq, Repr

/-- An entry of the Key Index (R9). -/
structure IndexEntry where
  key : Key
  presence : Presence
  place : Place
  length : Nat
  version : Word32
  deriving DecidableEq, Repr

/-- The states of a namespace (R48). -/
inductive NsState where
  | undefined | defined | frozen
  deriving DecidableEq, Repr

/-- An entry of the Namespace Table (R48). -/
structure NsEntry where
  state : NsState
  readers : PortSet
  writers : PortSet
  quota : Nat
  deriving DecidableEq, Repr

/-- A FETCH waiting for its READ (R15, R179). -/
structure FetchJob where
  port : Port
  gen : Byte
  entry : IndexEntry
  offset : Nat
  count : Nat
  deriving DecidableEq, Repr

/-- What a write in flight waits for (R31 to R38). -/
inductive WritePhase where
  /-- room from the Space Manager -/
  | room
  /-- the header program -/
  | header
  /-- a payload program; the pieces after it -/
  | payload (rest : List (Nat × List Byte))
  /-- the VALID program -/
  | valid
  /-- the SUPERSEDED program of the old record -/
  | supersede
  /-- the RETIRED program after a failure -/
  | retire
  deriving DecidableEq, Repr

/-- A PUT_COMMIT (`tombstone = false`) or a REMOVE (`tombstone = true`) in flight (R31 to R47). -/
structure WriteJob where
  port : Port
  gen : Byte
  tombstone : Bool
  key : Key
  length : Nat
  /-- 1 for the first attempt, 2 for the retry (R38) -/
  attempt : Nat
  place : Place
  version : Word32
  phase : WritePhase
  deriving DecidableEq, Repr

/-- How far a walk of R154 has come at its present position. -/
inductive WalkMode where
  /-- at a position where a header is expected -/
  | normal
  /-- in a run of erased granules that began at `start` -/
  | gap (start : Nat)
  /-- above a broken header at `start` -/
  | broken (start : Nat)
  deriving DecidableEq, Repr

/-- A walk of one sector: its next position, a READ of which is outstanding (R154). -/
structure Walk where
  sector : Sector
  pos : Nat
  mode : WalkMode
  deriving DecidableEq, Repr

/-- The quantities of the survey (R155). -/
structure Survey where
  base : Word32
  count : EraseCount
  sequence : Word32
  floor : Word32
  version : Word32
  deriving DecidableEq, Repr

/-- What the mount procedure waits for (R155 to R161). -/
inductive MountPhase where
  /-- survey: the header READ of a sector -/
  | surveyHeader (i : Sector)
  /-- survey: a READ of a walk, and the sectors after it -/
  | surveyWalk (w : Walk) (rest : List Sector)
  /-- header repair: an ERASE -/
  | repairErase (i : Sector)
  /-- header repair: an identity program with an erase count -/
  | repairIdentity (i : Sector) (count : EraseCount)
  /-- header repair: a RETIRED program -/
  | repairRetire (i : Sector)
  /-- record scan: a READ of a walk, and the sectors after it -/
  | scan (w : Walk) (rest : List Sector)
  /-- record scan: a SUPERSEDED program; the walk goes on at `w`; `hold`: its failure sets purge hold -/
  | scanSupersede (w : Walk) (rest : List Sector) (hold : Bool)
  /-- record scan: the FULL program of a sector closed at a broken header -/
  | scanClose (rest : List Sector)
  /-- active sector: the FULL program of a surplus ACTIVE sector, and those after it -/
  | surplus (rest : List Sector)
  /-- active sector: an activation -/
  | activate
  deriving DecidableEq, Repr

/-- The mount procedure; `scans` are the sectors the record scan will walk (R157), `ends` those walked
with the last granule of their records, for the accounts that the scan's end fills in (R159). -/
structure MountJob where
  phase : MountPhase
  survey : Survey
  scans : List Sector
  ends : List (Sector × Nat)
  deriving DecidableEq, Repr

/-- What a FORMAT waits for (R165 to R168). -/
inductive FormatPhase where
  /-- start: the Drain Unit's abandonment -/
  | abandon
  /-- mark: a DISCARDED program -/
  | mark (i : Sector)
  /-- erase: an ERASE -/
  | erase (i : Sector)
  /-- erase: an identity program -/
  | identity (i : Sector)
  /-- erase: a RETIRED program -/
  | retire (i : Sector)
  /-- activate: an activation -/
  | activate
  deriving DecidableEq, Repr

/-- The request RUNNING at the engine (R177, R179), or the mount. -/
inductive EngineJob where
  | idle
  | fetch (j : FetchJob)
  | write (j : WriteJob)
  /-- a RELOCATE applied, its source's SUPERSEDED program outstanding (R128) -/
  | relocate
  | format (p : Port) (gen : Byte) (phase : FormatPhase)
  | mount (j : MountJob)
  deriving DecidableEq, Repr

/-- What the Record Engine holds. -/
structure Engine where
  index : List IndexEntry
  names : Vector NsEntry 8
  counter : Word32
  counterSpent : Bool
  pointer : Port
  job : EngineJob
  deriving DecidableEq, Repr

/-! ### The Lease Unit and the Watch Unit (R63, R64, R84) -/

/-- A waiter: a port and the duration it asked for (R64). -/
structure Waiter where
  port : Port
  duration : Nat
  deriving DecidableEq, Repr

/-- A lease (R63), its waiters head first. -/
structure Lease where
  key : Key
  holder : Port
  remaining : Nat
  waiters : List Waiter
  deriving DecidableEq, Repr

/-- A watch entry; `target = none` is ALL (R84). -/
structure WatchEntry where
  port : Port
  ns : Fin 8
  target : Option (Fin 4096)
  deriving DecidableEq, Repr

/-! ### The Space Manager (R102, R105, R106, R110, R113, R116) -/

/-- The table state of a sector: the six states of R102, and during a mount no state yet (R153) or
one of the two classes of R101 that header repair removes. -/
inductive SectorState where
  | unknown | blank | unintelligible
  | erased | active | full | draining | discarded | retired
  deriving DecidableEq, Repr

/-- A record of the Sector Table (R102). -/
structure SectorRecord where
  state : SectorState
  eraseCount : EraseCount
  sequence : Option Word32
  pointer : Nat
  live : Nat
  dead : Nat
  deriving DecidableEq, Repr

/-- The store states (R113). -/
inductive StoreState where
  | mounting | ready | readOnly | formatting
  deriving DecidableEq, Repr

/-- The read-only causes (R114). -/
inductive Cause where
  | retireLimit | noSpace | counterLimit
  deriving DecidableEq, Repr

/-- The classes of an allocation request (R107). -/
inductive AllocClass where
  | commit | remove | drain
  deriving DecidableEq, Repr

/-- An allocation request (R106). -/
structure AllocRequest where
  granules : Nat
  cls : AllocClass
  deriving DecidableEq, Repr

/-- For whom an activation is made (R108, R161, R168). -/
inductive ActivationFor where
  | request (r : Requester)
  | mount
  | format
  deriving DecidableEq, Repr

/-- Which program of an activation is outstanding (R108, R109). -/
inductive ActivationPhase where
  /-- the activation group with ACTIVE -/
  | program
  /-- the FULL program of the closed sector -/
  | close
  /-- the RETIRED program after a failed activation -/
  | retire
  deriving DecidableEq, Repr

/-- The activation under way (R108). -/
structure ActivationJob where
  purpose : ActivationFor
  sector : Sector
  group : Activation
  phase : ActivationPhase
  deriving DecidableEq, Repr

/-- What the Space Manager holds. -/
structure Space where
  sectors : Vector SectorRecord 128
  store : StoreState
  cause : Option Cause
  noSpace : Bool
  evacuation : List Sector
  actCounter : Word32
  actSpent : Bool
  formatBase : Word32
  lowWater : Nat
  allocEngine : Option AllocRequest
  allocDrain : Option AllocRequest
  activation : Option ActivationJob
  deriving DecidableEq, Repr

/-! ### The Drain Unit (R119) -/

/-- The drain states (R119). -/
inductive DrainState where
  | idle | reclaiming | evacuating
  deriving DecidableEq, Repr

/-- The copy in hand (R119, R126); `place` is the copy place, absent until allocated. -/
structure Copy where
  key : Key
  kind : RecKind
  version : Word32
  length : Nat
  check : Word32
  source : Place
  bytes : List Byte
  place : Option Place
  attempt : Nat
  deriving DecidableEq, Repr

/-- A drain request at the engine arbiter (R127, R131). -/
inductive DrainRequest where
  | relocate (k : Key) (source copy : Place) (size : Nat)
  | purge (k : Key) (place : Place)
  deriving DecidableEq, Repr

/-- What a drain pass waits for (R123 to R134). -/
inductive DrainPhase where
  /-- no pass -/
  | none_
  /-- the DRAINING program of the victim -/
  | mark
  /-- the READ of the granule at the walk position -/
  | header
  /-- the READ of the record at the walk position -/
  | record
  /-- room for the copy -/
  | room
  /-- the copy's header program -/
  | copyHeader
  /-- a payload program of the copy; the pieces after it -/
  | copyPayload (rest : List (Nat × List Byte))
  /-- the copy's VALID program -/
  | copyValid
  /-- the answer to a RELOCATE or PURGE; the record's size -/
  | answer (size : Nat)
  /-- the SUPERSEDED program of a stale copy; the record's size -/
  | stale (size : Nat)
  /-- the RETIRED program of the copy's sector -/
  | retireCopy
  /-- the ERASE of the victim -/
  | erase
  /-- the victim's identity program -/
  | identity
  /-- the RETIRED program of the victim, after which the pass ends -/
  | retireVictim
  deriving DecidableEq, Repr

/-- What the Drain Unit holds (R119). -/
structure Drain where
  state : DrainState
  sector : Option Sector
  pos : Nat
  copy : Option Copy
  purgePermitted : Bool
  purgeHold : Bool
  pendingConsideration : Bool
  request : Option DrainRequest
  phase : DrainPhase
  deriving DecidableEq, Repr

/-! ### The Array Controller and the array (R139, R146, R148) -/

/-- An operation of the array with its span and the values asked for (R100, R140 to R144). -/
inductive ArrayOp where
  /-- READ of `count` granules from a granule on -/
  | read (i : Sector) (granule count : Nat)
  /-- PROGRAM of a record header's covered fields with state ALLOCATED -/
  | programHeader (at_ : Place) (h : RecHeader)
  /-- PROGRAM of a record's state field -/
  | programState (at_ : Place) (st : RecState)
  /-- PROGRAM of payload bytes from a byte address of the array on -/
  | programBytes (addr : Nat) (bs : List Byte)
  /-- PROGRAM of a sector's identity group -/
  | programIdentity (i : Sector) (count : EraseCount)
  /-- PROGRAM of a sector's activation group and the state ACTIVE -/
  | programActivation (i : Sector) (g : Activation)
  /-- PROGRAM of a sector's state field -/
  | programMark (i : Sector) (m : SectorMark)
  /-- ERASE -/
  | erase (i : Sector)
  deriving DecidableEq, Repr

/-- A request in a place of the array arbiter, waiting or in service (R146). -/
structure ArrayRequest where
  op : ArrayOp
  inService : Bool
  deriving DecidableEq, Repr

/-- The ERASE in progress (R148); `active` is its active time in milliseconds. At 120 it is stopped: it
is not suspended, and its outcome is ERASE_FAIL (R144, log 15). `shown`: since it was last
suspended a PROGRAM into the sector has ended, so that the array's contents of the sector are what it shows
until it resumes (R150, log 8). -/
structure EraseJob where
  requester : Requester
  sector : Sector
  active : Nat
  count : Nat
  suspended : Bool
  shown : Bool
  deriving DecidableEq, Repr

/-- What the Array Controller holds. -/
structure Controller where
  engine : Option ArrayRequest
  drain : Option ArrayRequest
  erase : Option EraseJob
  deriving DecidableEq, Repr

/-- The contents of the array: sector headers, record headers by granule number of the array
(sector × 512 + granule), payload bytes by byte address of the array. What is unlisted is erased (R139). -/
structure ArrayContents where
  headers : Vector SectorHeader 128
  recs : List (Nat × RecCell)
  bytes : List Host.Cell
  deriving DecidableEq, Repr

/-! ### The whole part -/

/-- The state of the part, and the queue of commands that wait, first in, first out. -/
structure State where
  pending : List Instr
  resetLow : Bool
  ports : Ports
  engine : Engine
  leases : List Lease
  watches : List WatchEntry
  space : Space
  drain : Drain
  ctl : Controller
  array : ArrayContents
  deriving DecidableEq, Repr

/-! ### Reset values -/

/-- A mailbox without frame and response (R192). -/
def Mailbox.empty : Mailbox := ⟨.idle, ⟨0, [], false⟩, []⟩

/-- A transaction record in NONE with staged count 0 (R21); the other fields are meaningless there. -/
def Txn.empty : Txn := ⟨.none_, ⟨0, 0⟩, 0, .none_, 0⟩

/-- An empty notice queue (R98). -/
def NoticeQueue.empty : NoticeQueue := ⟨[], 0⟩

/-- No flag latched (R192). -/
def Latched.clear : Latched := ⟨false, false, false, false, false, false⟩

/-- A Port Unit after a power-on or device reset, by the level of its power-good input (R193). -/
def PortUnit.atReset (powerGood : Bool) : PortUnit where
  mailbox := .empty
  txn := .empty
  buffer := Vector.replicate 1024 0
  queue := .empty
  latched := .clear
  enable := 0
  activeLow := false
  link := if powerGood then .present else .absent
  powerGood := powerGood
  generation := 0
  dataOut := none

/-- The Namespace Table after a power-on reset (R49). -/
def namesAtPowerOn : Vector NsEntry 8 := Vector.replicate 8 ⟨.undefined, 0, 0, 0⟩

/-- The mount procedure at its start: the survey's READ of sector 0's header (R153, R155). -/
def MountJob.start : MountJob := ⟨.surveyHeader 0, ⟨0, 0, 0, 0, 0⟩, [], []⟩

/-- The engine's RAM after a reset; the Namespace Table is given (R12, R49, R178). -/
def Engine.atReset (names : Vector NsEntry 8) (job : EngineJob) : Engine :=
  ⟨[], names, 1, false, .A, job⟩

/-- The low-water mark after a power-on reset (R116). -/
def lowWaterAtPowerOn : Nat := 4

/-- The Space Manager's RAM after a reset; the low-water mark is given (R113, R116, R153). -/
def Space.atReset (lowWater : Nat) : Space where
  sectors := Vector.replicate 128 ⟨.unknown, 0, none, 0, 0, 0⟩
  store := .mounting
  cause := none
  noSpace := false
  evacuation := []
  actCounter := 1
  actSpent := false
  formatBase := 0
  lowWater := lowWater
  allocEngine := none
  allocDrain := none
  activation := none

/-- The Drain Unit after a reset (R119). -/
def Drain.atReset : Drain := ⟨.idle, none, 1, none, false, false, false, none, .none_⟩

/-- The Array Controller with nothing requested (R146). -/
def Controller.empty : Controller := ⟨none, none, none⟩

/-- The Array Controller with the mount's first READ in service (R153). -/
def Controller.atMount : Controller := ⟨some ⟨.read 0 0 1, true⟩, none, none⟩

/-- The array of a part that has never been used: every sector BLANK (R156). -/
def ArrayContents.unused : ArrayContents := ⟨Vector.replicate 128 .blank, [], []⟩

/-- The part right after the power-on reset of an unused part, RESET_N high and all four
processors powered (log 19): the mount has begun and its first READ is in service. -/
def State.reset : State where
  pending := []
  resetLow := false
  ports := ⟨.atReset true, .atReset true, .atReset true, .atReset true⟩
  engine := .atReset namesAtPowerOn (.mount .start)
  leases := []
  watches := []
  space := .atReset lowWaterAtPowerOn
  drain := .atReset
  ctl := .atMount
  array := .unused

end Sys2Proof.Machine
end

