-- ==== Sys2Proof/Machine/Bytes.lean ====
section
/-! DEFINITION. Ports and keys as numbers, byte order of frames and responses, record sizes, page cuts. -/

namespace Sys2Proof.Machine

open Sys2Proof

/-- The number of a port, 0 to 3 (00_scope, Conventions). -/
def portNumber : Port → Nat
  | .A => 0
  | .B => 1
  | .C => 2
  | .D => 3

/-- The four ports, A to D. -/
def allPorts : List Port := [.A, .B, .C, .D]

/-- The port after a port; after D it is A (R178). -/
def nextPort : Port → Port
  | .A => .B
  | .B => .C
  | .C => .D
  | .D => .A

/-- The ports in the order that begins at one of them and runs on through D back to A (R178). -/
def portsFrom (p : Port) : List Port :=
  [p, nextPort p, nextPort (nextPort p), nextPort (nextPort (nextPort p))]

/-- Membership in a set of ports, bit 0 for port A (10_command_execution, set byte). -/
def hasPort (s : PortSet) (p : Port) : Bool := s.getLsbD (portNumber p)

/-- Key order: by namespace, and within a namespace by id (R9). -/
def keyCode (k : Key) : Nat := k.ns.val * 4096 + k.id.val

/-- The 128 sectors in ascending number (R139). -/
def allSectors : List Sector := List.finRange 128

/-- The size in granules of a record of payload length L: 1 + ceil(L/16) (R2). -/
def recordSize (L : Nat) : Nat := 1 + (L + 15) / 16

/-- Two bytes of a number, least significant first. -/
def le16 (n : Nat) : List Byte := [byteOf n, byteOf (n / 256)]

/-- Four bytes of a number, least significant first. -/
def le32 (n : Nat) : List Byte :=
  [byteOf n, byteOf (n / 256), byteOf (n / 65536), byteOf (n / 16777216)]

/-- The number that bytes spell, least significant first. -/
def fromLE : List Byte → Nat
  | [] => 0
  | b :: bs => b.toNat + 256 * fromLE bs

/-- The byte address of a granule of the array (R139). -/
def granuleAddress (i : Sector) (g : Nat) : Nat := i.val * 8192 + g * 16

/-- The byte address of a record's first payload byte: the granule after its header (R33). -/
def payloadAddress (p : Place) : Nat := granuleAddress p.sector (p.granule + 1)

/-- Payload bytes from an address on, cut at every page boundary of 128 bytes they cross, in
ascending address order (R33); `fuel` bounds the number of pieces. -/
def cutPages : Nat → Nat → List Byte → List (Nat × List Byte)
  | 0, _, _ => []
  | fuel + 1, addr, bs =>
    if bs.isEmpty then []
    else
      let room := 128 - addr % 128
      (addr, bs.take room) :: cutPages fuel (addr + room) (bs.drop room)

/-- The payload programs of a record at a place (R33). -/
def payloadPieces (p : Place) (bs : List Byte) : List (Nat × List Byte) :=
  cutPages bs.length (payloadAddress p) bs

/-- A record header as the part writes it, its header check computed over the fields it covers (R3). -/
def checkedHeader (k : Key) (kind : RecKind) (v : Word32) (L : Nat) (check : Word32)
    (st : RecState) : RecHeader :=
  ⟨k, kind, v, L, check, Config.headerCheck k kind v L check, some st⟩

/-- A 32-bit counter's next value, and whether taking its present value exhausts it (R7, R110). -/
def advance (c : Word32) : Word32 × Bool := if c = lastWord then (c, true) else (c + 1, false)

/-- The larger of two 32-bit numbers. -/
def maxWord (a b : Word32) : Word32 := if a < b then b else a

/-- A vector with one element replaced. -/
def vset {α : Type} {n : Nat} (v : Vector α n) (i : Fin n) (x : α) : Vector α n := v.set i.val x i.isLt

end Sys2Proof.Machine
end

