-- ==== Sys2Proof/Machine/Flags.lean ====
section
/-! DEFINITION. The window's read side and the interrupt line: STATUS, FLAGS, every other register's
value, and the level of the line (R183, R186, R188, R189). -/

namespace Sys2Proof.Machine

open Sys2Proof

/-- RESPONSE_READY is set while the mailbox is DONE (R188). -/
def responseReady (u : PortUnit) : Bool := u.mailbox.state == .done

/-- NOTICE_PENDING is set while the notice queue holds an entry (R188). -/
def noticePending (u : PortUnit) : Bool := !u.queue.entries.isEmpty

/-- One bit at a position of a byte. -/
def bitAt (n : Nat) (b : Bool) : Byte := if b then byteOf (2 ^ n) else 0

/-- The FLAGS register (window table; R188). -/
def flagsByte (u : PortUnit) : Byte :=
  bitAt 0 (responseReady u) ||| bitAt 1 (noticePending u) ||| bitAt 2 u.latched.collision |||
    bitAt 3 u.latched.responseLost ||| bitAt 4 u.latched.underrun |||
    bitAt 5 u.latched.stageOverrun ||| bitAt 6 u.latched.storeChange |||
    bitAt 7 u.latched.teardownDone

/-- The latched flags after a write to FLAGS: each bit written 1 clears its flag; bits 0 and 1 are
ignored (R188). -/
def clearFlags (b : Byte) (l : Latched) : Latched where
  collision := l.collision && !b.getLsbD 2
  responseLost := l.responseLost && !b.getLsbD 3
  underrun := l.underrun && !b.getLsbD 4
  stageOverrun := l.stageOverrun && !b.getLsbD 5
  storeChange := l.storeChange && !b.getLsbD 6
  teardownDone := l.teardownDone && !b.getLsbD 7

/-- STATUS bits 2 to 0. -/
def mailCode : MailState → Nat
  | .idle => 0
  | .filling => 1
  | .waiting => 2
  | .running => 3
  | .done => 4

/-- STATUS bits 5 and 4. -/
def txnCode : TxnState → Nat
  | .none_ => 0
  | .open_ => 1
  | .committing => 2

/-- The codes of the store states (R113). -/
def storeCode : StoreState → Nat
  | .mounting => 0
  | .ready => 1
  | .readOnly => 2
  | .formatting => 3

/-- The STATUS register (window table; R183). -/
def statusByte (st : StoreState) (u : PortUnit) : Byte :=
  byteOf (mailCode u.mailbox.state + (if u.link = .teardown then 8 else 0) +
    16 * txnCode u.txn.state + 64 * storeCode st)

/-- A read of CMD: the parameter bytes held, 17 for an over-long frame, 0 without a frame (R184). -/
def cmdByte (m : Mailbox) : Byte :=
  match m.state with
  | .idle => 0
  | .done => 0
  | _ => if m.frame.overLong then 17 else byteOf m.frame.params.length

/-- The kind code of an entry (R92). -/
def entryKind : NoticeEntry → Byte
  | .notice (.changed _ _) => 0x01
  | .notice (.deleted _ _) => 0x02
  | .notice (.granted _) => 0x03
  | .notice (.lost _) => 0x04
  | .overflow _ => 0x05

/-- The eight bytes of an entry: kind, namespace, id, version, absent fields 00H; OVERFLOW gives its lost
count in the first version byte (R96). -/
def entryBytes (e : NoticeEntry) : List Byte :=
  let key (k : Key) : List Byte := byteOf k.ns.val :: le16 k.id.val
  match e with
  | .notice (.changed k v) => entryKind e :: key k ++ le32 v.toNat
  | .notice (.deleted k v) => entryKind e :: key k ++ le32 v.toNat
  | .notice (.granted k) => entryKind e :: key k ++ [0, 0, 0, 0]
  | .notice (.lost k) => entryKind e :: key k ++ [0, 0, 0, 0]
  | .overflow n => [entryKind e, 0, 0, 0, byteOf n, 0, 0, 0]

/-- The byte a read of NOTICE returns (R96). -/
def noticeByte (q : NoticeQueue) : Byte :=
  match q.entries with
  | [] => 0
  | e :: _ => (entryBytes e).getD q.taken 0

/-- The byte a read of RESP returns (R186). -/
def respByte (m : Mailbox) : Byte :=
  match m.state, m.response with
  | .done, b :: _ => b
  | _, _ => 0xFF

/-- RESP_LEFT: 0 in every state but DONE (R186). -/
def respLeft (m : Mailbox) : Nat := if m.state = .done then m.response.length else 0

/-- The value of each register of the window as a read access that is taken finds it (window table; R183);
`dataLines` says what the data lines show. -/
def windowRead (st : StoreState) (p : Port) (u : PortUnit) (offset : Fin 16) : Byte :=
  match offset.val with
  | 0 => cmdByte u.mailbox
  | 3 => respByte u.mailbox
  | 4 => byteOf (respLeft u.mailbox)
  | 5 => statusByte st u
  | 6 => flagsByte u
  | 7 => u.enable
  | 9 => byteOf u.txn.staged
  | 10 => byteOf (u.txn.staged / 256)
  | 11 => noticeByte u.queue
  | 12 => byteOf u.queue.entries.length
  | 13 => bitAt 1 u.activeLow
  | 14 => 0x28
  | 15 => byteOf (portNumber p)
  | _ => 0

/-- The line is active while an enabled flag is set (R189). -/
def irqActive (u : PortUnit) : Bool := flagsByte u &&& u.enable != 0

/-- The levels of the interrupt line. -/
inductive Line where
  | high | low | highZ
  deriving DecidableEq, Repr

/-- The interrupt line of a port (R189, R194). -/
def irqLine (resetLow : Bool) (u : PortUnit) : Line :=
  if resetLow || u.link == .absent || (u.link == .teardown && !u.powerGood) then .highZ
  else if irqActive u != u.activeLow then .high else .low

end Sys2Proof.Machine
end

