-- ==== Sys2Proof/Machine/Memory.lean ====
section
/-! DEFINITION. The array's contents: sparse lists in one canonical form, what READ sees, and what
PROGRAM and ERASE leave when they pass, fail, or are cut off (R139 to R144, R152). -/

namespace Sys2Proof.Machine

open Sys2Proof

/-! ### Sparse lists, addresses strictly rising -/

/-- The value listed at an address. -/
def cellAt {α : Type} (a : Nat) : List (Nat × α) → Option α
  | [] => none
  | c :: cs => if c.1 = a then some c.2 else cellAt a cs

/-- List a value at an address, in the address's place in the rising order. -/
def putCell {α : Type} (a : Nat) (x : α) : List (Nat × α) → List (Nat × α)
  | [] => [(a, x)]
  | c :: cs =>
    if a < c.1 then (a, x) :: c :: cs
    else if a = c.1 then (a, x) :: cs
    else c :: putCell a x cs

/-- Take an address off the list. -/
def dropCell {α : Type} (a : Nat) (m : List (Nat × α)) : List (Nat × α) :=
  m.filter (fun c => c.1 != a)

/-- What an unlisted byte of the array reads as: the erased value 0FFH (R139). -/
abbrev erasedByte : Byte := 0xFF

/-- The byte at an address (R139). -/
def byteAt (a : Nat) (m : List Host.Cell) : Byte := (cellAt a m).getD erasedByte

/-- Write one byte and keep the canonical form. -/
def writeByte (a : Nat) (b : Byte) (m : List Host.Cell) : List Host.Cell :=
  if b = erasedByte then dropCell a m else putCell a b m

/-- Write bytes from an address on. -/
def writeBytes : Nat → List Byte → List Host.Cell → List Host.Cell
  | _, [], m => m
  | a, b :: bs, m => writeBytes (a + 1) bs (writeByte a b m)

/-- The bytes from an address on. -/
def readBytes (a n : Nat) (m : List Host.Cell) : List Byte :=
  (List.range n).map (fun i => byteAt (a + i) m)

/-- The canonical form: rising addresses, and no listed byte that reads as an unlisted one. -/
abbrev ArrayContents.wf (a : ArrayContents) : Prop :=
  (a.recs.map Prod.fst).Pairwise (· < ·) ∧ (a.bytes.map Prod.fst).Pairwise (· < ·) ∧
    ∀ c ∈ a.bytes, c.2 ≠ erasedByte

/-! ### Reading -/

/-- The number of a granule in the array. -/
def granuleNumber (i : Sector) (g : Nat) : Nat := i.val * 512 + g

/-- A granule as a walk judges it: every byte 0FFH, a broken header, or an intact one (R3, R154).
A granule of payload bytes that are not all 0FFH is no intact header (log 30). -/
inductive GranuleRead where
  | erased
  | broken
  | header (h : RecHeader)
  deriving DecidableEq, Repr

/-- The header check matches the fields it covers: key, kind, version, payload length, payload check (R3). -/
def headerChecks (h : RecHeader) : Bool :=
  h.headerCheck == Config.headerCheck h.key h.kind h.version h.length h.check

/-- The tests of R3 beside the header check: length within 0 to 1024, and 0 for a TOMBSTONE. -/
def headerInRange (h : RecHeader) : Bool :=
  decide (h.length ≤ 1024) && (h.kind == .data || h.length == 0)

/-- An intact header (R3). -/
def headerIntact (h : RecHeader) : Bool := headerChecks h && headerInRange h

/-- What a READ of a granule shows (R3). -/
def readGranule (a : ArrayContents) (i : Sector) (g : Nat) : GranuleRead :=
  match cellAt (granuleNumber i g) a.recs with
  | some (.written h) => if headerIntact h then .header h else .broken
  | some (.broken _) => .broken
  | none =>
    if (readBytes (granuleAddress i g) 16 a.bytes).all (fun b => b == erasedByte) then .erased
    else .broken

/-- A byte of a header granule; one of its sixteen at least is not 0FFH (R3, log 5). -/
def headerByte (c : RecCell) (addr : Nat) : Byte :=
  let m := Config.cellMark c (addr / 16)
  if addr % 16 = m.1.val then byteOf m.2.val else Config.cellByte c addr

/-- The byte that the array shows at an address: of the header granule that stands there, or as listed (R139). -/
def shownByte (a : ArrayContents) (addr : Nat) : Byte :=
  match cellAt (addr / 16) a.recs with
  | some c => headerByte c addr
  | none => byteAt addr a.bytes

/-- The bytes that the array shows from an address on (R141). -/
def shownBytes (a : ArrayContents) (addr n : Nat) : List Byte :=
  (List.range n).map (fun k => shownByte a (addr + k))

/-- The payload bytes of a record of length L at a place. -/
def readPayload (a : ArrayContents) (p : Place) (L : Nat) : List Byte :=
  shownBytes a (payloadAddress p) L

/-- The header of a sector. -/
def sectorHeader (a : ArrayContents) (i : Sector) : SectorHeader := a.headers.get i

/-- The activation group where it is present and passes its check. A group with a field at 0 is none that an
activation writes: sequence, floor and base are 1 to 4,294,967,295 (R100), so its check fails (log 4). -/
def activationOf (h : SectorHeader) : Option Activation :=
  match h.activation with
  | .written g => if g.sequence = 0 ∨ g.floor = 0 ∨ g.base = 0 then none else some g
  | _ => none

/-- The class of a sector by its header, the first test of R101 that applies. -/
def classify (h : SectorHeader) : SectorState :=
  if h = SectorHeader.blank then .blank
  else
    match h.identity with
    | .erased => .unintelligible
    | .bad => .unintelligible
    | .written _ =>
      match h.mark with
      | none => if (activationOf h).isSome then .full else .unintelligible
      | some .active => if (activationOf h).isSome then .active else .unintelligible
      | some .full => if (activationOf h).isSome then .full else .unintelligible
      | some .draining => if (activationOf h).isSome then .draining else .unintelligible
      | some .erased => if h.activation = .erased then .erased else .unintelligible
      | some .discarded => .discarded
      | some .retired => .retired

/-! ### Programming -/

/-- The order of a record's states (R4). -/
def recRank : RecState → Nat
  | .allocated => 0
  | .valid => 1
  | .superseded => 2

/-- A record's state field moves forward, or keeps its value (R140). -/
def recReaches (old new : RecState) : Bool := decide (recRank old ≤ recRank new)

/-- The order of ERASED, ACTIVE, FULL and DRAINING; DISCARDED and RETIRED stand above (R100). -/
def markRank : SectorMark → Nat
  | .erased => 0
  | .active => 1
  | .full => 2
  | .draining => 3
  | .discarded => 4
  | .retired => 4

/-- A sector's state field moves forward, and to DISCARDED and RETIRED from every value (R140). -/
def markReaches (old new : SectorMark) : Bool :=
  old == new || (match new with
    | .discarded => true
    | .retired => true
    | _ => decide (markRank old < markRank new))

/-- A byte reaches the value it holds, and any value from 0FFH; only an erase returns it to 0FFH (R139,
R140). Whether it reaches a third value is the cell's (log 9). -/
def byteReaches (old new : Byte) : Bool := old == erasedByte || old == new || new != erasedByte

/-- The state field of a header granule. -/
def cellState : RecCell → Option RecState
  | .written h => h.state
  | .broken st => st

/-- A header granule with its state field replaced. -/
def cellWithState (st : Option RecState) : RecCell → RecCell
  | .written h => .written { h with state := st }
  | .broken _ => .broken st

/-- The state field of the header granule at a place. -/
def recStateAt (a : ArrayContents) (p : Place) : Option RecState :=
  (cellAt (granuleNumber p.sector p.granule) a.recs).bind cellState

/-- The number of the sector that an operation acts on. -/
def opSector : ArrayOp → Nat
  | .programHeader p _ => p.sector.val
  | .programState p _ => p.sector.val
  | .programBytes addr _ => addr / 8192
  | .programIdentity i _ => i.val
  | .programActivation i _ => i.val
  | .programMark i _ => i.val
  | .read i _ _ => i.val
  | .erase i => i.val

/-- No value asked for is known to be out of reach of programming (R140): a record header asks with its
other fields for the state ALLOCATED, which a VALID or SUPERSEDED record does not go back to. From a
state field that reads as none of its values, for the other fields of a header, and for header groups,
reach is the cell's (log 9). -/
def programReachable (a : ArrayContents) : ArrayOp → Bool
  | .programHeader p h =>
    (recStateAt a p).all (fun old => h.state.all (fun st => recReaches old st))
  | .programState p st => (recStateAt a p).all (fun old => recReaches old st)
  | .programMark i m => (sectorHeader a i).mark.all (fun old => markReaches old m)
  | .programActivation i _ => (sectorHeader a i).mark.all (fun old => markReaches old .active)
  | .programBytes addr bs =>
    (List.zip (shownBytes a addr bs.length) bs).all (fun c => byteReaches c.1 c.2)
  | _ => true

/-- Put a header granule at a place. -/
def putRec (a : ArrayContents) (p : Place) (c : RecCell) : ArrayContents :=
  { a with recs := putCell (granuleNumber p.sector p.granule) c a.recs }

/-- Program the state field of the granule at a place. Where no header stands, the granule then holds a
state field and nothing else of a header: a broken one (R3). -/
def putRecState (a : ArrayContents) (p : Place) (st : Option RecState) : ArrayContents :=
  putRec a p
    (((cellAt (granuleNumber p.sector p.granule) a.recs).map (cellWithState st)).getD (.broken st))

/-- Replace a sector's header. -/
def putHeader (a : ArrayContents) (i : Sector) (h : SectorHeader) : ArrayContents :=
  { a with headers := vset a.headers i h }

/-- A header granule as sixteen listed bytes: a header that is partly written over is a header no more. The
array shows the same bytes. -/
def dissolve (a : ArrayContents) (n : Nat) : ArrayContents :=
  match cellAt n a.recs with
  | some c =>
    { a with
      recs := dropCell n a.recs
      bytes := writeBytes (n * 16) ((List.range 16).map (fun k => headerByte c (n * 16 + k))) a.bytes }
  | none => a

/-- The granules of a span of n bytes. -/
def spanGranules (addr n : Nat) : List Nat :=
  if n = 0 then []
  else (List.range ((addr + n - 1) / 16 - addr / 16 + 1)).map (fun k => addr / 16 + k)

/-- Put payload bytes from an address on, over what stands there. -/
def putBytes (a : ArrayContents) (addr : Nat) (bs : List Byte) : ArrayContents :=
  let b := (spanGranules addr bs.length).foldl dissolve a
  { b with bytes := writeBytes addr bs b.bytes }

/-- A program whose every byte reads the value requested (R143). -/
def programPassed (a : ArrayContents) : ArrayOp → ArrayContents
  | .programHeader p h => putRec a p (.written h)
  | .programState p st => putRecState a p (some st)
  | .programBytes addr bs => putBytes a addr bs
  | .programIdentity i n => putHeader a i { sectorHeader a i with identity := .written n }
  | .programActivation i g =>
    putHeader a i { sectorHeader a i with activation := .written g, mark := some .active }
  | .programMark i m => putHeader a i { sectorHeader a i with mark := some m }
  | .read _ _ _ => a
  | .erase _ => a

/-- Every byte of the span reads the value requested (R143). -/
def programReads (a : ArrayContents) : ArrayOp → Bool
  | .programHeader p h => cellAt (granuleNumber p.sector p.granule) a.recs == some (.written h)
  | .programState p st => recStateAt a p == some st
  | .programBytes addr bs => shownBytes a addr bs.length == bs
  | .programIdentity i n => (sectorHeader a i).identity == .written n
  | .programActivation i g =>
    (sectorHeader a i).activation == .written g && (sectorHeader a i).mark == some .active
  | .programMark i m => (sectorHeader a i).mark == some m
  | .read _ _ _ => false
  | .erase _ => false

/-- A field after a program that asked it for a value: a field that held the value keeps it, and one that
cannot reach the value does not take it (R140). `torn` is the field reading as neither. -/
def settle {α : Type} [DecidableEq α] (old asked torn : α) (reaches : Bool) (l : FieldLeft) : α :=
  if old = asked then old
  else
    match l with
    | .old => old
    | .new => if reaches then asked else old
    | .neither => torn

/-- A byte after a program that left a value in it: programming never returns a byte to 0FFH (R139). -/
def settleByte (old left : Byte) : Byte := if byteReaches old left then left else old

/-- The bytes of a span from an address on after a program that left values in them. -/
def settleBytes (a : ArrayContents) (addr : Nat) (left : List Byte) : List Byte :=
  List.zipWith settleByte (shownBytes a addr left.length) left

/-- What a failed, stopped or cut-off payload program leaves in its span (R142). -/
def bytesLeft (a : ArrayContents) (addr : Nat) (bs : List Byte) : SpanLeft → ArrayContents
  | .new => putBytes a addr (settleBytes a addr bs)
  | .neither ls => putBytes a addr (settleBytes a addr (ls.take bs.length))
  | _ => a

/-- A record's state field after a program of it that did not run to a good end. -/
def stateLeft (a : ArrayContents) (p : Place) (st : RecState) (l : FieldLeft) : ArrayContents :=
  match l with
  | .old => a
  | .new => if (recStateAt a p).all (fun o => recReaches o st) then putRecState a p (some st) else a
  | .neither => if recStateAt a p = some st then a else putRecState a p none

/-- The granule of a record header after a program of it that did not run to a good end: a broken header,
its state field at its old value or at none (R3, log 4). -/
def headerLeft (a : ArrayContents) (p : Place) (l : FieldLeft) : ArrayContents :=
  putRec a p (.broken (if l = .neither then none else recStateAt a p))

/-- A sector's state field after a program of it that did not run to a good end. -/
def markLeft (old : Option SectorMark) (m : SectorMark) (l : FieldLeft) : Option SectorMark :=
  settle old (some m) none (old.all (fun o => markReaches o m)) l

/-- A program that failed its verify or was stopped at its timeout (R142, R143): a record header is
broken (R3), a header group fails its check (R100), a state field is at its old value, at the value
requested, or at neither. A SUPERSEDED program that fails leaves the earlier value (R4, log 6). A VALID
program that fails leaves no VALID record: of the mixtures that R142 names, R8 rules that one out
(DEDUCED, log 43). -/
def programFailed (a : ArrayContents) (left : SpanLeft) : ArrayOp → ArrayContents
  | .programHeader p _ => headerLeft a p left.mark
  | .programState _ .superseded => a
  | .programState p st => stateLeft a p st left.field.short
  | .programBytes addr bs => bytesLeft a addr bs left
  | .programIdentity i n =>
    let h := sectorHeader a i
    putHeader a i { h with identity := settle h.identity (.written n) .bad true .neither }
  | .programActivation i g =>
    let h := sectorHeader a i
    putHeader a i { h with
      activation := settle h.activation (.written g) .bad true .neither
      mark := markLeft h.mark .active left.mark }
  | .programMark i m =>
    let h := sectorHeader a i
    putHeader a i { h with mark := markLeft h.mark m left.field }
  | .read _ _ _ => a
  | .erase _ => a

/-- The outcome of a program that ends with its read-back: PASS where the span reads what was requested
already (R140), where every cell took its value and none was out of reach, or where what is left reads
so all the same (R143). -/
def programPasses (a : ArrayContents) (pass : Bool) (left : SpanLeft) (op : ArrayOp) : Bool :=
  programReads a op || ((pass || left.took) && programReachable a op) ||
    programReads (programFailed a left op) op

/-- A program cut off by a reset: each field at its old value, at the one requested, or at neither (R152); a
record header erased as it was, or broken (R42, R152). A VALID program that the reset finds with its
field at VALID is taken to have completed, in R42's and R47's words (DEDUCED, log 45). What R171 says of
a FORMAT's programs is `formatCut`. -/
def programCut (a : ArrayContents) (left : SpanLeft) : ArrayOp → ArrayContents
  | .programHeader p _ => if left.field = .old then a else headerLeft a p left.mark
  | .programState p st => stateLeft a p st left.field
  | .programBytes addr bs => bytesLeft a addr bs left
  | .programIdentity i n =>
    let h := sectorHeader a i
    putHeader a i { h with identity := settle h.identity (.written n) .bad true left.field }
  | .programActivation i g =>
    let h := sectorHeader a i
    putHeader a i { h with
      activation := settle h.activation (.written g) .bad true left.field
      mark := markLeft h.mark .active left.mark }
  | .programMark i m =>
    let h := sectorHeader a i
    putHeader a i { h with mark := markLeft h.mark m left.field }
  | .read _ _ _ => a
  | .erase _ => a

/-! ### Erasing -/

/-- A sector with every byte 0FFH (R144). -/
def eraseSector (a : ArrayContents) (i : Sector) : ArrayContents where
  headers := vset a.headers i SectorHeader.blank
  recs := a.recs.filter (fun c => c.1 / 512 != i.val)
  bytes := a.bytes.filter (fun c => c.1 / 8192 != i.val)

/-- A header granule of an image beside what stood there: no erase makes a record VALID that was not (R8;
DEDUCED, log 43). -/
def imageCell (old : Option RecCell) (c : RecCell) : RecCell :=
  if cellState c = some .valid ∧ old ≠ some c then cellWithState none c else c

/-- Record headers of an image, listed at their granules; `old` is what the sector held. -/
def installRecs (i : Sector) (old : List (Nat × RecCell)) :
    List (Nat × RecCell) → List (Nat × RecCell) → List (Nat × RecCell)
  | [], m => m
  | c :: cs, m =>
    let n := granuleNumber i c.1
    installRecs i old cs
      (if 1 ≤ c.1 ∧ c.1 ≤ 511 then putCell n (imageCell (cellAt n old) c.2) m else m)

/-- Payload bytes of an image, written at their offsets. -/
def installBytes (i : Sector) : List (Nat × Byte) → List Host.Cell → List Host.Cell
  | [], m => m
  | c :: cs, m =>
    installBytes i cs (if 16 ≤ c.1 ∧ c.1 < 8192 then writeByte (i.val * 8192 + c.1) c.2 m else m)

/-- A sector with an image's contents (R144). -/
def installImage (a : ArrayContents) (i : Sector) (img : SectorImage) : ArrayContents :=
  let e := eraseSector a i
  { headers := vset e.headers i img.header
    recs := installRecs i a.recs img.recs e.recs
    bytes := installBytes i img.bytes e.bytes }

/-- Every byte of a sector reads 0FFH (R144). -/
def sectorErased (a : ArrayContents) (i : Sector) : Bool :=
  decide (sectorHeader a i = SectorHeader.blank) && a.recs.all (fun c => c.1 / 512 != i.val) &&
    a.bytes.all (fun c => c.1 / 8192 != i.val)

/-- The outcome of an erase that ends with its blank check: PASS where every byte reads 0FFH (R144). -/
def erasePasses (a : ArrayContents) (pass : Bool) (left : SectorImage) (i : Sector) : Bool :=
  pass || sectorErased (installImage a i left) i

/-- A guarded group after a cut-off erase: the erased value is in every mixture of 0FFH with itself (R152). -/
def cutGroup {α : Type} : Cut → HeaderGroup α → HeaderGroup α
  | .kept, g => g
  | .erased, _ => .erased
  | .partly, .erased => .erased
  | .partly, _ => .bad

/-- A sector's state field after a cut-off erase; ERASED is its erased value (R100, R152). -/
def cutMark : Cut → Option SectorMark → Option SectorMark
  | .kept, m => m
  | .erased, _ => some .erased
  | .partly, some .erased => some .erased
  | .partly, _ => none

/-- A sector header after a cut-off erase. R152 names the classes that it is read as, BLANK, UNINTELLIGIBLE
or its old class; a mixture of another class has its identity group failing (DEDUCED, log 40). -/
def cutHeader (c : EraseCut) (h : SectorHeader) : SectorHeader :=
  let m : SectorHeader :=
    ⟨cutGroup c.identity h.identity, cutGroup c.activation h.activation, cutMark c.mark h.mark⟩
  if classify m = .blank ∨ classify m = .unintelligible ∨ classify m = classify h then m
  else { m with identity := .bad }

/-- A record header after a cut-off erase that reached it: erased, broken or torn (R152). -/
def cutCell : RecCut → RecCell → Option RecCell
  | .erased, _ => none
  | .broken kept, c => some (.broken (if kept then cellState c else none))
  | .torn, c => some (cellWithState none c)

/-- The record headers after a cut-off erase of a sector. -/
def cutRecs (i : Sector) (cuts : List (Nat × RecCut)) (m : List (Nat × RecCell)) :
    List (Nat × RecCell) :=
  m.filterMap (fun c =>
    if c.1 / 512 = i.val then
      match cellAt (c.1 % 512) cuts with
      | some k => (cutCell k c.2).map (fun x => (c.1, x))
      | none => some c
    else some c)

/-- A sector whose erase was cut off: a mixture of its old contents and 0FFH (R152). No byte is listed where
a header granule stood. -/
def cutErase (a : ArrayContents) (i : Sector) (c : EraseCut) : ArrayContents where
  headers := vset a.headers i (cutHeader c (sectorHeader a i))
  recs := cutRecs i c.recs a.recs
  bytes := a.bytes.filter (fun b => !(b.1 / 8192 == i.val &&
    (c.bytes.contains (b.1 % 8192) || (cellAt (b.1 / 16) a.recs).isSome)))

/-- A sector whose erase is suspended: a mixture of its old contents and 0FFH, with bytes of neither (R141). -/
def partlyErased (a : ArrayContents) (i : Sector) (u : UnderErase) : ArrayContents :=
  let c := cutErase a i u.cut
  { c with bytes := installBytes i u.others c.bytes }

end Sys2Proof.Machine
end

