-- ==== Sys2Proof/Machine/Operands.lean ====
section
/-! DEFINITION. The eighteen command codes, their frames and range checks, and the result codes
(10_command_execution, layouts; R1, R14, R18, R24, R25, R45, R56, R61, R69, R86, R117, R173). -/

namespace Sys2Proof.Machine

open Sys2Proof

/-- The eighteen port commands. -/
inductive Code where
  | fetch | probe | scan | putOpen | putCommit | putCancel | remove
  | leaseTake | leaseRenew | leaseDrop | watch | unwatch
  | storeQuery | storeTune | reclaim | format | nsSet | nsFreeze
  deriving DecidableEq, Repr

/-- The code byte of a command (frame layout table). -/
def codeByte : Code → Byte
  | .fetch => 0x10
  | .probe => 0x11
  | .scan => 0x12
  | .putOpen => 0x20
  | .putCommit => 0x21
  | .putCancel => 0x22
  | .remove => 0x23
  | .leaseTake => 0x30
  | .leaseRenew => 0x31
  | .leaseDrop => 0x32
  | .watch => 0x40
  | .unwatch => 0x41
  | .storeQuery => 0x50
  | .storeTune => 0x51
  | .reclaim => 0x52
  | .format => 0x53
  | .nsSet => 0x60
  | .nsFreeze => 0x61

/-- All eighteen. -/
def allCodes : List Code :=
  [.fetch, .probe, .scan, .putOpen, .putCommit, .putCancel, .remove, .leaseTake, .leaseRenew,
    .leaseDrop, .watch, .unwatch, .storeQuery, .storeTune, .reclaim, .format, .nsSet, .nsFreeze]

/-- The command that a code byte names, if it names one (R173, check 1). -/
def codeOf (b : Byte) : Option Code := allCodes.find? (fun c => codeByte c == b)

/-- The count of parameter bytes (frame layout table; R173, check 2). -/
def paramCount : Code → Nat
  | .fetch => 6
  | .probe => 3
  | .scan => 4
  | .putOpen => 10
  | .putCommit => 0
  | .putCancel => 0
  | .remove => 8
  | .leaseTake => 6
  | .leaseRenew => 5
  | .leaseDrop => 3
  | .watch => 3
  | .unwatch => 3
  | .storeQuery => 0
  | .storeTune => 1
  | .reclaim => 0
  | .format => 0
  | .nsSet => 5
  | .nsFreeze => 1

/-- The commands marked S (R173, check 3). -/
def supervisorOnly : Code → Bool
  | .storeTune => true
  | .reclaim => true
  | .format => true
  | .nsSet => true
  | .nsFreeze => true
  | _ => false

/-- The results of the result code table. -/
inductive Result where
  | ok | queued | notFound | exists_ | versionMismatch | lengthMismatch | noTransaction
  | transactionOpen | held | notHeld | already | tableFull | noNamespace | noAccess | quota
  | frozen | notSupervisor | storeFull | readOnly | mediaError | busy | indexFull
  | badCommand | badLength | badParam
  deriving DecidableEq, Repr

/-- The code byte of a result (result code table). -/
def resultByte : Result → Byte
  | .ok => 0x00
  | .queued => 0x01
  | .notFound => 0x10
  | .exists_ => 0x11
  | .versionMismatch => 0x12
  | .lengthMismatch => 0x13
  | .noTransaction => 0x14
  | .transactionOpen => 0x15
  | .held => 0x20
  | .notHeld => 0x21
  | .already => 0x22
  | .tableFull => 0x23
  | .noNamespace => 0x30
  | .noAccess => 0x31
  | .quota => 0x32
  | .frozen => 0x33
  | .notSupervisor => 0x34
  | .storeFull => 0x40
  | .readOnly => 0x41
  | .mediaError => 0x42
  | .busy => 0x43
  | .indexFull => 0x44
  | .badCommand => 0x50
  | .badLength => 0x51
  | .badParam => 0x52

/-- Checks 2 and 3 of R173 for a frame of a known code: length, then supervisor. -/
def frameRefusal (c : Code) (p : Port) (f : Frame) : Option Result :=
  if f.overLong || f.params.length != paramCount c then some .badLength
  else if supervisorOnly c && p != .A then some .notSupervisor
  else none

/-- The result for a frame whose code names no command (R173 check 1; R172 for an over-long one). -/
def unknownCode (f : Frame) : Result :=
  if f.overLong then (if Config.lengthBeforeCode then .badLength else .badCommand) else .badCommand

/-! ### Parameter fields -/

/-- The number in `n` parameter bytes from a position on, least significant first. -/
def param (f : Frame) (at_ n : Nat) : Nat := fromLE ((f.params.drop at_).take n)

/-- A namespace number, 0 to 7. -/
def nsIn (n : Nat) : Option (Fin 8) := if h : n < 8 then some ⟨n, h⟩ else none

/-- An id, 0 to 4095. -/
def idIn (n : Nat) : Option (Fin 4096) := if h : n < 4096 then some ⟨n, h⟩ else none

/-- The key in bytes 0 to 2 of a frame (R1). -/
def keyParam (f : Frame) : Option Key :=
  match nsIn (param f 0 1), idIn (param f 1 2) with
  | some ns, some id => some ⟨ns, id⟩
  | _, _ => none

/-- A condition byte and its version (R24). -/
def conditionIn (b v : Nat) : Option Condition :=
  match b with
  | 0 => some .none_
  | 1 => some .create
  | 2 => if v = 0 then none else some (.matching (BitVec.ofNat 32 v))
  | _ => none

/-- FETCH: key, offset at most 1024, count 1 to 240 (R14). -/
def fetchParams (f : Frame) : Option (Key × Nat × Nat) :=
  match keyParam f with
  | none => none
  | some k =>
    if param f 5 1 = 0 ∨ 240 < param f 5 1 ∨ 1024 < param f 3 2 then none
    else some (k, param f 3 2, param f 5 1)

/-- SCAN: namespace, start id, maximum 1 to 40 (R18). -/
def scanParams (f : Frame) : Option (Fin 8 × Nat × Nat) :=
  match nsIn (param f 0 1) with
  | none => none
  | some ns =>
    if 4095 < param f 1 2 ∨ param f 3 1 = 0 ∨ 40 < param f 3 1 then none
    else some (ns, param f 1 2, param f 3 1)

/-- PUT_OPEN: key, length at most 1024, condition (R25). -/
def putOpenParams (f : Frame) : Option (Key × Nat × Condition) :=
  match keyParam f, conditionIn (param f 5 1) (param f 6 4) with
  | some k, some c => if 1024 < param f 3 2 then none else some (k, param f 3 2, c)
  | _, _ => none

/-- REMOVE: key, condition NONE or MATCH (R45). -/
def removeParams (f : Frame) : Option (Key × Condition) :=
  match keyParam f, conditionIn (param f 3 1) (param f 4 4) with
  | some _, some .create => none
  | some k, some c => some (k, c)
  | _, _ => none

/-- LEASE_TAKE: key, duration not 0, wait byte 0 or 1 (R69). -/
def leaseTakeParams (f : Frame) : Option (Key × Nat × Bool) :=
  match keyParam f with
  | none => none
  | some k =>
    if param f 3 2 = 0 ∨ 1 < param f 5 1 then none else some (k, param f 3 2, param f 5 1 == 1)

/-- LEASE_RENEW: key, duration not 0 (R69). -/
def leaseRenewParams (f : Frame) : Option (Key × Nat) :=
  match keyParam f with
  | none => none
  | some k => if param f 3 2 = 0 then none else some (k, param f 3 2)

/-- WATCH and UNWATCH: namespace, and an id or 0FFFFH for ALL (R86). -/
def watchParams (f : Frame) : Option (Fin 8 × Option (Fin 4096)) :=
  match nsIn (param f 0 1) with
  | none => none
  | some ns =>
    if param f 1 2 = 0xFFFF then some (ns, none)
    else
      match idIn (param f 1 2) with
      | some id => some (ns, some id)
      | none => none

/-- STORE_TUNE: a low-water mark, 3 to 16 (R117). -/
def storeTuneParams (f : Frame) : Option Nat :=
  if param f 0 1 < 3 ∨ 16 < param f 0 1 then none else some (param f 0 1)

/-- A set byte: bits 3 to 0 name the ports, any higher bit is out of range (R56). -/
def portSetIn (n : Nat) : Option PortSet := if n < 16 then some (BitVec.ofNat 4 n) else none

/-- NS_SET: namespace, read set, write set, quota at most 2048 (R56). -/
def nsSetParams (f : Frame) : Option (Fin 8 × PortSet × PortSet × Nat) :=
  match nsIn (param f 0 1), portSetIn (param f 1 1), portSetIn (param f 2 1) with
  | some ns, some r, some w => if 2048 < param f 3 2 then none else some (ns, r, w, param f 3 2)
  | _, _, _ => none

/-- NS_FREEZE: namespace (R61). -/
def nsFreezeParams (f : Frame) : Option (Fin 8) := nsIn (param f 0 1)

end Sys2Proof.Machine
end

