-- ==== Sys2Proof/Machine/Ops.lean ====
section
/-! DEFINITION. The named operations over the state: ports and notice queues, leases, the Key Index
with the sector accounts, the store state, the array arbiter, the engine arbiter and responses. -/

namespace Sys2Proof.Machine

open Sys2Proof

/-! ### Ports -/

/-- One port's unit. -/
def Ports.get (ps : Ports) : Port → PortUnit
  | .A => ps.a
  | .B => ps.b
  | .C => ps.c
  | .D => ps.d

/-- One port's unit replaced. -/
def Ports.set (ps : Ports) (p : Port) (u : PortUnit) : Ports :=
  match p with
  | .A => { ps with a := u }
  | .B => { ps with b := u }
  | .C => { ps with c := u }
  | .D => { ps with d := u }

/-- Every port's unit changed in the same way. -/
def Ports.each (ps : Ports) (f : PortUnit → PortUnit) : Ports :=
  ⟨f ps.a, f ps.b, f ps.c, f ps.d⟩

/-- One port's unit. -/
def State.port (s : State) (p : Port) : PortUnit := s.ports.get p

/-- One port's unit replaced. -/
def State.setPort (s : State) (p : Port) (u : PortUnit) : State := { s with ports := s.ports.set p u }

/-- The Record Engine replaced. -/
def State.setEngine (s : State) (e : Engine) : State := { s with engine := e }

/-- The request RUNNING at the engine replaced. -/
def State.setJob (s : State) (j : EngineJob) : State := { s with engine := { s.engine with job := j } }

/-- The Lease Table replaced. -/
def State.setLeases (s : State) (l : List Lease) : State := { s with leases := l }

/-- The Watch Table replaced. -/
def State.setWatches (s : State) (w : List WatchEntry) : State := { s with watches := w }

/-- The Space Manager replaced. -/
def State.setSpace (s : State) (x : Space) : State := { s with space := x }

/-- The Drain Unit replaced. -/
def State.setDrain (s : State) (d : Drain) : State := { s with drain := d }

/-- The Array Controller replaced. -/
def State.setCtl (s : State) (c : Controller) : State := { s with ctl := c }

/-- The array's contents replaced. -/
def State.setArray (s : State) (a : ArrayContents) : State := { s with array := a }

/-! ### Notice queues (R93, R94, R95, R96, R98) -/

/-- The key of a CHANGED or DELETED notice: the kinds that coalesce (R93). -/
def changeKey : Notice → Option Key
  | .changed k _ => some k
  | .deleted k _ => some k
  | .granted _ => none
  | .lost _ => none

/-- An entry into which a change notice for a key coalesces. -/
def coalescesAt (k : Key) : NoticeEntry → Bool
  | .notice n => changeKey n == some k
  | .overflow _ => false

/-- The unopened entries: all of them, or all but the head once a byte of it has been read (R92). -/
def unopened (q : NoticeQueue) : List NoticeEntry :=
  if q.taken = 0 then q.entries else q.entries.drop 1

/-- The entries already opened: none, or the head. -/
def opened (q : NoticeQueue) : List NoticeEntry :=
  if q.taken = 0 then [] else q.entries.take 1

/-- The arriving notice coalesces (R93 case 1). -/
def coalesces (q : NoticeQueue) (n : Notice) : Bool :=
  match changeKey n with
  | some k => (unopened q).any (coalescesAt k)
  | none => false

/-- Replace the entry of a key by the arriving notice (R94). -/
def replaceChange (k : Key) (n : Notice) (es : List NoticeEntry) : List NoticeEntry :=
  es.map (fun e => if coalescesAt k e then .notice n else e)

/-- Place one notice by the first case of R93 that applies. -/
def placeNotice (q : NoticeQueue) (n : Notice) : NoticeQueue :=
  if coalesces q n then
    match changeKey n with
    | some k => { q with entries := opened q ++ replaceChange k n (unopened q) }
    | none => q
  else
    match q.entries.getLast? with
    | some (.overflow c) => { q with entries := q.entries.dropLast ++ [.overflow (min 255 (c + 1))] }
    | _ =>
      if q.entries.length < 15 then { q with entries := q.entries ++ [.notice n] }
      else if q.entries.length = 15 then { q with entries := q.entries ++ [.overflow 1] }
      else q

/-- A read of NOTICE takes one byte; the eighth removes the entry (R96). -/
def takeNoticeByte (q : NoticeQueue) : NoticeQueue :=
  match q.entries with
  | [] => q
  | _ :: es => if q.taken < 7 then { q with taken := q.taken + 1 } else ⟨es, 0⟩

/-- A notice arrives at a port; a port that is not PRESENT discards it (R98). -/
def notify (p : Port) (n : Notice) (s : State) : State :=
  if (s.port p).link = .present then
    s.setPort p { s.port p with queue := placeNotice (s.port p).queue n }
  else s

/-- Notices placed one after another. -/
def notifyAll : List (Port × Notice) → State → State
  | [], s => s
  | x :: xs, s => notifyAll xs (notify x.1 x.2 s)

/-! ### Leases (R63 to R83) -/

/-- The lease on a key. -/
def leaseOn (k : Key) (ls : List Lease) : Option Lease := ls.find? (fun l => l.key == k)

/-- The port stands in the waiter queue. -/
def waits (p : Port) (l : Lease) : Bool := l.waiters.any (fun w => w.port == p)

/-- The hold-and-wait count of a port: leases held plus waiter places (R65). -/
def holdCount (p : Port) (ls : List Lease) : Nat :=
  (ls.map (fun l => (if l.holder = p then 1 else 0) +
    (l.waiters.filter (fun w => w.port == p)).length)).sum

/-- Put a lease into the table in key order, in place of the lease on its key if there is one. -/
def putLease (x : Lease) : List Lease → List Lease
  | [] => [x]
  | l :: ls =>
    if keyCode x.key < keyCode l.key then x :: l :: ls
    else if x.key = l.key then x :: ls
    else l :: putLease x ls

/-- What becomes of one lease: kept in some form, or removed; and the notices it sends, in order. -/
abbrev LeaseFate := Option Lease × List (Port × Notice)

/-- The hold on a lease has ended: it passes to its head waiter, or is removed (R73). -/
def passLease (l : Lease) : LeaseFate :=
  match l.waiters with
  | [] => (none, [])
  | w :: ws => (some ⟨l.key, w.port, w.duration, ws⟩, [(w.port, .granted l.key)])

/-- Treat the leases one after another in ascending key order, each one whole (R59, R67, R80, R83). -/
def sweepLeases (f : Lease → LeaseFate) : List Lease → List Lease × List (Port × Notice)
  | [] => ([], [])
  | l :: ls =>
    let r := f l
    let t := sweepLeases f ls
    (match r.1 with
      | some l' => l' :: t.1
      | none => t.1, r.2 ++ t.2)

/-- A lease expires (R77). -/
def expireLease (l : Lease) : LeaseFate :=
  let r := passLease l
  (r.1, (l.holder, .lost l.key) :: r.2)

/-- A lease at a step of the timebase (R67). One at 1 ms expires, also where it was renewed to 1 ms just before
the step, or was passed by a LEASE_DROP to a waiter of duration 1: R67 says so of every lease at 1, where
R78 says that after a renewal taken first no expiry happens at this step, and after a drop taken first
none at all (DESIGN CHOICE, log 36). -/
def stepLease (l : Lease) : LeaseFate :=
  if l.remaining ≤ 1 then expireLease l else (some { l with remaining := l.remaining - 1 }, [])

/-- A lease of a port that is dropped by its teardown (R80). -/
def dropPortFromLease (p : Port) (l : Lease) : LeaseFate :=
  let l' := { l with waiters := l.waiters.filter (fun w => w.port != p) }
  if l.holder = p then passLease l' else (some l', [])

/-- A lease of a namespace from whose write set ports were dropped (R59). -/
def revokeLease (ns : Fin 8) (dropped : PortSet) (l : Lease) : LeaseFate :=
  if l.key.ns = ns then
    let gone := l.waiters.filter (fun w => hasPort dropped w.port)
    let l' := { l with waiters := l.waiters.filter (fun w => !hasPort dropped w.port) }
    let lost := gone.map (fun w => (w.port, Notice.lost l.key))
    if hasPort dropped l.holder then
      let r := passLease l'
      (r.1, lost ++ (l.holder, .lost l.key) :: r.2)
    else (some l', lost)
  else (some l, [])

/-- A lease dropped by a FORMAT: LEASE_LOST to its waiters in queue order, then to its holder (R83). -/
def dropLease (l : Lease) : LeaseFate :=
  (none, l.waiters.map (fun w => (w.port, Notice.lost l.key)) ++ [(l.holder, .lost l.key)])

/-- The Lease Unit carries out one sweep of its table and sends its notices. -/
def runLeases (f : Lease → LeaseFate) (s : State) : State :=
  let r := sweepLeases f s.leases
  notifyAll r.2 (s.setLeases r.1)

/-! ### Watches (R84, R88, R90) -/

/-- The number of entries a port owns (R84). -/
def watchCount (p : Port) (ws : List WatchEntry) : Nat := (ws.filter (fun w => w.port == p)).length

/-- An entry matches a key (R90). -/
def watchMatches (k : Key) (w : WatchEntry) : Bool :=
  w.ns == k.ns && (w.target == none || w.target == some k.id)

/-- The ports a change event is routed to: not its originator, owning a matching entry (R90); a port
that is not PRESENT discards the notice, which R90 does not even send. -/
def watchers (origin : Port) (k : Key) (ws : List WatchEntry) : List Port :=
  allPorts.filter (fun p => p != origin && ws.any (fun w => w.port == p && watchMatches k w))

/-- Route one change event: one notice to each port of R90, A to D within the step. R90 gives the ports no
order and lets a host read its notice before another port's has arrived (DESIGN CHOICE, log 47). -/
def routeChange (origin : Port) (k : Key) (n : Notice) (s : State) : State :=
  notifyAll ((watchers origin k s.watches).map (fun p => (p, n))) s

/-! ### The Key Index and the sector accounts (R9 to R12, R103, R120) -/

/-- The entry of a key. -/
def entryOf (k : Key) (ix : List IndexEntry) : Option IndexEntry := ix.find? (fun e => e.key == k)

/-- Put an entry in key order, in place of the key's entry if there is one (R9). -/
def putEntry (x : IndexEntry) : List IndexEntry → List IndexEntry
  | [] => [x]
  | e :: es =>
    if keyCode x.key < keyCode e.key then x :: e :: es
    else if x.key = e.key then x :: es
    else e :: putEntry x es

/-- Remove a key's entry (R10, purge). -/
def dropEntry (k : Key) (ix : List IndexEntry) : List IndexEntry := ix.filter (fun e => e.key != k)

/-- The number of entries in use (R12). -/
def entriesUsed (ix : List IndexEntry) : Nat := ix.length

/-- The number of PRESENT entries (R12). -/
def presentCount (ix : List IndexEntry) : Nat :=
  (ix.filter (fun e => e.presence == .present)).length

/-- The number of a namespace's PRESENT entries (R12). -/
def presentIn (ns : Fin 8) (ix : List IndexEntry) : Nat :=
  (ix.filter (fun e => e.presence == .present && e.key.ns == ns)).length

/-- The granules of an entry's record (R2). -/
def entrySize (e : IndexEntry) : Nat := recordSize e.length

/-- A record of the Sector Table. -/
def Space.rec_ (x : Space) (i : Sector) : SectorRecord := x.sectors.get i

/-- A record of the Sector Table replaced. -/
def Space.setRec (x : Space) (i : Sector) (r : SectorRecord) : Space :=
  { x with sectors := vset x.sectors i r }

/-- The index points at a place: its granules become live (R103). -/
def Space.enliven (x : Space) (i : Sector) (n : Nat) : Space :=
  x.setRec i { x.rec_ i with live := (x.rec_ i).live + n, dead := (x.rec_ i).dead - n }

/-- The index leaves a place: its granules become dead (R103). -/
def Space.deaden (x : Space) (i : Sector) (n : Nat) : Space :=
  x.setRec i { x.rec_ i with live := (x.rec_ i).live - n, dead := (x.rec_ i).dead + n }

/-- A RETIRED sector that is not on the Evacuation List joins its tail while it holds fewer than 8 (R112,
R120). A sector whose evacuation has ended, or that found no room when it was retired, is listed when the
index is pointed at a record of it that was still in flight and the list has room: R120's third case,
against R133's 'not listed again in this session', and against the 'stays off the list for the session' of
R112 and R120 (DESIGN CHOICE, log 38). -/
def Space.listRetired (x : Space) (i : Sector) : Space :=
  if (x.rec_ i).state = .retired ∧ 0 < (x.rec_ i).live ∧ ¬ x.evacuation.contains i ∧
      x.evacuation.length < 8 then
    { x with evacuation := x.evacuation ++ [i] }
  else x

/-- The accounts follow a change of one entry: the place left, if any, becomes dead, the place
pointed at becomes live, and its sector is listed if it is RETIRED (R11, R103, R120). -/
def Space.repoint (x : Space) (old : Option IndexEntry) (e : IndexEntry) : Space :=
  let x1 := match old with
    | some o => x.deaden o.place.sector (entrySize o)
    | none => x
  (x1.enliven e.place.sector (entrySize e)).listRetired e.place.sector

/-- Point the index at a record, with the accounts, in one step (R11). -/
def pointEntry (e : IndexEntry) (s : State) : State :=
  { s with
    engine := { s.engine with index := putEntry e s.engine.index }
    space := s.space.repoint (entryOf e.key s.engine.index) e }

/-- The pool: the ERASED sectors that no activation has taken (R105). -/
def Space.inPool (x : Space) (i : Sector) : Bool :=
  (x.rec_ i).state == .erased &&
    (match x.activation with
      | some a => a.sector != i
      | none => true)

/-- The sectors of the pool. -/
def Space.pool (x : Space) : List Sector := allSectors.filter x.inPool

/-- The sectors in a table state. -/
def Space.sectorsIn (x : Space) (st : SectorState) : List Sector :=
  allSectors.filter (fun i => (x.rec_ i).state == st)

/-- The ACTIVE sector (R102). -/
def Space.activeSector (x : Space) : Option Sector := (x.sectorsIn .active).head?

/-- The number of RETIRED sectors (R112). -/
def Space.retiredCount (x : Space) : Nat := (x.sectorsIn .retired).length

/-- The first sector of a list that no other is better than. -/
def bestOf (better : Sector → Sector → Bool) : List Sector → Option Sector
  | [] => none
  | i :: is =>
    match bestOf better is with
    | none => some i
    | some j => if better j i then some j else some i

/-! ### The store state (R113, R114, R115) -/

/-- The store state changes and STORE_CHANGE is latched in every PRESENT port (R115). -/
def changeStore (st : StoreState) (cause : Option Cause) (s : State) : State :=
  { s with
    space := { s.space with store := st, cause := cause }
    ports := s.ports.each (fun u =>
      if u.link = .present then { u with latched := { u.latched with storeChange := true } } else u) }

/-- A read-only cause is reported: it makes a READY store READ_ONLY and is recorded (R114). -/
def reportCause (c : Cause) (s : State) : State :=
  if s.space.store = .ready then changeStore .readOnly (some c) s else s

/-! ### The array arbiter (R146 to R149) -/

/-- An ERASE. -/
def isErase : ArrayOp → Bool
  | .erase _ => true
  | _ => false

/-- A requester's place. -/
def Controller.place (c : Controller) : Requester → Option ArrayRequest
  | .engine => c.engine
  | .drain => c.drain

/-- A requester's place replaced. -/
def Controller.setPlace (c : Controller) (r : Requester) (x : Option ArrayRequest) : Controller :=
  match r with
  | .engine => { c with engine := x }
  | .drain => { c with drain := x }

/-- The READ or PROGRAM in service, and its requester. -/
def Controller.serving (c : Controller) : Option (Requester × ArrayOp) :=
  match c.engine, c.drain with
  | some ⟨op, true⟩, d =>
    if isErase op then
      match d with
      | some ⟨op', true⟩ => if isErase op' then none else some (.drain, op')
      | _ => none
    else some (.engine, op)
  | _, some ⟨op', true⟩ => if isErase op' then none else some (.drain, op')
  | _, _ => none

/-- A place whose request waits; `short`: only a READ or PROGRAM counts. -/
def waitsIn (short : Bool) : Option ArrayRequest → Bool
  | some ⟨op, false⟩ => !(short && isErase op)
  | _ => false

/-- The requester whose waiting request is next: the engine's first (R147). -/
def Controller.nextWaiting (c : Controller) (short : Bool) : Option Requester :=
  if waitsIn short c.engine then some .engine
  else if waitsIn short c.drain then some .drain
  else none

/-- Start a requester's waiting request; an ERASE starts with active time and count 0 (R148). -/
def Controller.start (c : Controller) (r : Requester) : Controller :=
  match c.place r with
  | none => c
  | some q =>
    let c1 := c.setPlace r (some ⟨q.op, true⟩)
    match q.op with
    | .erase i => { c1 with erase := some ⟨r, i, 0, 0, false, false⟩ }
    | _ => c1

/-- The array takes its next request, if it can take one: R147 when it is free, R148 while an erase
runs, R149 within a suspension, at whose end the erase resumes. An erase stopped at 120 ms of active
time is not suspended any more (R144). -/
def Controller.run (c : Controller) : Controller :=
  match c.serving with
  | some _ => c
  | none =>
    match c.erase with
    | none =>
      match c.nextWaiting false with
      | some r => c.start r
      | none => c
    | some e =>
      match c.nextWaiting true with
      | none => { c with erase := some { e with suspended := false } }
      | some r =>
        if e.suspended then c.start r
        else if e.count < 64 ∧ e.active < 120 then
          Controller.start
            { c with
              erase := some { e with suspended := true, count := e.count + 1, shown := false } } r
        else c

/-- The array arbiter takes its next request. -/
def arbitrate (s : State) : State := s.setCtl s.ctl.run

/-- A requester issues a request into its place (R146); `arbitrate` starts it. -/
def issue (r : Requester) (op : ArrayOp) (s : State) : State :=
  s.setCtl (s.ctl.setPlace r (some ⟨op, false⟩))

/-- An operation's outcome is reported: its place becomes empty, and the requester goes on. Where the
requester's next request comes with the end, either is taken first (R147, R149). -/
def afterOutcome (r : Requester) (arrivalFirst : Bool) (go : State → State) (s : State) : State :=
  let s1 := s.setCtl (s.ctl.setPlace r none)
  let s2 := if arrivalFirst then s1 else arbitrate s1
  arbitrate (go s2)

/-- The sector under erase, where what it now holds is not known: its erase runs, or nothing has been
programmed into it in this suspension. -/
def Controller.unseen (c : Controller) : Option Sector :=
  match c.erase with
  | some e => if e.suspended && e.shown then none else some e.sector
  | none => none

/-- What a READ of a sector sees: its contents, or while an erase of it is in progress whatever it then
shows (R141), with what was programmed into it in the same suspension (R150; DESIGN CHOICE, log 8). -/
def viewOf (s : State) (i : Sector) (seen : SectorImage) : ArrayContents :=
  if s.ctl.unseen = some i then installImage s.array i seen else s.array

/-- What a PROGRAM meets: the array's contents, or in a sector under erase the erase's partial contents
(R150): old contents, 0FFH and values of neither (R141; DESIGN CHOICE, log 8). -/
def metBy (s : State) (op : ArrayOp) (under : UnderErase) : ArrayContents :=
  match s.ctl.unseen with
  | some i => if opSector op = i.val then partlyErased s.array i under else s.array
  | none => s.array

/-- A PROGRAM into the sector under erase has ended: until the erase resumes, the array's contents are what
the sector shows (R150). -/
def Controller.noteProgram (c : Controller) (op : ArrayOp) : Controller :=
  { c with erase := c.erase.map (fun e =>
      { e with shown := e.shown || decide (opSector op = e.sector.val) }) }

/-! ### The engine arbiter, grants and responses (R173, R177 to R180) -/

/-- The engine is free: no request RUNNING, and the store READY or READ_ONLY (R177). -/
def engineFree (s : State) : Bool :=
  s.engine.job == .idle && (s.space.store == .ready || s.space.store == .readOnly) && !s.resetLow

/-- What the arbiter grants. -/
inductive Grant where
  | teardown (p : Port)
  | drain
  | command (p : Port)
  deriving DecidableEq, Repr

/-- The arbiter's choice while the engine is free: teardowns by lowest port, then the Drain Unit's
request, then the port commands from the pointer on (R177, R178). -/
def granted (s : State) : Option Grant :=
  if engineFree s then
    match allPorts.find? (fun p => (s.port p).link == .teardown) with
    | some p => some (.teardown p)
    | none =>
      match s.drain.request with
      | some _ => some .drain
      | none =>
        match (portsFrom s.engine.pointer).find? (fun p => (s.port p).mailbox.state == .waiting) with
        | some p => some (.command p)
        | none => none
  else none

/-- A port command is granted: its mailbox becomes RUNNING and the pointer names the next port (R178, R179). -/
def toRunning (p : Port) (s : State) : State :=
  let t := s.setPort p { s.port p with mailbox := { (s.port p).mailbox with state := .running } }
  t.setEngine { t.engine with pointer := nextPort p }

/-- A response is ready: it is placed and the mailbox becomes DONE when the port's generation is the
one recorded at the grant, and is discarded otherwise (R180). -/
def respond (p : Port) (gen : Byte) (bytes : List Byte) (s : State) : State :=
  if (s.port p).generation = gen then
    s.setPort p { s.port p with mailbox := ⟨.done, ⟨0, [], false⟩, bytes⟩ }
  else s

/-- A command completed in the step of its grant answers a result with its fields (R176, R179). -/
def reply (p : Port) (r : Result) (fields : List Byte) (s : State) : State :=
  respond p (s.port p).generation (resultByte r :: fields) s

/-- The grant of port p's frame as command c: the arbiter must choose that port now, and the frame's
code must be c's, or no command's at all, which is answered by check 1 of R173 (log 2). Checks 2 and
3 follow, and then the command's own procedure. Otherwise the part takes no such step (log 1).
A command that uses no array operation is DONE within this step (R179), so that a CMD write just after
it discards the response and latches RESPONSE_LOST (R184), where R187 says that a grant and a CMD
write latch COLLISION in either order (DESIGN CHOICE, log 41). -/
def grantCommand (c : Code) (p : Port) (procedure : Frame → State → State) (s : State) : State :=
  if granted s = some (.command p) then
    let f := (s.port p).mailbox.frame
    match codeOf f.code with
    | none => reply p (unknownCode f) [] (toRunning p s)
    | some c' =>
      if c' = c then
        match frameRefusal c p f with
        | some r => reply p r [] (toRunning p s)
        | none => procedure f (toRunning p s)
      else s
  else s

/-- The right a command needs (R52). -/
inductive Right where
  | read | write | none_
  deriving DecidableEq, Repr

/-- An entry of the Namespace Table. -/
def nsEntry (s : State) (ns : Fin 8) : NsEntry := s.engine.names.get ns

/-- Checks 6 of R173: NO_NAMESPACE, then NO_ACCESS (R51, R52). -/
def accessRefusal (right : Right) (ns : Fin 8) (p : Port) (s : State) : Option Result :=
  let e := nsEntry s ns
  if e.state = .undefined then some .noNamespace
  else
    match right with
    | .read => if hasPort e.readers p then none else some .noAccess
    | .write => if hasPort e.writers p then none else some .noAccess
    | .none_ => none

/-- Store-state gating for the four commands that READ_ONLY refuses (R175). -/
def gateRefusal (s : State) : Option Result :=
  if s.space.store = .readOnly then some .readOnly else none

/-- The HELD check: a port other than p holds the lease on a key (R26, R29, R45, R76). -/
def heldByOther (p : Port) (k : Key) (s : State) : Option Result :=
  match leaseOn k s.leases with
  | some l => if l.holder = p then none else some .held
  | none => none

/-- A condition against a key's entry (R24). -/
def conditionRefusal (c : Condition) (e : Option IndexEntry) : Option Result :=
  match c, e with
  | .none_, _ => none
  | .create, some e => if e.presence = .present then some .exists_ else none
  | .create, none => none
  | .matching _, none => some .notFound
  | .matching v, some e =>
    if e.presence = .present then (if e.version = v then none else some .versionMismatch)
    else some .notFound

/-- The first check of a list that refuses. -/
def firstRefusal : List (Option Result) → Option Result
  | [] => none
  | some r :: _ => some r
  | none :: cs => firstRefusal cs

/-- A command whose checks come in order: the first refusal is the answer, the result byte alone. -/
def checked (p : Port) (checks : List (Option Result)) (go : State → State) (s : State) : State :=
  match firstRefusal checks with
  | some r => reply p r [] s
  | none => go s

end Sys2Proof.Machine
end

