-- ==== Sys2Proof/Machine/Space.lean ====
section
/-! DEFINITION. The Space Manager's procedures and the start of a drain pass: allocation in the ACTIVE
sector, the choice from the pool, taking a sector for activation, retirement, reclaim
considerations and the choice of work (R104 to R116, R121 to R124, R130). -/

namespace Sys2Proof.Machine

open Sys2Proof

/-! ### Considerations and the start of a pass -/

/-- A sector counts for the purge of tombstones (R130). -/
def countsForPurge (x : Space) (i : Sector) : Bool :=
  ((x.rec_ i).state == .active || (x.rec_ i).state == .full || (x.rec_ i).state == .draining ||
      (x.rec_ i).state == .retired) &&
    (match (x.rec_ i).sequence with
      | some q => decide (x.formatBase ≤ q)
      | none => false)

/-- Purge permitted for a pass over a sector: no purge hold, and no other counted sector has a lower
activation sequence (R130). A sector without a sequence has no tombstone to purge (log 26). -/
def purgeAllowed (s : State) (i : Sector) : Bool :=
  !s.drain.purgeHold &&
    (match (s.space.rec_ i).sequence with
      | none => false
      | some own =>
        allSectors.all (fun j => j == i || !countsForPurge s.space j ||
          (match (s.space.rec_ j).sequence with
            | some q => decide (own ≤ q)
            | none => true)))

/-- A pass begins (R123, R124): its kind, its sector, the walk at granule 1, purge permitted decided. -/
def beginPass (kind : DrainState) (i : Sector) (phase : DrainPhase) (op : ArrayOp) (s : State) : State :=
  issue .drain op (s.setDrain { s.drain with
    state := kind, sector := some i, pos := 1, copy := none,
    purgePermitted := purgeAllowed s i, request := none, phase := phase })

/-- An evacuation pass starts (R124). -/
def startEvacuation (i : Sector) (s : State) : State :=
  beginPass .evacuating i .header (.read i 1 1) s

/-- A reclaim pass starts: a FULL victim is marked DRAINING first (R123). -/
def startReclaim (i : Sector) (s : State) : State :=
  if (s.space.rec_ i).state = .draining then beginPass .reclaiming i .header (.read i 1 1) s
  else beginPass .reclaiming i .mark (.programMark i .draining) s

/-- The activation sequence of a sector, 0 where it is absent. -/
def sequenceOf (x : Space) (i : Sector) : Word32 := (x.rec_ i).sequence.getD 0

/-- The DRAINING sector of lowest activation sequence (R122, case 2). -/
def oldestDraining (x : Space) : Option Sector :=
  bestOf (fun a b => decide (sequenceOf x a < sequenceOf x b)) (x.sectorsIn .draining)

/-- The FULL sectors with at least one dead granule (R122, case 3; R138). -/
def reclaimable (x : Space) : List Sector :=
  (x.sectorsIn .full).filter (fun i => decide (0 < (x.rec_ i).dead))

/-- The victim: most dead granules, then lowest activation sequence (R122, case 3). -/
def victimOf (x : Space) : Option Sector :=
  bestOf (fun a b => decide ((x.rec_ b).dead < (x.rec_ a).dead) ||
      ((x.rec_ a).dead == (x.rec_ b).dead && decide (sequenceOf x a < sequenceOf x b)))
    (reclaimable x)

/-- The choice of work, the first case of R122 that applies; `always` leaves out the comparison with
the low-water mark (R138). -/
def chooseWork (always : Bool) (s : State) : State :=
  match s.space.evacuation with
  | i :: _ => startEvacuation i s
  | [] =>
    if s.space.store = .ready then
      match oldestDraining s.space with
      | some i => startReclaim i s
      | none =>
        if always || decide (s.space.pool.length ≤ s.space.lowWater) then
          match victimOf s.space with
          | some i => startReclaim i s
          | none => s
        else s
    else s

/-- A reclaim consideration reaches the Drain Unit (R121). -/
def consider (s : State) : State :=
  if s.drain.state = .idle then
    match s.space.store with
    | .mounting => s.setDrain { s.drain with pendingConsideration := true }
    | .formatting => s.setDrain { s.drain with pendingConsideration := true }
    | .ready => if s.space.noSpace then s else chooseWork false s
    | .readOnly => if s.space.noSpace then s else chooseWork false s
  else s

/-- The store leaves MOUNTING or FORMATTING: STORE_CHANGE is latched, and the pending consideration,
one with the one that READY brings, is taken in the step (R121, R163, R169). -/
def leaveHold (st : StoreState) (cause : Option Cause) (s : State) : State :=
  let due := s.drain.pendingConsideration || st == .ready
  let t := changeStore st cause s
  let u := t.setDrain { t.drain with pendingConsideration := false }
  if due then consider u else u

/-! ### Retirement -/

/-- A sector is retired in the table (R112): RETIRED, listed for evacuation when it holds live granules
and the list has room, RETIRE_LIMIT reported at 8, a consideration. -/
def retireInTable (i : Sector) (s : State) : State :=
  let x := (s.space.setRec i { s.space.rec_ i with state := .retired }).listRetired i
  let t := s.setSpace x
  let u := if 8 ≤ x.retiredCount then reportCause .retireLimit t else t
  consider u

/-- A failure names a sector: it is retired and RETIRED is programmed on the requester's behalf, which
goes on when that program has ended (`wait`); a sector already RETIRED changes nothing (`go`; R112, log 12). -/
def retireThen (r : Requester) (i : Sector) (wait go : State → State) (s : State) : State :=
  if (s.space.rec_ i).state = .retired then go s
  else wait (issue r (.programMark i .retired) (retireInTable i s))

/-! ### Allocation and activation -/

/-- The pool size a class needs for an activation (R107). -/
def poolNeeded : AllocClass → Nat
  | .commit => 3
  | .remove => 2
  | .drain => 1

/-- The pool's next sector: lowest erase count, then lowest number (R105). -/
def poolNext (x : Space) : Option Sector :=
  bestOf (fun a b => decide ((x.rec_ a).eraseCount < (x.rec_ b).eraseCount)) x.pool

/-- The sector an activation may take: the pool meets the threshold and the activation counter is not
exhausted (R107, R110). -/
def activatable (needed : Nat) (x : Space) : Option Sector :=
  if x.actSpent then none else if needed ≤ x.pool.length then poolNext x else none

/-- The requester on whose behalf an activation programs (R108, R161, R168). -/
def activationRequester : ActivationFor → Requester
  | .request r => r
  | .mount => .engine
  | .format => .engine

/-- A sector is taken from the pool and its activation program issued: it takes the activation
counter's value, the commit counter as floor, and the current format base or, where that is 0 or
for a FORMAT, its own sequence as base (R108, R110, R160, R168). The sector's leaving the pool is a
consideration (R105). -/
def takeForActivation (purpose : ActivationFor) (i : Sector) (s : State) : State :=
  let q := s.space.actCounter
  let base := if purpose = .format ∨ s.space.formatBase = 0 then q else s.space.formatBase
  let g : Activation := ⟨q, s.engine.counter, base⟩
  let n := advance q
  let t := s.setSpace { s.space with
    actCounter := n.1, actSpent := s.space.actSpent || n.2,
    activation := some ⟨purpose, i, g, .program⟩ }
  let u := if n.2 then reportCause .counterLimit t else t
  issue (activationRequester purpose) (.programActivation i g) (consider u)

/-- A sector becomes FULL: its remainder is dead (R103, R108). -/
def closeSector (i : Sector) (x : Space) : Space :=
  let r := x.rec_ i
  x.setRec i { r with state := .full, dead := r.dead + (511 - r.pointer), pointer := 511 }

/-- The step in which an activation program passes: the new sector ACTIVE with write pointer 0, the one
shown ACTIVE at that moment FULL, the format base set where it was open (R108, R160, R168). -/
def activated (a : ActivationJob) (x : Space) : Space :=
  let x1 := match x.activeSector with
    | some old => closeSector old x
    | none => x
  let r := x1.rec_ a.sector
  { x1.setRec a.sector { r with
      state := .active, sequence := some a.group.sequence, pointer := 0, live := 0, dead := 0 } with
    formatBase := if a.purpose = .format ∨ x.formatBase = 0 then a.group.sequence else x.formatBase }

/-- Room of n granules in a sector: the place above its write pointer (R106, R103). -/
def allocateIn (i : Sector) (n : Nat) (x : Space) : Place × Space :=
  let r := x.rec_ i
  (⟨i, r.pointer + 1⟩, x.setRec i { r with pointer := r.pointer + n, dead := r.dead + n })

/-- A requester's outstanding allocation request. -/
def Space.alloc (x : Space) : Requester → Option AllocRequest
  | .engine => x.allocEngine
  | .drain => x.allocDrain

/-- A requester's outstanding allocation request replaced. -/
def Space.setAlloc (x : Space) (r : Requester) (q : Option AllocRequest) : Space :=
  match r with
  | .engine => { x with allocEngine := q }
  | .drain => { x with allocDrain := q }

/-- The erase count after one more erase: it saturates at 16,777,215 (R104). -/
def nextCount (n : EraseCount) : EraseCount := ⟨min (n.val + 1) 16777215, by omega⟩

/-- The identity program of an erased sector passes: ERASED, no sequence, empty accounts, in the pool (R104). -/
def joinPool (i : Sector) (count : EraseCount) (x : Space) : Space :=
  x.setRec i ⟨.erased, count, none, 0, 0, 0⟩

/-- A sector whose erase has passed is not activated since its last erase (R102, log 24). -/
def dropSequence (i : Sector) (x : Space) : Space :=
  x.setRec i { x.rec_ i with sequence := none }

end Sys2Proof.Machine
end

