-- ==== Sys2Proof/Machine/Format.lean ====
section
/-! DEFINITION. FORMAT after its grant: start, mark, erase, activate and end (R164 to R169). -/

namespace Sys2Proof.Machine

open Sys2Proof

/-- The FORMAT's next phase. -/
def formatPhase (ph : FormatPhase) (s : State) : State :=
  match s.engine.job with
  | .format p gen _ => s.setJob (.format p gen ph)
  | _ => s

/-- The end phase: the store state decided, then the response (R169). -/
def formatEnd (s : State) : State :=
  let x := s.space
  let cause :=
    if 8 ≤ x.retiredCount then some Cause.retireLimit
    else if s.engine.counterSpent || x.actSpent then some Cause.counterLimit
    else none
  match s.engine.job with
  | .format p gen _ =>
    let t := s.setJob .idle
    let u := leaveHold (if cause = none then .ready else .readOnly) cause
      (t.setSpace { t.space with noSpace := false })
    respond p gen [resultByte .ok, byteOf x.retiredCount] u
  | _ => s

/-- The activate phase: a pool sector with its own sequence as base, or none (R168). -/
def formatActivate (s : State) : State :=
  match activatable 1 s.space with
  | some i => formatPhase .activate (takeForActivation .format i s)
  | none => formatEnd s

/-- The erase phase from a sector number on (R167). -/
def formatErase (k : Nat) (s : State) : State :=
  match (s.space.sectorsIn .discarded).find? (fun i => decide (k ≤ i.val)) with
  | some i => formatPhase (.erase i) (issue .engine (.erase i) s)
  | none => formatActivate s

/-- The table states that the mark phase marks (R166). -/
def marked (st : SectorState) : Bool :=
  st == .active || st == .full || st == .draining || st == .discarded

/-- The mark phase from a sector number on (R166). -/
def formatMark (k : Nat) (s : State) : State :=
  match allSectors.find? (fun i => decide (k ≤ i.val) && marked (s.space.rec_ i).state) with
  | some i => formatPhase (.mark i) (issue .engine (.programMark i .discarded) s)
  | none => formatErase 0 s

/-- An OPEN transaction becomes NONE with staged count 0 (R21). -/
def closeOpenTxn (u : PortUnit) : PortUnit :=
  if u.txn.state = .open_ then { u with txn := { u.txn with state := .none_, staged := 0 } } else u

/-- Every live granule of a sector becomes dead (R11, R165). -/
def allDead (r : SectorRecord) : SectorRecord := { r with live := 0, dead := r.pointer }

/-- The start phase once the abandonment has been taken, in one step (R165), and the first mark. -/
def formatStart (s : State) : State :=
  let s1 := runLeases dropLease s
  let s2 := { s1 with ports := s1.ports.each closeOpenTxn }
  let s3 := s2.setEngine { s2.engine with index := [] }
  let s4 := s3.setSpace { s3.space with sectors := s3.space.sectors.map allDead, evacuation := [] }
  formatMark 0 s4

/-- The FORMAT waits for the Drain Unit's abandonment. -/
def abandoning (s : State) : Bool :=
  match s.engine.job with
  | .format _ _ .abandon => true
  | _ => false

/-- The Drain Unit takes its abandonment: IDLE, nothing in hand, its request withdrawn, the list
emptied, purge hold no (R119, R137); the start phase goes on. A pass that ends so brings the
consideration that the end of every pass is, and with it those the pass had absorbed; it is pending
(R116, R121; DESIGN CHOICE, log 37). -/
def takeAbandonment (s : State) : State :=
  let due := s.drain.pendingConsideration || s.drain.state != .idle
  let s1 := s.setDrain ⟨.idle, none, 1, none, false, false, due, none, .none_⟩
  let s2 := s1.setSpace { s1.space with evacuation := [], allocDrain := none, activation := none }
  formatStart s2

/-- An engine program of the FORMAT ends (R166, R167). -/
def formatProgram (ph : FormatPhase) (ok : Bool) (s : State) : State :=
  match ph with
  | .mark i =>
    formatMark (i.val + 1)
      (s.setSpace (s.space.setRec i { s.space.rec_ i with state := .discarded }))
  | .identity i =>
    if ok then
      formatErase (i.val + 1) (s.setSpace (joinPool i (nextCount (s.space.rec_ i).eraseCount) s.space))
    else retireThen .engine i (formatPhase (.retire i)) (formatErase (i.val + 1)) s
  | .retire i => formatErase (i.val + 1) s
  | _ => s

/-- The accounts of a sector that is retired with 0 live granules keep its write pointer (R112). -/
def formatErased (i : Sector) (ok : Bool) (s : State) : State :=
  if ok then
    formatPhase (.identity i)
      (issue .engine (.programIdentity i (nextCount (s.space.rec_ i).eraseCount))
        (s.setSpace (dropSequence i s.space)))
  else retireThen .engine i (formatPhase (.retire i)) (formatErase (i.val + 1)) s

/-- The FORMAT's grant (R164, R165): the store FORMATTING, NO_SPACE ended (log 25), and the abandonment
taken at once when the Drain Unit has no array operation outstanding (R137). -/
def formatGrant (p : Port) (s : State) : State :=
  let t := changeStore .formatting none (s.setJob (.format p (s.port p).generation .abandon))
  let u := t.setSpace { t.space with noSpace := false }
  match u.ctl.drain with
  | none => takeAbandonment u
  | some _ => u

end Sys2Proof.Machine
end

