-- ==== Sys2Proof/Machine/DrainPass.lean ====
section
/-! DEFINITION. A drain pass after its start: the walk, copies, relocation answers, purges, the end of a
pass and its failures (R125 to R135). -/

namespace Sys2Proof.Machine

open Sys2Proof

/-- The Drain Unit goes on with its pass, unless a FORMAT waits for its abandonment: then the operation
that has ended leads to nothing further (R137). -/
def drainGo (go : State → State) (s : State) : State :=
  if abandoning s then takeAbandonment s else go s

/-- The Drain Unit's next phase. -/
def drainPhase (ph : DrainPhase) (s : State) : State := s.setDrain { s.drain with phase := ph }

/-- The pass ends: IDLE, no drain sector, no copy in hand; its end is a consideration (R132, R133). -/
def passEnd (s : State) : State :=
  consider (s.setDrain { s.drain with
    state := .idle, sector := none, pos := 1, copy := none, purgePermitted := false,
    request := none, phase := .none_ })

/-- The walk ends: a victim without live granules is erased, one with live granules is retired (R132);
an evacuated sector leaves the list (R133). -/
def walkEnd (i : Sector) (s : State) : State :=
  match s.drain.state with
  | .reclaiming =>
    if (s.space.rec_ i).live = 0 then drainPhase .erase (issue .drain (.erase i) s)
    else retireThen .drain i (drainPhase .retireVictim) passEnd s
  | .evacuating => passEnd (s.setSpace { s.space with evacuation := s.space.evacuation.erase i })
  | .idle => s

/-- The walk comes to a position: past the write pointer it ends, else the granule is read (R125). -/
def walkTo (pos : Nat) (s : State) : State :=
  match s.drain.sector with
  | none => s
  | some i =>
    if (s.space.rec_ i).pointer < pos then walkEnd i s
    else issue .drain (.read i pos 1)
      (s.setDrain { s.drain with pos := pos, copy := none, phase := .header })

/-- The walk's READ of one granule ends (R125). Erased granules and broken headers are passed over one
by one; a VALID record is copied, or purged where that is permitted. -/
def drainHeader (g : GranuleRead) (s : State) : State :=
  match s.drain.sector with
  | none => s
  | some i =>
    if (s.space.rec_ i).pointer < s.drain.pos then walkEnd i s
    else
      match g with
      | .header h =>
        if h.state = some .valid then
          if h.kind = .tombstone ∧ s.drain.purgePermitted = true then
            s.setDrain { s.drain with
              request := some (.purge h.key ⟨i, s.drain.pos⟩), phase := .answer (recordSize h.length) }
          else
            issue .drain (.read i s.drain.pos (recordSize h.length))
              (s.setDrain { s.drain with
                copy := some ⟨h.key, h.kind, h.version, h.length, h.check, ⟨i, s.drain.pos⟩, [], none, 1⟩
                phase := .record })
        else walkTo (s.drain.pos + recordSize h.length) s
      | .erased => walkTo (s.drain.pos + 1) s
      | .broken => walkTo (s.drain.pos + 1) s

/-- Room of class DRAIN is asked for the copy in hand (R126, step 2; R134). -/
def askRoom (c : Copy) (s : State) : State :=
  let t := s.setDrain { s.drain with copy := some c, phase := .room }
  t.setSpace { t.space with allocDrain := some ⟨recordSize c.length, .drain⟩ }

/-- The READ of the whole record ends (R126, step 1). -/
def drainRecord (bytes : List Byte) (s : State) : State :=
  match s.drain.copy with
  | some c => askRoom { c with bytes := bytes } s
  | none => s

/-- Room has been given: the copy's header is programmed, its version and payload check the source's and its
header check computed anew (R126, step 3). -/
def drainRoom (at_ : Place) (s : State) : State :=
  match s.drain.copy with
  | some c =>
    issue .drain (.programHeader at_ (checkedHeader c.key c.kind c.version c.length c.check .allocated))
      (s.setDrain { s.drain with copy := some { c with place := some at_ }, phase := .copyHeader })
  | none => s

/-- The next payload piece of the copy, or its VALID program (R126, steps 4 and 5). -/
def copyNext (at_ : Place) (pieces : List (Nat × List Byte)) (s : State) : State :=
  match pieces with
  | (a, bs) :: rest => issue .drain (.programBytes a bs) (drainPhase (.copyPayload rest) s)
  | [] => issue .drain (.programState at_ .valid) (drainPhase .copyValid s)

/-- After a failed copy's sector has been retired: a second attempt, or the pass is abandoned (R134). -/
def afterCopyFailure (s : State) : State :=
  match s.drain.copy with
  | some c => if c.attempt = 1 then askRoom { c with attempt := 2, place := none } s else passEnd s
  | none => passEnd s

/-- A DRAIN allocation is refused: NO_SPACE is reported and the pass stops (R107, R135). -/
def drainRefused (s : State) : State :=
  passEnd (reportCause .noSpace (s.setSpace { s.space with noSpace := true }))

/-- A RELOCATE or PURGE has been answered and dealt with: the walk moves past the source (R125, R129). -/
def walkPast (size : Nat) (s : State) : State :=
  walkTo (s.drain.pos + size) (s.setDrain { s.drain with copy := none, request := none })

/-- RELOCATE is answered STALE: the copy is programmed SUPERSEDED (R129). -/
def staleCopy (copy : Place) (size : Nat) (s : State) : State :=
  issue .drain (.programState copy .superseded)
    (s.setDrain { s.drain with request := none, phase := .stale size })

/-- A Drain Unit program of a pass ends (R123, R126, R129, R132, R134). -/
def drainProgram (ok : Bool) (s : State) : State :=
  match s.drain.phase, s.drain.sector, s.drain.copy with
  | .mark, some i, _ =>
    if ok then
      drainGo (walkTo 1) (s.setSpace (s.space.setRec i { s.space.rec_ i with state := .draining }))
    else retireThen .drain i (drainPhase .retireVictim) (drainGo passEnd) s
  | .copyHeader, _, some c =>
    match c.place with
    | some at_ =>
      if ok then drainGo (copyNext at_ (payloadPieces at_ c.bytes)) s
      else retireThen .drain at_.sector (drainPhase .retireCopy) (drainGo afterCopyFailure) s
    | none => s
  | .copyPayload rest, _, some c =>
    match c.place with
    | some at_ =>
      if ok then drainGo (copyNext at_ rest) s
      else retireThen .drain at_.sector (drainPhase .retireCopy) (drainGo afterCopyFailure) s
    | none => s
  | .copyValid, _, some c =>
    match c.place with
    | some at_ =>
      if ok then
        drainGo (fun t => t.setDrain { t.drain with
          request := some (.relocate c.key c.source at_ (recordSize c.length))
          phase := .answer (recordSize c.length) }) s
      else retireThen .drain at_.sector (drainPhase .retireCopy) (drainGo afterCopyFailure) s
    | none => s
  | .stale size, _, _ =>
    let t := if ok then s
      else s.setDrain { s.drain with purgeHold := true, purgePermitted := false }
    drainGo (walkPast size) t
  | .retireCopy, _, _ => drainGo afterCopyFailure s
  | .identity, some i, _ =>
    if ok then
      drainGo passEnd (s.setSpace (joinPool i (nextCount (s.space.rec_ i).eraseCount) s.space))
    else retireThen .drain i (drainPhase .retireVictim) (drainGo passEnd) s
  | .retireVictim, _, _ => drainGo passEnd s
  | _, _, _ => s

/-- The victim's ERASE ends (R132). -/
def drainErased (ok : Bool) (s : State) : State :=
  match s.drain.phase, s.drain.sector with
  | .erase, some i =>
    if ok then
      drainGo (fun t => drainPhase .identity
          (issue .drain (.programIdentity i (nextCount (t.space.rec_ i).eraseCount)) t))
        (s.setSpace (dropSequence i s.space))
    else retireThen .drain i (drainPhase .retireVictim) (drainGo passEnd) s
  | _, _ => s

end Sys2Proof.Machine
end

