-- ==== Sys2Proof/Machine/WritePath.lean ====
section
/-! DEFINITION. A commit or a remove after its checks, a FETCH after its READ, and a RELOCATE after its
SUPERSEDED program (R15, R31 to R39, R41, R46, R47, R128). -/

namespace Sys2Proof.Machine

open Sys2Proof

/-- The write's next form. -/
def putWrite (j : WriteJob) (s : State) : State := s.setJob (.write j)

/-- Room is asked for an attempt of a write (R31, R38, R46). -/
def writeRoom (j : WriteJob) (s : State) : State :=
  let cls := if j.tombstone then AllocClass.remove else AllocClass.commit
  let t := putWrite { j with phase := .room } s
  t.setSpace { t.space with allocEngine := some ⟨recordSize j.length, cls⟩ }

/-- The payload of a write: the staging buffer's positions 0 to L - 1; none for a tombstone (R23, R32, R44). -/
def writeBytesOf (j : WriteJob) (s : State) : List Byte :=
  if j.tombstone then [] else (s.port j.port).buffer.toList.take j.length

/-- The header of a write's record (R32, R44). -/
def writeHeader (j : WriteJob) (v : Word32) (s : State) : RecHeader :=
  checkedHeader j.key (if j.tombstone then .tombstone else .data) v j.length
    (Config.payloadCheck (writeBytesOf j s)) .allocated

/-- Room has been given: the version is taken from the commit counter, which advances or is exhausted
(R6, R7, R32), and the header is programmed. -/
def writeRoomGiven (j : WriteJob) (at_ : Place) (s : State) : State :=
  let v := s.engine.counter
  let n := advance v
  let t := s.setEngine { s.engine with counter := n.1, counterSpent := s.engine.counterSpent || n.2 }
  let u := if n.2 then reportCause .counterLimit t else t
  issue .engine (.programHeader at_ (writeHeader j v s))
    (putWrite { j with place := at_, version := v, phase := .header } u)

/-- The next payload piece of a write, or its VALID program (R33, R34). -/
def writeNext (j : WriteJob) (pieces : List (Nat × List Byte)) (s : State) : State :=
  match pieces with
  | (a, bs) :: rest => issue .engine (.programBytes a bs) (putWrite { j with phase := .payload rest } s)
  | [] => issue .engine (.programState j.place .valid) (putWrite { j with phase := .valid } s)

/-- The transaction of a port becomes NONE with staged count 0 (R20). -/
def closeTxn (p : Port) (s : State) : State :=
  let u := s.port p
  s.setPort p { u with txn := { u.txn with state := .none_, staged := 0 } }

/-- A write ends: its transaction closes (a REMOVE has none), its response is placed or discarded, and
the engine is free (R37, R39, R41, R46, R180). -/
def writeEnd (j : WriteJob) (bytes : List Byte) (s : State) : State :=
  let t := if j.tombstone then s else closeTxn j.port s
  respond j.port j.gen bytes (t.setJob .idle)

/-- The write is answered OK with its version (R37, R46). -/
def writeOk (j : WriteJob) (s : State) : State :=
  writeEnd j (resultByte .ok :: le32 j.version.toNat) s

/-- The first allocation of a write is refused: STORE_FULL; a commit's transaction returns to OPEN,
unless its port has begun a teardown (R31, R41, R46). -/
def writeStoreFull (j : WriteJob) (s : State) : State :=
  let u := s.port j.port
  if j.tombstone = false ∧ u.generation = j.gen then
    let t := s.setPort j.port { u with txn := { u.txn with state := .open_ } }
    respond j.port j.gen [resultByte .storeFull] (t.setJob .idle)
  else writeEnd j [resultByte .storeFull] s

/-- The write fails for good (R39, R47). -/
def writeMediaError (j : WriteJob) (s : State) : State := writeEnd j [resultByte .mediaError] s

/-- After the failed record's sector has been retired: one retry, unless the counter is exhausted
(R38, R39, R47). -/
def writeAfterFailure (j : WriteJob) (s : State) : State :=
  if j.attempt = 1 ∧ s.engine.counterSpent = false then writeRoom { j with attempt := 2 } s
  else writeMediaError j s

/-- An allocation of a write is refused (R31, R39, R46, R47). -/
def writeRefused (j : WriteJob) (s : State) : State :=
  if j.attempt = 1 then writeStoreFull j s else writeMediaError j s

/-- The entry a write makes current (R34, R46). -/
def writeEntry (j : WriteJob) : IndexEntry :=
  ⟨j.key, if j.tombstone then .deleted else .present, j.place, j.length, j.version⟩

/-- The notice of a write's change event (R35, R46, R89). -/
def writeNotice (j : WriteJob) : Notice :=
  if j.tombstone then .deleted j.key j.version else .changed j.key j.version

/-- The commit point: the VALID program has passed. In one step the index moves, the accounts follow, and
the change event is routed; then the old record is superseded, or the write is answered (R34 to R37, R46). -/
def commitPoint (j : WriteJob) (s : State) : State :=
  let old := entryOf j.key s.engine.index
  let t := routeChange j.port j.key (writeNotice j) (pointEntry (writeEntry j) s)
  match old with
  | some e => issue .engine (.programState e.place .superseded) (putWrite { j with phase := .supersede } t)
  | none => writeOk j t

/-- An engine program of a write ends (R33, R34, R36, R38). A failed SUPERSEDED program of the old record
sets no purge hold: R36 gives it no consequence, and R119 names R129 and R158 alone, though its words
would cover it (DESIGN CHOICE, log 35). -/
def writeProgram (j : WriteJob) (ok : Bool) (s : State) : State :=
  let failed := retireThen .engine j.place.sector (putWrite { j with phase := .retire })
    (writeAfterFailure j) s
  match j.phase with
  | .header => if ok then writeNext j (payloadPieces j.place (writeBytesOf j s)) s else failed
  | .payload rest => if ok then writeNext j rest s else failed
  | .valid => if ok then commitPoint j s else failed
  | .supersede => writeOk j s
  | .retire => writeAfterFailure j s
  | .room => s

/-- The tests of a FETCH over what it read: the header intact and of the entry's key and version, and the
payload check matching (R15). -/
def fetchPasses (e : IndexEntry) (g : GranuleRead) (bytes : List Byte) : Bool :=
  match g with
  | .header h =>
    h.key == e.key && h.version == e.version && decide (Config.payloadCheck bytes = h.check)
  | _ => false

/-- A FETCH's READ ends: the response (R15). -/
def fetchDone (j : FetchJob) (g : GranuleRead) (bytes : List Byte) (s : State) : State :=
  let t := s.setJob .idle
  if fetchPasses j.entry g bytes then
    respond j.port j.gen
      (resultByte .ok :: le32 j.entry.version.toNat ++ le16 j.entry.length ++
        (bytes.drop j.offset).take (min j.count (j.entry.length - j.offset))) t
  else respond j.port j.gen [resultByte .mediaError] t

/-- The SUPERSEDED program of an applied relocation's source ends, however it ends: the engine answers
APPLIED and is free, and the walk goes on (R128, R129). -/
def relocateDone (s : State) : State :=
  let t := s.setJob .idle
  match t.drain.phase with
  | .answer size => walkPast size t
  | _ => t

end Sys2Proof.Machine
end

