-- ==== Sys2Proof/Machine/Mount.lean ====
section
/-! DEFINITION. The mount procedure's seven phases (R153 to R163). -/

namespace Sys2Proof.Machine

open Sys2Proof

/-- The mount's next form. -/
def putMount (j : MountJob) (s : State) : State := s.setJob (.mount j)

/-! ### The walk of R154 -/

/-- Where a walk goes after the granule it has read. -/
def Walk.move (w : Walk) (g : GranuleRead) : Walk :=
  match g with
  | .header h => { w with pos := w.pos + recordSize h.length, mode := .normal }
  | .erased =>
    { w with
      pos := w.pos + 1
      mode := match w.mode with
        | .normal => .gap w.pos
        | m => m }
  | .broken =>
    { w with
      pos := w.pos + 1
      mode := match w.mode with
        | .broken b => .broken b
        | _ => .broken w.pos }

/-- The walk has passed granule 511 and ends. -/
def Walk.over_ (w : Walk) : Bool := decide (511 < w.pos)

/-- Whether an ended walk ended at a broken header. -/
def Walk.endedBroken (w : Walk) : Bool :=
  match w.mode with
  | .broken _ => true
  | _ => false

/-- The last granule of the sector's records, as an ended walk found it. -/
def Walk.recordsEnd (w : Walk) : Nat :=
  match w.mode with
  | .gap start => start - 1
  | _ => 511

/-- The walk's next READ (R154). -/
def walkRead (w : Walk) (s : State) : State := issue .engine (.read w.sector w.pos 1) s

/-- A walk at the start of a sector. -/
def Walk.atStart (i : Sector) : Walk := ⟨i, 1, .normal⟩

/-! ### Phases 5 to 7, last first -/

/-- Store state: the end of the mount (R163). -/
def mountEnd (s : State) : State :=
  let x := s.space
  let cause :=
    if 8 ≤ x.retiredCount then some Cause.retireLimit
    else if x.noSpace then some Cause.noSpace
    else if s.engine.counterSpent || x.actSpent then some Cause.counterLimit
    else none
  leaveHold (if cause = none then .ready else .readOnly) cause (s.setJob .idle)

/-- Drain work: the RETIRED sectors with live granules are listed, up to 8 (R162). -/
def mountDrainWork (s : State) : State :=
  let l := (s.space.sectorsIn .retired).filter (fun i => decide (0 < (s.space.rec_ i).live))
  mountEnd (s.setSpace { s.space with evacuation := l.take 8 })

/-- Active sector, when no sector is ACTIVE: an activation with the threshold of class DRAIN, or none (R161). -/
def mountActivate (j : MountJob) (s : State) : State :=
  match activatable 1 s.space with
  | some i => putMount { j with phase := .activate } (takeForActivation .mount i s)
  | none =>
    if s.space.pool.isEmpty then mountDrainWork (s.setSpace { s.space with noSpace := true })
    else mountDrainWork s

/-- Surplus ACTIVE sectors become FULL one after another, in ascending sector number: the spec gives no
order among them (R161; DESIGN CHOICE, log 39). -/
def mountSurplus (j : MountJob) (l : List Sector) (s : State) : State :=
  match l with
  | [] => mountDrainWork s
  | i :: rest =>
    putMount { j with phase := .surplus rest }
      (issue .engine (.programMark i .full) (s.setSpace (closeSector i s.space)))

/-- Active sector (R161). -/
def mountActive (j : MountJob) (s : State) : State :=
  let l := s.space.sectorsIn .active
  match bestOf (fun a b => decide (sequenceOf s.space b < sequenceOf s.space a)) l with
  | none => mountActivate j s
  | some top => mountSurplus j (l.filter (fun i => i != top)) s

/-! ### Counters (R160) -/

/-- A counter set above the largest value found, or exhausted at it. -/
def counterAbove (largest : Word32) : Word32 × Bool := advance largest

/-- Counters (R160). R6 never gives a version again; one that no intact header and no floor shows is given
again here, as R155 and R160 have it (DESIGN CHOICE, log 46). -/
def mountCounters (j : MountJob) (s : State) : State :=
  let c := counterAbove (maxWord j.survey.version j.survey.floor)
  let a := counterAbove j.survey.sequence
  let t := s.setEngine { s.engine with counter := c.1, counterSpent := c.2 }
  mountActive j (t.setSpace { t.space with
    actCounter := a.1, actSpent := a.2, formatBase := j.survey.base })

/-! ### Record scan (R157 to R159) -/

/-- The live granules of a sector: the sizes of the records the index points at within it (R159). -/
def liveIn (ix : List IndexEntry) (i : Sector) : Nat :=
  ((ix.filter (fun e => e.place.sector == i)).map entrySize).sum

/-- The write pointer of a sector at the end of the scan: where its walk found the end of its records, and 0
for a sector that was not walked (R159). -/
def pointerFound (ends : List (Sector × Nat)) (i : Sector) : Nat :=
  match ends.find? (fun e => e.1 == i) with
  | some e => e.2
  | none => 0

/-- The accounts of every sector at the end of the scan (R159). -/
def fillAccounts (ends : List (Sector × Nat)) (ix : List IndexEntry) (x : Space) : Space :=
  { x with
    sectors := Vector.ofFn (fun i =>
      { x.rec_ i with
        pointer := pointerFound ends i
        live := liveIn ix i
        dead := pointerFound ends i - liveIn ix i }) }

/-- The scan comes to its next sector, or has ended (R157, R159). -/
def scanNext (j : MountJob) (rest : List Sector) (s : State) : State :=
  match rest with
  | [] => mountCounters j (s.setSpace (fillAccounts j.ends s.engine.index s.space))
  | i :: is => putMount { j with phase := .scan (.atStart i) is } (walkRead (.atStart i) s)

/-- A sector's walk has ended: the end of its records is noted for the scan's end, and an ACTIVE sector whose
walk ended at a broken header is closed (R157, R159). -/
def sectorScanned (j : MountJob) (w : Walk) (rest : List Sector) (s : State) : State :=
  let r := s.space.rec_ w.sector
  let j' := { j with
    ends := (w.sector, if r.state = .active then w.recordsEnd else 511) :: j.ends }
  if r.state = .active ∧ w.endedBroken then
    putMount { j' with phase := .scanClose rest }
      (issue .engine (.programMark w.sector .full)
        (s.setSpace (s.space.setRec w.sector { r with state := .full })))
  else scanNext j' rest s

/-- The scan's walk goes on at its next position, or its sector has ended. -/
def scanOn (j : MountJob) (w : Walk) (rest : List Sector) (s : State) : State :=
  if w.over_ then sectorScanned j w rest s
  else putMount { j with phase := .scan w rest } (walkRead w s)

/-- The entry a scanned record makes (R158). -/
def scannedEntry (h : RecHeader) (at_ : Place) : IndexEntry :=
  ⟨h.key, if h.kind = .tombstone then .deleted else .present, at_, h.length, h.version⟩

/-- A VALID record is offered to the index (R158). -/
def offerRecord (j : MountJob) (h : RecHeader) (at_ : Place) (w : Walk) (rest : List Sector)
    (s : State) : State :=
  let enter (t : State) : State :=
    t.setEngine { t.engine with index := putEntry (scannedEntry h at_) t.engine.index }
  let supersede (loser : Place) (hold : Bool) (t : State) : State :=
    putMount { j with phase := .scanSupersede w rest hold }
      (issue .engine (.programState loser .superseded) t)
  match entryOf h.key s.engine.index with
  | none => if entriesUsed s.engine.index < 2048 then scanOn j w rest (enter s) else scanOn j w rest s
  | some e =>
    if h.version < e.version then supersede at_ true s
    else supersede e.place false (enter s)

/-- The scan has read a granule (R157). -/
def scanRead (j : MountJob) (w : Walk) (rest : List Sector) (g : GranuleRead) (s : State) : State :=
  match g with
  | .header h =>
    if h.state = some .valid then offerRecord j h ⟨w.sector, w.pos⟩ (w.move g) rest s
    else scanOn j (w.move g) rest s
  | _ => scanOn j (w.move g) rest s

/-! ### Header repair (R156) -/

/-- What header repair does to a sector by its class: whether it erases, and the erase count given. -/
def repairOf (v : Survey) (x : Space) (i : Sector) : Option (Bool × EraseCount) :=
  let r := x.rec_ i
  let stale := match r.sequence with
    | some q => decide (q < v.base)
    | none => true
  match r.state with
  | .blank => some (false, v.count)
  | .discarded => some (true, nextCount r.eraseCount)
  | .unintelligible => some (true, nextCount v.count)
  | .active => if stale then some (true, nextCount r.eraseCount) else none
  | .full => if stale then some (true, nextCount r.eraseCount) else none
  | .draining => if stale then some (true, nextCount r.eraseCount) else none
  | .erased => none
  | .retired => none
  | .unknown => none

/-- The identity program of header repair. -/
def repairIdentity (j : MountJob) (i : Sector) (count : EraseCount) (s : State) : State :=
  putMount { j with phase := .repairIdentity i count } (issue .engine (.programIdentity i count) s)

/-- Header repair from a sector number on, then the record scan (R156). -/
def repairFrom (j : MountJob) (k : Nat) (s : State) : State :=
  match allSectors.find? (fun i => decide (k ≤ i.val) && (repairOf j.survey s.space i).isSome) with
  | none => scanNext j j.scans s
  | some i =>
    match repairOf j.survey s.space i with
    | some (true, _) => putMount { j with phase := .repairErase i } (issue .engine (.erase i) s)
    | some (false, n) => repairIdentity j i n s
    | none => s

/-- A sector that fails in header repair is retired (R156). -/
def repairFailed (j : MountJob) (i : Sector) (s : State) : State :=
  retireThen .engine i (putMount { j with phase := .repairRetire i }) (repairFrom j (i.val + 1)) s

/-- Header repair's ERASE ends (R156). -/
def repairErased (j : MountJob) (i : Sector) (ok : Bool) (s : State) : State :=
  if ok then
    match repairOf j.survey s.space i with
    | some (_, n) => repairIdentity j i n (s.setSpace (dropSequence i s.space))
    | none => s
  else repairFailed j i s

/-! ### Survey (R155) -/

/-- A sector is stale (R155). -/
def isStale (v : Survey) (r : SectorRecord) : Bool :=
  match r.sequence with
  | some q => decide (q < v.base)
  | none => true

/-- The sectors the record scan walks (R157). -/
def isScanned (v : Survey) (r : SectorRecord) : Bool :=
  (r.state == .active || r.state == .full || r.state == .draining || r.state == .retired) &&
    !isStale v r

/-- Insert a sector in ascending activation sequence, behind those of its own sequence. -/
def insertBySequence (x : Space) (i : Sector) : List Sector → List Sector
  | [] => [i]
  | k :: ks =>
    if sequenceOf x i < sequenceOf x k then i :: k :: ks else k :: insertBySequence x i ks

/-- The scanned sectors in ascending activation sequence (R157). -/
def scanOrder (v : Survey) (x : Space) : List Sector :=
  (allSectors.filter (fun i => isScanned v (x.rec_ i))).foldl
    (fun acc i => insertBySequence x i acc) []

/-- The survey has ended: the scan's order is settled, and header repair begins (R155, R156). -/
def surveyEnd (j : MountJob) (s : State) : State :=
  repairFrom { j with scans := scanOrder j.survey s.space } 0 s

/-- The survey's walks (R155). -/
def surveyNext (j : MountJob) (rest : List Sector) (s : State) : State :=
  match rest with
  | [] => surveyEnd j s
  | i :: is => putMount { j with phase := .surveyWalk (.atStart i) is } (walkRead (.atStart i) s)

/-- The sectors the survey walks: every class but BLANK and ERASED (R155). They are walked in ascending
sector number: the spec gives no order among the walks (DESIGN CHOICE, log 42). -/
def surveyed (x : Space) : List Sector :=
  allSectors.filter (fun i => (x.rec_ i).state != .blank && (x.rec_ i).state != .erased)

/-- A survey walk has read a granule: the largest version in an intact header is noted (R155). The
version of a broken header is not, which R6 would never give again (DESIGN CHOICE, log 46). -/
def surveyRead (j : MountJob) (w : Walk) (rest : List Sector) (g : GranuleRead) (s : State) : State :=
  let v := match g with
    | .header h => maxWord j.survey.version h.version
    | _ => j.survey.version
  let j' := { j with survey := { j.survey with version := v } }
  let w' := w.move g
  if w'.over_ then surveyNext j' rest s
  else putMount { j' with phase := .surveyWalk w' rest } (walkRead w' s)

/-- The survey's quantities after one more header (R155). -/
def surveyTake (v : Survey) (h : SectorHeader) : Survey :=
  let c := classify h
  let based := c == .active || c == .full || c == .draining || c == .discarded || c == .retired
  let count := match h.identity with
    | .written n => max v.count n
    | _ => v.count
  match activationOf h with
  | some g =>
    ⟨if based then maxWord v.base g.base else v.base, count, maxWord v.sequence g.sequence,
      maxWord v.floor g.floor, v.version⟩
  | none => { v with count := count }

/-- What the survey enters into the Sector Table (R155). -/
def surveyRecord (h : SectorHeader) : SectorRecord where
  state := classify h
  eraseCount := match h.identity with
    | .written n => n
    | _ => 0
  sequence := (activationOf h).map Activation.sequence
  pointer := 0
  live := 0
  dead := 0

/-- The survey has read a sector's header (R155). -/
def surveyHeader (j : MountJob) (i : Sector) (h : SectorHeader) (s : State) : State :=
  let t := s.setSpace (s.space.setRec i (surveyRecord h))
  let j' := { j with survey := surveyTake j.survey h }
  if hi : i.val + 1 < 128 then
    putMount { j' with phase := .surveyHeader ⟨i.val + 1, hi⟩ }
      (issue .engine (.read ⟨i.val + 1, hi⟩ 0 1) t)
  else surveyNext j' (surveyed t.space) t

/-! ### The ends of the mount's operations -/

/-- A READ of the mount ends; the view is what the array shows. -/
def mountRead (j : MountJob) (view : ArrayContents) (s : State) : State :=
  match j.phase with
  | .surveyHeader i => surveyHeader j i (sectorHeader view i) s
  | .surveyWalk w rest => surveyRead j w rest (readGranule view w.sector w.pos) s
  | .scan w rest => scanRead j w rest (readGranule view w.sector w.pos) s
  | _ => s

/-- A PROGRAM of the mount ends (R156 to R158, R161). -/
def mountProgram (j : MountJob) (ok : Bool) (s : State) : State :=
  match j.phase with
  | .repairIdentity i n =>
    if ok then repairFrom j (i.val + 1) (s.setSpace (joinPool i n s.space)) else repairFailed j i s
  | .repairRetire i => repairFrom j (i.val + 1) s
  | .scanSupersede w rest hold =>
    scanOn j w rest
      (if hold && !ok then s.setDrain { s.drain with purgeHold := true } else s)
  | .scanClose rest => scanNext j rest s
  | .surplus rest => mountSurplus j rest s
  | _ => s

/-- An ERASE of the mount ends (R156). -/
def mountErased (j : MountJob) (ok : Bool) (s : State) : State :=
  match j.phase with
  | .repairErase i => repairErased j i ok s
  | _ => s

end Sys2Proof.Machine
end

