-- ==== Sys2Proof/Machine/Allocation.lean ====
section
/-! DEFINITION. Allocation requests taken by the Space Manager and the course of an activation (R106 to
R111, R161, R168), and the command ALLOCATION_REQUEST. -/

namespace Sys2Proof.Machine

open Sys2Proof

/-- A request is answered with a place (R31, R46, R126). -/
def answerRoom (r : Requester) (at_ : Place) (s : State) : State :=
  let t := s.setSpace (s.space.setAlloc r none)
  match r, t.engine.job with
  | .engine, .write j => writeRoomGiven j at_ t
  | .engine, _ => t
  | .drain, _ => drainRoom at_ t

/-- A request is refused by its class (R107): STORE_FULL to a write, NO_SPACE to the Drain Unit. -/
def refuseRoom (r : Requester) (s : State) : State :=
  let t := s.setSpace (s.space.setAlloc r none)
  match r, t.engine.job with
  | .engine, .write j => writeRefused j t
  | .engine, _ => t
  | .drain, _ => drainRefused t

/-- A request that the ACTIVE sector cannot answer: an activation, or the refusal of its class (R107, R110). -/
def allocateByActivation (r : Requester) (q : AllocRequest) (s : State) : State :=
  match activatable (poolNeeded q.cls) s.space with
  | some i => takeForActivation (.request r) i s
  | none => refuseRoom r s

/-- A request is answered from a sector: the place above its write pointer (R106). -/
def allocateFrom (r : Requester) (q : AllocRequest) (i : Sector) (s : State) : State :=
  let a := allocateIn i q.granules s.space
  answerRoom r a.1 (s.setSpace a.2)

/-- A request is taken: from the ACTIVE sector when its free granules number at least n (R106). -/
def allocate (r : Requester) (q : AllocRequest) (s : State) : State :=
  match s.space.activeSector with
  | some i =>
    if (s.space.rec_ i).pointer + q.granules ≤ 511 then allocateFrom r q i s
    else allocateByActivation r q s
  | none => allocateByActivation r q s

/-- The activation under way has ended well: what asked for it goes on from the new sector (R108). -/
def activationDone (a : ActivationJob) (s : State) : State :=
  let t := s.setSpace { s.space with activation := none }
  match a.purpose with
  | .request r =>
    match t.space.alloc r with
    | some q => allocateFrom r q a.sector t
    | none => t
  | .mount => mountDrainWork t
  | .format => formatEnd t

/-- A failed activation's sector has been retired: the request is tested again against the pool (R109). -/
def activationAgain (a : ActivationJob) (s : State) : State :=
  let t := s.setSpace { s.space with activation := none }
  match a.purpose with
  | .request r =>
    match t.space.alloc r with
    | some q => allocateByActivation r q t
    | none => t
  | .mount =>
    match t.engine.job with
    | .mount j => mountActivate j t
    | _ => t
  | .format => formatActivate t

/-- The Drain Unit's activations too lead to nothing further once a FORMAT waits (R137). -/
def activationGo (a : ActivationJob) (go : State → State) (s : State) : State :=
  if a.purpose = .request .drain then drainGo go s else go s

/-- A program of the activation under way ends (R108, R109). -/
def activationProgram (a : ActivationJob) (ok : Bool) (s : State) : State :=
  let put (ph : ActivationPhase) (t : State) : State :=
    t.setSpace { t.space with activation := some { a with phase := ph } }
  let r := activationRequester a.purpose
  match a.phase with
  | .program =>
    if ok then
      let t := s.setSpace (activated a s.space)
      match s.space.activeSector with
      | some old =>
        activationGo a (fun u => put .close (issue r (.programMark old .full) u)) t
      | none => activationGo a (activationDone a) t
    else
      retireThen r a.sector (put .retire) (activationGo a (activationAgain a)) s
  | .close => activationGo a (activationDone a) s
  | .retire => activationGo a (activationAgain a) s

/-- ALLOCATION_REQUEST (R106 to R111): the Space Manager takes the request of r when it serves no other. -/
def execAllocationRequest (r : Requester) (s : State) : Host.Outcome State Fault Refusal :=
  match s.space.activation, s.space.alloc r with
  | none, some q => .next (arbitrate (allocate r q s))
  | _, _ => .next s

end Sys2Proof.Machine
end

