-- ==== Sys2Proof/Machine/Outcomes.lean ====
section
/-! DEFINITION. The outcomes of array operations: READ_COMPLETE, PROGRAM_COMPLETE, PROGRAM_TIMEOUT,
ERASE_COMPLETE, ERASE_TIMEOUT (R141 to R145). -/

namespace Sys2Proof.Machine

open Sys2Proof

/-- A READ's bytes reach their requester, which goes on (R141, R145). -/
def readEnded (r : Requester) (i : Sector) (g : Nat) (view : ArrayContents) (s : State) : State :=
  match r with
  | .engine =>
    match s.engine.job with
    | .fetch j => fetchDone j (readGranule view i g) (readPayload view ⟨i, g⟩ j.entry.length) s
    | .mount j => mountRead j view s
    | _ => s
  | .drain =>
    match s.drain.phase, s.drain.copy with
    | .header, _ => drainGo (drainHeader (readGranule view i g)) s
    | .record, some c => drainGo (drainRecord (readPayload view ⟨i, g⟩ c.length)) s
    | _, _ => s

/-- A PROGRAM's outcome reaches its requester's own procedure (R145). -/
def jobProgram (r : Requester) (ok : Bool) (s : State) : State :=
  match r with
  | .engine =>
    match s.engine.job with
    | .write j => writeProgram j ok s
    | .relocate => relocateDone s
    | .format _ _ ph => formatProgram ph ok s
    | .mount j => mountProgram j ok s
    | .idle => s
    | .fetch _ => s
  | .drain => drainProgram ok s

/-- A PROGRAM's outcome reaches its requester, through the Space Manager where it is an activation's (R145). -/
def programEnded (r : Requester) (ok : Bool) (s : State) : State :=
  match s.space.activation with
  | some a => if activationRequester a.purpose = r then activationProgram a ok s else jobProgram r ok s
  | none => jobProgram r ok s

/-- An ERASE's outcome reaches its requester (R145). -/
def eraseEnded (r : Requester) (ok : Bool) (s : State) : State :=
  match r with
  | .engine =>
    match s.engine.job with
    | .format _ _ (.erase i) => formatErased i ok s
    | .mount j => mountErased j ok s
    | _ => s
  | .drain => drainErased ok s

/-- The PROGRAM in service ends over the contents it met, passing or not. -/
def endProgram (met : ArrayContents) (ok : Bool) (left : SpanLeft) (arrivalFirst : Bool) (r : Requester)
    (op : ArrayOp) (s : State) : State :=
  let a := if ok then programPassed met op else programFailed met left op
  afterOutcome r arrivalFirst (programEnded r ok) ((s.setArray a).setCtl (s.ctl.noteProgram op))

/-- The ERASE in progress ends, passing or not. -/
def endErase (ok : Bool) (left : SectorImage) (arrivalFirst : Bool) (e : EraseJob) (s : State) : State :=
  let a := if ok then eraseSector s.array e.sector else installImage s.array e.sector left
  let t := (s.setArray a).setCtl { s.ctl with erase := none }
  afterOutcome e.requester arrivalFirst (eraseEnded e.requester ok) t

/-- READ_COMPLETE (R141): the READ in service ends. -/
def execReadComplete (arrivalFirst : Bool) (seen : SectorImage) (s : State) :
    Host.Outcome State Fault Refusal :=
  match s.ctl.serving with
  | some (r, .read i g _) =>
    .next (afterOutcome r arrivalFirst (readEnded r i g (viewOf s i seen)) s)
  | _ => .next s

/-- A PROGRAM. -/
def isProgram : ArrayOp → Bool
  | .read _ _ _ => false
  | .erase _ => false
  | _ => true

/-- PROGRAM_COMPLETE (R143): the read-back of the PROGRAM in service ends, its outcome PASS where every byte
of the span reads the value requested; in a sector under erase over the erase's partial contents (R150). -/
def execProgramComplete (pass : Bool) (left : ProgramLeft) (arrivalFirst : Bool) (s : State) :
    Host.Outcome State Fault Refusal :=
  match s.ctl.serving with
  | some (r, op) =>
    if isProgram op then
      let met := metBy s op left.under
      .next (endProgram met (programPasses met pass left.span op) left.span arrivalFirst r op s)
    else .next s
  | none => .next s

/-- PROGRAM_TIMEOUT (R142): the PROGRAM in service is stopped. -/
def execProgramTimeout (left : ProgramLeft) (arrivalFirst : Bool) (s : State) :
    Host.Outcome State Fault Refusal :=
  match s.ctl.serving with
  | some (r, op) =>
    if isProgram op then
      .next (endProgram (metBy s op left.under) false left.span arrivalFirst r op s)
    else .next s
  | none => .next s

/-- ERASE_COMPLETE (R144): the running ERASE ends its blank check below 120 ms of active time, its outcome
PASS where every byte reads 0FFH. -/
def execEraseComplete (pass : Bool) (left : SectorImage) (arrivalFirst : Bool) (s : State) :
    Host.Outcome State Fault Refusal :=
  match s.ctl.erase with
  | some e =>
    if e.suspended = false ∧ e.active < 120 then
      .next (endErase (erasePasses s.array pass left e.sector) left arrivalFirst e s)
    else .next s
  | none => .next s

/-- ERASE_TIMEOUT (R144): the outcome ERASE_FAIL of an ERASE stopped at 120 ms of active time. -/
def execEraseTimeout (left : SectorImage) (arrivalFirst : Bool) (s : State) :
    Host.Outcome State Fault Refusal :=
  match s.ctl.erase with
  | some e =>
    if e.suspended = false ∧ 120 ≤ e.active then .next (endErase false left arrivalFirst e s)
    else .next s
  | none => .next s

/-- One millisecond passes on an empty queue: the active time of a running erase advances. The erase is
stopped when it reaches 120 ms: from then on nothing suspends it, no time is added, and its outcome is
that of ERASE_TIMEOUT (R144, R148; log 15). -/
def passTime (s : State) : State :=
  match s.ctl.erase with
  | some e =>
    if e.suspended = false ∧ e.active < 120 then
      s.setCtl { s.ctl with erase := some { e with active := e.active + 1 } }
    else s
  | none => s

end Sys2Proof.Machine
end

