-- ==== Sys2Proof/Machine/LeaseCommands.lean ====
section
/-! DEFINITION. The lease commands and the timebase (R67 to R75, R77). -/

namespace Sys2Proof.Machine

open Sys2Proof

/-- LEASE_TAKE at the Lease Unit: the result, its fields and the table after it (R70, R71). -/
def takeLease (p : Port) (k : Key) (duration : Nat) (wait : Bool) (ls : List Lease) :
    Result × List Byte × List Lease :=
  match leaseOn k ls with
  | none =>
    if 32 ≤ ls.length ∨ 8 ≤ holdCount p ls then (.tableFull, [], ls)
    else (.ok, [], putLease ⟨k, p, duration, []⟩ ls)
  | some l =>
    if l.holder = p ∨ waits p l = true then (.already, [], ls)
    else if wait = false then (.held, [], ls)
    else if 8 ≤ holdCount p ls ∨ 3 ≤ l.waiters.length then (.tableFull, [], ls)
    else
      (.queued, [byteOf (l.waiters.length + 1)],
        putLease { l with waiters := l.waiters ++ [⟨p, duration⟩] } ls)

/-- LEASE_TAKE after its grant (R69 to R71). -/
def leaseTakeProcedure (p : Port) (f : Frame) (s : State) : State :=
  match leaseTakeParams f with
  | none => reply p .badParam [] s
  | some (k, duration, wait) =>
    checked p [accessRefusal .write k.ns p s]
      (fun t =>
        let r := takeLease p k duration wait t.leases
        reply p r.1 r.2.1 (t.setLeases r.2.2)) s

/-- LEASE_TAKE (R70). -/
def execLeaseTake (p : Port) (s : State) : Host.Outcome State Fault Refusal :=
  .next (grantCommand .leaseTake p (leaseTakeProcedure p) s)

/-- The holder's lease on a key. -/
def heldLease (p : Port) (k : Key) (ls : List Lease) : Option Lease :=
  match leaseOn k ls with
  | some l => if l.holder = p then some l else none
  | none => none

/-- LEASE_RENEW after its grant (R72). -/
def leaseRenewProcedure (p : Port) (f : Frame) (s : State) : State :=
  match leaseRenewParams f with
  | none => reply p .badParam [] s
  | some (k, duration) =>
    checked p [accessRefusal .none_ k.ns p s]
      (fun t =>
        match heldLease p k t.leases with
        | some l => reply p .ok [] (t.setLeases (putLease { l with remaining := duration } t.leases))
        | none => reply p .notHeld [] t) s

/-- LEASE_RENEW (R72). -/
def execLeaseRenew (p : Port) (s : State) : Host.Outcome State Fault Refusal :=
  .next (grantCommand .leaseRenew p (leaseRenewProcedure p) s)

/-- What a LEASE_DROP of a key does to each lease: the holder's hold ends (R74), a waiter's place is given
up (R75). -/
def dropOwnPlace (p : Port) (k : Key) (l : Lease) : LeaseFate :=
  if l.key = k then
    if l.holder = p then passLease l
    else (some { l with waiters := l.waiters.filter (fun w => w.port != p) }, [])
  else (some l, [])

/-- The port holds the lease on a key or waits on it. -/
def hasPlace (p : Port) (k : Key) (ls : List Lease) : Bool :=
  match leaseOn k ls with
  | some l => l.holder == p || waits p l
  | none => false

/-- LEASE_DROP after its grant (R74, R75). -/
def leaseDropProcedure (p : Port) (f : Frame) (s : State) : State :=
  match keyParam f with
  | none => reply p .badParam [] s
  | some k =>
    checked p [accessRefusal .none_ k.ns p s]
      (fun t =>
        if hasPlace p k t.leases then reply p .ok [] (runLeases (dropOwnPlace p k) t)
        else reply p .notHeld [] t) s

/-- LEASE_DROP (R74). -/
def execLeaseDrop (p : Port) (s : State) : Host.Outcome State Fault Refusal :=
  .next (grantCommand .leaseDrop p (leaseDropProcedure p) s)

/-- TIMEBASE_STEP (R67, R68): every lease is counted down, those at 1 expire, in ascending key order. -/
def execTimebaseStep (s : State) : Host.Outcome State Fault Refusal := .next (runLeases stepLease s)

/-- The expiry of the lease on one key, whose remaining time is 1 (R77). -/
def expireOn (k : Key) (l : Lease) : LeaseFate :=
  if l.key = k ∧ l.remaining = 1 then expireLease l else (some l, [])

/-- LEASE_EXPIRY (R77): the expiry of one lease, as an event of its own (log 14). -/
def execLeaseExpiry (k : Key) (s : State) : Host.Outcome State Fault Refusal :=
  .next (runLeases (expireOn k) s)

end Sys2Proof.Machine
end

