-- ==== Sys2Proof/Machine/NameCommands.lean ====
section
/-! DEFINITION. The namespace commands NS_SET and NS_FREEZE (R56 to R61). -/

namespace Sys2Proof.Machine

open Sys2Proof

/-- An entry of the Namespace Table replaced. -/
def putNs (ns : Fin 8) (e : NsEntry) (s : State) : State :=
  s.setEngine { s.engine with names := vset s.engine.names ns e }

/-- The ports of one set that another lacks (R58). -/
def droppedFrom (old new : PortSet) : PortSet := old &&& ~~~new

/-- A watch revocation (R60). -/
def revokeWatches (ns : Fin 8) (dropped : PortSet) (ws : List WatchEntry) : List WatchEntry :=
  ws.filter (fun w => !(w.ns == ns && hasPort dropped w.port))

/-- The entry is replaced and what ports have lost is revoked (R57 to R60). -/
def setRights (ns : Fin 8) (readers writers : PortSet) (quota : Nat) (s : State) : State :=
  let old := nsEntry s ns
  let t := putNs ns ⟨.defined, readers, writers, quota⟩ s
  let u := runLeases (revokeLease ns (droppedFrom old.writers writers)) t
  u.setWatches (revokeWatches ns (droppedFrom old.readers readers) u.watches)

/-- NS_SET after its grant (R56, R57). -/
def nsSetProcedure (p : Port) (f : Frame) (s : State) : State :=
  match nsSetParams f with
  | none => reply p .badParam [] s
  | some (ns, readers, writers, quota) =>
    if (nsEntry s ns).state = .frozen then reply p .frozen [] s
    else reply p .ok [] (setRights ns readers writers quota s)

/-- NS_SET (R57). -/
def execNsSet (p : Port) (s : State) : Host.Outcome State Fault Refusal :=
  .next (grantCommand .nsSet p (nsSetProcedure p) s)

/-- NS_FREEZE after its grant (R61). -/
def nsFreezeProcedure (p : Port) (f : Frame) (s : State) : State :=
  match nsFreezeParams f with
  | none => reply p .badParam [] s
  | some ns =>
    match (nsEntry s ns).state with
    | .undefined => reply p .noNamespace [] s
    | .defined => reply p .ok [] (putNs ns { nsEntry s ns with state := .frozen } s)
    | .frozen => reply p .already [] s

/-- NS_FREEZE (R61). -/
def execNsFreeze (p : Port) (s : State) : Host.Outcome State Fault Refusal :=
  .next (grantCommand .nsFreeze p (nsFreezeProcedure p) s)

end Sys2Proof.Machine
end

