-- ==== Sys2Proof/Machine/Window.lean ====
section
/-! DEFINITION. The host's accesses to the window: CMD, PARAM, SUBMIT, RESP, NOTICE, STAGE, FLAGS, CONTROL
and the plain registers (R22, R96, R183 to R191). -/

namespace Sys2Proof.Machine

open Sys2Proof

/-- A bus access is taken: RESET_N high, the port's processor powered, the port not ABSENT (R190, R194). -/
def busTaken (s : State) (p : Port) : Bool :=
  !s.resetLow && (s.port p).powerGood && (s.port p).link != .absent

/-- A write access that is taken changes its own port's unit and nothing else. -/
def hostWrite (p : Port) (f : PortUnit → PortUnit) (s : State) : State :=
  if busTaken s p then s.setPort p (f (s.port p)) else s

/-- COLLISION is latched (R188). -/
def latchCollision (u : PortUnit) : PortUnit := { u with latched := { u.latched with collision := true } }

/-- UNDERRUN is latched (R188). -/
def latchUnderrun (u : PortUnit) : PortUnit := { u with latched := { u.latched with underrun := true } }

/-- A frame is begun with a code (R184). -/
def beginFrame (b : Byte) (u : PortUnit) : PortUnit :=
  { u with mailbox := ⟨.filling, ⟨b, [], false⟩, []⟩ }

/-- A write to CMD (R184). -/
def writeCmd (b : Byte) (u : PortUnit) : PortUnit :=
  if u.link = .teardown then latchCollision u
  else
    match u.mailbox.state with
    | .idle => beginFrame b u
    | .filling => beginFrame b u
    | .waiting => latchCollision u
    | .running => latchCollision u
    | .done => beginFrame b { u with latched := { u.latched with responseLost := true } }

/-- A parameter byte joins a frame, or marks it over-long (R172). -/
def appendParam (b : Byte) (f : Frame) : Frame :=
  if f.params.length < 16 then { f with params := f.params ++ [b] } else { f with overLong := true }

/-- A write to PARAM (R185). -/
def writeParam (b : Byte) (u : PortUnit) : PortUnit :=
  if u.link ≠ .teardown ∧ u.mailbox.state = .filling then
    { u with mailbox := { u.mailbox with frame := appendParam b u.mailbox.frame } }
  else latchCollision u

/-- A write to SUBMIT (R185). -/
def writeSubmit (u : PortUnit) : PortUnit :=
  if u.link ≠ .teardown ∧ u.mailbox.state = .filling then
    { u with mailbox := { u.mailbox with state := .waiting } }
  else latchCollision u

/-- A write to STAGE (R22). -/
def writeStage (b : Byte) (u : PortUnit) : PortUnit :=
  if u.txn.state = .open_ ∧ u.txn.staged < u.txn.length then
    { u with
      buffer := u.buffer.setIfInBounds u.txn.staged b
      txn := { u.txn with staged := u.txn.staged + 1 } }
  else { u with latched := { u.latched with stageOverrun := true } }

/-- A write to FLAGS (R188). -/
def writeFlags (b : Byte) (u : PortUnit) : PortUnit := { u with latched := clearFlags b u.latched }

/-- A teardown begins at the port (R191). -/
def teardownBegin (u : PortUnit) : PortUnit :=
  { closeOpenTxn u with
    mailbox := .empty
    generation := u.generation + 1
    queue := .empty
    latched := .clear
    enable := 0
    activeLow := false
    link := .teardown }

/-- A write to CONTROL: bit 0 set begins a teardown of a PRESENT port and is ignored in TEARDOWN; clear, it
sets the polarity from bit 1 (R189, R190). -/
def writeControl (b : Byte) (u : PortUnit) : PortUnit :=
  if b.getLsbD 0 then (if u.link = .present then teardownBegin u else u)
  else { u with activeLow := b.getLsbD 1 }

/-- A write to any offset of the window (window table; R183). -/
def writeRegister (offset : Fin 16) (b : Byte) (u : PortUnit) : PortUnit :=
  match offset.val with
  | 0 => writeCmd b u
  | 1 => writeParam b u
  | 2 => writeSubmit u
  | 6 => writeFlags b u
  | 7 => { u with enable := b }
  | 8 => writeStage b u
  | 13 => writeControl b u
  | _ => u

/-- CMD (R184). -/
def execCmd (p : Port) (b : Byte) (s : State) : Host.Outcome State Fault Refusal :=
  .next (hostWrite p (writeCmd b) s)

/-- PARAM (R185). -/
def execParam (p : Port) (b : Byte) (s : State) : Host.Outcome State Fault Refusal :=
  .next (hostWrite p (writeParam b) s)

/-- SUBMIT (R185); the value written is ignored. -/
def execSubmit (p : Port) (_b : Byte) (s : State) : Host.Outcome State Fault Refusal :=
  .next (hostWrite p writeSubmit s)

/-- STAGE (R22). -/
def execStage (p : Port) (b : Byte) (s : State) : Host.Outcome State Fault Refusal :=
  .next (hostWrite p (writeStage b) s)

/-- FLAGS (R188). -/
def execFlags (p : Port) (b : Byte) (s : State) : Host.Outcome State Fault Refusal :=
  .next (hostWrite p (writeFlags b) s)

/-- PORT_RESET: CONTROL with bit 0 set (R190). -/
def execPortReset (p : Port) (rest : BitVec 7) (s : State) : Host.Outcome State Fault Refusal :=
  .next (hostWrite p (writeControl (rest ++ (1 : BitVec 1))) s)

/-- INTERRUPT_POLARITY: CONTROL with bit 0 clear (R189). -/
def execInterruptPolarity (p : Port) (rest : BitVec 7) (s : State) : Host.Outcome State Fault Refusal :=
  .next (hostWrite p (writeControl (rest ++ (0 : BitVec 1))) s)

/-- REGISTER_WRITE (R183). -/
def execRegisterWrite (p : Port) (offset : Fin 16) (b : Byte) (s : State) :
    Host.Outcome State Fault Refusal :=
  .next (hostWrite p (writeRegister offset b) s)

/-- What the data lines show to a read access of an offset: the register's value, or high-impedance
(`none`) where the access is not taken: RESET_N low, power-good low, or the port ABSENT (R183, R190,
R194). -/
def dataLines (s : State) (p : Port) (offset : Fin 16) : Option Byte :=
  if busTaken s p then some (windowRead s.space.store p (s.port p) offset) else none

/-- A read access drives the data lines and then makes its change, where it is taken (R194; log 21). -/
def hostRead (p : Port) (offset : Fin 16) (f : PortUnit → PortUnit) (s : State) : State :=
  let u := s.port p
  s.setPort p { (if busTaken s p then f u else u) with dataOut := dataLines s p offset }

/-- What a read of RESP changes (R186). -/
def readResp (u : PortUnit) : PortUnit :=
  match u.mailbox.state, u.mailbox.response with
  | .done, [_] => { u with mailbox := .empty }
  | .done, _ :: rest => { u with mailbox := { u.mailbox with response := rest } }
  | _, _ => latchUnderrun u

/-- What a read of NOTICE changes (R96). -/
def readNotice (u : PortUnit) : PortUnit :=
  if u.queue.entries.isEmpty then latchUnderrun u else { u with queue := takeNoticeByte u.queue }

/-- RESP (R186). -/
def execResp (p : Port) (s : State) : Host.Outcome State Fault Refusal :=
  .next (hostRead p 3 readResp s)

/-- NOTICE (R96). -/
def execNotice (p : Port) (s : State) : Host.Outcome State Fault Refusal :=
  .next (hostRead p 11 readNotice s)

end Sys2Proof.Machine
end

