-- ==== Sys2Proof/Machine/Power.lean ====
section
/-! DEFINITION. Power-good edges and the resets (R49, R66, R85, R98, R119, R146, R152, R153, R190 to R194). -/

namespace Sys2Proof.Machine

open Sys2Proof

/-- Power-good falls at a port (R190): from then on its data lines are high-impedance. -/
def powerFall (u : PortUnit) : PortUnit :=
  { (if u.link = .present then teardownBegin u else u) with powerGood := false, dataOut := none }

/-- Power-good rises at a port: an ABSENT port becomes PRESENT with its window at reset values and its
generation count kept (R190, R192). -/
def powerRise (u : PortUnit) : PortUnit :=
  if u.link = .absent then
    { PortUnit.atReset true with generation := u.generation, buffer := u.buffer }
  else { u with powerGood := true }

/-- A power-good edge; while RESET_N is low only the level changes, and the data lines are high-impedance
(R193, R194). -/
def powerEdge (p : Port) (level : Bool) (f : PortUnit → PortUnit) (s : State) : State :=
  s.setPort p
    (if s.resetLow then { s.port p with powerGood := level, dataOut := none } else f (s.port p))

/-- POWER_GOOD_FALL (R190). -/
def execPowerGoodFall (p : Port) (s : State) : Host.Outcome State Fault Refusal :=
  .next (powerEdge p false powerFall s)

/-- POWER_GOOD_RISE (R190, R192). -/
def execPowerGoodRise (p : Port) (s : State) : Host.Outcome State Fault Refusal :=
  .next (powerEdge p true powerRise s)

/-- No DISCARDED program of the FORMAT has completed when sector i is marked (R166, R171). -/
def firstMark (i : Sector) (x : Space) : Bool :=
  allSectors.all (fun k => decide (i.val ≤ k.val) || (x.rec_ k).state != .discarded)

/-- What a cut-off program of a FORMAT leaves (R171), where `a` is the array before it and `c` what any
program may leave: until the first DISCARDED program has completed every header as before the FORMAT;
until the activation program has passed the chosen sector UNINTELLIGIBLE (DEDUCED, log 44). -/
def formatCut (s : State) (a c : ArrayContents) (op : ArrayOp) : ArrayContents :=
  match s.engine.job, op with
  | .format _ _ (.mark i), .programMark _ _ => if firstMark i s.space then a else c
  | .format _ _ .activate, .programActivation i _ =>
    if classify (sectorHeader c i) = .unintelligible then c
    else putHeader c i { sectorHeader c i with activation := .bad }
  | _, _ => c

/-- What the array keeps of the operations a reset abandons (R152, R171). A suspended erase in whose
suspension a PROGRAM of its sector has ended has done no more since: what stands in the array stays (R150). -/
def arrayCut (s : State) (span : SpanLeft) (sector : EraseCut) : ArrayContents :=
  let a := match s.ctl.unseen with
    | some i => cutErase s.array i sector
    | none => s.array
  match s.ctl.serving with
  | some (.engine, op) => formatCut s a (programCut a span op) op
  | some (.drain, op) => programCut a span op
  | none => a

/-- The part with its RAM at reset values, given what the reset keeps: the Namespace Table, the low-water
mark, the pins, the array and the queue of commands. The mount begins unless RESET_N is low (R153, R194). -/
def resetPart (names : Vector NsEntry 8) (lowWater : Nat) (low : Bool) (array : ArrayContents)
    (s : State) : State where
  pending := s.pending
  resetLow := low
  ports := s.ports.each (fun u => PortUnit.atReset u.powerGood)
  engine := Engine.atReset names (if low then .idle else .mount .start)
  leases := []
  watches := []
  space := Space.atReset lowWater
  drain := Drain.atReset
  ctl := if low then Controller.empty else Controller.atMount
  array := array

/-- POWER_ON_RESET (R49, R116, R153): the Namespace Table and the low-water mark too take their reset
values. RESET_N keeps its level (log 18). -/
def execPowerOnReset (span : SpanLeft) (sector : EraseCut) (s : State) :
    Host.Outcome State Fault Refusal :=
  .next (resetPart namesAtPowerOn lowWaterAtPowerOn s.resetLow (arrayCut s span sector) s)

/-- DEVICE_RESET (R193, R194): the Namespace Table and the low-water mark are kept; RESET_N stays low
(`held`) or is high again. -/
def execDeviceReset (held : Bool) (span : SpanLeft) (sector : EraseCut) (s : State) :
    Host.Outcome State Fault Refusal :=
  .next (resetPart s.engine.names s.space.lowWater held (arrayCut s span sector) s)

/-- RESET_N_RISE (R194): the device reset takes effect and the mount begins; with RESET_N high already
there is no such edge. -/
def execResetNRise (s : State) : Host.Outcome State Fault Refusal :=
  if s.resetLow then .next (resetPart s.engine.names s.space.lowWater false s.array s) else .next s

end Sys2Proof.Machine
end

