-- ==== Sys2Proof/Machine/Reads.lean ====
section
/-! DEFINITION. The read commands FETCH, PROBE and SCAN (R13 to R19). -/

namespace Sys2Proof.Machine

open Sys2Proof

/-- FETCH's own checks (R14): NOT_FOUND, then an offset beyond the record's length. -/
def fetchRefusal (e : Option IndexEntry) (offset : Nat) : Option Result :=
  match e with
  | none => some .notFound
  | some e =>
    if e.presence = .deleted then some .notFound
    else if e.length < offset then some .badParam
    else none

/-- A FETCH that passes its checks reads the record: header and payload in one READ (R15, R141). -/
def fetchStart (p : Port) (e : IndexEntry) (offset count : Nat) (s : State) : State :=
  arbitrate (issue .engine (.read e.place.sector e.place.granule (entrySize e))
    (s.setJob (.fetch ⟨p, (s.port p).generation, e, offset, count⟩)))

/-- FETCH after its grant (R14, R15). -/
def fetchProcedure (p : Port) (f : Frame) (s : State) : State :=
  match fetchParams f with
  | none => reply p .badParam [] s
  | some (k, offset, count) =>
    let e := entryOf k s.engine.index
    checked p [accessRefusal .read k.ns p s, fetchRefusal e offset]
      (fun t => match e with
        | some e => fetchStart p e offset count t
        | none => t) s

/-- FETCH (R15). -/
def execFetch (p : Port) (s : State) : Host.Outcome State Fault Refusal :=
  .next (grantCommand .fetch p (fetchProcedure p) s)

/-- The presence, version and length fields of PROBE (R17). -/
def presenceFields (e : Option IndexEntry) : List Byte :=
  match e with
  | none => 0x00 :: le32 0 ++ le16 0
  | some e =>
    match e.presence with
    | .present => 0x01 :: le32 e.version.toNat ++ le16 e.length
    | .deleted => 0x02 :: le32 e.version.toNat ++ le16 0

/-- The holder, waiter count and remaining fields of PROBE (R17, R76). -/
def leaseFields (l : Option Lease) : List Byte :=
  match l with
  | none => 0xFF :: 0x00 :: le16 0
  | some l => byteOf (portNumber l.holder) :: byteOf l.waiters.length :: le16 l.remaining

/-- PROBE after its grant (R17). -/
def probeProcedure (p : Port) (f : Frame) (s : State) : State :=
  match keyParam f with
  | none => reply p .badParam [] s
  | some k =>
    checked p [accessRefusal .read k.ns p s]
      (reply p .ok (presenceFields (entryOf k s.engine.index) ++ leaseFields (leaseOn k s.leases))) s

/-- PROBE (R17). -/
def execProbe (p : Port) (s : State) : Host.Outcome State Fault Refusal :=
  .next (grantCommand .probe p (probeProcedure p) s)

/-- The PRESENT entries of a namespace from a start id on, in id order (R18). -/
def scanMatches (ns : Fin 8) (start : Nat) (ix : List IndexEntry) : List IndexEntry :=
  ix.filter (fun e => e.key.ns == ns && e.presence == .present && decide (start ≤ e.key.id.val))

/-- One listed key: id and version (R18). -/
def scanFields (e : IndexEntry) : List Byte := le16 e.key.id.val ++ le32 e.version.toNat

/-- SCAN's fields: count, more flag, the keys listed (R18). -/
def scanResponse (found : List IndexEntry) (maximum : Nat) : List Byte :=
  let listed := found.take maximum
  byteOf listed.length :: (if maximum < found.length then 0x01 else 0x00) ::
    (listed.map scanFields).flatten

/-- SCAN after its grant (R18). -/
def scanProcedure (p : Port) (f : Frame) (s : State) : State :=
  match scanParams f with
  | none => reply p .badParam [] s
  | some (ns, start, maximum) =>
    checked p [accessRefusal .read ns p s]
      (reply p .ok (scanResponse (scanMatches ns start s.engine.index) maximum)) s

/-- SCAN (R18). -/
def execScan (p : Port) (s : State) : Host.Outcome State Fault Refusal :=
  .next (grantCommand .scan p (scanProcedure p) s)

end Sys2Proof.Machine
end

