-- ==== Sys2Proof/Machine/Requests.lean ====
section
/-! DEFINITION. The grants that are no port command: TEARDOWN_REQUEST, RELOCATE and PURGE (R128, R131, R182). -/

namespace Sys2Proof.Machine

open Sys2Proof

/-- The Watch Unit drops a port (R88). -/
def dropWatches (p : Port) (ws : List WatchEntry) : List WatchEntry := ws.filter (fun w => w.port != p)

/-- The port leaves TEARDOWN: PRESENT with TEARDOWN_DONE latched, or ABSENT (R190, R191). -/
def completeTeardown (u : PortUnit) : PortUnit :=
  if u.powerGood then
    { u with link := .present, latched := { u.latched with teardownDone := true } }
  else { u with link := .absent }

/-- The engine's teardown procedure (R182). -/
def teardownProcedure (p : Port) (s : State) : State :=
  let t := runLeases (dropPortFromLease p) s
  let u := t.setWatches (dropWatches p t.watches)
  u.setPort p (completeTeardown (u.port p))

/-- TEARDOWN_REQUEST (R182). -/
def execTeardownRequest (p : Port) (s : State) : Host.Outcome State Fault Refusal :=
  if granted s = some (.teardown p) then .next (teardownProcedure p s) else .next s

/-- A RELOCATE decided by the place the entry points at (R128). -/
def relocateProcedure (k : Key) (source copy : Place) (size : Nat) (s : State) : State :=
  match entryOf k s.engine.index with
  | some e =>
    if e.place = source then
      issue .engine (.programState source .superseded)
        ((pointEntry { e with place := copy } s).setJob .relocate)
    else staleCopy copy size s
  | none => staleCopy copy size s

/-- RELOCATE (R128). -/
def execRelocate (s : State) : Host.Outcome State Fault Refusal :=
  match granted s, s.drain.request with
  | some .drain, some (.relocate k source copy size) =>
    .next (arbitrate (relocateProcedure k source copy size
      (s.setDrain { s.drain with request := none })))
  | _, _ => .next s

/-- A PURGE removes a DELETED entry that points at the tombstone (R131). -/
def purgeEntry (k : Key) (at_ : Place) (s : State) : State :=
  match entryOf k s.engine.index with
  | some e =>
    if e.presence = .deleted ∧ e.place = at_ then
      { s with
        engine := { s.engine with index := dropEntry k s.engine.index }
        space := s.space.deaden at_.sector (entrySize e) }
    else s
  | none => s

/-- PURGE (R131): answered at once, and the walk goes on. -/
def execPurge (s : State) : Host.Outcome State Fault Refusal :=
  match granted s, s.drain.request with
  | some .drain, some (.purge k at_) =>
    let t := purgeEntry k at_ (s.setDrain { s.drain with request := none })
    match t.drain.phase with
    | .answer size => .next (arbitrate (walkPast size t))
    | _ => .next t
  | _, _ => .next s

end Sys2Proof.Machine
end

