-- ==== Sys2Proof/Machine/StoreCommands.lean ====
section
/-! DEFINITION. The store commands STORE_QUERY, STORE_TUNE, RECLAIM and FORMAT (R117, R118, R138, R164). -/

namespace Sys2Proof.Machine

open Sys2Proof

/-- The codes of the recorded cause (R114). -/
def causeCode (x : Space) : Nat :=
  if x.store = .readOnly then
    match x.cause with
    | some .retireLimit => 1
    | some .noSpace => 2
    | some .counterLimit => 3
    | none => 0
  else 0

/-- The codes of the drain state (R119). -/
def drainCode : DrainState → Nat
  | .idle => 0
  | .reclaiming => 1
  | .evacuating => 2

/-- A sector number, or 0FFH for none (R118). -/
def sectorCode : Option Sector → Nat
  | some i => i.val
  | none => 255

/-- The total of an account over all 128 sectors (R118). -/
def totalOf (account : SectorRecord → Nat) (x : Space) : Nat :=
  (allSectors.map (fun i => account (x.rec_ i))).sum

/-- The 29 bytes of STORE_QUERY after the result (R118, response layout). -/
def queryFields (s : State) : List Byte :=
  let x := s.space
  [byteOf (storeCode x.store), byteOf (causeCode x), byteOf x.pool.length,
    byteOf (sectorCode x.activeSector), byteOf x.retiredCount, byteOf (drainCode s.drain.state),
    byteOf (sectorCode s.drain.sector), byteOf x.evacuation.length, byteOf x.lowWater] ++
  le16 (entriesUsed s.engine.index) ++ le16 (presentCount s.engine.index) ++
  le32 s.engine.counter.toNat ++ le32 x.actCounter.toNat ++
  le32 (totalOf (fun r => r.live) x) ++ le32 (totalOf (fun r => r.dead) x)

/-- STORE_QUERY (R118). -/
def execStoreQuery (p : Port) (s : State) : Host.Outcome State Fault Refusal :=
  .next (grantCommand .storeQuery p (fun _ t => reply p .ok (queryFields t) t) s)

/-- STORE_TUNE after its grant (R117). -/
def storeTuneProcedure (p : Port) (f : Frame) (s : State) : State :=
  match storeTuneParams f with
  | none => reply p .badParam [] s
  | some n => reply p .ok [] (s.setSpace { s.space with lowWater := n })

/-- STORE_TUNE (R117). -/
def execStoreTune (p : Port) (s : State) : Host.Outcome State Fault Refusal :=
  .next (grantCommand .storeTune p (storeTuneProcedure p) s)

/-- RECLAIM's own answer (R138): BUSY, NOT_FOUND, or a pass. -/
def reclaimRefusal (s : State) : Option Result :=
  if s.drain.state ≠ .idle then some .busy
  else if s.space.evacuation.isEmpty && (s.space.sectorsIn .draining).isEmpty &&
      (reclaimable s.space).isEmpty then some .notFound
  else none

/-- RECLAIM after its grant (R138). -/
def reclaimProcedure (p : Port) (s : State) : State :=
  checked p [gateRefusal s, reclaimRefusal s] (fun t => reply p .ok [] (arbitrate (chooseWork true t))) s

/-- RECLAIM (R138). -/
def execReclaim (p : Port) (s : State) : Host.Outcome State Fault Refusal :=
  .next (grantCommand .reclaim p (fun _ => reclaimProcedure p) s)

/-- FORMAT (R164). -/
def execFormat (p : Port) (s : State) : Host.Outcome State Fault Refusal :=
  .next (grantCommand .format p (fun _ t => arbitrate (formatGrant p t)) s)

end Sys2Proof.Machine
end

