-- ==== Sys2Proof/Machine/WatchCommands.lean ====
section
/-! DEFINITION. The watch commands (R84 to R87). -/

namespace Sys2Proof.Machine

open Sys2Proof

/-- WATCH's own checks: ALREADY, then TABLE_FULL (R86). -/
def watchRefusal (w : WatchEntry) (ws : List WatchEntry) : Option Result :=
  if ws.contains w then some .already
  else if 16 ≤ watchCount w.port ws ∨ 64 ≤ ws.length then some .tableFull
  else none

/-- WATCH after its grant (R86). -/
def watchProcedure (p : Port) (f : Frame) (s : State) : State :=
  match watchParams f with
  | none => reply p .badParam [] s
  | some (ns, target) =>
    checked p [accessRefusal .read ns p s, watchRefusal ⟨p, ns, target⟩ s.watches]
      (fun t => reply p .ok [] (t.setWatches (t.watches ++ [⟨p, ns, target⟩]))) s

/-- WATCH (R86). -/
def execWatch (p : Port) (s : State) : Host.Outcome State Fault Refusal :=
  .next (grantCommand .watch p (watchProcedure p) s)

/-- UNWATCH's own check (R87). -/
def unwatchRefusal (w : WatchEntry) (ws : List WatchEntry) : Option Result :=
  if ws.contains w then none else some .notFound

/-- UNWATCH after its grant (R87). -/
def unwatchProcedure (p : Port) (f : Frame) (s : State) : State :=
  match watchParams f with
  | none => reply p .badParam [] s
  | some (ns, target) =>
    checked p [accessRefusal .none_ ns p s, unwatchRefusal ⟨p, ns, target⟩ s.watches]
      (fun t => reply p .ok [] (t.setWatches (t.watches.erase ⟨p, ns, target⟩))) s

/-- UNWATCH (R87). -/
def execUnwatch (p : Port) (s : State) : Host.Outcome State Fault Refusal :=
  .next (grantCommand .unwatch p (unwatchProcedure p) s)

end Sys2Proof.Machine
end

