-- ==== Sys2Proof/Machine/Writes.lean ====
section
/-! DEFINITION. The write commands PUT_OPEN, PUT_COMMIT, PUT_CANCEL and REMOVE (R25 to R31, R45, R46). -/

namespace Sys2Proof.Machine

open Sys2Proof

/-- PUT_OPEN's first check (R26). -/
def txnOpenRefusal (t : Txn) : Option Result :=
  if t.state = .none_ then none else some .transactionOpen

/-- The transaction opens (R27). -/
def openTxn (p : Port) (k : Key) (L : Nat) (c : Condition) (s : State) : State :=
  s.setPort p { s.port p with txn := ⟨.open_, k, L, c, 0⟩ }

/-- PUT_OPEN after its grant (R25 to R27). -/
def putOpenProcedure (p : Port) (f : Frame) (s : State) : State :=
  match putOpenParams f with
  | none => reply p .badParam [] s
  | some (k, L, c) =>
    checked p
      [txnOpenRefusal (s.port p).txn, gateRefusal s, accessRefusal .write k.ns p s,
        heldByOther p k s, conditionRefusal c (entryOf k s.engine.index)]
      (fun t => reply p .ok [] (openTxn p k L c t)) s

/-- PUT_OPEN (R27). -/
def execPutOpen (p : Port) (s : State) : Host.Outcome State Fault Refusal :=
  .next (grantCommand .putOpen p (putOpenProcedure p) s)

/-- PUT_COMMIT's first check (R29). -/
def noTxnRefusal (t : Txn) : Option Result :=
  if t.state = .open_ then none else some .noTransaction

/-- The length check of a commit (R29). -/
def lengthRefusal (t : Txn) : Option Result :=
  if t.staged = t.length then none else some .lengthMismatch

/-- The quota check (R30): only where the commit makes a key PRESENT that is not. -/
def quotaRefusal (k : Key) (s : State) : Option Result :=
  match entryOf k s.engine.index with
  | some ⟨_, .present, _, _, _⟩ => none
  | _ => if (nsEntry s k.ns).quota ≤ presentIn k.ns s.engine.index then some .quota else none

/-- The index capacity check (R30): only where the key is ABSENT. -/
def capacityRefusal (k : Key) (s : State) : Option Result :=
  match entryOf k s.engine.index with
  | some _ => none
  | none => if 2048 ≤ entriesUsed s.engine.index then some .indexFull else none

/-- The commit begins: COMMITTING, and room asked for (R31). -/
def commitStart (p : Port) (s : State) : State :=
  let u := s.port p
  let t := s.setPort p { u with txn := { u.txn with state := .committing } }
  writeRoom ⟨p, u.generation, false, u.txn.key, u.txn.length, 1, ⟨0, 0⟩, 0, .room⟩ t

/-- PUT_COMMIT after its grant (R29 to R31). -/
def putCommitProcedure (p : Port) (s : State) : State :=
  let x := (s.port p).txn
  checked p
    [noTxnRefusal x, gateRefusal s, accessRefusal .write x.key.ns p s, lengthRefusal x,
      heldByOther p x.key s, conditionRefusal x.cond (entryOf x.key s.engine.index),
      quotaRefusal x.key s, capacityRefusal x.key s]
    (commitStart p) s

/-- PUT_COMMIT (R29). -/
def execPutCommit (p : Port) (s : State) : Host.Outcome State Fault Refusal :=
  .next (grantCommand .putCommit p (fun _ => putCommitProcedure p) s)

/-- PUT_CANCEL after its grant (R28). -/
def putCancelProcedure (p : Port) (s : State) : State :=
  if (s.port p).txn.state = .open_ then reply p .ok [] (closeTxn p s)
  else reply p .noTransaction [] s

/-- PUT_CANCEL (R28). -/
def execPutCancel (p : Port) (s : State) : Host.Outcome State Fault Refusal :=
  .next (grantCommand .putCancel p (fun _ => putCancelProcedure p) s)

/-- REMOVE's own checks on the key's entry (R45): NOT_FOUND unless PRESENT, then the condition. -/
def removeRefusal (c : Condition) (e : Option IndexEntry) : Option Result :=
  match e with
  | none => some .notFound
  | some e => if e.presence = .present then conditionRefusal c (some e) else some .notFound

/-- The remove begins: room of class REMOVE asked for (R46). -/
def removeStart (p : Port) (k : Key) (s : State) : State :=
  writeRoom ⟨p, (s.port p).generation, true, k, 0, 1, ⟨0, 0⟩, 0, .room⟩ s

/-- REMOVE after its grant (R45, R46). -/
def removeProcedure (p : Port) (f : Frame) (s : State) : State :=
  match removeParams f with
  | none => reply p .badParam [] s
  | some (k, c) =>
    checked p
      [gateRefusal s, accessRefusal .write k.ns p s, heldByOther p k s,
        removeRefusal c (entryOf k s.engine.index)]
      (removeStart p k) s

/-- REMOVE (R46). -/
def execRemove (p : Port) (s : State) : Host.Outcome State Fault Refusal :=
  .next (grantCommand .remove p (removeProcedure p) s)

end Sys2Proof.Machine
end

