-- ==== Sys2Proof/Machine/Dispatch.lean ====
section
/-! DEFINITION. The meaning of every command, one arm per row of spec/opcode_table.json. -/

namespace Sys2Proof.Machine

open Sys2Proof

def exec (i : Instr) (s : State) : Host.Outcome State Fault Refusal :=
  match i with
  | .fetch p => Sys2Proof.Machine.execFetch p s
  | .probe p => Sys2Proof.Machine.execProbe p s
  | .scan p => Sys2Proof.Machine.execScan p s
  | .putOpen p => Sys2Proof.Machine.execPutOpen p s
  | .putCommit p => Sys2Proof.Machine.execPutCommit p s
  | .putCancel p => Sys2Proof.Machine.execPutCancel p s
  | .remove p => Sys2Proof.Machine.execRemove p s
  | .leaseTake p => Sys2Proof.Machine.execLeaseTake p s
  | .leaseRenew p => Sys2Proof.Machine.execLeaseRenew p s
  | .leaseDrop p => Sys2Proof.Machine.execLeaseDrop p s
  | .watch p => Sys2Proof.Machine.execWatch p s
  | .unwatch p => Sys2Proof.Machine.execUnwatch p s
  | .storeQuery p => Sys2Proof.Machine.execStoreQuery p s
  | .storeTune p => Sys2Proof.Machine.execStoreTune p s
  | .reclaim p => Sys2Proof.Machine.execReclaim p s
  | .format p => Sys2Proof.Machine.execFormat p s
  | .nsSet p => Sys2Proof.Machine.execNsSet p s
  | .nsFreeze p => Sys2Proof.Machine.execNsFreeze p s
  | .teardownRequest p => Sys2Proof.Machine.execTeardownRequest p s
  | .relocate => Sys2Proof.Machine.execRelocate s
  | .purge => Sys2Proof.Machine.execPurge s
  | .allocationRequest r => Sys2Proof.Machine.execAllocationRequest r s
  | .readComplete first seen => Sys2Proof.Machine.execReadComplete first seen s
  | .programComplete pass left first => Sys2Proof.Machine.execProgramComplete pass left first s
  | .programTimeout left first => Sys2Proof.Machine.execProgramTimeout left first s
  | .eraseComplete pass left first => Sys2Proof.Machine.execEraseComplete pass left first s
  | .eraseTimeout left first => Sys2Proof.Machine.execEraseTimeout left first s
  | .timebaseStep => Sys2Proof.Machine.execTimebaseStep s
  | .leaseExpiry k => Sys2Proof.Machine.execLeaseExpiry k s
  | .cmd p b => Sys2Proof.Machine.execCmd p b s
  | .param p b => Sys2Proof.Machine.execParam p b s
  | .submit p b => Sys2Proof.Machine.execSubmit p b s
  | .resp p => Sys2Proof.Machine.execResp p s
  | .notice p => Sys2Proof.Machine.execNotice p s
  | .stage p b => Sys2Proof.Machine.execStage p b s
  | .flags p b => Sys2Proof.Machine.execFlags p b s
  | .portReset p rest => Sys2Proof.Machine.execPortReset p rest s
  | .interruptPolarity p rest => Sys2Proof.Machine.execInterruptPolarity p rest s
  | .registerWrite p offset b => Sys2Proof.Machine.execRegisterWrite p offset b s
  | .powerGoodFall p => Sys2Proof.Machine.execPowerGoodFall p s
  | .powerGoodRise p => Sys2Proof.Machine.execPowerGoodRise p s
  | .powerOnReset span sector => Sys2Proof.Machine.execPowerOnReset span sector s
  | .deviceReset held span sector => Sys2Proof.Machine.execDeviceReset held span sector s
  | .resetNRise => Sys2Proof.Machine.execResetNRise s

end Sys2Proof.Machine
end

