-- ==== Sys2Proof/WellFormed.lean ====
section
/-! DEFINITION. Which commands are well formed: the operand ranges that the types do not give. -/

namespace Sys2Proof

/-- The offsets whose write is REGISTER_WRITE: ENABLE, stored, and the read-only offsets, ignored
(R183). CMD, PARAM, SUBMIT, FLAGS, STAGE and CONTROL have rows of their own. -/
def plainOffset (o : Fin 16) : Bool :=
  ([3, 4, 5, 7, 9, 10, 11, 12, 14, 15] : List (Fin 16)).contains o

/-- A sector image names record granules 1 to 511 and byte offsets of those granules (R2, R139). -/
def SectorImage.wellFormed (i : SectorImage) : Bool :=
  i.recs.all (fun r => decide (1 ≤ r.1 ∧ r.1 ≤ 511)) &&
    i.bytes.all (fun b => decide (16 ≤ b.1 ∧ b.1 < 8192))

/-- An erase cut names record granules 1 to 511 and byte offsets of those granules (R2, R139). -/
def EraseCut.wellFormed (c : EraseCut) : Bool :=
  c.recs.all (fun r => decide (1 ≤ r.1 ∧ r.1 ≤ 511)) &&
    c.bytes.all (fun b => decide (16 ≤ b ∧ b < 8192))

/-- The partial contents of a sector under erase name record granules and byte offsets in the same ranges. -/
def UnderErase.wellFormed (u : UnderErase) : Bool :=
  u.cut.wellFormed && u.others.all (fun b => decide (16 ≤ b.1 ∧ b.1 < 8192))

/-- A program's span lies within one page of 128 bytes (R142). -/
def SpanLeft.wellFormed : SpanLeft → Bool
  | .neither bs => decide (bs.length ≤ 128)
  | .old => true
  | .new => true
  | .parts _ _ => true

/-- A program's operand: its span, and the partial contents of a sector under erase. -/
def ProgramLeft.wellFormed (l : ProgramLeft) : Bool := l.span.wellFormed && l.under.wellFormed

/-- The operand checks, command by command. -/
def Instr.wellFormed : Instr → Bool
  | .fetch _ | .probe _ | .scan _ | .putOpen _ | .putCommit _ | .putCancel _ | .remove _ => true
  | .leaseTake _ | .leaseRenew _ | .leaseDrop _ | .watch _ | .unwatch _ => true
  | .storeQuery _ | .storeTune _ | .reclaim _ | .format _ | .nsSet _ | .nsFreeze _ => true
  | .teardownRequest _ | .relocate | .purge | .allocationRequest _ => true
  | .readComplete _ seen => seen.wellFormed
  | .programComplete _ left _ => left.wellFormed
  | .programTimeout left _ => left.wellFormed
  | .eraseComplete _ left _ => left.wellFormed
  | .eraseTimeout left _ => left.wellFormed
  | .timebaseStep | .leaseExpiry _ => true
  | .cmd _ _ | .param _ _ | .submit _ _ | .resp _ | .notice _ | .stage _ _ | .flags _ _ => true
  | .portReset _ _ | .interruptPolarity _ _ => true
  | .registerWrite _ o _ => plainOffset o
  | .powerGoodFall _ | .powerGoodRise _ => true
  | .powerOnReset span sector => span.wellFormed && sector.wellFormed
  | .deviceReset _ span sector => span.wellFormed && sector.wellFormed
  | .resetNRise => true

end Sys2Proof
end

