-- ==== Sys2Proof/Safety.lean ====
section
/-! DEFINITION. The laws the spec states of the part, as predicates of a state, and the words that the
claims are written in: the grant of a frame, an answered command, the kinds of commands. -/

namespace Sys2Proof.Machine

open Sys2Proof

/-! ### Laws -/

/-- The staging law (R20, R22): no port has staged more than it declared, at most 1024 bytes, and a
transaction that is NONE has staged none. -/
def StagingLaw (s : State) : Prop :=
  ∀ p, (s.port p).txn.staged ≤ (s.port p).txn.length ∧ (s.port p).txn.length ≤ 1024 ∧
    ((s.port p).txn.state = .none_ → (s.port p).txn.staged = 0)

/-- The key of an entry whose kind coalesces (R93). -/
def entryChangeKey : NoticeEntry → Option Key
  | .notice n => changeKey n
  | .overflow _ => none

/-- An OVERFLOW entry. -/
def isOverflow : NoticeEntry → Bool
  | .overflow _ => true
  | .notice _ => false

/-- The queue law (R92, R95, R96): at most 16 entries, OVERFLOW only as the last of them and with a count
of 1 to 255, at most one CHANGED or DELETED entry per key among the unopened ones, at most seven
bytes of the head read, and none of an empty queue. -/
def QueueLaw (q : NoticeQueue) : Prop :=
  q.entries.length ≤ 16 ∧ (∀ e ∈ q.entries.dropLast, isOverflow e = false) ∧
    (∀ c, .overflow c ∈ q.entries → 1 ≤ c ∧ c ≤ 255) ∧
    ((unopened q).filterMap entryChangeKey).Nodup ∧ q.taken ≤ 7 ∧ (q.entries = [] → q.taken = 0)

/-- The queue law at every port. -/
def QueuesLaw (s : State) : Prop := ∀ p, QueueLaw (s.port p).queue

/-- The lease law (R63, R64, R65): at most 32 leases, one per key and in key order; at most 3 waiters, none
of them the holder and none twice; times of 1 to 65,535 ms; no port holds or awaits more than 8. -/
def LeaseLaw (ls : List Lease) : Prop :=
  ls.length ≤ 32 ∧ (ls.map (fun l => keyCode l.key)).Pairwise (· < ·) ∧
    (∀ l ∈ ls, l.waiters.length ≤ 3 ∧ (l.holder :: l.waiters.map Waiter.port).Nodup ∧
      1 ≤ l.remaining ∧ l.remaining ≤ 65535 ∧
      ∀ w ∈ l.waiters, 1 ≤ w.duration ∧ w.duration ≤ 65535) ∧
    ∀ p, holdCount p ls ≤ 8

/-- The watch law (R84): at most 64 entries, none twice, at most 16 of one port. -/
def WatchLaw (ws : List WatchEntry) : Prop :=
  ws.length ≤ 64 ∧ ws.Nodup ∧ ∀ p, watchCount p ws ≤ 16

/-- The entries of the Key Index are in key order, one per key (R9). -/
def IndexOrder (ix : List IndexEntry) : Prop := (ix.map (fun e => keyCode e.key)).Pairwise (· < ·)

/-- The low-water mark is a pool size from 3 to 16 (R116); the Evacuation List names no sector twice and at
most 8 (R120). -/
def SpaceLimits (x : Space) : Prop :=
  3 ≤ x.lowWater ∧ x.lowWater ≤ 16 ∧ x.evacuation.Nodup ∧ x.evacuation.length ≤ 8

/-! ### Kinds of commands -/

/-- The three resets: POWER_ON_RESET, DEVICE_RESET and RESET_N_RISE. -/
def isReset : Instr → Bool
  | .powerOnReset _ _ => true
  | .deviceReset _ _ _ => true
  | .resetNRise => true
  | _ => false

/-- The ends of an ERASE. -/
def endsErase : Instr → Bool
  | .eraseComplete _ _ _ => true
  | .eraseTimeout _ _ => true
  | _ => false

/-- The commands that can change the array: the ends of PROGRAM and ERASE, and the resets that cut one off. -/
def touchesArray : Instr → Bool
  | .programComplete _ _ _ => true
  | .programTimeout _ _ => true
  | .eraseComplete _ _ _ => true
  | .eraseTimeout _ _ => true
  | .powerOnReset _ _ => true
  | .deviceReset _ _ _ => true
  | _ => false

/-- The command that stands at the front of the queue has a property. -/
def frontIs (f : Instr → Bool) (s : State) : Prop := ∃ c rest, s.pending = c :: rest ∧ f c = true

/-- The row that grants a port's frame of a given code. -/
def grantOf : Code → Port → Instr
  | .fetch => .fetch
  | .probe => .probe
  | .scan => .scan
  | .putOpen => .putOpen
  | .putCommit => .putCommit
  | .putCancel => .putCancel
  | .remove => .remove
  | .leaseTake => .leaseTake
  | .leaseRenew => .leaseRenew
  | .leaseDrop => .leaseDrop
  | .watch => .watch
  | .unwatch => .unwatch
  | .storeQuery => .storeQuery
  | .storeTune => .storeTune
  | .reclaim => .reclaim
  | .format => .format
  | .nsSet => .nsSet
  | .nsFreeze => .nsFreeze

/-- A write access of port p. -/
def isWriteAt (p : Port) : Instr → Bool
  | .cmd q _ => q == p
  | .param q _ => q == p
  | .submit q _ => q == p
  | .stage q _ => q == p
  | .flags q _ => q == p
  | .portReset q _ => q == p
  | .interruptPolarity q _ => q == p
  | .registerWrite q _ _ => q == p
  | _ => false

/-- A read access of port p that has a row of its own. -/
def isReadAt (p : Port) : Instr → Bool
  | .resp q => q == p
  | .notice q => q == p
  | _ => false

/-- A power-good edge of port p. -/
def isEdgeAt (p : Port) : Instr → Bool
  | .powerGoodFall q => q == p
  | .powerGoodRise q => q == p
  | _ => false

/-! ### Grants and answers -/

/-- The three bytes of a key in a frame (R1). -/
def keyBytes (k : Key) : List Byte := byteOf k.ns.val :: le16 k.id.val

/-- The parameter bytes of a command are out of its range, by the frame layouts and the range check of each
command (R1, R14, R18, R24, R25, R45, R56, R61, R69, R86, R117). -/
def OutOfRange (c : Code) (ps : List Byte) : Prop :=
  let b := fun i => (ps.getD i 0).toNat
  let w := fun i => b i + 256 * b (i + 1)
  let badKey := 7 < b 0 ∨ 4095 < w 1
  let badMatch := fun i => b i = 2 ∧ w (i + 1) = 0 ∧ w (i + 3) = 0
  match c with
  | .fetch => badKey ∨ 1024 < w 3 ∨ b 5 = 0 ∨ 240 < b 5
  | .probe => badKey
  | .scan => 7 < b 0 ∨ 4095 < w 1 ∨ b 3 = 0 ∨ 40 < b 3
  | .putOpen => badKey ∨ 1024 < w 3 ∨ 2 < b 5 ∨ badMatch 5
  | .remove => badKey ∨ b 3 = 1 ∨ 2 < b 3 ∨ badMatch 3
  | .leaseTake => badKey ∨ w 3 = 0 ∨ 1 < b 5
  | .leaseRenew => badKey ∨ w 3 = 0
  | .leaseDrop => badKey
  | .watch => 7 < b 0 ∨ (4095 < w 1 ∧ w 1 ≠ 0xFFFF)
  | .unwatch => 7 < b 0 ∨ (4095 < w 1 ∧ w 1 ≠ 0xFFFF)
  | .storeTune => b 0 < 3 ∨ 16 < b 0
  | .nsSet => 7 < b 0 ∨ 15 < b 1 ∨ 15 < b 2 ∨ 2048 < w 3
  | .nsFreeze => 7 < b 0
  | .putCommit => False
  | .putCancel => False
  | .storeQuery => False
  | .reclaim => False
  | .format => False

/-- The arbiter chooses port p's frame now, and the frame is command c with these parameter bytes. -/
def FrameGranted (s : State) (p : Port) (c : Code) (params : List Byte) : Prop :=
  granted s = some (.command p) ∧ (s.port p).mailbox.frame = ⟨codeByte c, params, false⟩

/-- Port p's command is answered in the step of its grant: the pointer has moved past p (R178), and p's
mailbox is DONE with the response (R180); nothing else has changed. -/
def answered (p : Port) (bytes : List Byte) (s : State) : State :=
  { s with
    ports := s.ports.set p { s.port p with mailbox := ⟨.done, ⟨0, [], false⟩, bytes⟩ }
    engine := { s.engine with pointer := nextPort p } }

/-- Of the ERASED sectors, one of lowest erase count, and of those the lowest number (R105). -/
def LeastErased (x : Space) (i : Sector) : Prop :=
  (x.rec_ i).state = .erased ∧ ∀ m, (x.rec_ m).state = .erased →
    (x.rec_ i).eraseCount < (x.rec_ m).eraseCount ∨
      ((x.rec_ i).eraseCount = (x.rec_ m).eraseCount ∧ i ≤ m)

/-- The operation in a requester's place. -/
def opOf (r : Requester) (s : State) : Option ArrayOp := (s.ctl.place r).map ArrayRequest.op

/-- No activation programs on a requester's behalf. -/
def NoActivationFor (r : Requester) (s : State) : Prop :=
  ∀ a, s.space.activation = some a → activationRequester a.purpose ≠ r

/-- What a lease becomes at a step of the timebase: counted down; passed; or removed (R67, R73). -/
def leaseAfterStep (l : Lease) : List Lease :=
  if 1 < l.remaining then [{ l with remaining := l.remaining - 1 }]
  else
    match l.waiters with
    | [] => []
    | w :: ws => [⟨l.key, w.port, w.duration, ws⟩]

/-- The notices of one lease's expiry: LEASE_LOST to the holder, LEASE_GRANTED to the head waiter (R77). -/
def expiryNotices (l : Lease) : List (Port × Notice) :=
  (l.holder, .lost l.key) ::
    (match l.waiters with
      | [] => []
      | w :: _ => [(w.port, .granted l.key)])

/-- What passing leaves of a lease whose holder has gone, `kept` being the waiters that stay (R73). -/
def passedTo (kept : List Waiter) (k : Key) : List Lease :=
  match kept with
  | [] => []
  | w :: ws => [⟨k, w.port, w.duration, ws⟩]

/-- The notice of that passing: LEASE_GRANTED to the first waiter that stays (R73). -/
def passNotices (kept : List Waiter) (k : Key) : List (Port × Notice) :=
  match kept with
  | [] => []
  | w :: _ => [(w.port, .granted k)]

/-- A lease of a namespace after `dropped` ports lost their write right: their waiter places go, and a
dropped holder's lease passes to the first waiter that stays (R59). -/
def leaseAfterRevoke (ns : Fin 8) (dropped : Port → Bool) (l : Lease) : List Lease :=
  let kept := l.waiters.filter (fun w => !dropped w.port)
  if l.key.ns ≠ ns then [l]
  else if dropped l.holder then passedTo kept l.key else [{ l with waiters := kept }]

/-- The notices of that revocation: LEASE_LOST to each dropped waiter in queue order, then to a dropped
holder, then LEASE_GRANTED (R59). -/
def revokeNotices (ns : Fin 8) (dropped : Port → Bool) (l : Lease) : List (Port × Notice) :=
  let kept := l.waiters.filter (fun w => !dropped w.port)
  let lost := (l.waiters.filter (fun w => dropped w.port)).map (fun w => (w.port, Notice.lost l.key))
  if l.key.ns ≠ ns then []
  else if dropped l.holder then lost ++ (l.holder, .lost l.key) :: passNotices kept l.key else lost

/-- A lease after a teardown dropped port p (R80). -/
def leaseAfterTeardown (p : Port) (l : Lease) : List Lease :=
  let kept := l.waiters.filter (fun w => w.port != p)
  if l.holder = p then passedTo kept l.key else [{ l with waiters := kept }]

/-- The notices of that teardown (R80). -/
def teardownNotices (p : Port) (l : Lease) : List (Port × Notice) :=
  if l.holder = p then passNotices (l.waiters.filter (fun w => w.port != p)) l.key else []

/-- The notices of a lease that a FORMAT drops: LEASE_LOST to its waiters in queue order, then to its holder (R83). -/
def formatNotices (l : Lease) : List (Port × Notice) :=
  (l.waiters.map Waiter.port ++ [l.holder]).map (fun q => (q, .lost l.key))

/-- The notices of one lease at a step of the timebase. -/
def stepNotices (l : Lease) : List (Port × Notice) :=
  if 1 < l.remaining then [] else expiryNotices l

/-! ### The mount's last phases -/

/-- The accounts of a sector at the end of the record scan: the write pointer where its walk found the end of
its records, 0 where it was not walked; live what the index points at in it, the rest dead (R159). -/
def accountsFilled (ends : List (Sector × Nat)) (ix : List IndexEntry) (x : Space) (i : Sector) :
    SectorRecord :=
  let live := ((ix.filter (fun e => e.place.sector == i)).map (fun e => recordSize e.length)).sum
  let used := ((ends.find? (fun e => e.1 == i)).map Prod.snd).getD 0
  { x.rec_ i with pointer := used, live := live, dead := used - live }

/-- The end of a sector's records, for a sector in a table state whose walk ended in a mode: the granule before
the gap of an ACTIVE sector that ended in one, else 511 (R157, R159). -/
def endOfRecords (st : SectorState) (m : WalkMode) : Nat :=
  if st = .active then
    match m with
    | .gap start => start - 1
    | _ => 511
  else 511

/-- A closed sector's record: FULL, its remainder dead (R103, R161). -/
def closed (r : SectorRecord) : SectorRecord :=
  { r with state := .full, dead := r.dead + (511 - r.pointer), pointer := 511 }

/-- The command with which the record scan ends, and the Sector Table and ends of records that it leaves to
R159: the last READ of the last sector's walk, the FULL program of a last sector closed, or, where no
sector is scanned, the last identity program of header repair. -/
def ScanEnds (s : State) (c : Instr) (j : MountJob) (x : Space) (ends : List (Sector × Nat)) : Prop :=
  s.engine.job = .mount j ∧ s.ctl.erase = none ∧
    ((∃ (w : Walk) (first : Bool) (seen : SectorImage), j.phase = .scan w [] ∧
        s.ctl.serving = some (.engine, .read w.sector w.pos 1) ∧ c = .readComplete first seen ∧
        511 < (w.move (readGranule s.array w.sector w.pos)).pos ∧
        (∀ h, readGranule s.array w.sector w.pos = .header h → h.state ≠ some .valid) ∧
        ((s.space.rec_ w.sector).state ≠ .active ∨
          ∀ b, (w.move (readGranule s.array w.sector w.pos)).mode ≠ .broken b) ∧
        x = s.space ∧
        ends = (w.sector, endOfRecords (s.space.rec_ w.sector).state
          (w.move (readGranule s.array w.sector w.pos)).mode) :: j.ends) ∨
      (∃ (i : Sector) (pass first : Bool) (left : SpanLeft) (under : UnderErase),
        j.phase = .scanClose [] ∧
        s.ctl.serving = some (.engine, .programMark i .full) ∧
        (c = .programComplete pass ⟨left, under⟩ first ∨ c = .programTimeout ⟨left, under⟩ first) ∧
        x = s.space ∧ ends = j.ends) ∨
      ∃ (i : Sector) (n : EraseCount) (first : Bool) (left : SpanLeft) (under : UnderErase),
        j.phase = .repairIdentity i n ∧ j.scans = [] ∧
        (∀ l, i < l → repairOf j.survey s.space l = none) ∧
        s.ctl.serving = some (.engine, .programIdentity i n) ∧
        c = .programComplete true ⟨left, under⟩ first ∧ ends = j.ends ∧
        x = s.space.setRec i ⟨.erased, n, none, 0, 0, 0⟩)

/-- The mount has ended with these accounts, from a state that showed these causes: the Evacuation List and
the store state settled, and the Drain Unit's consideration taken (R162, R163). -/
def MountEnded (acct : Sector → SectorRecord) (spent noSpace : Bool) (s t : State) : Prop :=
  let retired := (allSectors.filter (fun i => (acct i).state == .retired)).length
  let work := (allSectors.filter
    (fun i => (acct i).state == .retired && decide (0 < (acct i).live))).take 8
  t.engine.job = .idle ∧ (∀ k, t.space.rec_ k = acct k) ∧ t.space.evacuation = work ∧
    (8 ≤ retired → t.space.store = .readOnly ∧ t.space.cause = some .retireLimit) ∧
    (retired < 8 → noSpace = true → t.space.store = .readOnly ∧ t.space.cause = some .noSpace) ∧
    (retired < 8 → noSpace = false → spent = true →
      t.space.store = .readOnly ∧ t.space.cause = some .counterLimit) ∧
    (retired < 8 → noSpace = false → spent = false → t.space.store = .ready) ∧
    (∀ p, (s.port p).link = .present → (t.port p).latched.storeChange = true) ∧
    t.drain.pendingConsideration = false ∧
    (∀ i is, work = i :: is → noSpace = false →
      t.space.store = .ready ∨ s.drain.pendingConsideration = true →
      t.drain.state = .evacuating ∧ t.drain.sector = some i ∧ opOf .drain t = some (.read i 1 1)) ∧
    (work = [] → t.space.store = .ready → (∃ i, (acct i).state = .draining) →
      t.drain.state = .reclaiming ∧ ∃ i, t.drain.sector = some i ∧ (acct i).state = .draining ∧
        opOf .drain t = some (.read i 1 1))

end Sys2Proof.Machine
end

