-- ==== Sys2Proof/Certificates/Slice0/Obligations.lean ====
section
/-! DEFINITION. The statements for the provers. -/

open Sys2Proof Sys2Proof.Machine

/-! ### The machine and its laws -/

/-- A step takes the command at the front of the queue and runs it with the queue's rest.
[95_what_each_step_holds] -/
def Obligations.StepRunsTheFrontCommand : Prop :=
  ∀ (c : Instr) (rest : List Instr) (s : State),
    s.pending = c :: rest → step s = exec c { s with pending := rest }

/-- On an empty queue one millisecond of active time passes for a running erase below its limit, and
nothing else changes: the model's choice, log 15. [R144, R148] -/
def Obligations.EmptyQueueStepAgesARunningErase : Prop :=
  ∀ (s : State), s.pending = [] →
    (∀ e, s.ctl.erase = some e → e.suspended = false → e.active < 120 →
      step s = .next
        { s with ctl := { s.ctl with erase := some { e with active := e.active + 1 } } }) ∧
    (∀ e, s.ctl.erase = some e → e.suspended = true ∨ 120 ≤ e.active → step s = .next s) ∧
    (s.ctl.erase = none → step s = .next s)

/-- Every command answers a next state, and leaves the commands that wait behind it alone. Model's
choice: log 1. [R173, R184, R185, R112] -/
def Obligations.EveryCommandAnswersANextState : Prop :=
  ∀ (c : Instr) (s : State), ∃ t, exec c s = .next t ∧ t.pending = s.pending

/-- The state right after reset meets the laws, and holds the reset values that the spec gives.
[R49, R116, R113, R178, R119, R192, R193, R21, R66, R85, R98] -/
def Obligations.ResetStateMeetsTheLaws : Prop :=
  State.reset.array.wf ∧ StagingLaw State.reset ∧ QueuesLaw State.reset ∧
    LeaseLaw State.reset.leases ∧ WatchLaw State.reset.watches ∧
    IndexOrder State.reset.engine.index ∧ SpaceLimits State.reset.space ∧
    State.reset.space.store = .mounting ∧ State.reset.space.lowWater = 4 ∧
    State.reset.engine.pointer = .A ∧ State.reset.drain.state = .idle ∧
    State.reset.ctl.drain = none ∧ State.reset.ctl.erase = none ∧
    (∀ ns, nsEntry State.reset ns = ⟨.undefined, 0, 0, 0⟩) ∧
    ∀ p, (State.reset.port p).generation = 0 ∧ (State.reset.port p).enable = 0 ∧
      (State.reset.port p).mailbox.state = .idle ∧ flagsByte (State.reset.port p) = 0

/-- Every step keeps the array's lists in their canonical form. Model's choice: log 4. [R139, R140
to R144, R152] -/
def Obligations.ArrayStaysCanonical : Prop :=
  ∀ (s t : State), s.array.wf → step s = .next t → t.array.wf

/-- A FROZEN namespace keeps its rights at every step but a power-on reset, which makes every
namespace UNDEFINED; an NS_SET on it is refused with FROZEN; and nothing but NS_SET, NS_FREEZE and
the power-on reset changes the Namespace Table at all. [R62, R49] -/
def Obligations.FrozenNamespaceKeepsItsRights : Prop :=
  (∀ (s t : State) (ns : Fin 8), step s = .next t → (nsEntry s ns).state = .frozen →
    ¬ frontIs (fun c => match c with
      | .powerOnReset _ _ => true
      | _ => false) s →
    nsEntry t ns = nsEntry s ns) ∧
  (∀ (s t : State) (span : SpanLeft) (sector : EraseCut) (ns : Fin 8),
    exec (.powerOnReset span sector) s = .next t → nsEntry t ns = ⟨.undefined, 0, 0, 0⟩) ∧
  (∀ (s : State) (ns : Fin 8) (r w : PortSet) (q : Nat), q ≤ 2048 →
    FrameGranted s .A .nsSet ([byteOf ns.val, byteOf r.toNat, byteOf w.toNat] ++ le16 q) →
    (nsEntry s ns).state = .frozen → exec (.nsSet .A) s = .next (answered .A [0x33] s)) ∧
  ∀ (s t : State), step s = .next t →
    ¬ frontIs (fun c => match c with
      | .nsSet _ => true
      | .nsFreeze _ => true
      | .powerOnReset _ _ => true
      | _ => false) s →
    t.engine.names = s.engine.names

/-- Every step keeps the staging law. [R20 to R23, R25, R27, R28] -/
def Obligations.StagingLawIsKept : Prop :=
  ∀ (s t : State), StagingLaw s → step s = .next t → StagingLaw t

/-- Every step keeps the law of the notice queues. [R92 to R98] -/
def Obligations.NoticeQueueLawIsKept : Prop :=
  ∀ (s t : State), QueuesLaw s → step s = .next t → QueuesLaw t

/-- Every step keeps the laws of the Lease Table and of the Watch Table. [R63 to R65, R67, R70 to R75,
R80, R59, R83; R84 to R88, R60] -/
def Obligations.LeaseAndWatchLawsAreKept : Prop :=
  (∀ (s t : State), LeaseLaw s.leases → step s = .next t → LeaseLaw t.leases) ∧
  ∀ (s t : State), WatchLaw s.watches → step s = .next t → WatchLaw t.watches

/-- Every step keeps the Key Index in key order with one entry per key. [R9, R10, R128, R131, R157,
R158] -/
def Obligations.IndexOrderIsKept : Prop :=
  ∀ (s t : State), IndexOrder s.engine.index → step s = .next t → IndexOrder t.engine.index

/-- Every step keeps the low-water mark within 3 to 16 and the Evacuation List short and without
repeats. [R116, R117, R120, R112] -/
def Obligations.SpaceLimitsAreKept : Prop :=
  ∀ (s t : State), SpaceLimits s.space → step s = .next t → SpaceLimits t.space

/-- Outside a mount and a reset the commit counter never falls. A port's generation count changes at
a teardown's beginning, by 1, and at a reset, to 0, and never else. [R6, R7, R169; R180, R190, R191,
R193] -/
def Obligations.CountersMoveByTheirRules : Prop :=
  (∀ (s t : State), step s = .next t → ¬ frontIs isReset s →
    (∀ j, s.engine.job ≠ .mount j) → s.engine.counter.toNat ≤ t.engine.counter.toNat) ∧
  ∀ (s t : State) (p : Port), step s = .next t →
    (t.port p).generation = (s.port p).generation ∨
    ((s.port p).link = .present ∧ (t.port p).link = .teardown ∧
      (t.port p).generation = (s.port p).generation + 1) ∨
    (frontIs isReset s ∧ (t.port p).generation = 0)

/-- The array changes only at the end of a PROGRAM or an ERASE, or where a reset cuts one off; a byte that
is not 0FFH becomes 0FFH, but in a granule that then holds a header, and a granule that is not erased
becomes erased, only at the end of an ERASE, or in a sector under erase; and a record becomes VALID
only where its program completes, or where a reset cuts it off. Model's choice: log 5, log 34, log 43.
[R139, R140 to R144, R150, R152, R8] -/
def Obligations.ArrayChangesOnlyByItsOperations : Prop :=
  (∀ (s t : State), step s = .next t → ¬ frontIs touchesArray s → t.array = s.array) ∧
  (∀ (s t : State), step s = .next t → ¬ frontIs endsErase s →
    (∀ addr, (∀ e, s.ctl.erase = some e → addr / 8192 ≠ e.sector.val) →
      cellAt (addr / 16) t.array.recs = none → shownByte s.array addr ≠ 0xFF →
      shownByte t.array addr ≠ 0xFF) ∧
    ∀ (i : Sector) (g : Nat),
      (∀ e, s.ctl.erase = some e → granuleNumber i g / 512 ≠ e.sector.val) →
      readGranule s.array i g ≠ .erased → readGranule t.array i g ≠ .erased) ∧
  ∀ (s t : State) (p : Place), step s = .next t → ¬ frontIs isReset s →
    ¬ frontIs (fun c => match c with
      | .programComplete _ _ _ => true
      | _ => false) s →
    recStateAt t.array p = some .valid → recStateAt s.array p = some .valid

/-- A PROGRAM's outcome is what the read-back finds, and a timeout leaves a failed program, both over the
array's contents, or in a sector under erase over its partial contents, which then stand until the
erase resumes. A state field asked to move backward fails and does not move; one asked for the value it
holds passes and keeps it; one that reads as no value takes what is asked where its cells do, and after a
PROGRAM that passed it reads as asked, over an erased granule too; a VALID program that fails leaves no
VALID record; a record header, which asks
for ALLOCATED, fails over a VALID or SUPERSEDED record; a payload program passes exactly where its span
then reads the bytes requested, leaves no header in its span, and fails where it asks a header granule
for 0FFH.
Model's choice: log 4 and log 5 (a header granule under a payload program), log 6, log 8 (a sector under
erase), log 9, log 43. [R140, R142, R143, R150, R4, R8] -/
def Obligations.ProgramOutcomesFollowTheReadBack : Prop :=
  (∀ (s : State) (r : Requester) (op : ArrayOp) (pass first : Bool) (left : SpanLeft)
    (under : UnderErase) (m : ArrayContents),
    s.ctl.serving = some (r, op) → isProgram op = true → m = metBy s op under →
    (∃ t, exec (.programComplete pass ⟨left, under⟩ first) s = .next t ∧
      t.array = if programPasses m pass left op then programPassed m op
        else programFailed m left op) ∧
    (∃ t, exec (.programTimeout ⟨left, under⟩ first) s = .next t ∧
      t.array = programFailed m left op) ∧
    (s.ctl.erase = none → m = s.array) ∧
    ∀ e, s.ctl.erase = some e →
      (opSector op ≠ e.sector.val ∨ (e.suspended = true ∧ e.shown = true) → m = s.array) ∧
      (opSector op = e.sector.val → ¬ (e.suspended = true ∧ e.shown = true) →
        m = partlyErased s.array e.sector under)) ∧
  (∀ (a : ArrayContents) (pass : Bool) (left : SpanLeft) (addr : Nat) (bs : List Byte) (op : ArrayOp),
    op = .programBytes addr bs →
    (programPasses a pass left op = true ↔
      shownBytes (if programPasses a pass left op then programPassed a op
        else programFailed a left op) addr bs.length = bs) ∧
    (∀ n, addr / 16 ≤ n → n * 16 < addr + bs.length → bs ≠ [] →
      cellAt n (programPassed a op).recs = none) ∧
    (∀ n c, cellAt n a.recs = some c → addr = n * 16 → bs = List.replicate 16 0xFF →
      programPasses a pass left op = false)) ∧
  (∀ (a : ArrayContents) (pass : Bool) (left : SpanLeft) (p : Place) (st old : RecState) (op : ArrayOp),
    op = .programState p st → recStateAt a p = some old →
    (recRank st < recRank old → programPasses a pass left op = false ∧
      (recStateAt (programFailed a left op) p = some old ∨
        recStateAt (programFailed a left op) p = none)) ∧
    (st = old → programPasses a pass left op = true ∧
      recStateAt (programPassed a op) p = some old) ∧
    (st = .valid → old ≠ .valid → recStateAt (programFailed a left op) p ≠ some .valid) ∧
    (recRank old < recRank st → programPasses a true left op = true)) ∧
  (∀ (a : ArrayContents) (left : SpanLeft) (p : Place) (st : RecState) (op : ArrayOp),
    op = .programState p st →
    recStateAt (programPassed a op) p = some st ∧
    (recStateAt a p = none → programPasses a true left op = true)) ∧
  (∀ (a : ArrayContents) (pass : Bool) (left : SpanLeft) (p : Place) (h : RecHeader) (op : ArrayOp),
    op = .programHeader p h → h.state = some .allocated →
    (∀ old, recStateAt a p = some old → old ≠ .allocated → programPasses a pass left op = false) ∧
    (recStateAt a p = none ∨ recStateAt a p = some .allocated →
      programPasses a true left op = true)) ∧
  ∀ (a : ArrayContents) (pass : Bool) (left : SpanLeft) (i : Sector) (m old : SectorMark)
    (op : ArrayOp), op = .programMark i m → (sectorHeader a i).mark = some old →
    (m = old → programPasses a pass left op = true ∧
      (sectorHeader (programPassed a op) i).mark = some old) ∧
    (m ≠ old → m ∉ [SectorMark.discarded, .retired] → markRank m ≤ markRank old →
      programPasses a pass left op = false ∧
        (sectorHeader (programFailed a left op) i).mark ∈ [some old, none]) ∧
    (m ∈ [SectorMark.discarded, .retired] ∨ markRank old < markRank m →
      programPasses a true left op = true)

/-- While a request is RUNNING, the store is MOUNTING or FORMATTING, or RESET_N is low, nothing is
granted: the twenty-one grants find nothing to take and change nothing. Model's choice: log 1.
[R177, R175, R194] -/
def Obligations.NothingIsGrantedWhileTheEngineIsHeld : Prop :=
  ∀ (s : State),
    s.engine.job ≠ .idle ∨ s.space.store = .mounting ∨ s.space.store = .formatting ∨
      s.resetLow = true →
    (∀ (c : Code) (p : Port), exec (grantOf c p) s = .next s) ∧
    (∀ p, exec (.teardownRequest p) s = .next s) ∧
    exec .relocate s = .next s ∧ exec .purge s = .next s

/-! ### The arbiters and the checks of a frame -/

/-- The arbiters. The engine's: teardowns by lowest port, then the Drain Unit's request, then the port
commands in the order that begins at the pointer. The array's: a free array starts the engine's
waiting request first; a running erase below 64 suspensions and 120 ms of active time is suspended
for a READ or PROGRAM; at 64 it is not; a suspension with nothing waiting ends. Model's choice: an
erase stopped at 120 ms holds the array until ERASE_TIMEOUT reports it, and nothing suspends it, log
15. [R177, R178; R144, R146 to R149] -/
def Obligations.ArbitersChooseInOrder : Prop :=
  (∀ (s : State), engineFree s = true →
    (∀ p, (s.port p).link = .teardown →
      (∀ q, portNumber q < portNumber p → (s.port q).link ≠ .teardown) →
      granted s = some (.teardown p)) ∧
    ((∀ q, (s.port q).link ≠ .teardown) →
      (s.drain.request ≠ none → granted s = some .drain) ∧
      (s.drain.request = none →
        (∀ p, (s.port p).mailbox.state = .waiting →
          (∀ q, (portNumber q + 4 - portNumber s.engine.pointer) % 4 <
              (portNumber p + 4 - portNumber s.engine.pointer) % 4 →
            (s.port q).mailbox.state ≠ .waiting) →
          granted s = some (.command p)) ∧
        ((∀ p, (s.port p).mailbox.state ≠ .waiting) → granted s = none)))) ∧
  ∀ (c : Controller), c.serving = none →
    (∀ op, c.erase = none → c.engine = some ⟨op, false⟩ → c.run = c.start .engine) ∧
    (∀ op, c.erase = none → (∀ q, c.engine ≠ some ⟨q, false⟩) → c.drain = some ⟨op, false⟩ →
      c.run = c.start .drain) ∧
    (∀ op e, c.erase = some e → e.suspended = false → e.count < 64 → e.active < 120 →
      isErase op = false → c.engine = some ⟨op, false⟩ →
      c.run = { c with
        engine := some ⟨op, true⟩
        erase := some { e with suspended := true, count := e.count + 1, shown := false } }) ∧
    (∀ op e, c.erase = some e → e.suspended = false → 64 ≤ e.count ∨ 120 ≤ e.active →
      c.engine = some ⟨op, false⟩ → c.run = c) ∧
    (∀ op e, c.erase = some e → e.suspended = true → isErase op = false →
      c.engine = some ⟨op, false⟩ → c.run = { c with engine := some ⟨op, true⟩ }) ∧
    (∀ e, c.erase = some e → waitsIn true c.engine = false → waitsIn true c.drain = false →
      c.run = { c with erase := some { e with suspended := false } })

/-- The first three checks of a granted frame, in their order: BAD_COMMAND, BAD_LENGTH,
NOT_SUPERVISOR. Model's choice: log 32, log 2. [R173, R172, R179, R180] -/
def Obligations.FirstThreeFrameChecks : Prop :=
  ∀ (s : State) (p : Port), granted s = some (.command p) →
    (codeOf (s.port p).mailbox.frame.code = none → (s.port p).mailbox.frame.overLong = false →
      ∀ c, exec (grantOf c p) s = .next (answered p [0x50] s)) ∧
    ∀ c, codeOf (s.port p).mailbox.frame.code = some c →
      ((s.port p).mailbox.frame.overLong = true ∨
          (s.port p).mailbox.frame.params.length ≠ paramCount c →
        exec (grantOf c p) s = .next (answered p [0x51] s)) ∧
      ((s.port p).mailbox.frame.overLong = false →
        (s.port p).mailbox.frame.params.length = paramCount c →
        supervisorOnly c = true → p ≠ .A → exec (grantOf c p) s = .next (answered p [0x34] s))

/-- The range check of every command that has one: a frame of the right length, from a port that may
issue it, whose parameters are out of range is answered BAD_PARAM, in whatever state the namespace,
the transaction and the store are. [R1, R14, R18, R24, R25, R45, R56, R61, R69, R86, R117, R173] -/
def Obligations.ParametersOutOfRangeAreRefused : Prop :=
  ∀ (s : State) (p : Port) (c : Code) (params : List Byte),
    FrameGranted s p c params → params.length = paramCount c →
    (supervisorOnly c = true → p = .A) → OutOfRange c params →
    exec (grantOf c p) s = .next (answered p [0x52] s)

/-- In READ_ONLY the writes and RECLAIM are answered READ_ONLY, whatever the condition: PUT_OPEN with no
transaction in hand, PUT_COMMIT with one open, REMOVE, and port A's RECLAIM. [R175, R113] -/
def Obligations.ReadOnlyStoreRefusesWrites : Prop :=
  ∀ (s : State) (p : Port) (k : Key) (cb : Byte) (v : Word32), s.space.store = .readOnly →
    (∀ L : Nat, L ≤ 1024 → cb = 0 ∨ cb = 1 ∨ (cb = 2 ∧ v ≠ 0) → (s.port p).txn.state = .none_ →
      FrameGranted s p .putOpen (keyBytes k ++ le16 L ++ [cb] ++ le32 v.toNat) →
      exec (.putOpen p) s = .next (answered p [0x41] s)) ∧
    ((s.port p).txn.state = .open_ → FrameGranted s p .putCommit [] →
      exec (.putCommit p) s = .next (answered p [0x41] s)) ∧
    (cb = 0 ∨ (cb = 2 ∧ v ≠ 0) → FrameGranted s p .remove (keyBytes k ++ [cb] ++ le32 v.toNat) →
      exec (.remove p) s = .next (answered p [0x41] s)) ∧
    (FrameGranted s .A .reclaim [] → exec (.reclaim .A) s = .next (answered .A [0x41] s))

/-- A command whose parameters are in range, on a namespace that is UNDEFINED, is answered NO_NAMESPACE;
on one whose set lacks the port, NO_ACCESS: by the read set for FETCH, PROBE, SCAN and WATCH, by the
write set for LEASE_TAKE, PUT_OPEN, PUT_COMMIT and REMOVE, and never for LEASE_RENEW, LEASE_DROP and
UNWATCH. The three writes come to this check in a READY store, PUT_OPEN without a transaction,
PUT_COMMIT with one open, whose namespace it is. [R51, R52, R26, R29, R45, R69, R86, R87] -/
def Obligations.NamespaceChecksRefuse : Prop :=
  ∀ (s : State) (p : Port) (ns : Fin 8) (c : Code) (params : List Byte),
    FrameGranted s p c params → params.length = paramCount c → ¬ OutOfRange c params →
    ((c ∈ [Code.fetch, .probe, .scan, .watch, .unwatch, .leaseTake, .leaseRenew, .leaseDrop] ∨
          (c = .remove ∧ s.space.store = .ready) ∨
          (c = .putOpen ∧ s.space.store = .ready ∧ (s.port p).txn.state = .none_)) ∧
        (params.getD 0 0).toNat = ns.val) ∨
      (c = .putCommit ∧ s.space.store = .ready ∧ (s.port p).txn.state = .open_ ∧
        (s.port p).txn.key.ns = ns) →
    ((nsEntry s ns).state = .undefined → exec (grantOf c p) s = .next (answered p [0x30] s)) ∧
    ((nsEntry s ns).state ≠ .undefined →
      (hasPort (nsEntry s ns).readers p = false → c ∈ [Code.fetch, .probe, .scan, .watch] →
        exec (grantOf c p) s = .next (answered p [0x31] s)) ∧
      (hasPort (nsEntry s ns).writers p = false →
        c ∈ [Code.leaseTake, .putOpen, .putCommit, .remove] →
        exec (grantOf c p) s = .next (answered p [0x31] s)))

/-! ### The window -/

/-- An access at one port changes that port's unit and nothing else of the part; one that is not
taken changes nothing, and its data lines stay high-impedance. Model's choice: log 21. [R183, R190,
R194] -/
def Obligations.HostAccessIsLocalToItsPort : Prop :=
  ∀ (s : State) (p : Port) (i : Instr),
    (isWriteAt p i = true ∨ isReadAt p i = true ∨ isEdgeAt p i = true →
      ∃ u, exec i s = .next (s.setPort p u)) ∧
    (busTaken s p = false →
      (isWriteAt p i = true → exec i s = .next s) ∧
      (isReadAt p i = true → exec i s = .next (s.setPort p { s.port p with dataOut := none })))

/-- The mailbox's write side, by link state and mailbox state: CMD begins a frame with any code byte;
PARAM appends to a frame being filled, the seventeenth byte and later ones marking it over-long;
SUBMIT makes it wait with its bytes; a write that is refused latches COLLISION; and a read of CMD
counts the frame's bytes. [R184, R185] -/
def Obligations.CmdParamAndSubmitBuildTheFrame : Prop :=
  ∀ (s : State) (p : Port) (b : Byte) (u : PortUnit), u = s.port p → busTaken s p = true →
    (u.link = .teardown → exec (.cmd p b) s = .next
      (s.setPort p { u with latched := { u.latched with collision := true } })) ∧
    (u.link = .present →
      (u.mailbox.state = .idle ∨ u.mailbox.state = .filling → exec (.cmd p b) s = .next
        (s.setPort p { u with mailbox := ⟨.filling, ⟨b, [], false⟩, []⟩ })) ∧
      (u.mailbox.state = .waiting ∨ u.mailbox.state = .running → exec (.cmd p b) s = .next
        (s.setPort p { u with latched := { u.latched with collision := true } })) ∧
      (u.mailbox.state = .done → exec (.cmd p b) s = .next
        (s.setPort p { u with
          mailbox := ⟨.filling, ⟨b, [], false⟩, []⟩
          latched := { u.latched with responseLost := true } }))) ∧
    (∀ st : StoreState,
      (u.mailbox.state = .idle ∨ u.mailbox.state = .done → windowRead st p u 0 = 0) ∧
      (u.mailbox.state = .filling ∨ u.mailbox.state = .waiting ∨ u.mailbox.state = .running →
        windowRead st p u 0 =
          if u.mailbox.frame.overLong then 17 else byteOf u.mailbox.frame.params.length)) ∧
    (u.link = .present → u.mailbox.state = .filling →
      (u.mailbox.frame.params.length < 16 → exec (.param p b) s = .next
        (s.setPort p { u with mailbox := { u.mailbox with
          frame := { u.mailbox.frame with params := u.mailbox.frame.params ++ [b] } } })) ∧
      (16 ≤ u.mailbox.frame.params.length → exec (.param p b) s = .next
        (s.setPort p { u with mailbox := { u.mailbox with
          frame := { u.mailbox.frame with overLong := true } } })) ∧
      exec (.submit p b) s = .next
        (s.setPort p { u with mailbox := { u.mailbox with state := .waiting } })) ∧
    (u.link = .teardown ∨ u.mailbox.state ≠ .filling →
      exec (.param p b) s = .next
        (s.setPort p { u with latched := { u.latched with collision := true } }) ∧
      exec (.submit p b) s = .next
        (s.setPort p { u with latched := { u.latched with collision := true } }))

/-- A STAGE byte goes to the position that the staged count gives while the transaction is OPEN and
short of its declared length; in every other case it is dropped and STAGE_OVERRUN is latched. [R22]
-/
def Obligations.StageByteIsPlacedOrDropped : Prop :=
  ∀ (s : State) (p : Port) (b : Byte) (u : PortUnit), u = s.port p → busTaken s p = true →
    (u.txn.state = .open_ → u.txn.staged < u.txn.length → u.txn.length ≤ 1024 →
      ∃ t, exec (.stage p b) s = .next t ∧
        t = s.setPort p { u with
          buffer := (t.port p).buffer
          txn := { u.txn with staged := u.txn.staged + 1 } } ∧
        ∀ j : Fin 1024, (t.port p).buffer[j] = if j.val = u.txn.staged then b else u.buffer[j]) ∧
    (u.txn.state ≠ .open_ ∨ u.txn.length ≤ u.txn.staged →
      exec (.stage p b) s = .next
        (s.setPort p { u with latched := { u.latched with stageOverrun := true } }))

/-- RESP in DONE returns the next byte and takes it, the last one leaving the mailbox IDLE; elsewhere it
returns 0FFH and latches UNDERRUN. NOTICE returns the head entry's bytes one after another, the
eighth read removing the entry; an empty queue gives 00H and UNDERRUN. Model's choice: the field
dataOut, log 21. [R186, R92, R96] -/
def Obligations.RespAndNoticeReadsTakeOneByte : Prop :=
  (∀ (s : State) (p : Port) (u : PortUnit), u = s.port p → busTaken s p = true →
    (∀ b b' rest, u.mailbox.state = .done → u.mailbox.response = b :: b' :: rest →
      exec (.resp p) s = .next (s.setPort p { u with
        mailbox := { u.mailbox with response := b' :: rest }
        dataOut := some b })) ∧
    (∀ b, u.mailbox.state = .done → u.mailbox.response = [b] →
      exec (.resp p) s = .next (s.setPort p { u with
        mailbox := ⟨.idle, ⟨0, [], false⟩, []⟩
        dataOut := some b })) ∧
    (u.mailbox.state ≠ .done →
      exec (.resp p) s = .next (s.setPort p { u with
        latched := { u.latched with underrun := true }
        dataOut := some 0xFF })) ∧
    (∀ e es, u.queue.entries = e :: es →
      (u.queue.taken < 7 → exec (.notice p) s = .next (s.setPort p { u with
        queue := { u.queue with taken := u.queue.taken + 1 }
        dataOut := some ((entryBytes e).getD u.queue.taken 0) })) ∧
      (u.queue.taken = 7 → exec (.notice p) s = .next (s.setPort p { u with
        queue := ⟨es, 0⟩
        dataOut := some ((entryBytes e).getD 7 0) }))) ∧
    (u.queue.entries = [] → exec (.notice p) s = .next (s.setPort p { u with
      latched := { u.latched with underrun := true }
      dataOut := some 0 }))) ∧
  (∀ k v, entryBytes (.notice (.changed k v)) =
    [0x01, byteOf k.ns.val, byteOf k.id.val, byteOf (k.id.val / 256)] ++ le32 v.toNat) ∧
  (∀ k v, entryBytes (.notice (.deleted k v)) =
    [0x02, byteOf k.ns.val, byteOf k.id.val, byteOf (k.id.val / 256)] ++ le32 v.toNat) ∧
  (∀ k, entryBytes (.notice (.granted k)) =
    [0x03, byteOf k.ns.val, byteOf k.id.val, byteOf (k.id.val / 256), 0, 0, 0, 0]) ∧
  (∀ k, entryBytes (.notice (.lost k)) =
    [0x04, byteOf k.ns.val, byteOf k.id.val, byteOf (k.id.val / 256), 0, 0, 0, 0]) ∧
  ∀ n, entryBytes (.overflow n) = [0x05, 0, 0, 0, byteOf n, 0, 0, 0]

/-- A write to FLAGS clears each latched flag whose bit is 1 and leaves every other bit of FLAGS; ENABLE
stores the byte written. The interrupt line is high-impedance with RESET_N low, at an ABSENT port and
at one in TEARDOWN without power; else it is active, at the level of its polarity, while a flag is
set whose enable is set. [R183, R188, R189, R194] -/
def Obligations.FlagsEnableAndTheInterruptLine : Prop :=
  (∀ (s : State) (p : Port) (b : Byte), busTaken s p = true →
    (∃ t, exec (.flags p b) s = .next t ∧
      t = s.setPort p { s.port p with latched := (t.port p).latched } ∧
      flagsByte (t.port p) = flagsByte (s.port p) &&& (~~~ b ||| 0x03)) ∧
    exec (.registerWrite p 7 b) s = .next (s.setPort p { s.port p with enable := b })) ∧
  ∀ (low : Bool) (u : PortUnit),
    (low = true ∨ u.link = .absent ∨ (u.link = .teardown ∧ u.powerGood = false) →
      irqLine low u = .highZ) ∧
    (low = false → u.link = .present ∨ (u.link = .teardown ∧ u.powerGood = true) →
      ((∃ n, n < 8 ∧ (flagsByte u).getLsbD n = true ∧ u.enable.getLsbD n = true) →
        irqLine low u = if u.activeLow then .low else .high) ∧
      ((∀ n, n < 8 → (flagsByte u).getLsbD n = true → u.enable.getLsbD n = false) →
        irqLine low u = if u.activeLow then .high else .low))

/-- CONTROL with bit 0 set begins a teardown of a PRESENT port, all its changes in one step, and is
ignored in TEARDOWN; with bit 0 clear it sets the polarity to bit 1. [R189, R190, R191, R21] -/
def Obligations.ControlWriteResetsOrSetsPolarity : Prop :=
  ∀ (s : State) (p : Port) (rest : BitVec 7) (u : PortUnit), u = s.port p → busTaken s p = true →
    (u.link = .present → exec (.portReset p rest) s = .next (s.setPort p { u with
      mailbox := ⟨.idle, ⟨0, [], false⟩, []⟩
      generation := u.generation + 1
      queue := ⟨[], 0⟩
      latched := ⟨false, false, false, false, false, false⟩
      enable := 0
      activeLow := false
      txn := if u.txn.state = .open_ then { u.txn with state := .none_, staged := 0 } else u.txn
      link := .teardown })) ∧
    (u.link = .teardown → exec (.portReset p rest) s = .next s) ∧
    exec (.interruptPolarity p rest) s =
      .next (s.setPort p { u with activeLow := rest.getLsbD 0 })

/-- The window's table: what a read access of each offset finds, on data lines that are driven exactly
where the access is taken; a write to a read-only offset changes nothing. [R183, R186, R188, R190,
R194] -/
def Obligations.WindowReadsByTheTable : Prop :=
  (∀ (s : State) (p : Port) (o : Fin 16),
    (s.resetLow = false → (s.port p).powerGood = true → (s.port p).link ≠ .absent →
      dataLines s p o = some (windowRead s.space.store p (s.port p) o)) ∧
    (s.resetLow = true ∨ (s.port p).powerGood = false ∨ (s.port p).link = .absent →
      dataLines s p o = none)) ∧
  (∀ (st : StoreState) (p : Port) (u : PortUnit),
    windowRead st p u 1 = 0 ∧ windowRead st p u 2 = 0 ∧ windowRead st p u 8 = 0 ∧
    (∀ b bs, u.mailbox.state = .done → u.mailbox.response = b :: bs → windowRead st p u 3 = b) ∧
    (u.mailbox.state ≠ .done → windowRead st p u 3 = 0xFF) ∧
    windowRead st p u 4 =
      (if u.mailbox.state = .done then byteOf u.mailbox.response.length else 0) ∧
    windowRead st p u 5 = byteOf (
      (match u.mailbox.state with
        | .idle => 0
        | .filling => 1
        | .waiting => 2
        | .running => 3
        | .done => 4) +
      (if u.link = .teardown then 8 else 0) +
      (match u.txn.state with
        | .none_ => 0
        | .open_ => 16
        | .committing => 32) +
      (match st with
        | .mounting => 0
        | .ready => 64
        | .readOnly => 128
        | .formatting => 192)) ∧
    windowRead st p u 6 = flagsByte u ∧
    ((flagsByte u).getLsbD 0 = true ↔ u.mailbox.state = .done) ∧
    ((flagsByte u).getLsbD 1 = true ↔ u.queue.entries ≠ []) ∧
    (flagsByte u).getLsbD 2 = u.latched.collision ∧
    (flagsByte u).getLsbD 3 = u.latched.responseLost ∧
    (flagsByte u).getLsbD 4 = u.latched.underrun ∧
    (flagsByte u).getLsbD 5 = u.latched.stageOverrun ∧
    (flagsByte u).getLsbD 6 = u.latched.storeChange ∧
    (flagsByte u).getLsbD 7 = u.latched.teardownDone ∧
    windowRead st p u 7 = u.enable ∧
    windowRead st p u 9 = byteOf u.txn.staged ∧
    windowRead st p u 10 = byteOf (u.txn.staged / 256) ∧
    (∀ e es, u.queue.entries = e :: es →
      windowRead st p u 11 = (entryBytes e).getD u.queue.taken 0) ∧
    (u.queue.entries = [] → windowRead st p u 11 = 0) ∧
    windowRead st p u 12 = byteOf u.queue.entries.length ∧
    windowRead st p u 13 = (if u.activeLow then 2 else 0) ∧
    windowRead st p u 14 = 0x28 ∧ windowRead st p u 15 = byteOf (portNumber p)) ∧
  ∀ (s : State) (p : Port) (b : Byte) (o : Fin 16), busTaken s p = true →
    o ∈ ([3, 4, 5, 9, 10, 11, 12, 14, 15] : List (Fin 16)) →
    exec (.registerWrite p o b) s = .next s

/-- Power-good edges with RESET_N high: the fall begins a teardown of a PRESENT port and is noted
elsewhere, and the data lines are high-impedance from then on; the rise brings an ABSENT port back
PRESENT with its window at reset values, its generation kept, and is noted elsewhere. Model's choice:
the field dataOut, log 21. [R190, R191, R192] -/
def Obligations.PowerGoodEdgesMoveTheLink : Prop :=
  ∀ (s : State) (p : Port) (u : PortUnit), u = s.port p → s.resetLow = false →
    (u.link = .present → exec (.powerGoodFall p) s = .next (s.setPort p { u with
      mailbox := ⟨.idle, ⟨0, [], false⟩, []⟩
      generation := u.generation + 1
      queue := ⟨[], 0⟩
      latched := ⟨false, false, false, false, false, false⟩
      enable := 0
      activeLow := false
      txn := if u.txn.state = .open_ then { u.txn with state := .none_, staged := 0 } else u.txn
      link := .teardown
      powerGood := false
      dataOut := none })) ∧
    (u.link ≠ .present → exec (.powerGoodFall p) s = .next
      (s.setPort p { u with powerGood := false, dataOut := none })) ∧
    (u.link = .absent → ∃ t, exec (.powerGoodRise p) s = .next (s.setPort p t) ∧
      t.link = .present ∧ t.powerGood = true ∧ t.generation = u.generation ∧
      t.mailbox.state = .idle ∧ t.queue.entries = [] ∧ flagsByte t = 0 ∧ t.enable = 0 ∧
      t.activeLow = false ∧ t.txn.state = .none_ ∧ t.txn.staged = 0) ∧
    (u.link ≠ .absent →
      exec (.powerGoodRise p) s = .next (s.setPort p { u with powerGood := true }))

/-- A notice is placed by the first of the four cases that applies; at a port that is not PRESENT it
is discarded. [R93] -/
def Obligations.NoticePlacementFollowsTheFourCases : Prop :=
  (∀ (q : NoticeQueue) (n : Notice),
    (∀ k, changeKey n = some k → (unopened q).any (coalescesAt k) = true →
      placeNotice q n = { q with
        entries := opened q ++
          (unopened q).map (fun e => if coalescesAt k e then .notice n else e) }) ∧
    (coalesces q n = false →
      (∀ es c, q.entries = es ++ [.overflow c] →
        placeNotice q n = { q with entries := es ++ [.overflow (min 255 (c + 1))] }) ∧
      ((∀ es c, q.entries ≠ es ++ [.overflow c]) →
        (q.entries.length < 15 →
          placeNotice q n = { q with entries := q.entries ++ [.notice n] }) ∧
        (q.entries.length = 15 →
          placeNotice q n = { q with entries := q.entries ++ [.overflow 1] })))) ∧
  (∀ (q : NoticeQueue) (n : Notice), changeKey n = none → coalesces q n = false) ∧
  ∀ (s : State) (p : Port) (n : Notice),
    ((s.port p).link = .present →
      notify p n s = s.setPort p { s.port p with queue := placeNotice (s.port p).queue n }) ∧
    ((s.port p).link ≠ .present → notify p n s = s)

/-! ### Reading -/

/-- FETCH with its rights: an ABSENT or DELETED key is answered NOT_FOUND; a PRESENT key at an offset
within its length is RUNNING with a READ of the whole record at the entry's place, and at an offset
beyond it is answered BAD_PARAM. [R13 to R15, R2, R179] -/
def Obligations.FetchReadsTheWholeRecord : Prop :=
  ∀ (s : State) (p : Port) (k : Key) (off n : Nat),
    FrameGranted s p .fetch (keyBytes k ++ le16 off ++ [byteOf n]) →
    off ≤ 1024 → 1 ≤ n → n ≤ 240 →
    (nsEntry s k.ns).state ≠ .undefined → hasPort (nsEntry s k.ns).readers p = true →
    ((∀ e, entryOf k s.engine.index = some e → e.presence = .deleted) →
      exec (.fetch p) s = .next (answered p [0x10] s)) ∧
    ∀ e, entryOf k s.engine.index = some e → e.presence = .present →
      (off ≤ e.length → exec (.fetch p) s = .next
        { s with
          ports := s.ports.set p { s.port p with
            mailbox := { (s.port p).mailbox with state := .running } }
          engine := { s.engine with
            pointer := nextPort p
            job := .fetch ⟨p, (s.port p).generation, e, off, n⟩ }
          ctl := Controller.run { s.ctl with
            engine := some ⟨.read e.place.sector e.place.granule (recordSize e.length), false⟩ } }) ∧
      (e.length < off → exec (.fetch p) s = .next (answered p [0x52] s))

/-- The end of a FETCH's READ answers OK with version, length and the bytes asked for when the
record passes its tests, and MEDIA_ERROR when it does not, and leaves the array, the index and every
sector alone. The READ sees the array's contents; in a sector under erase, whatever its operand says,
or what a PROGRAM of the same suspension has left. Model's choice: log 8. [R15, R16, R141, R150, R3] -/
def Obligations.FetchAnswersWhatItRead : Prop :=
  ∀ (s : State) (j : FetchJob) (i : Sector) (g n : Nat) (first : Bool) (seen : SectorImage)
    (v : ArrayContents),
    s.ctl.serving = some (.engine, .read i g n) → v = viewOf s i seen →
    s.engine.job = .fetch j → (s.port j.port).generation = j.gen →
    (s.ctl.erase = none → v = s.array) ∧
    (∀ e, s.ctl.erase = some e →
      (e.sector ≠ i ∨ (e.suspended = true ∧ e.shown = true) → v = s.array) ∧
      (e.sector = i → ¬ (e.suspended = true ∧ e.shown = true) →
        v = installImage s.array i seen)) ∧
    ∃ t, exec (.readComplete first seen) s = .next t ∧
      t.engine.job = .idle ∧ t.engine.index = s.engine.index ∧ t.array = s.array ∧
      t.space = s.space ∧ t.drain = s.drain ∧ t.leases = s.leases ∧
      (∀ q, q ≠ j.port → t.port q = s.port q) ∧
      (t.port j.port).mailbox.state = .done ∧
      (∀ h, readGranule v i g = .header h →
        h.key = j.entry.key → h.version = j.entry.version →
        Config.payloadCheck (readPayload v ⟨i, g⟩ j.entry.length) = h.check →
        (t.port j.port).mailbox.response =
          0x00 :: le32 j.entry.version.toNat ++ le16 j.entry.length ++
            ((readPayload v ⟨i, g⟩ j.entry.length).drop j.offset).take
              (min j.count (j.entry.length - j.offset))) ∧
      ((∀ h, readGranule v i g ≠ .header h) →
        (t.port j.port).mailbox.response = [0x42]) ∧
      (∀ h, readGranule v i g = .header h →
        h.key ≠ j.entry.key ∨ h.version ≠ j.entry.version ∨
          Config.payloadCheck (readPayload v ⟨i, g⟩ j.entry.length) ≠ h.check →
        (t.port j.port).mailbox.response = [0x42])

/-- PROBE answers twelve bytes: presence, version and length from the Key Index, holder, waiter
count and remaining time from the Lease Table. [R17, R19, R76] -/
def Obligations.ProbeReportsKeyAndLease : Prop :=
  ∀ (s : State) (p : Port) (k : Key),
    FrameGranted s p .probe (keyBytes k) →
    (nsEntry s k.ns).state ≠ .undefined → hasPort (nsEntry s k.ns).readers p = true →
    ∃ key lease, exec (.probe p) s = .next (answered p (0x00 :: key ++ lease) s) ∧
      (entryOf k s.engine.index = none → key = [0, 0, 0, 0, 0, 0, 0]) ∧
      (∀ e, entryOf k s.engine.index = some e →
        (e.presence = .present → key = 0x01 :: le32 e.version.toNat ++ le16 e.length) ∧
        (e.presence = .deleted → key = 0x02 :: le32 e.version.toNat ++ [0, 0])) ∧
      (leaseOn k s.leases = none → lease = [0xFF, 0, 0, 0]) ∧
      (∀ l, leaseOn k s.leases = some l →
        lease = byteOf (portNumber l.holder) :: byteOf l.waiters.length :: le16 l.remaining)

/-- SCAN lists the PRESENT keys of the namespace from the start id on, up to the maximum, with the
more flag. [R18] -/
def Obligations.ScanListsPresentKeys : Prop :=
  ∀ (s : State) (p : Port) (ns : Fin 8) (start maximum : Nat) (l : List IndexEntry),
    FrameGranted s p .scan (byteOf ns.val :: le16 start ++ [byteOf maximum]) →
    start ≤ 4095 → 1 ≤ maximum → maximum ≤ 40 →
    (nsEntry s ns).state ≠ .undefined → hasPort (nsEntry s ns).readers p = true →
    l = s.engine.index.filter (fun e =>
      decide (e.key.ns = ns ∧ e.presence = .present ∧ start ≤ e.key.id.val)) →
    exec (.scan p) s = .next (answered p
      (0x00 :: byteOf (min maximum l.length) :: (if maximum < l.length then 0x01 else 0x00) ::
        ((l.take maximum).map (fun e => le16 e.key.id.val ++ le32 e.version.toNat)).flatten) s)

/-! ### Writing -/

/-- PUT_OPEN with no transaction in hand, the rights, no other holder and a passing condition opens the
transaction and answers OK; a transaction in hand is answered TRANSACTION_OPEN, a held key HELD, and
a failing condition by its result. PUT_CANCEL closes an OPEN transaction and answers OK; with none it
answers NO_TRANSACTION. [R24 to R28] -/
def Obligations.PutOpenOpensAndPutCancelCloses : Prop :=
  (∀ (s : State) (p : Port) (k : Key) (L : Nat) (cb : Byte) (v : Word32) (c : Condition),
    FrameGranted s p .putOpen (keyBytes k ++ le16 L ++ [cb] ++ le32 v.toNat) → L ≤ 1024 →
    (cb = 0 ∧ c = .none_) ∨ (cb = 1 ∧ c = .create) ∨ (cb = 2 ∧ v ≠ 0 ∧ c = .matching v) →
    ((s.port p).txn.state ≠ .none_ → exec (.putOpen p) s = .next (answered p [0x15] s)) ∧
    ((s.port p).txn.state = .none_ → s.space.store = .ready →
      (nsEntry s k.ns).state ≠ .undefined → hasPort (nsEntry s k.ns).writers p = true →
      (∀ l, leaseOn k s.leases = some l → l.holder ≠ p →
        exec (.putOpen p) s = .next (answered p [0x20] s)) ∧
      ((∀ l, leaseOn k s.leases = some l → l.holder = p) →
        (∀ e, c = .create → entryOf k s.engine.index = some e → e.presence = .present →
          exec (.putOpen p) s = .next (answered p [0x11] s)) ∧
        (∀ e w, c = .matching w → entryOf k s.engine.index = some e → e.presence = .present →
          e.version ≠ w → exec (.putOpen p) s = .next (answered p [0x12] s)) ∧
        (∀ w, c = .matching w →
          (∀ e, entryOf k s.engine.index = some e → e.presence = .deleted) →
          exec (.putOpen p) s = .next (answered p [0x10] s)) ∧
        (c = .none_ ∨
            (c = .create ∧ ∀ e, entryOf k s.engine.index = some e → e.presence = .deleted) ∨
            (∃ e w, c = .matching w ∧ entryOf k s.engine.index = some e ∧
              e.presence = .present ∧ e.version = w) →
          exec (.putOpen p) s = .next (answered p [0x00]
            (s.setPort p { s.port p with txn := ⟨.open_, k, L, c, 0⟩ })))))) ∧
  ∀ (s : State) (p : Port), FrameGranted s p .putCancel [] →
    ((s.port p).txn.state = .open_ →
      exec (.putCancel p) s = .next (answered p [0x00] (s.setPort p { s.port p with
        txn := { (s.port p).txn with state := .none_, staged := 0 } }))) ∧
    ((s.port p).txn.state = .none_ → exec (.putCancel p) s = .next (answered p [0x14] s))

/-- PUT_COMMIT's checks in order: NO_TRANSACTION, READ_ONLY, NO_NAMESPACE and NO_ACCESS,
LENGTH_MISMATCH, HELD, the condition's result, QUOTA, INDEX_FULL. A commit that passes them is
COMMITTING and asks for room of class COMMIT, one granule and one for each started 16 bytes. [R29 to
R31, R24, R53, R54, R106] -/
def Obligations.PutCommitChecksInOrder : Prop :=
  ∀ (s : State) (p : Port) (x : Txn) (e : Option IndexEntry), x = (s.port p).txn →
    e = entryOf x.key s.engine.index → FrameGranted s p .putCommit [] →
    (x.state ≠ .open_ → exec (.putCommit p) s = .next (answered p [0x14] s)) ∧
    (x.state = .open_ → s.space.store = .readOnly →
      exec (.putCommit p) s = .next (answered p [0x41] s)) ∧
    (x.state = .open_ → s.space.store = .ready →
      ((nsEntry s x.key.ns).state = .undefined →
        exec (.putCommit p) s = .next (answered p [0x30] s)) ∧
      ((nsEntry s x.key.ns).state ≠ .undefined → hasPort (nsEntry s x.key.ns).writers p = false →
        exec (.putCommit p) s = .next (answered p [0x31] s)) ∧
      ((nsEntry s x.key.ns).state ≠ .undefined → hasPort (nsEntry s x.key.ns).writers p = true →
        (x.staged ≠ x.length → exec (.putCommit p) s = .next (answered p [0x13] s)) ∧
        (∀ l, x.staged = x.length → leaseOn x.key s.leases = some l → l.holder ≠ p →
          exec (.putCommit p) s = .next (answered p [0x20] s)) ∧
        (x.staged = x.length → (∀ l, leaseOn x.key s.leases = some l → l.holder = p) →
          (∀ o, x.cond = .create → e = some o → o.presence = .present →
            exec (.putCommit p) s = .next (answered p [0x11] s)) ∧
          (∀ o w, x.cond = .matching w → e = some o → o.presence = .present → o.version ≠ w →
            exec (.putCommit p) s = .next (answered p [0x12] s)) ∧
          (∀ w, x.cond = .matching w → (∀ o, e = some o → o.presence = .deleted) →
            exec (.putCommit p) s = .next (answered p [0x10] s)) ∧
          (x.cond = .none_ ∨
              (x.cond = .create ∧ ∀ o, e = some o → o.presence = .deleted) ∨
              (∃ o w, x.cond = .matching w ∧ e = some o ∧ o.presence = .present ∧
                o.version = w) →
            ((∀ o, e = some o → o.presence = .deleted) →
              (nsEntry s x.key.ns).quota ≤ presentIn x.key.ns s.engine.index →
              exec (.putCommit p) s = .next (answered p [0x32] s)) ∧
            (e = none → 2048 ≤ s.engine.index.length →
              presentIn x.key.ns s.engine.index < (nsEntry s x.key.ns).quota →
              exec (.putCommit p) s = .next (answered p [0x44] s)) ∧
            ((∃ o, e = some o ∧ o.presence = .present) ∨
                (presentIn x.key.ns s.engine.index < (nsEntry s x.key.ns).quota ∧
                  ((∃ o, e = some o) ∨ s.engine.index.length < 2048)) →
              ∃ j, exec (.putCommit p) s = .next
                { s with
                  ports := s.ports.set p { s.port p with
                    mailbox := { (s.port p).mailbox with state := .running }
                    txn := { x with state := .committing } }
                  engine := { s.engine with pointer := nextPort p, job := .write j }
                  space := { s.space with
                    allocEngine := some ⟨1 + (x.length + 15) / 16, .commit⟩ } } ∧
                j.port = p ∧ j.gen = (s.port p).generation ∧ j.tombstone = false ∧
                j.key = x.key ∧ j.length = x.length ∧ j.attempt = 1 ∧ j.phase = .room)))))

/-- REMOVE of a PRESENT key asks for one granule of class REMOVE; a key that another port holds is
answered HELD, one that is not PRESENT NOT_FOUND, and a MATCH of another version VERSION_MISMATCH.
[R44 to R46] -/
def Obligations.RemoveAsksForOneGranule : Prop :=
  ∀ (s : State) (p : Port) (k : Key) (cb : Byte) (v : Word32),
    FrameGranted s p .remove (keyBytes k ++ [cb] ++ le32 v.toNat) →
    cb = 0 ∨ (cb = 2 ∧ v ≠ 0) → s.space.store = .ready →
    (nsEntry s k.ns).state ≠ .undefined → hasPort (nsEntry s k.ns).writers p = true →
    (∀ l, leaseOn k s.leases = some l → l.holder ≠ p →
      exec (.remove p) s = .next (answered p [0x20] s)) ∧
    ((∀ l, leaseOn k s.leases = some l → l.holder = p) →
      ((∀ e, entryOf k s.engine.index = some e → e.presence = .deleted) →
        exec (.remove p) s = .next (answered p [0x10] s)) ∧
      ∀ e, entryOf k s.engine.index = some e → e.presence = .present →
        (cb = 2 → e.version ≠ v → exec (.remove p) s = .next (answered p [0x12] s)) ∧
        (cb = 0 ∨ e.version = v →
          ∃ j, exec (.remove p) s = .next
            { s with
              ports := s.ports.set p { s.port p with
                mailbox := { (s.port p).mailbox with state := .running } }
              engine := { s.engine with pointer := nextPort p, job := .write j }
              space := { s.space with allocEngine := some ⟨1, .remove⟩ } } ∧
            j.port = p ∧ j.gen = (s.port p).generation ∧ j.tombstone = true ∧ j.key = k ∧
            j.length = 0 ∧ j.attempt = 1 ∧ j.phase = .room))

/-- An allocation request that fits into the ACTIVE sector gets the granules above its write pointer,
which rise with the dead count; a write takes the commit counter's value, which advances or is
exhausted, and its header is asked for, with the checks computed; a copy keeps its version and
payload check and moves no counter. The live count and every other sector stay, and the request is
answered. [R106, R103, R3, R6, R7, R32, R126] -/
def Obligations.AllocationGivesThePlaceAboveThePointer : Prop :=
  ∀ (s : State) (i : Sector) (n : Nat) (cls : AllocClass),
    s.space.activation = none → s.space.activeSector = some i →
    (s.space.rec_ i).pointer + n ≤ 511 →
    (∀ j, s.space.allocEngine = some ⟨n, cls⟩ → s.engine.job = .write j →
      ∃ t h, exec (.allocationRequest .engine) s = .next t ∧
        (t.space.rec_ i).pointer = (s.space.rec_ i).pointer + n ∧
        (t.space.rec_ i).dead = (s.space.rec_ i).dead + n ∧
        (t.space.rec_ i).live = (s.space.rec_ i).live ∧
        (∀ k, k ≠ i → t.space.rec_ k = s.space.rec_ k) ∧
        t.space.allocEngine = none ∧
        t.engine.job = .write { j with
          place := ⟨i, (s.space.rec_ i).pointer + 1⟩
          version := s.engine.counter, phase := .header } ∧
        (s.engine.counter ≠ lastWord →
          t.engine.counter = s.engine.counter + 1 ∧ t.space.store = s.space.store) ∧
        (s.engine.counter = lastWord → t.engine.counter = lastWord ∧ t.engine.counterSpent = true ∧
          (s.space.store = .ready →
            t.space.store = .readOnly ∧ t.space.cause = some .counterLimit)) ∧
        opOf .engine t = some (.programHeader ⟨i, (s.space.rec_ i).pointer + 1⟩ h) ∧
        h.key = j.key ∧ h.version = s.engine.counter ∧ h.length = j.length ∧
        h.kind = (if j.tombstone then .tombstone else .data) ∧ h.state = some .allocated ∧
        h.check = Config.payloadCheck
          (if j.tombstone then [] else (s.port j.port).buffer.toList.take j.length) ∧
        h.headerCheck = Config.headerCheck h.key h.kind h.version h.length h.check ∧
        t.engine.index = s.engine.index ∧ t.array = s.array) ∧
    (∀ c, s.space.allocDrain = some ⟨n, cls⟩ → s.drain.copy = some c →
      ∃ t, exec (.allocationRequest .drain) s = .next t ∧
        (t.space.rec_ i).pointer = (s.space.rec_ i).pointer + n ∧
        (t.space.rec_ i).dead = (s.space.rec_ i).dead + n ∧
        (t.space.rec_ i).live = (s.space.rec_ i).live ∧
        (∀ k, k ≠ i → t.space.rec_ k = s.space.rec_ k) ∧
        t.space.allocDrain = none ∧ t.space.store = s.space.store ∧
        t.drain.copy = some { c with place := some ⟨i, (s.space.rec_ i).pointer + 1⟩ } ∧
        opOf .drain t = some (.programHeader ⟨i, (s.space.rec_ i).pointer + 1⟩
          ⟨c.key, c.kind, c.version, c.length, c.check,
            Config.headerCheck c.key c.kind c.version c.length c.check, some .allocated⟩) ∧
        t.engine = s.engine ∧ t.ports = s.ports ∧ t.array = s.array)

/-- A request that the ACTIVE sector cannot answer needs a pool of 3, 2 or 1 by its class. With that, the
pool's sector of lowest erase count and then lowest number is taken, and the activation group is
asked for: the activation counter's value, the commit counter as floor, the format base or, where it
is 0, the sector's own sequence. Without it, or with the counter exhausted, a write is answered
STORE_FULL, its retry MEDIA_ERROR, and the Drain Unit stops its pass with NO_SPACE. [R105, R107,
R108, R110, R31, R39, R114, R135] -/
def Obligations.ActivationTakesTheLeastErasedSector : Prop :=
  ∀ (s : State) (r : Requester) (n needed : Nat) (cls : AllocClass),
    s.space.activation = none → s.space.alloc r = some ⟨n, cls⟩ →
    (∀ i, s.space.activeSector = some i → 511 < (s.space.rec_ i).pointer + n) →
    (cls = .commit ∧ needed = 3) ∨ (cls = .remove ∧ needed = 2) ∨ (cls = .drain ∧ needed = 1) →
    (s.space.actSpent = false → needed ≤ s.space.pool.length →
      ∃ t i g, exec (.allocationRequest r) s = .next t ∧ LeastErased s.space i ∧
        g = ⟨s.space.actCounter, s.engine.counter,
          if s.space.formatBase = 0 then s.space.actCounter else s.space.formatBase⟩ ∧
        t.space.activation = some ⟨.request r, i, g, .program⟩ ∧
        opOf r t = some (.programActivation i g) ∧
        (s.space.actCounter ≠ lastWord →
          t.space.actCounter = s.space.actCounter + 1 ∧ t.space.store = s.space.store) ∧
        (s.space.actCounter = lastWord →
          t.space.actCounter = lastWord ∧ t.space.actSpent = true ∧
          (s.space.store = .ready →
            t.space.store = .readOnly ∧ t.space.cause = some .counterLimit)) ∧
        t.space.sectors = s.space.sectors ∧ t.space.alloc r = some ⟨n, cls⟩ ∧
        t.engine = s.engine ∧ t.array = s.array) ∧
    (s.space.actSpent = true ∨ s.space.pool.length < needed →
      (∀ j, r = .engine → s.engine.job = .write j → (s.port j.port).generation = j.gen →
        ∃ t, exec (.allocationRequest r) s = .next t ∧
          (t.port j.port).mailbox.state = .done ∧
          (t.port j.port).mailbox.response = [if j.attempt = 1 then 0x40 else 0x42] ∧
          (j.tombstone = false → (t.port j.port).txn.state =
            if j.attempt = 1 then .open_ else .none_) ∧
          t.engine = { s.engine with job := .idle } ∧ t.space.allocEngine = none ∧
          t.space.sectors = s.space.sectors ∧ t.space.actCounter = s.space.actCounter ∧
          t.space.store = s.space.store ∧ t.drain = s.drain ∧ t.array = s.array) ∧
      (r = .drain →
        ∃ t, exec (.allocationRequest r) s = .next t ∧ t.space.noSpace = true ∧
          (s.space.store = .ready → t.space.store = .readOnly ∧ t.space.cause = some .noSpace) ∧
          (s.space.store ≠ .ready → t.space.store = s.space.store) ∧
          t.drain.state = .idle ∧ t.drain.sector = none ∧ t.drain.copy = none ∧
          t.space.allocDrain = none ∧ t.space.evacuation = s.space.evacuation ∧
          t.space.sectors = s.space.sectors ∧ t.engine = s.engine ∧ t.array = s.array))

/-- The end of an activation's programs. A passing activation program makes the new sector ACTIVE and
empty and the old ACTIVE one FULL, its remainder dead, in one step, and the old one's FULL program is
asked for; when that has ended, or at once where none was ACTIVE, the request is answered from the
new sector. A failing one retires the sector taken and leaves the ACTIVE one; the request is tested
again against the pool. Model's choice: the test, and the STORE_FULL answer that it may bring, wait
for the end of the RETIRED program, log 12. [R108, R109, R105, R107, R110, R112] -/
def Obligations.ActivationProgramsEnd : Prop :=
  ∀ (s : State) (a : ActivationJob) (r : Requester) (op : ArrayOp) (c : Instr) (pass first : Bool)
    (left : SpanLeft) (under : UnderErase) (m : ArrayContents), m = metBy s op under →
    s.space.activation = some a → r = activationRequester a.purpose →
    s.ctl.serving = some (r, op) → isProgram op = true →
    (a.purpose = .request .drain → abandoning s = false) →
    c = .programComplete pass ⟨left, under⟩ first ∨ c = .programTimeout ⟨left, under⟩ first →
    (a.phase = .program → op = .programActivation a.sector a.group →
      (c = .programComplete pass ⟨left, under⟩ first → programPasses m pass left op = true →
        (s.space.rec_ a.sector).state = .erased →
        ∀ old, s.space.activeSector = some old →
          ∃ t, exec c s = .next t ∧
            t.space.rec_ a.sector = { s.space.rec_ a.sector with
              state := .active, sequence := some a.group.sequence, pointer := 0, live := 0
              dead := 0 } ∧
            t.space.rec_ old = { s.space.rec_ old with
              state := .full, pointer := 511
              dead := (s.space.rec_ old).dead + (511 - (s.space.rec_ old).pointer) } ∧
            (∀ k, k ≠ a.sector → k ≠ old → t.space.rec_ k = s.space.rec_ k) ∧
            t.space.formatBase = (if a.purpose = .format ∨ s.space.formatBase = 0
              then a.group.sequence else s.space.formatBase) ∧
            t.space.activation = some { a with phase := .close } ∧
            opOf r t = some (.programMark old .full) ∧
            sectorHeader t.array a.sector = { sectorHeader m a.sector with
              activation := .written a.group, mark := some .active }) ∧
      (c = .programTimeout ⟨left, under⟩ first ∨ programPasses m pass left op = false →
        (s.space.rec_ a.sector).state ≠ .retired →
        ∃ t, exec c s = .next t ∧
          t.space.rec_ a.sector = { s.space.rec_ a.sector with state := .retired } ∧
          (∀ k, k ≠ a.sector → t.space.rec_ k = s.space.rec_ k) ∧
          t.space.activation = some { a with phase := .retire } ∧
          t.space.actCounter = s.space.actCounter ∧
          opOf r t = some (.programMark a.sector .retired))) ∧
    (∀ n cls j, a.purpose = .request .engine → s.space.allocEngine = some ⟨n, cls⟩ →
      s.engine.job = .write j →
      a.phase = .close ∨
        (a.phase = .program ∧ op = .programActivation a.sector a.group ∧
          c = .programComplete pass ⟨left, under⟩ first ∧ programPasses m pass left op = true ∧
          s.space.activeSector = none ∧ (s.space.rec_ a.sector).pointer = 0) →
      ∃ t h, exec c s = .next t ∧ t.space.activation = none ∧ t.space.allocEngine = none ∧
        (t.space.rec_ a.sector).pointer = (s.space.rec_ a.sector).pointer + n ∧
        (a.phase = .program → (t.space.rec_ a.sector).state = .active ∧
          (t.space.rec_ a.sector).dead = n ∧ (t.space.rec_ a.sector).live = 0) ∧
        t.engine.job = .write { j with
          place := ⟨a.sector, (s.space.rec_ a.sector).pointer + 1⟩
          version := s.engine.counter, phase := .header } ∧
        opOf .engine t =
          some (.programHeader ⟨a.sector, (s.space.rec_ a.sector).pointer + 1⟩ h)) ∧
    (∀ n cls needed, a.phase = .retire → a.purpose = .request r →
      s.space.alloc r = some ⟨n, cls⟩ →
      (cls = .commit ∧ needed = 3) ∨ (cls = .remove ∧ needed = 2) ∨ (cls = .drain ∧ needed = 1) →
      (s.space.actSpent = false → needed ≤ (s.space.sectorsIn .erased).length →
        ∃ t i g, exec c s = .next t ∧ LeastErased s.space i ∧ g.sequence = s.space.actCounter ∧
          t.space.activation = some ⟨.request r, i, g, .program⟩ ∧
          opOf r t = some (.programActivation i g) ∧ t.space.sectors = s.space.sectors) ∧
      (∀ j, s.space.actSpent = true ∨ (s.space.sectorsIn .erased).length < needed →
        r = .engine → s.engine.job = .write j → j.attempt = 1 →
        (s.port j.port).generation = j.gen →
        ∃ t, exec c s = .next t ∧ t.space.activation = none ∧
          (t.port j.port).mailbox.response = [0x40] ∧ t.engine.job = .idle ∧
          t.space.sectors = s.space.sectors))

/-- The commit point: where the VALID program of a write passes, the index moves to the new record
in that step, the accounts follow, each watching port gets one notice, and then the old record's
SUPERSEDED program is asked for, or the writer is answered. Model's choice: the notices all arrive in that
step, log 47. [R34 to R37, R89 to R91, R46, R11, R103] -/
def Obligations.ValidProgramMakesTheRecordCurrent : Prop :=
  ∀ (s : State) (j : WriteJob) (left : SpanLeft) (first : Bool) (under : UnderErase) (new : Sector),
    s.ctl.serving = some (.engine, .programState j.place .valid) → NoActivationFor .engine s →
    s.engine.job = .write j → j.phase = .valid →
    recStateAt (metBy s (.programState j.place .valid) under) j.place = some .allocated →
    new = j.place.sector →
    ∃ t, exec (.programComplete true ⟨left, under⟩ first) s = .next t ∧
      recStateAt t.array j.place = some .valid ∧
      entryOf j.key t.engine.index = some ⟨j.key, if j.tombstone then .deleted else .present,
        j.place, j.length, j.version⟩ ∧
      (∀ k, k ≠ j.key → entryOf k t.engine.index = entryOf k s.engine.index) ∧
      t.engine.counter = s.engine.counter ∧ t.engine.names = s.engine.names ∧
      t.leases = s.leases ∧ t.watches = s.watches ∧ t.drain = s.drain ∧
      (∀ q, (t.port q).queue =
        if (s.port q).link = .present ∧ q ≠ j.port ∧
            ∃ w ∈ s.watches, w.port = q ∧ w.ns = j.key.ns ∧
              (w.target = none ∨ w.target = some j.key.id) then
          placeNotice (s.port q).queue
            (if j.tombstone then .deleted j.key j.version else .changed j.key j.version)
        else (s.port q).queue) ∧
      (entryOf j.key s.engine.index = none →
        t.space.rec_ new = { s.space.rec_ new with
          live := (s.space.rec_ new).live + recordSize j.length
          dead := (s.space.rec_ new).dead - recordSize j.length } ∧
          (∀ k, k ≠ new → t.space.rec_ k = s.space.rec_ k) ∧
          t.engine.job = .idle ∧
          ((s.port j.port).generation = j.gen →
            (t.port j.port).mailbox.state = .done ∧
            (t.port j.port).mailbox.response = 0x00 :: le32 j.version.toNat) ∧
          (j.tombstone = false → (t.port j.port).txn.state = .none_ ∧
            (t.port j.port).txn.staged = 0)) ∧
      (∀ e, entryOf j.key s.engine.index = some e →
        t.engine.job = .write { j with phase := .supersede } ∧
        opOf .engine t = some (.programState e.place .superseded) ∧
        (e.place.sector ≠ new →
          t.space.rec_ new = { s.space.rec_ new with
            live := (s.space.rec_ new).live + recordSize j.length
            dead := (s.space.rec_ new).dead - recordSize j.length } ∧
          t.space.rec_ e.place.sector = { s.space.rec_ e.place.sector with
            live := (s.space.rec_ e.place.sector).live - recordSize e.length
            dead := (s.space.rec_ e.place.sector).dead + recordSize e.length }) ∧
        (e.place.sector = new →
          t.space.rec_ new = { s.space.rec_ new with
            live := (s.space.rec_ new).live - recordSize e.length + recordSize j.length
            dead := (s.space.rec_ new).dead + recordSize e.length - recordSize j.length }) ∧
        ∀ k, k ≠ new → k ≠ e.place.sector → t.space.rec_ k = s.space.rec_ k)

/-- A failed or timed-out header, payload or VALID program of a write retires the sector that holds
the record, lists it if it holds live granules and there is room, and asks for the RETIRED program;
the index and the commit counter stay as they are. Model's choice: the write waits for the end of the
RETIRED program, in its retry and with an exhausted counter too, so that in this step no response is
placed and the transaction stays, log 12. [R38, R112, R120, R114, R142, R143] -/
def Obligations.FailedProgramRetiresTheSector : Prop :=
  ∀ (s : State) (j : WriteJob) (op : ArrayOp) (pass first : Bool) (left : SpanLeft)
    (under : UnderErase) (i : Sector) (c : Instr),
    c = .programTimeout ⟨left, under⟩ first ∨
      (c = .programComplete pass ⟨left, under⟩ first ∧
        programPasses (metBy s op under) pass left op = false) →
    s.ctl.serving = some (.engine, op) → isProgram op = true → NoActivationFor .engine s →
    s.engine.job = .write j → j.phase = .header ∨ (∃ r, j.phase = .payload r) ∨ j.phase = .valid →
    j.place.sector = i → (s.space.rec_ i).state ≠ .retired →
    ∃ t, exec c s = .next t ∧
      t.space.rec_ i = { s.space.rec_ i with state := .retired } ∧
      (∀ k, k ≠ i → t.space.rec_ k = s.space.rec_ k) ∧
      t.space.evacuation =
        (if 0 < (s.space.rec_ i).live ∧ i ∉ s.space.evacuation ∧ s.space.evacuation.length < 8
          then s.space.evacuation ++ [i] else s.space.evacuation) ∧
      (s.space.store = .ready → 8 ≤ s.space.retiredCount + 1 →
        t.space.store = .readOnly ∧ t.space.cause = some .retireLimit) ∧
      (s.space.store = .ready → s.space.retiredCount + 1 < 8 → t.space.store = .ready) ∧
      opOf .engine t = some (.programMark i .retired) ∧
      t.engine = { s.engine with job := .write { j with phase := .retire } } ∧
      (∀ q, (t.port q).mailbox = (s.port q).mailbox ∧ (t.port q).txn = (s.port q).txn)

/-- The end of a reclaim victim's ERASE: where it passes, as it does where the cells take the erased value
or what they leave is blank, every granule reads erased, no other sector changes, and the identity
program with the count raised is asked for; where it fails, or is stopped at 120 ms of active time,
the victim is retired. Model's choices: the pass goes on to its end after the RETIRED program, log 12;
ERASE_TIMEOUT reports an erase stopped at 120 ms, and below that it is no event and changes nothing,
log 15, log 1. [R132, R104, R144] -/
def Obligations.VictimEraseEnds : Prop :=
  (∀ (a : ArrayContents) (i : Sector) (left : SectorImage),
    erasePasses a true left i = true ∧ erasePasses a false ⟨.blank, [], []⟩ i = true ∧
      (left.header ≠ SectorHeader.blank → erasePasses a false left i = false)) ∧
  ∀ (s : State) (i : Sector) (e : EraseJob) (pass : Bool) (left : SectorImage) (first : Bool),
    s.ctl.erase = some e → e.requester = .drain → e.sector = i → e.suspended = false →
    s.drain.phase = .erase → s.drain.sector = some i → abandoning s = false →
    (e.active < 120 → erasePasses s.array pass left i = true →
      ∃ t n, exec (.eraseComplete pass left first) s = .next t ∧
        ((∀ k, s.ctl.engine ≠ some ⟨.erase k, false⟩) → t.ctl.erase = none) ∧
        sectorHeader t.array i = SectorHeader.blank ∧
        (∀ g, g < 512 → readGranule t.array i g = .erased) ∧
        (∀ k, k ≠ i → sectorHeader t.array k = sectorHeader s.array k ∧
          ∀ g, g < 512 → readGranule t.array k g = readGranule s.array k g) ∧
        opOf .drain t = some (.programIdentity i n) ∧
        n.val = min ((s.space.rec_ i).eraseCount.val + 1) 16777215 ∧
        t.engine = s.engine ∧ t.ports = s.ports) ∧
    ((s.space.rec_ i).state ≠ .retired →
      ∀ c, (c = .eraseTimeout left first ∧ 120 ≤ e.active) ∨
          (c = .eraseComplete pass left first ∧ e.active < 120 ∧
            erasePasses s.array pass left i = false) →
      ∃ t, exec c s = .next t ∧
        ((∀ k, s.ctl.engine ≠ some ⟨.erase k, false⟩) → t.ctl.erase = none) ∧
        t.space.rec_ i = { s.space.rec_ i with state := .retired } ∧
        opOf .drain t = some (.programMark i .retired) ∧ t.drain.phase = .retireVictim ∧
        (∀ k, k ≠ i → sectorHeader t.array k = sectorHeader s.array k)) ∧
    (e.active < 120 → exec (.eraseTimeout left first) s = .next s)

/-! ### Leases and watches -/

/-- A step of the timebase counts every lease down by 1 and expires those at 1, in table order, each
one whole: LEASE_LOST to the holder, then the passing with LEASE_GRANTED. The expiry of one lease
alone, LEASE_EXPIRY, does the same to that lease. Model's choices: LEASE_EXPIRY beside the step, log
14, and that a lease renewed to 1 ms just before the step expires at it too, log 36. [R67, R77, R73] -/
def Obligations.TimebaseCountsDownAndExpires : Prop :=
  (∀ s : State, exec .timebaseStep s = .next
    (notifyAll (s.leases.flatMap stepNotices)
      { s with leases := s.leases.flatMap leaseAfterStep })) ∧
  (∀ (s : State) (before after : List Lease) (l : Lease), s.leases = before ++ l :: after →
    l.remaining = 1 → (∀ m ∈ before ++ after, m.key ≠ l.key) →
    exec (.leaseExpiry l.key) s = .next
      (notifyAll (expiryNotices l) { s with leases := before ++ leaseAfterStep l ++ after }))

/-- LEASE_TAKE: a new lease; ALREADY for its holder and its waiters; HELD without wait; QUEUED with
the position; TABLE_FULL at the limits. [R69 to R71, R63 to R65] -/
def Obligations.LeaseTakeByHolderAndLimits : Prop :=
  ∀ (s : State) (p : Port) (k : Key) (d w : Nat),
    FrameGranted s p .leaseTake (keyBytes k ++ le16 d ++ [byteOf w]) →
    1 ≤ d → d ≤ 65535 → w ≤ 1 →
    (nsEntry s k.ns).state ≠ .undefined → hasPort (nsEntry s k.ns).writers p = true →
    (leaseOn k s.leases = none →
      (32 ≤ s.leases.length ∨ 8 ≤ holdCount p s.leases →
        exec (.leaseTake p) s = .next (answered p [0x23] s)) ∧
      (s.leases.length < 32 → holdCount p s.leases < 8 →
        ∃ ls, exec (.leaseTake p) s = .next (answered p [0x00] { s with leases := ls }) ∧
          leaseOn k ls = some ⟨k, p, d, []⟩ ∧
          ∀ k', k' ≠ k → leaseOn k' ls = leaseOn k' s.leases)) ∧
    (∀ l, leaseOn k s.leases = some l →
      (l.holder = p ∨ p ∈ l.waiters.map Waiter.port →
        exec (.leaseTake p) s = .next (answered p [0x22] s)) ∧
      (l.holder ≠ p → p ∉ l.waiters.map Waiter.port →
        (w = 0 → exec (.leaseTake p) s = .next (answered p [0x20] s)) ∧
        (w = 1 → 8 ≤ holdCount p s.leases ∨ 3 ≤ l.waiters.length →
          exec (.leaseTake p) s = .next (answered p [0x23] s)) ∧
        (w = 1 → holdCount p s.leases < 8 → l.waiters.length < 3 →
          ∃ ls, exec (.leaseTake p) s = .next
              (answered p [0x01, byteOf (l.waiters.length + 1)] { s with leases := ls }) ∧
            leaseOn k ls = some { l with waiters := l.waiters ++ [⟨p, d⟩] } ∧
            ∀ k', k' ≠ k → leaseOn k' ls = leaseOn k' s.leases)))

/-- LEASE_RENEW by the holder replaces the remaining time; from anyone else it is answered NOT_HELD.
LEASE_DROP by the holder passes the lease to its head waiter with LEASE_GRANTED, or removes it; by a
waiter it takes that port out of the queue; from anyone else it is answered NOT_HELD. [R72 to R75] -/
def Obligations.LeaseRenewAndLeaseDropByPlace : Prop :=
  (∀ (s : State) (p : Port) (k : Key) (d : Nat),
    FrameGranted s p .leaseRenew (keyBytes k ++ le16 d) → d ≤ 65535 →
    (d = 0 → exec (.leaseRenew p) s = .next (answered p [0x52] s)) ∧
    (1 ≤ d → (nsEntry s k.ns).state = .undefined →
      exec (.leaseRenew p) s = .next (answered p [0x30] s)) ∧
    (1 ≤ d → (nsEntry s k.ns).state ≠ .undefined →
      (∀ l, leaseOn k s.leases = some l → l.holder = p →
        ∃ ls, exec (.leaseRenew p) s = .next (answered p [0x00] { s with leases := ls }) ∧
          leaseOn k ls = some { l with remaining := d } ∧
          ∀ k', k' ≠ k → leaseOn k' ls = leaseOn k' s.leases) ∧
      ((∀ l, leaseOn k s.leases = some l → l.holder ≠ p) →
        exec (.leaseRenew p) s = .next (answered p [0x21] s)))) ∧
  ∀ (s : State) (p : Port) (k : Key),
    FrameGranted s p .leaseDrop (keyBytes k) → (nsEntry s k.ns).state ≠ .undefined →
    LeaseLaw s.leases →
    ((∀ l, leaseOn k s.leases = some l → l.holder ≠ p ∧ p ∉ l.waiters.map Waiter.port) →
      exec (.leaseDrop p) s = .next (answered p [0x21] s)) ∧
    ∀ l, leaseOn k s.leases = some l →
      (l.holder = p → l.waiters = [] →
        ∃ ls, exec (.leaseDrop p) s = .next (answered p [0x00] { s with leases := ls }) ∧
          leaseOn k ls = none ∧ ∀ k', k' ≠ k → leaseOn k' ls = leaseOn k' s.leases) ∧
      (∀ w ws, l.holder = p → l.waiters = w :: ws →
        ∃ ls, exec (.leaseDrop p) s = .next
            (answered p [0x00] (notify w.port (.granted k) { s with leases := ls })) ∧
          leaseOn k ls = some ⟨k, w.port, w.duration, ws⟩ ∧
          ∀ k', k' ≠ k → leaseOn k' ls = leaseOn k' s.leases) ∧
      (l.holder ≠ p → p ∈ l.waiters.map Waiter.port →
        ∃ ls, exec (.leaseDrop p) s = .next (answered p [0x00] { s with leases := ls }) ∧
          leaseOn k ls = some { l with waiters := l.waiters.filter (fun w => w.port != p) } ∧
          ∀ k', k' ≠ k → leaseOn k' ls = leaseOn k' s.leases)

/-- WATCH adds the one entry of port, namespace and target, or answers ALREADY or TABLE_FULL;
UNWATCH removes exactly that entry, or answers NOT_FOUND. An id of 0FFFFH is the target ALL. [R84,
R86, R87] -/
def Obligations.WatchAndUnwatchOneEntry : Prop :=
  ∀ (s : State) (p : Port) (ns : Fin 8) (i : Nat) (target : Option (Fin 4096)) (w : WatchEntry),
    (i = 0xFFFF ∧ target = none) ∨ (∃ h : i < 4096, target = some ⟨i, h⟩) →
    w = ⟨p, ns, target⟩ → (nsEntry s ns).state ≠ .undefined →
    (FrameGranted s p .watch (byteOf ns.val :: le16 i) → hasPort (nsEntry s ns).readers p = true →
      (w ∈ s.watches → exec (.watch p) s = .next (answered p [0x22] s)) ∧
      (w ∉ s.watches →
        (16 ≤ watchCount p s.watches ∨ 64 ≤ s.watches.length →
          exec (.watch p) s = .next (answered p [0x23] s)) ∧
        (watchCount p s.watches < 16 → s.watches.length < 64 →
          ∃ ws, exec (.watch p) s = .next (answered p [0x00] { s with watches := ws }) ∧
            ∀ x, x ∈ ws ↔ x = w ∨ x ∈ s.watches))) ∧
    (FrameGranted s p .unwatch (byteOf ns.val :: le16 i) →
      (w ∉ s.watches → exec (.unwatch p) s = .next (answered p [0x10] s)) ∧
      (w ∈ s.watches → s.watches.Nodup →
        ∃ ws, exec (.unwatch p) s = .next (answered p [0x00] { s with watches := ws }) ∧
          ∀ x, x ∈ ws ↔ x ≠ w ∧ x ∈ s.watches))

/-! ### The store and the namespaces -/

/-- STORE_QUERY answers its thirty bytes, every field as it stands at the grant. [R118] -/
def Obligations.StoreQueryReportsTheMoment : Prop :=
  ∀ (s : State) (p : Port), FrameGranted s p .storeQuery [] →
    exec (.storeQuery p) s = .next (answered p
      ([0x00, byteOf (storeCode s.space.store), byteOf (causeCode s.space),
        byteOf s.space.pool.length,
        (match s.space.activeSector with
          | some i => byteOf i.val
          | none => 0xFF),
        byteOf s.space.retiredCount,
        (match s.drain.state with
          | .idle => 0
          | .reclaiming => 1
          | .evacuating => 2),
        (match s.drain.sector with
          | some i => byteOf i.val
          | none => 0xFF),
        byteOf s.space.evacuation.length, byteOf s.space.lowWater] ++
      le16 s.engine.index.length ++
      le16 (s.engine.index.filter (fun e => decide (e.presence = .present))).length ++
      le32 s.engine.counter.toNat ++ le32 s.space.actCounter.toNat ++
      le32 (∑ i : Fin 128, (s.space.rec_ i).live) ++
      le32 (∑ i : Fin 128, (s.space.rec_ i).dead)) s)

/-- STORE_TUNE from port A replaces the low-water mark by a value from 3 to 16 and refuses any other
with BAD_PARAM; from the other ports it is refused NOT_SUPERVISOR. [R117] -/
def Obligations.StoreTuneReplacesTheMark : Prop :=
  ∀ (s : State) (p : Port) (b : Byte), FrameGranted s p .storeTune [b] →
    (p ≠ .A → exec (.storeTune p) s = .next (answered p [0x34] s)) ∧
    (p = .A →
      (b.toNat < 3 ∨ 16 < b.toNat → exec (.storeTune p) s = .next (answered p [0x52] s)) ∧
      (3 ≤ b.toNat → b.toNat ≤ 16 → exec (.storeTune p) s = .next
        (answered p [0x00] { s with space := { s.space with lowWater := b.toNat } })))

/-- RECLAIM in READY: BUSY while a pass runs; NOT_FOUND with nothing to do; else OK and a pass on
the list's head, or on the DRAINING sector of lowest activation sequence, or on the FULL sector with
the most dead granules, and of those one of lowest activation sequence. Model's choice: a pass begins
with the READ of granule 1 whatever the write pointer is, log 27. [R138, R121 to R124] -/
def Obligations.ReclaimStartsAPass : Prop :=
  ∀ (s : State), FrameGranted s .A .reclaim [] → s.space.store = .ready →
    (s.drain.state ≠ .idle → exec (.reclaim .A) s = .next (answered .A [0x43] s)) ∧
    (s.drain.state = .idle →
      (s.space.evacuation = [] →
        (∀ i, (s.space.rec_ i).state ≠ .draining ∧
          ((s.space.rec_ i).state = .full → (s.space.rec_ i).dead = 0)) →
        exec (.reclaim .A) s = .next (answered .A [0x10] s)) ∧
      (∀ i is, s.space.evacuation = i :: is →
        ∃ t, exec (.reclaim .A) s = .next t ∧ t.drain.state = .evacuating ∧
          t.drain.sector = some i ∧ opOf .drain t = some (.read i 1 1) ∧ t.space = s.space ∧
          t.array = s.array ∧ (t.port .A).mailbox.response = [0x00]) ∧
      (s.space.evacuation = [] → (∃ i, (s.space.rec_ i).state = .draining) →
        ∃ t i, exec (.reclaim .A) s = .next t ∧ t.drain.state = .reclaiming ∧
          t.drain.sector = some i ∧ (s.space.rec_ i).state = .draining ∧
          (∀ k, (s.space.rec_ k).state = .draining →
            sequenceOf s.space i ≤ sequenceOf s.space k) ∧
          opOf .drain t = some (.read i 1 1) ∧ t.space = s.space ∧
          (t.port .A).mailbox.response = [0x00]) ∧
      (s.space.evacuation = [] → (∀ i, (s.space.rec_ i).state ≠ .draining) →
        (∃ i, (s.space.rec_ i).state = .full ∧ 0 < (s.space.rec_ i).dead) →
        ∃ t i, exec (.reclaim .A) s = .next t ∧ t.drain.state = .reclaiming ∧
          t.drain.sector = some i ∧ (s.space.rec_ i).state = .full ∧
          (∀ k, (s.space.rec_ k).state = .full →
            (s.space.rec_ k).dead < (s.space.rec_ i).dead ∨
              ((s.space.rec_ k).dead = (s.space.rec_ i).dead ∧
                sequenceOf s.space i ≤ sequenceOf s.space k)) ∧
          opOf .drain t = some (.programMark i .draining) ∧ t.space = s.space ∧
          (t.port .A).mailbox.response = [0x00]))

/-- FORMAT's grant makes the store FORMATTING. With a drain operation outstanding it waits for the
abandonment; with none, the start phase is whole in that step, every lease dropped with its LEASE_LOST
notices, and the first sector to be marked is asked to be programmed DISCARDED. [R164 to R166, R83,
R137, R115] -/
def Obligations.FormatEmptiesTheStore : Prop :=
  ∀ (s : State), FrameGranted s .A .format [] →
    (s.ctl.drain ≠ none →
      ∃ t, exec (.format .A) s = .next t ∧ t.space.store = .formatting ∧
        t.engine.job = .format .A (s.port .A).generation .abandon ∧
        t.engine.index = s.engine.index ∧ t.leases = s.leases ∧ t.drain = s.drain ∧
        t.space.sectors = s.space.sectors) ∧
    (∀ i, s.ctl.drain = none →
      (s.space.rec_ i).state ∈ [SectorState.active, .full, .draining, .discarded] →
      (∀ k : Sector, k.val < i.val →
        (s.space.rec_ k).state ∉ [SectorState.active, .full, .draining, .discarded]) →
      ∃ t, exec (.format .A) s = .next t ∧ t.space.store = .formatting ∧
        t.engine.index = [] ∧ t.leases = [] ∧ t.space.evacuation = [] ∧
        t.drain.state = .idle ∧ t.drain.sector = none ∧ t.drain.copy = none ∧
        t.drain.request = none ∧ t.drain.purgeHold = false ∧
        (∀ k, t.space.rec_ k =
          { s.space.rec_ k with live := 0, dead := (s.space.rec_ k).pointer }) ∧
        (∀ p, (t.port p).txn = if (s.port p).txn.state = .open_ then
          { (s.port p).txn with state := .none_, staged := 0 } else (s.port p).txn) ∧
        (∀ p, (t.port p).queue =
          ((notifyAll (s.leases.flatMap formatNotices) s).port p).queue) ∧
        (∀ p, (s.port p).link = .present → (t.port p).latched.storeChange = true) ∧
        t.watches = s.watches ∧ t.engine.names = s.engine.names ∧
        t.engine.counter = s.engine.counter ∧ t.space.actCounter = s.space.actCounter ∧
        t.space.lowWater = s.space.lowWater ∧ t.array = s.array ∧
        (t.port .A).mailbox.state = .running ∧
        opOf .engine t = some (.programMark i .discarded))

/-- NS_SET replaces the entry and revokes: no dropped writer keeps a place in a lease of the
namespace, a dropped holder's lease passes to the first waiter that stays, the notices of both go out
in order, no dropped reader keeps a watch of it, and other namespaces' leases and watches stay.
FROZEN refuses it. [R56 to R60, R73] -/
def Obligations.NsSetReplacesAndRevokes : Prop :=
  ∀ (s : State) (ns : Fin 8) (r w : PortSet) (q : Nat) (dropped : Port → Bool), q ≤ 2048 →
    (∀ p, dropped p = (hasPort (nsEntry s ns).writers p && !hasPort w p)) →
    FrameGranted s .A .nsSet ([byteOf ns.val, byteOf r.toNat, byteOf w.toNat] ++ le16 q) →
    ((nsEntry s ns).state = .frozen → exec (.nsSet .A) s = .next (answered .A [0x33] s)) ∧
    ((nsEntry s ns).state ≠ .frozen →
      ∃ t, exec (.nsSet .A) s = .next t ∧ nsEntry t ns = ⟨.defined, r, w, q⟩ ∧
        (∀ m, m ≠ ns → nsEntry t m = nsEntry s m) ∧
        t.leases = s.leases.flatMap (leaseAfterRevoke ns dropped) ∧
        (∀ p, (t.port p).queue =
          ((notifyAll (s.leases.flatMap (revokeNotices ns dropped)) s).port p).queue) ∧
        (∀ l ∈ t.leases, l.key.ns = ns →
          ∀ p, l.holder = p ∨ p ∈ l.waiters.map Waiter.port →
            hasPort (nsEntry s ns).writers p = true → hasPort w p = true) ∧
        (∀ l, l.key.ns ≠ ns → (l ∈ t.leases ↔ l ∈ s.leases)) ∧
        (∀ x, x ∈ t.watches ↔ x ∈ s.watches ∧
          ¬ (x.ns = ns ∧ hasPort (nsEntry s ns).readers x.port = true ∧
            hasPort r x.port = false)) ∧
        (t.port .A).mailbox.state = .done ∧ (t.port .A).mailbox.response = [0x00] ∧
        t.engine.index = s.engine.index ∧ t.engine.counter = s.engine.counter ∧
        t.space = s.space ∧ t.drain = s.drain ∧ t.ctl = s.ctl ∧ t.array = s.array)

/-- NS_FREEZE by the state of the entry: NO_NAMESPACE, OK with FROZEN, or ALREADY. [R61] -/
def Obligations.NsFreezeByState : Prop :=
  ∀ (s : State) (b : Byte), FrameGranted s .A .nsFreeze [b] →
    (7 < b.toNat → exec (.nsFreeze .A) s = .next (answered .A [0x52] s)) ∧
    ∀ ns : Fin 8, b.toNat = ns.val →
      ((nsEntry s ns).state = .undefined →
        exec (.nsFreeze .A) s = .next (answered .A [0x30] s)) ∧
      ((nsEntry s ns).state = .frozen →
        exec (.nsFreeze .A) s = .next (answered .A [0x22] s)) ∧
      ((nsEntry s ns).state = .defined →
        ∃ names, exec (.nsFreeze .A) s = .next
            (answered .A [0x00] { s with engine := { s.engine with names := names } }) ∧
          names.get ns = { nsEntry s ns with state := .frozen } ∧
          ∀ m, m ≠ ns → names.get m = nsEntry s m)

/-! ### Teardown, relocation, purge, resets -/

/-- A teardown's grant drops the port from the Lease Table and the Watch Table, a lease it held
passing to the first waiter that stays, with LEASE_GRANTED, or ending, and ends its TEARDOWN, PRESENT
with TEARDOWN_DONE or ABSENT by its power-good level; the store is untouched. [R182, R80, R73, R88,
R190, R191] -/
def Obligations.TeardownDropsThePort : Prop :=
  ∀ (s : State) (p : Port), granted s = some (.teardown p) →
    ∃ t, exec (.teardownRequest p) s = .next t ∧
      t.leases = s.leases.flatMap (leaseAfterTeardown p) ∧
      (∀ q, (t.port q).queue =
        ((notifyAll (s.leases.flatMap (teardownNotices p)) s).port q).queue) ∧
      holdCount p t.leases = 0 ∧
      (∀ l, l.holder ≠ p → p ∉ l.waiters.map Waiter.port → l ∈ s.leases → l ∈ t.leases) ∧
      (∀ x, x ∈ t.watches ↔ x ∈ s.watches ∧ x.port ≠ p) ∧
      ((s.port p).powerGood = true → (t.port p).link = .present ∧
        (t.port p).latched = { (s.port p).latched with teardownDone := true }) ∧
      ((s.port p).powerGood = false → (t.port p).link = .absent ∧
        (t.port p).latched = (s.port p).latched) ∧
      (t.port p).mailbox = (s.port p).mailbox ∧ (t.port p).queue = (s.port p).queue ∧
      (∀ q, q ≠ p → t.port q = { s.port q with queue := (t.port q).queue }) ∧
      t.engine = s.engine ∧ t.space = s.space ∧ t.drain = s.drain ∧ t.ctl = s.ctl ∧
      t.array = s.array

/-- RELOCATE is APPLIED when the entry points at the source: the entry moves to the copy and nothing
else of it changes, its granules leave the source's live count for the copy's, and the source is asked
to be superseded; else it is STALE and the copy is. PURGE removes a DELETED entry that points at the
tombstone, whose granule becomes dead, and changes no entry and no account otherwise. [R127 to R131,
R11, R103] -/
def Obligations.RelocateAndPurgeByPlace : Prop :=
  ∀ (s : State), granted s = some .drain →
    (∀ k src cp size, s.drain.request = some (.relocate k src cp size) →
      (∀ e, entryOf k s.engine.index = some e → e.place = src →
        ∃ t, exec .relocate s = .next t ∧
          entryOf k t.engine.index = some { e with place := cp } ∧
          (∀ k', k' ≠ k → entryOf k' t.engine.index = entryOf k' s.engine.index) ∧
          (src.sector ≠ cp.sector →
            t.space.rec_ src.sector = { s.space.rec_ src.sector with
              live := (s.space.rec_ src.sector).live - recordSize e.length
              dead := (s.space.rec_ src.sector).dead + recordSize e.length } ∧
            t.space.rec_ cp.sector = { s.space.rec_ cp.sector with
              live := (s.space.rec_ cp.sector).live + recordSize e.length
              dead := (s.space.rec_ cp.sector).dead - recordSize e.length }) ∧
          (src.sector = cp.sector → t.space.rec_ src.sector = { s.space.rec_ src.sector with
            live := (s.space.rec_ src.sector).live - recordSize e.length + recordSize e.length }) ∧
          (∀ i, i ≠ src.sector → i ≠ cp.sector → t.space.rec_ i = s.space.rec_ i) ∧
          opOf .engine t = some (.programState src .superseded) ∧ t.engine.job = .relocate ∧
          t.drain.request = none ∧ t.engine.counter = s.engine.counter ∧ t.ports = s.ports) ∧
      ((∀ e, entryOf k s.engine.index = some e → e.place ≠ src) →
        ∃ t, exec .relocate s = .next t ∧ t.engine = s.engine ∧ t.space = s.space ∧
          opOf .drain t = some (.programState cp .superseded) ∧ t.drain.request = none ∧
          t.ports = s.ports)) ∧
    (∀ k at_, s.drain.request = some (.purge k at_) →
      ∃ t, exec .purge s = .next t ∧ t.drain.request = none ∧
        (∀ k', k' ≠ k → entryOf k' t.engine.index = entryOf k' s.engine.index) ∧
        (∀ i, i ≠ at_.sector → (t.space.rec_ i).live = (s.space.rec_ i).live ∧
          (t.space.rec_ i).dead = (s.space.rec_ i).dead) ∧
        (∀ e, entryOf k s.engine.index = some e → e.presence = .deleted → e.place = at_ →
          entryOf k t.engine.index = none ∧
          (t.space.rec_ at_.sector).live =
            (s.space.rec_ at_.sector).live - recordSize e.length ∧
          (t.space.rec_ at_.sector).dead =
            (s.space.rec_ at_.sector).dead + recordSize e.length) ∧
        ((∀ e, entryOf k s.engine.index = some e → e.presence = .present ∨ e.place ≠ at_) →
          t.engine.index = s.engine.index ∧
          (t.space.rec_ at_.sector).live = (s.space.rec_ at_.sector).live ∧
          (t.space.rec_ at_.sector).dead = (s.space.rec_ at_.sector).dead) ∧
        t.engine.counter = s.engine.counter ∧ (∀ q, (t.port q).queue = (s.port q).queue))

/-- The mount's survey enters a sector's class by the tests of R101, its erase count and activation
sequence as its header reads, notes the survey's quantities, and goes on to the next sector's header,
programming nothing. Model's choices: headers as their fields, log 4; BLANK and UNINTELLIGIBLE as
table states, log 28; one header with each READ, log 11. [R155, R100, R101] -/
def Obligations.MountSurveyEntersTheHeader : Prop :=
  (∀ (h : SectorHeader) (g : Option Activation), g = activationOf h →
    (h = SectorHeader.blank → classify h = .blank) ∧
    (h ≠ SectorHeader.blank → (∀ n, h.identity ≠ .written n) → classify h = .unintelligible) ∧
    (∀ n, h.identity = .written n →
      classify h = match h.mark with
        | none => if g = none then .unintelligible else .full
        | some .active => if g = none then .unintelligible else .active
        | some .full => if g = none then .unintelligible else .full
        | some .draining => if g = none then .unintelligible else .draining
        | some .erased => if h.activation = .erased then .erased else .unintelligible
        | some .discarded => .discarded
        | some .retired => .retired) ∧
    (h.activation = .erased ∨ h.activation = .bad → g = none) ∧
    ∀ x, h.activation = .written x →
      g = if x.sequence = 0 ∨ x.floor = 0 ∨ x.base = 0 then none else some x) ∧
  ∀ (s : State) (j : MountJob) (i : Sector) (hi : i.val + 1 < 128) (first : Bool)
    (seen : SectorImage) (h : SectorHeader), h = sectorHeader s.array i →
    s.ctl.serving = some (.engine, .read i 0 1) → s.ctl.erase = none →
    s.engine.job = .mount j → j.phase = .surveyHeader i →
    ∃ t j', exec (.readComplete first seen) s = .next t ∧
      (t.space.rec_ i).state = classify h ∧
      (t.space.rec_ i).sequence = (activationOf h).map Activation.sequence ∧
      (∀ n, h.identity = .written n → (t.space.rec_ i).eraseCount = n ∧
        j'.survey.count = max j.survey.count n) ∧
      ((∀ n, h.identity ≠ .written n) → j'.survey.count = j.survey.count) ∧
      (∀ g, activationOf h = some g →
        j'.survey.sequence.toNat = max j.survey.sequence.toNat g.sequence.toNat ∧
        j'.survey.floor.toNat = max j.survey.floor.toNat g.floor.toNat ∧
        (classify h ∈ [SectorState.active, .full, .draining, .discarded, .retired] →
          j'.survey.base.toNat = max j.survey.base.toNat g.base.toNat) ∧
        (classify h ∉ [SectorState.active, .full, .draining, .discarded, .retired] →
          j'.survey.base = j.survey.base)) ∧
      (activationOf h = none → j'.survey.sequence = j.survey.sequence ∧
        j'.survey.floor = j.survey.floor ∧ j'.survey.base = j.survey.base) ∧
      (∀ k, k ≠ i → t.space.rec_ k = s.space.rec_ k) ∧
      t.engine.job = .mount j' ∧ j'.phase = .surveyHeader ⟨i.val + 1, hi⟩ ∧
      opOf .engine t = some (.read ⟨i.val + 1, hi⟩ 0 1) ∧
      t.array = s.array ∧ t.space.store = s.space.store ∧ t.ports = s.ports

/-- The mount's walk of a sector: an intact header is passed by its record's size; erased granules and
broken headers one by one, a gap ending at the first granule that is not erased, and a broken header's
run only at an intact one. The survey's walks read so every sector that is neither BLANK nor ERASED,
note the largest version of an intact header, and change nothing else. Model's choices: the walks are
made in ascending sector number, log 42, one granule with each READ, log 11. [R154, R155, R3, R2] -/
def Obligations.MountWalksEachSector : Prop :=
  (∀ (i : Sector) (pos : Nat) (m : WalkMode),
    (∀ h, Walk.move ⟨i, pos, m⟩ (.header h) = ⟨i, pos + (1 + (h.length + 15) / 16), .normal⟩) ∧
    Walk.move ⟨i, pos, .normal⟩ .erased = ⟨i, pos + 1, .gap pos⟩ ∧
    (m ≠ .normal → Walk.move ⟨i, pos, m⟩ .erased = ⟨i, pos + 1, m⟩) ∧
    (∀ b, Walk.move ⟨i, pos, .broken b⟩ .broken = ⟨i, pos + 1, .broken b⟩) ∧
    ((∀ b, m ≠ .broken b) → Walk.move ⟨i, pos, m⟩ .broken = ⟨i, pos + 1, .broken pos⟩)) ∧
  (∀ (s : State) (j : MountJob) (first : Bool) (seen : SectorImage) (k : Sector),
    s.ctl.serving = some (.engine, .read 127 0 1) → s.ctl.erase = none →
    s.engine.job = .mount j → j.phase = .surveyHeader 127 → k ≠ 127 →
    (s.space.rec_ k).state ∉ [SectorState.blank, .erased] →
    (∀ m, m < k → (s.space.rec_ m).state ∈ [SectorState.blank, .erased]) →
    ∃ t j' rest, exec (.readComplete first seen) s = .next t ∧ t.engine.job = .mount j' ∧
      j'.phase = .surveyWalk ⟨k, 1, .normal⟩ rest ∧ opOf .engine t = some (.read k 1 1) ∧
      (∀ m, m ∈ rest ↔ k < m ∧ (t.space.rec_ m).state ∉ [SectorState.blank, .erased]) ∧
      rest.Pairwise (· < ·) ∧ t.array = s.array) ∧
  ∀ (s : State) (j : MountJob) (w w' : Walk) (rest : List Sector) (g : GranuleRead) (first : Bool)
    (seen : SectorImage) (v : Word32),
    s.ctl.serving = some (.engine, .read w.sector w.pos 1) → s.ctl.erase = none →
    s.engine.job = .mount j → j.phase = .surveyWalk w rest →
    g = readGranule s.array w.sector w.pos → w' = w.move g →
    (∀ h, g = .header h → v.toNat = max j.survey.version.toNat h.version.toNat) →
    (g = .erased ∨ g = .broken → v = j.survey.version) →
    (w'.pos ≤ 511 → ∃ t, exec (.readComplete first seen) s = .next t ∧
      t.engine = { s.engine with job := .mount { j with
        survey := { j.survey with version := v }, phase := .surveyWalk w' rest } } ∧
      opOf .engine t = some (.read w'.sector w'.pos 1) ∧
      t.space = s.space ∧ t.drain = s.drain ∧ t.array = s.array ∧ t.ports = s.ports) ∧
    (∀ i is, 511 < w'.pos → rest = i :: is → ∃ t, exec (.readComplete first seen) s = .next t ∧
      t.engine = { s.engine with job := .mount { j with
        survey := { j.survey with version := v }, phase := .surveyWalk ⟨i, 1, .normal⟩ is } } ∧
      opOf .engine t = some (.read i 1 1) ∧
      t.space = s.space ∧ t.drain = s.drain ∧ t.array = s.array ∧ t.ports = s.ports)

/-- Header repair by class: what is erased and the erase count given; an erase that passes is followed by
the identity program, an identity program that passes makes the sector ERASED with that count and empty
accounts, and either failing retires the sector. The sectors are treated in ascending number, and the
record scan follows. Model's choices: the repair goes on after the RETIRED program, log 12; the scan
reads one granule with each READ, log 11. [R156, R104, R112] -/
def Obligations.HeaderRepairByClass : Prop :=
  (∀ (v : Survey) (x : Space) (i : Sector) (r : SectorRecord), r = x.rec_ i →
    (r.state = .blank → repairOf v x i = some (false, v.count)) ∧
    (r.state = .discarded → repairOf v x i = some (true, nextCount r.eraseCount)) ∧
    (r.state = .unintelligible → repairOf v x i = some (true, nextCount v.count)) ∧
    (∀ q, r.state ∈ [SectorState.active, .full, .draining] → r.sequence = some q →
      repairOf v x i = if q < v.base then some (true, nextCount r.eraseCount) else none) ∧
    (r.state = .erased ∨ r.state = .retired → repairOf v x i = none)) ∧
  (∀ n : EraseCount, (nextCount n).val = min (n.val + 1) 16777215) ∧
  (∀ (s : State) (j : MountJob) (i : Sector) (n : EraseCount) (b first : Bool) (left : SectorImage)
    (e : EraseJob), e.requester = .engine → e.sector = i → e.suspended = false → s.ctl.erase = some e →
    e.active < 120 → s.engine.job = .mount j → j.phase = .repairErase i →
    repairOf j.survey s.space i = some (b, n) →
    ∃ t, exec (.eraseComplete true left first) s = .next t ∧
      opOf .engine t = some (.programIdentity i n) ∧
      t.engine.job = .mount { j with phase := .repairIdentity i n } ∧
      sectorHeader t.array i = SectorHeader.blank) ∧
  (∀ (s : State) (j : MountJob) (i : Sector) (n : EraseCount) (first : Bool) (left : SpanLeft)
    (under : UnderErase),
    s.ctl.serving = some (.engine, .programIdentity i n) → NoActivationFor .engine s →
    s.engine.job = .mount j → j.phase = .repairIdentity i n →
    (∀ k, i < k → (∃ m, repairOf j.survey s.space k = some m) →
      (∀ l, i < l → l < k → repairOf j.survey s.space l = none) →
      ∃ t, exec (.programComplete true ⟨left, under⟩ first) s = .next t ∧
        (sectorHeader t.array i).identity = .written n ∧
        t.space.rec_ i = ⟨.erased, n, none, 0, 0, 0⟩ ∧
        (∀ m, m ≠ i → t.space.rec_ m = s.space.rec_ m) ∧
        (∀ m, repairOf j.survey s.space k = some (true, m) →
          opOf .engine t = some (.erase k) ∧
          t.engine.job = .mount { j with phase := .repairErase k }) ∧
        (∀ m, repairOf j.survey s.space k = some (false, m) →
          opOf .engine t = some (.programIdentity k m) ∧
          t.engine.job = .mount { j with phase := .repairIdentity k m })) ∧
    (∀ k ks, (∀ l, i < l → repairOf j.survey s.space l = none) → j.scans = k :: ks →
      ∃ t, exec (.programComplete true ⟨left, under⟩ first) s = .next t ∧
        t.space.rec_ i = ⟨.erased, n, none, 0, 0, 0⟩ ∧ opOf .engine t = some (.read k 1 1) ∧
        t.engine.job = .mount { j with phase := .scan ⟨k, 1, .normal⟩ ks })) ∧
  ∀ (s : State) (j : MountJob) (i : Sector) (c : Instr) (pass first : Bool) (image : SectorImage)
    (left : SpanLeft) (under : UnderErase),
    s.engine.job = .mount j → NoActivationFor .engine s → (s.space.rec_ i).state ≠ .retired →
    (s.space.rec_ i).live = 0 →
    (∃ e, s.ctl.erase = some e ∧ e.requester = .engine ∧ e.sector = i ∧ e.suspended = false ∧
        j.phase = .repairErase i ∧
        ((c = .eraseTimeout image first ∧ 120 ≤ e.active) ∨
          (c = .eraseComplete pass image first ∧ e.active < 120 ∧
            erasePasses s.array pass image i = false))) ∨
      (∃ n, s.ctl.serving = some (.engine, .programIdentity i n) ∧ j.phase = .repairIdentity i n ∧
        (c = .programTimeout ⟨left, under⟩ first ∨
          (c = .programComplete pass ⟨left, under⟩ first ∧
            programPasses (metBy s (.programIdentity i n) under) pass left
              (.programIdentity i n) = false))) →
    ∃ t, exec c s = .next t ∧ t.space.rec_ i = { s.space.rec_ i with state := .retired } ∧
      (∀ m, m ≠ i → t.space.rec_ m = s.space.rec_ m) ∧
      t.space.evacuation = s.space.evacuation ∧ opOf .engine t = some (.programMark i .retired) ∧
      t.engine.job = .mount { j with phase := .repairRetire i }

/-- The record scan: the sectors that are not stale in ascending activation sequence; a header that is not
VALID is passed over; a VALID one is entered where its key has no entry and there is room, superseded
where the entry has a higher version, and else takes the entry over, whose record is superseded. A
failed SUPERSEDED program of the record just scanned sets purge hold. An ACTIVE sector whose walk ends
at a broken header is closed. No sector's accounts change before the scan's end. Model's choice: one granule
with each READ, log 11. [R157, R158, R159, R119, R5] -/
def Obligations.RecordScanOffersRecords : Prop :=
  (∀ (v : Survey) (x : Space),
    (∀ i, i ∈ scanOrder v x ↔
      (x.rec_ i).state ∈ [SectorState.active, .full, .draining, .retired] ∧
        ∃ q, (x.rec_ i).sequence = some q ∧ v.base ≤ q) ∧
    (scanOrder v x).Nodup ∧
    (scanOrder v x).Pairwise (fun a b => sequenceOf x a ≤ sequenceOf x b)) ∧
  (∀ (s : State) (j : MountJob) (w : Walk) (rest : List Sector) (h : RecHeader) (first : Bool)
    (seen : SectorImage) (next : Nat),
    s.ctl.serving = some (.engine, .read w.sector w.pos 1) → s.ctl.erase = none →
    s.engine.job = .mount j → j.phase = .scan w rest →
    readGranule s.array w.sector w.pos = .header h → next = w.pos + recordSize h.length →
    ∃ t, exec (.readComplete first seen) s = .next t ∧ t.array = s.array ∧
      (h.state ≠ some .valid ∨
          (entryOf h.key s.engine.index = none ∧ 2048 ≤ s.engine.index.length) →
        t.engine.index = s.engine.index ∧
        (next ≤ 511 → t.engine.job = .mount { j with phase := .scan ⟨w.sector, next, .normal⟩ rest } ∧
          opOf .engine t = some (.read w.sector next 1) ∧ t.space = s.space)) ∧
      (h.state = some .valid → entryOf h.key s.engine.index = none →
        s.engine.index.length < 2048 →
        entryOf h.key t.engine.index = some ⟨h.key, if h.kind = .tombstone then .deleted
          else .present, ⟨w.sector, w.pos⟩, h.length, h.version⟩ ∧
        (∀ k, k ≠ h.key → entryOf k t.engine.index = entryOf k s.engine.index) ∧
        (next ≤ 511 → t.engine.job = .mount { j with phase := .scan ⟨w.sector, next, .normal⟩ rest } ∧
          opOf .engine t = some (.read w.sector next 1) ∧ t.space = s.space)) ∧
      ∀ e, h.state = some .valid → entryOf h.key s.engine.index = some e →
        (h.version < e.version → t.engine.index = s.engine.index ∧
          opOf .engine t = some (.programState ⟨w.sector, w.pos⟩ .superseded) ∧
          t.engine.job = .mount { j with
            phase := .scanSupersede ⟨w.sector, next, .normal⟩ rest true } ∧ t.space = s.space) ∧
        (e.version ≤ h.version →
          entryOf h.key t.engine.index = some ⟨h.key, if h.kind = .tombstone then .deleted
            else .present, ⟨w.sector, w.pos⟩, h.length, h.version⟩ ∧
          (∀ k, k ≠ h.key → entryOf k t.engine.index = entryOf k s.engine.index) ∧
          opOf .engine t = some (.programState e.place .superseded) ∧
          t.engine.job = .mount { j with
            phase := .scanSupersede ⟨w.sector, next, .normal⟩ rest false } ∧ t.space = s.space)) ∧
  (∀ (s : State) (j : MountJob) (w : Walk) (rest : List Sector) (hold pass first : Bool)
    (left : SpanLeft) (under : UnderErase) (p : Place) (op : ArrayOp) (c : Instr),
    op = .programState p .superseded → s.ctl.serving = some (.engine, op) → NoActivationFor .engine s →
    s.engine.job = .mount j → j.phase = .scanSupersede w rest hold → w.pos ≤ 511 →
    c = .programComplete pass ⟨left, under⟩ first ∨ c = .programTimeout ⟨left, under⟩ first →
    ∃ t, exec c s = .next t ∧ t.engine = { s.engine with
        job := .mount { j with phase := .scan w rest } } ∧
      opOf .engine t = some (.read w.sector w.pos 1) ∧ t.space = s.space ∧
      (hold = true → c = .programTimeout ⟨left, under⟩ first ∨
          programPasses (metBy s op under) pass left op = false →
        t.drain = { s.drain with purgeHold := true }) ∧
      (hold = false ∨ (c = .programComplete pass ⟨left, under⟩ first ∧
          programPasses (metBy s op under) pass left op = true) →
        t.drain = s.drain)) ∧
  ∀ (s : State) (j : MountJob) (w w' : Walk) (rest : List Sector) (g : GranuleRead) (r : SectorRecord)
    (first : Bool) (seen : SectorImage),
    s.ctl.serving = some (.engine, .read w.sector w.pos 1) → s.ctl.erase = none →
    s.engine.job = .mount j → j.phase = .scan w rest →
    g = readGranule s.array w.sector w.pos → w' = w.move g → r = s.space.rec_ w.sector →
    (∀ h, g = .header h → h.state ≠ some .valid) →
    (w'.pos ≤ 511 → ∃ t, exec (.readComplete first seen) s = .next t ∧
      t.engine = { s.engine with job := .mount { j with phase := .scan w' rest } } ∧
      opOf .engine t = some (.read w'.sector w'.pos 1) ∧ t.space = s.space) ∧
    (511 < w'.pos →
      (∀ b, r.state = .active → w'.mode = .broken b →
        ∃ t, exec (.readComplete first seen) s = .next t ∧
          t.space.rec_ w.sector = { r with state := .full } ∧
          (∀ k, k ≠ w.sector → t.space.rec_ k = s.space.rec_ k) ∧
          t.engine = { s.engine with job := .mount { j with
            phase := .scanClose rest, ends := (w.sector, 511) :: j.ends } } ∧
          opOf .engine t = some (.programMark w.sector .full)) ∧
      (∀ i is, rest = i :: is → r.state ≠ .active ∨ (∀ b, w'.mode ≠ .broken b) →
        ∃ t, exec (.readComplete first seen) s = .next t ∧ t.space = s.space ∧
          t.engine = { s.engine with job := .mount { j with
            phase := .scan ⟨i, 1, .normal⟩ is
            ends := (w.sector, endOfRecords r.state w'.mode) :: j.ends } } ∧
          opOf .engine t = some (.read i 1 1)))

/-- The end of the record scan fills in the accounts and sets the counters and the format base; with one
ACTIVE sector the drain work is listed and the mount ends; of several, the one of highest sequence
stays and the others are closed, each with its FULL program; with none, the pool's next sector is
activated, or the mount ends with cause NO_SPACE or COUNTER_LIMIT. Model's choice: log 27, log 33, log 39,
log 46 (the counters by R160, against R6).
[R159 to R163, R114, R115, R121, R122, R105, R108] -/
def Obligations.MountSettlesTheStore : Prop :=
  (∀ (s : State) (j : MountJob) (c : Instr) (x : Space) (ends : List (Sector × Nat))
    (largest : Word32), ScanEnds s c j x ends → s.space.activation = none → s.drain.state = .idle →
    largest = (if j.survey.version < j.survey.floor then j.survey.floor else j.survey.version) →
    ∃ t, exec c s = .next t ∧ t.engine.index = s.engine.index ∧
      t.engine.counter = (if largest = lastWord then lastWord else largest + 1) ∧
      t.space.formatBase = j.survey.base ∧
      (∀ i, x.sectorsIn .active = [i] → MountEnded (accountsFilled ends s.engine.index x)
          (largest == lastWord || j.survey.sequence == lastWord) s.space.noSpace s t ∧
        t.space.actCounter =
          if j.survey.sequence = lastWord then lastWord else j.survey.sequence + 1) ∧
      (x.sectorsIn .active = [] → s.space.store = .mounting →
        (j.survey.sequence ≠ lastWord → (∃ i, (x.rec_ i).state = .erased) →
          ∃ i, LeastErased x i ∧
            opOf .engine t = some (.programActivation i ⟨j.survey.sequence + 1, t.engine.counter,
              if j.survey.base = 0 then j.survey.sequence + 1 else j.survey.base⟩) ∧
            (∀ k, t.space.rec_ k = accountsFilled ends s.engine.index x k) ∧
            t.space.store = .mounting ∧ t.drain.pendingConsideration = true) ∧
        ((∀ i, (x.rec_ i).state ≠ .erased) →
          MountEnded (accountsFilled ends s.engine.index x)
            (largest == lastWord || j.survey.sequence == lastWord) true s t) ∧
        (j.survey.sequence = lastWord → (∃ i, (x.rec_ i).state = .erased) →
          MountEnded (accountsFilled ends s.engine.index x) true s.space.noSpace s t)) ∧
      (∀ i k ks, x.sectorsIn .active = i :: k :: ks →
        ∃ top l ls, top ∈ i :: k :: ks ∧
          (∀ m ∈ i :: k :: ks, sequenceOf x m ≤ sequenceOf x top) ∧
          l :: ls = (i :: k :: ks).filter (fun m => m != top) ∧
          (∃ j', t.engine.job = .mount j' ∧ j'.phase = .surplus ls) ∧
          opOf .engine t = some (.programMark l .full) ∧
          t.space.rec_ l = closed (accountsFilled ends s.engine.index x l) ∧
          ∀ m, m ≠ l → t.space.rec_ m = accountsFilled ends s.engine.index x m)) ∧
  ∀ (s : State) (j : MountJob) (l : List Sector) (i : Sector) (c : Instr) (pass first : Bool)
    (left : SpanLeft) (under : UnderErase),
    s.ctl.serving = some (.engine, .programMark i .full) → s.space.activation = none →
    s.drain.state = .idle → s.engine.job = .mount j → j.phase = .surplus l →
    c = .programComplete pass ⟨left, under⟩ first ∨ c = .programTimeout ⟨left, under⟩ first →
    ∃ t, exec c s = .next t ∧
      (∀ k ks, l = k :: ks → opOf .engine t = some (.programMark k .full) ∧
        t.engine.job = .mount { j with phase := .surplus ks } ∧
        t.space.rec_ k = closed (s.space.rec_ k) ∧
        ∀ m, m ≠ k → t.space.rec_ m = s.space.rec_ m) ∧
      (l = [] → MountEnded s.space.rec_ (s.engine.counterSpent || s.space.actSpent)
        s.space.noSpace s t)

/-- Every reset takes the part's RAM to its reset values: ports by their power-good level, tables
empty, the mount begun where RESET_N is high. The Namespace Table and the low-water mark fall to
their power-on values at POWER_ON_RESET alone. With no operation under way the array is kept; an
erase that is cut off leaves a mixture of old contents and 0FFH in its sector, every other sector kept,
and the array as it is where a PROGRAM of the sector has ended in the suspension; a header program leaves
the granule as it was or broken; a FORMAT's first DISCARDED program leaves the array, and its activation
program the chosen sector UNINTELLIGIBLE. What other cut-off programs leave is not said here. Model's
choice: log 8 (a PROGRAM in the suspension), log 17, log 18, log 7 and log 45 (a header program), log 40,
log 44. [R192, R193, R194, R49, R116, R153, R66, R85, R98, R119, R152, R42, R171] -/
def Obligations.ResetsLeaveTheResetValues : Prop :=
  ∀ (s : State) (span : SpanLeft) (sector : EraseCut) (held : Bool) (c : Instr) (low : Bool),
    (c = .powerOnReset span sector ∧ low = s.resetLow) ∨
      (c = .deviceReset held span sector ∧ low = held) ∨
      (c = .resetNRise ∧ s.resetLow = true ∧ low = false) →
    ∃ t, exec c s = .next t ∧ t.resetLow = low ∧
      t.space.store = .mounting ∧ t.engine.index = [] ∧ t.engine.pointer = .A ∧
      t.leases = [] ∧ t.watches = [] ∧ t.space.evacuation = [] ∧ t.drain.state = .idle ∧
      t.drain.sector = none ∧ t.drain.copy = none ∧ t.drain.purgeHold = false ∧
      t.drain.pendingConsideration = false ∧ t.ctl.erase = none ∧ t.ctl.drain = none ∧
      t.engine.job = (if low then .idle else .mount .start) ∧
      (∀ p, (t.port p).mailbox.state = .idle ∧ (t.port p).txn.state = .none_ ∧
        (t.port p).txn.staged = 0 ∧ (t.port p).queue.entries = [] ∧ flagsByte (t.port p) = 0 ∧
        (t.port p).enable = 0 ∧ (t.port p).activeLow = false ∧ (t.port p).generation = 0 ∧
        (t.port p).link = (if (s.port p).powerGood then .present else .absent)) ∧
      (s.ctl.serving = none → s.ctl.erase = none → t.array = s.array) ∧
      (∀ e, s.ctl.serving = none → s.ctl.erase = some e →
        (∀ a, byteAt a t.array.bytes = byteAt a s.array.bytes ∨
          (byteAt a t.array.bytes = 0xFF ∧ a / 8192 = e.sector.val)) ∧
        (∀ (p : Place) (h' : RecHeader),
          cellAt (granuleNumber p.sector p.granule) t.array.recs = some (.written h') →
          ∃ h, cellAt (granuleNumber p.sector p.granule) s.array.recs = some (.written h) ∧
            (h' = h ∨ h' = { h with state := none })) ∧
        (∀ k, k ≠ e.sector → sectorHeader t.array k = sectorHeader s.array k) ∧
        classify (sectorHeader t.array e.sector) ∈
          [.blank, .unintelligible, classify (sectorHeader s.array e.sector)]) ∧
      (∀ e, s.ctl.erase = some e → e.suspended = true → e.shown = true →
        (∀ r op, s.ctl.serving = some (r, op) → isProgram op = false) → t.array = s.array) ∧
      (s.ctl.erase = none →
        (∀ r p h, s.ctl.serving = some (r, .programHeader p h) →
          t.array = s.array ∨ ∃ st, (st = none ∨ st = recStateAt s.array p) ∧
            t.array = putRec s.array p (.broken st)) ∧
        (∀ i p gen, s.ctl.serving = some (.engine, .programMark i .discarded) →
          s.engine.job = .format p gen (.mark i) →
          (∀ k, k < i → (s.space.rec_ k).state ≠ .discarded) → t.array = s.array) ∧
        ∀ i g p gen n, c ≠ .resetNRise → s.ctl.serving = some (.engine, .programActivation i g) →
          s.engine.job = .format p gen .activate →
          (sectorHeader s.array i).identity = .written n →
          (sectorHeader s.array i).mark = some .erased →
          classify (sectorHeader t.array i) = .unintelligible) ∧
      (c = .powerOnReset span sector → t.space.lowWater = 4 ∧
        ∀ ns, nsEntry t ns = ⟨.undefined, 0, 0, 0⟩) ∧
      (c ≠ .powerOnReset span sector → t.space.lowWater = s.space.lowWater ∧
        t.engine.names = s.engine.names)
end

