-- ==== Sys2Proof/Laws/State.lean ====
section
/-! SUPPORT. The fields of State after each setter, and the units of the four ports. -/

namespace Sys2Proof.Machine

open Sys2Proof

@[simp] theorem State.setPort_pending (s : State) (p : Port) (u : PortUnit) :
    (s.setPort p u).pending = s.pending := rfl
@[simp] theorem State.setPort_resetLow (s : State) (p : Port) (u : PortUnit) :
    (s.setPort p u).resetLow = s.resetLow := rfl
@[simp] theorem State.setPort_ports (s : State) (p : Port) (u : PortUnit) :
    (s.setPort p u).ports = s.ports.set p u := rfl
@[simp] theorem State.setPort_engine (s : State) (p : Port) (u : PortUnit) :
    (s.setPort p u).engine = s.engine := rfl
@[simp] theorem State.setPort_leases (s : State) (p : Port) (u : PortUnit) :
    (s.setPort p u).leases = s.leases := rfl
@[simp] theorem State.setPort_watches (s : State) (p : Port) (u : PortUnit) :
    (s.setPort p u).watches = s.watches := rfl
@[simp] theorem State.setPort_space (s : State) (p : Port) (u : PortUnit) :
    (s.setPort p u).space = s.space := rfl
@[simp] theorem State.setPort_drain (s : State) (p : Port) (u : PortUnit) :
    (s.setPort p u).drain = s.drain := rfl
@[simp] theorem State.setPort_ctl (s : State) (p : Port) (u : PortUnit) :
    (s.setPort p u).ctl = s.ctl := rfl
@[simp] theorem State.setPort_array (s : State) (p : Port) (u : PortUnit) :
    (s.setPort p u).array = s.array := rfl

@[simp] theorem State.setEngine_pending (s : State) (e : Engine) :
    (s.setEngine e).pending = s.pending := rfl
@[simp] theorem State.setEngine_resetLow (s : State) (e : Engine) :
    (s.setEngine e).resetLow = s.resetLow := rfl
@[simp] theorem State.setEngine_ports (s : State) (e : Engine) :
    (s.setEngine e).ports = s.ports := rfl
@[simp] theorem State.setEngine_engine (s : State) (e : Engine) :
    (s.setEngine e).engine = e := rfl
@[simp] theorem State.setEngine_leases (s : State) (e : Engine) :
    (s.setEngine e).leases = s.leases := rfl
@[simp] theorem State.setEngine_watches (s : State) (e : Engine) :
    (s.setEngine e).watches = s.watches := rfl
@[simp] theorem State.setEngine_space (s : State) (e : Engine) :
    (s.setEngine e).space = s.space := rfl
@[simp] theorem State.setEngine_drain (s : State) (e : Engine) :
    (s.setEngine e).drain = s.drain := rfl
@[simp] theorem State.setEngine_ctl (s : State) (e : Engine) :
    (s.setEngine e).ctl = s.ctl := rfl
@[simp] theorem State.setEngine_array (s : State) (e : Engine) :
    (s.setEngine e).array = s.array := rfl
@[simp] theorem State.setEngine_port (s : State) (e : Engine) (q : Port) :
    (s.setEngine e).port q = s.port q := rfl

@[simp] theorem State.setJob_pending (s : State) (j : EngineJob) :
    (s.setJob j).pending = s.pending := rfl
@[simp] theorem State.setJob_resetLow (s : State) (j : EngineJob) :
    (s.setJob j).resetLow = s.resetLow := rfl
@[simp] theorem State.setJob_ports (s : State) (j : EngineJob) :
    (s.setJob j).ports = s.ports := rfl
@[simp] theorem State.setJob_engine (s : State) (j : EngineJob) :
    (s.setJob j).engine = { s.engine with job := j } := rfl
@[simp] theorem State.setJob_leases (s : State) (j : EngineJob) :
    (s.setJob j).leases = s.leases := rfl
@[simp] theorem State.setJob_watches (s : State) (j : EngineJob) :
    (s.setJob j).watches = s.watches := rfl
@[simp] theorem State.setJob_space (s : State) (j : EngineJob) :
    (s.setJob j).space = s.space := rfl
@[simp] theorem State.setJob_drain (s : State) (j : EngineJob) :
    (s.setJob j).drain = s.drain := rfl
@[simp] theorem State.setJob_ctl (s : State) (j : EngineJob) :
    (s.setJob j).ctl = s.ctl := rfl
@[simp] theorem State.setJob_array (s : State) (j : EngineJob) :
    (s.setJob j).array = s.array := rfl
@[simp] theorem State.setJob_port (s : State) (j : EngineJob) (q : Port) :
    (s.setJob j).port q = s.port q := rfl

@[simp] theorem State.setLeases_pending (s : State) (l : List Lease) :
    (s.setLeases l).pending = s.pending := rfl
@[simp] theorem State.setLeases_resetLow (s : State) (l : List Lease) :
    (s.setLeases l).resetLow = s.resetLow := rfl
@[simp] theorem State.setLeases_ports (s : State) (l : List Lease) :
    (s.setLeases l).ports = s.ports := rfl
@[simp] theorem State.setLeases_engine (s : State) (l : List Lease) :
    (s.setLeases l).engine = s.engine := rfl
@[simp] theorem State.setLeases_leases (s : State) (l : List Lease) :
    (s.setLeases l).leases = l := rfl
@[simp] theorem State.setLeases_watches (s : State) (l : List Lease) :
    (s.setLeases l).watches = s.watches := rfl
@[simp] theorem State.setLeases_space (s : State) (l : List Lease) :
    (s.setLeases l).space = s.space := rfl
@[simp] theorem State.setLeases_drain (s : State) (l : List Lease) :
    (s.setLeases l).drain = s.drain := rfl
@[simp] theorem State.setLeases_ctl (s : State) (l : List Lease) :
    (s.setLeases l).ctl = s.ctl := rfl
@[simp] theorem State.setLeases_array (s : State) (l : List Lease) :
    (s.setLeases l).array = s.array := rfl
@[simp] theorem State.setLeases_port (s : State) (l : List Lease) (q : Port) :
    (s.setLeases l).port q = s.port q := rfl

@[simp] theorem State.setWatches_pending (s : State) (w : List WatchEntry) :
    (s.setWatches w).pending = s.pending := rfl
@[simp] theorem State.setWatches_resetLow (s : State) (w : List WatchEntry) :
    (s.setWatches w).resetLow = s.resetLow := rfl
@[simp] theorem State.setWatches_ports (s : State) (w : List WatchEntry) :
    (s.setWatches w).ports = s.ports := rfl
@[simp] theorem State.setWatches_engine (s : State) (w : List WatchEntry) :
    (s.setWatches w).engine = s.engine := rfl
@[simp] theorem State.setWatches_leases (s : State) (w : List WatchEntry) :
    (s.setWatches w).leases = s.leases := rfl
@[simp] theorem State.setWatches_watches (s : State) (w : List WatchEntry) :
    (s.setWatches w).watches = w := rfl
@[simp] theorem State.setWatches_space (s : State) (w : List WatchEntry) :
    (s.setWatches w).space = s.space := rfl
@[simp] theorem State.setWatches_drain (s : State) (w : List WatchEntry) :
    (s.setWatches w).drain = s.drain := rfl
@[simp] theorem State.setWatches_ctl (s : State) (w : List WatchEntry) :
    (s.setWatches w).ctl = s.ctl := rfl
@[simp] theorem State.setWatches_array (s : State) (w : List WatchEntry) :
    (s.setWatches w).array = s.array := rfl
@[simp] theorem State.setWatches_port (s : State) (w : List WatchEntry) (q : Port) :
    (s.setWatches w).port q = s.port q := rfl

@[simp] theorem State.setSpace_pending (s : State) (x : Space) :
    (s.setSpace x).pending = s.pending := rfl
@[simp] theorem State.setSpace_resetLow (s : State) (x : Space) :
    (s.setSpace x).resetLow = s.resetLow := rfl
@[simp] theorem State.setSpace_ports (s : State) (x : Space) :
    (s.setSpace x).ports = s.ports := rfl
@[simp] theorem State.setSpace_engine (s : State) (x : Space) :
    (s.setSpace x).engine = s.engine := rfl
@[simp] theorem State.setSpace_leases (s : State) (x : Space) :
    (s.setSpace x).leases = s.leases := rfl
@[simp] theorem State.setSpace_watches (s : State) (x : Space) :
    (s.setSpace x).watches = s.watches := rfl
@[simp] theorem State.setSpace_space (s : State) (x : Space) :
    (s.setSpace x).space = x := rfl
@[simp] theorem State.setSpace_drain (s : State) (x : Space) :
    (s.setSpace x).drain = s.drain := rfl
@[simp] theorem State.setSpace_ctl (s : State) (x : Space) :
    (s.setSpace x).ctl = s.ctl := rfl
@[simp] theorem State.setSpace_array (s : State) (x : Space) :
    (s.setSpace x).array = s.array := rfl
@[simp] theorem State.setSpace_port (s : State) (x : Space) (q : Port) :
    (s.setSpace x).port q = s.port q := rfl

@[simp] theorem State.setDrain_pending (s : State) (d : Drain) :
    (s.setDrain d).pending = s.pending := rfl
@[simp] theorem State.setDrain_resetLow (s : State) (d : Drain) :
    (s.setDrain d).resetLow = s.resetLow := rfl
@[simp] theorem State.setDrain_ports (s : State) (d : Drain) :
    (s.setDrain d).ports = s.ports := rfl
@[simp] theorem State.setDrain_engine (s : State) (d : Drain) :
    (s.setDrain d).engine = s.engine := rfl
@[simp] theorem State.setDrain_leases (s : State) (d : Drain) :
    (s.setDrain d).leases = s.leases := rfl
@[simp] theorem State.setDrain_watches (s : State) (d : Drain) :
    (s.setDrain d).watches = s.watches := rfl
@[simp] theorem State.setDrain_space (s : State) (d : Drain) :
    (s.setDrain d).space = s.space := rfl
@[simp] theorem State.setDrain_drain (s : State) (d : Drain) :
    (s.setDrain d).drain = d := rfl
@[simp] theorem State.setDrain_ctl (s : State) (d : Drain) :
    (s.setDrain d).ctl = s.ctl := rfl
@[simp] theorem State.setDrain_array (s : State) (d : Drain) :
    (s.setDrain d).array = s.array := rfl
@[simp] theorem State.setDrain_port (s : State) (d : Drain) (q : Port) :
    (s.setDrain d).port q = s.port q := rfl

@[simp] theorem State.setCtl_pending (s : State) (c : Controller) :
    (s.setCtl c).pending = s.pending := rfl
@[simp] theorem State.setCtl_resetLow (s : State) (c : Controller) :
    (s.setCtl c).resetLow = s.resetLow := rfl
@[simp] theorem State.setCtl_ports (s : State) (c : Controller) :
    (s.setCtl c).ports = s.ports := rfl
@[simp] theorem State.setCtl_engine (s : State) (c : Controller) :
    (s.setCtl c).engine = s.engine := rfl
@[simp] theorem State.setCtl_leases (s : State) (c : Controller) :
    (s.setCtl c).leases = s.leases := rfl
@[simp] theorem State.setCtl_watches (s : State) (c : Controller) :
    (s.setCtl c).watches = s.watches := rfl
@[simp] theorem State.setCtl_space (s : State) (c : Controller) :
    (s.setCtl c).space = s.space := rfl
@[simp] theorem State.setCtl_drain (s : State) (c : Controller) :
    (s.setCtl c).drain = s.drain := rfl
@[simp] theorem State.setCtl_ctl (s : State) (c : Controller) :
    (s.setCtl c).ctl = c := rfl
@[simp] theorem State.setCtl_array (s : State) (c : Controller) :
    (s.setCtl c).array = s.array := rfl
@[simp] theorem State.setCtl_port (s : State) (c : Controller) (q : Port) :
    (s.setCtl c).port q = s.port q := rfl

@[simp] theorem State.setArray_pending (s : State) (a : ArrayContents) :
    (s.setArray a).pending = s.pending := rfl
@[simp] theorem State.setArray_resetLow (s : State) (a : ArrayContents) :
    (s.setArray a).resetLow = s.resetLow := rfl
@[simp] theorem State.setArray_ports (s : State) (a : ArrayContents) :
    (s.setArray a).ports = s.ports := rfl
@[simp] theorem State.setArray_engine (s : State) (a : ArrayContents) :
    (s.setArray a).engine = s.engine := rfl
@[simp] theorem State.setArray_leases (s : State) (a : ArrayContents) :
    (s.setArray a).leases = s.leases := rfl
@[simp] theorem State.setArray_watches (s : State) (a : ArrayContents) :
    (s.setArray a).watches = s.watches := rfl
@[simp] theorem State.setArray_space (s : State) (a : ArrayContents) :
    (s.setArray a).space = s.space := rfl
@[simp] theorem State.setArray_drain (s : State) (a : ArrayContents) :
    (s.setArray a).drain = s.drain := rfl
@[simp] theorem State.setArray_ctl (s : State) (a : ArrayContents) :
    (s.setArray a).ctl = s.ctl := rfl
@[simp] theorem State.setArray_array (s : State) (a : ArrayContents) :
    (s.setArray a).array = a := rfl
@[simp] theorem State.setArray_port (s : State) (a : ArrayContents) (q : Port) :
    (s.setArray a).port q = s.port q := rfl

/-! ### Ports -/

@[simp] theorem Ports.get_set_self (ps : Ports) (p : Port) (u : PortUnit) :
    (ps.set p u).get p = u := by cases p <;> rfl

theorem Ports.get_set_ne (ps : Ports) {p q : Port} (u : PortUnit) (h : q ≠ p) :
    (ps.set p u).get q = ps.get q := by cases p <;> cases q <;> first | rfl | exact absurd rfl h

theorem Ports.get_set (ps : Ports) (p q : Port) (u : PortUnit) :
    (ps.set p u).get q = if q = p then u else ps.get q := by
  cases p <;> cases q <;> rfl

@[simp] theorem Ports.get_each (ps : Ports) (f : PortUnit → PortUnit) (q : Port) :
    (ps.each f).get q = f (ps.get q) := by cases q <;> rfl

@[simp] theorem Ports.set_get_self (ps : Ports) (p : Port) : ps.set p (ps.get p) = ps := by
  cases p <;> rfl

@[simp] theorem Ports.set_set (ps : Ports) (p : Port) (u v : PortUnit) :
    (ps.set p u).set p v = ps.set p v := by cases p <;> rfl

theorem Ports.set_comm (ps : Ports) {p q : Port} (u v : PortUnit) (h : q ≠ p) :
    (ps.set p u).set q v = (ps.set q v).set p u := by
  cases p <;> cases q <;> first | rfl | exact absurd rfl h

theorem Ports.ext_get {x y : Ports} (h : ∀ p, x.get p = y.get p) : x = y := by
  obtain ⟨a, b, c, d⟩ := x
  obtain ⟨a', b', c', d'⟩ := y
  simp only [Ports.mk.injEq]
  exact ⟨h .A, h .B, h .C, h .D⟩

theorem State.port_eq (s : State) (p : Port) : s.port p = s.ports.get p := rfl

@[simp] theorem State.setPort_port_self (s : State) (p : Port) (u : PortUnit) :
    (s.setPort p u).port p = u := Ports.get_set_self _ _ _

theorem State.setPort_port_ne (s : State) {p q : Port} (u : PortUnit) (h : q ≠ p) :
    (s.setPort p u).port q = s.port q := Ports.get_set_ne _ _ h

theorem State.setPort_port (s : State) (p q : Port) (u : PortUnit) :
    (s.setPort p u).port q = if q = p then u else s.port q := Ports.get_set _ _ _ _

@[simp] theorem State.setPort_self (s : State) (p : Port) : s.setPort p (s.port p) = s := by
  cases s
  simp [State.setPort, State.port]

@[simp] theorem State.setPort_setPort (s : State) (p : Port) (u v : PortUnit) :
    (s.setPort p u).setPort p v = s.setPort p v := by simp [State.setPort]

/-! ### Vectors of fixed length -/

@[simp] theorem vset_get_self {α : Type} {n : Nat} (v : Vector α n) (i : Fin n) (x : α) :
    (vset v i x).get i = x := by simp [vset, Vector.get_eq_getElem]

theorem vset_get {α : Type} {n : Nat} (v : Vector α n) (i j : Fin n) (x : α) :
    (vset v i x).get j = if j = i then x else v.get j := by
  simp only [vset, Vector.get_eq_getElem, Vector.getElem_set, Fin.ext_iff, eq_comm]

theorem vset_get_ne {α : Type} {n : Nat} (v : Vector α n) {i j : Fin n} (x : α) (h : j ≠ i) :
    (vset v i x).get j = v.get j := by simp [vset_get, h]

@[simp] theorem Space.setRec_rec_self (x : Space) (i : Sector) (r : SectorRecord) :
    (x.setRec i r).rec_ i = r := vset_get_self _ _ _

theorem Space.setRec_rec (x : Space) (i j : Sector) (r : SectorRecord) :
    (x.setRec i r).rec_ j = if j = i then r else x.rec_ j := vset_get _ _ _ _

theorem Space.setRec_rec_ne (x : Space) {i j : Sector} (r : SectorRecord) (h : j ≠ i) :
    (x.setRec i r).rec_ j = x.rec_ j := vset_get_ne _ _ h

/-- What `Space.setRec` leaves alone. -/
theorem Space.setRec_fields (x : Space) (i : Sector) (r : SectorRecord) :
    (x.setRec i r).store = x.store ∧ (x.setRec i r).evacuation = x.evacuation ∧
      (x.setRec i r).lowWater = x.lowWater ∧ (x.setRec i r).activation = x.activation ∧
      (x.setRec i r).allocEngine = x.allocEngine ∧ (x.setRec i r).allocDrain = x.allocDrain :=
  ⟨rfl, rfl, rfl, rfl, rfl, rfl⟩

@[simp] theorem Space.setRec_lowWater (x : Space) (i : Sector) (r : SectorRecord) :
    (x.setRec i r).lowWater = x.lowWater := rfl

@[simp] theorem Space.setRec_evacuation (x : Space) (i : Sector) (r : SectorRecord) :
    (x.setRec i r).evacuation = x.evacuation := rfl

@[simp] theorem Space.setRec_store (x : Space) (i : Sector) (r : SectorRecord) :
    (x.setRec i r).store = x.store := rfl

/-! ### The places of the array arbiter -/

@[simp] theorem Controller.place_setPlace_self (c : Controller) (r : Requester)
    (x : Option ArrayRequest) : (c.setPlace r x).place r = x := by cases r <;> rfl

theorem Controller.place_setPlace_ne (c : Controller) {r q : Requester} (x : Option ArrayRequest)
    (h : q ≠ r) : (c.setPlace r x).place q = c.place q := by
  cases r <;> cases q <;> first | rfl | exact absurd rfl h

@[simp] theorem Controller.setPlace_erase (c : Controller) (r : Requester)
    (x : Option ArrayRequest) : (c.setPlace r x).erase = c.erase := by cases r <;> rfl

/-- Starting a request keeps every place's operation. -/
theorem Controller.start_op (c : Controller) (r q : Requester) :
    ((c.start r).place q).map ArrayRequest.op = (c.place q).map ArrayRequest.op := by
  unfold Controller.start
  cases h : c.place r with
  | none => rfl
  | some x =>
    obtain ⟨op, b⟩ := x
    cases r <;> cases q <;> cases op <;>
      simp_all [Controller.place, Controller.setPlace]

/-- The array arbiter's next start keeps every place's operation. -/
theorem Controller.run_op (c : Controller) (q : Requester) :
    ((c.run).place q).map ArrayRequest.op = (c.place q).map ArrayRequest.op := by
  unfold Controller.run
  repeat' split
  all_goals first
    | rfl
    | exact Controller.start_op _ _ _

/-- What each requester asks for, through the operations that move requests. -/
@[simp] theorem opOf_arbitrate (s : State) (q : Requester) : opOf q (arbitrate s) = opOf q s :=
  Controller.run_op _ _

@[simp] theorem opOf_issue_self (r : Requester) (op : ArrayOp) (s : State) :
    opOf r (issue r op s) = some op := by simp [opOf, issue]

end Sys2Proof.Machine
end

