-- ==== Sys2Proof/Laws/Tables.lean ====
section
/-! SUPPORT. The tables: what a lookup in the Key Index, the Lease Table and the Namespace Table finds after
each change, and what a sweep of the Lease Table and a change event do. -/

namespace Sys2Proof.Machine

open Sys2Proof

theorem keyCode_inj {a b : Key} : keyCode a = keyCode b ↔ a = b := by
  constructor
  · intro h
    obtain ⟨⟨an, ha⟩, ⟨ai, ha'⟩⟩ := a
    obtain ⟨⟨bn, hb⟩, ⟨bi, hb'⟩⟩ := b
    simp only [keyCode] at h
    have h1 : an = bn := by omega
    have h2 : ai = bi := by omega
    subst h1 h2
    rfl
  · rintro rfl; rfl

/-! ### The Key Index -/

theorem entryOf_putEntry (x : IndexEntry) (k : Key) (ix : List IndexEntry) :
    entryOf k (putEntry x ix) = if k = x.key then some x else entryOf k ix := by
  unfold entryOf
  induction ix with
  | nil =>
    by_cases h : k = x.key
    · subst h; simp [putEntry]
    · have h' : ¬ x.key = k := Ne.symm h
      simp [putEntry, h, h']
  | cons e es ih =>
    simp only [putEntry]
    split
    · by_cases h : k = x.key
      · subst h; simp
      · have h' : ¬ x.key = k := Ne.symm h
        simp [h, h']
    · split
      · rename_i h1 h2
        by_cases h : k = x.key
        · subst h; simp
        · have h' : ¬ x.key = k := Ne.symm h
          have h3 : ¬ e.key = k := h2 ▸ h'
          simp [h, h', h3]
      · rename_i h1 h2
        by_cases h : e.key = k
        · subst h
          have h3 : ¬ e.key = x.key := Ne.symm h2
          simp [h3]
        · simp [h, ih]

theorem entryOf_dropEntry (j k : Key) (ix : List IndexEntry) :
    entryOf k (dropEntry j ix) = if k = j then none else entryOf k ix := by
  unfold entryOf dropEntry
  induction ix with
  | nil => simp
  | cons e es ih =>
    by_cases h : e.key = j
    · by_cases hk : k = j
      · simp_all
      · have : ¬ j = k := fun x => hk x.symm
        simp_all
    · by_cases hk : e.key = k
      · subst hk
        simp [h]
      · simp_all

theorem mem_putEntry {x y : IndexEntry} {ix : List IndexEntry} (h : y ∈ putEntry x ix) :
    y = x ∨ y ∈ ix := by
  induction ix with
  | nil => simpa [putEntry] using h
  | cons e es ih =>
    simp only [putEntry] at h
    split at h
    · simpa using h
    · split at h
      · rcases List.mem_cons.1 h with h | h
        · exact .inl h
        · exact .inr (List.mem_cons_of_mem _ h)
      · rcases List.mem_cons.1 h with h | h
        · exact .inr (by simp [h])
        · rcases ih h with h | h
          · exact .inl h
          · exact .inr (List.mem_cons_of_mem _ h)

/-! ### The Lease Table -/

theorem leaseOn_putLease (x : Lease) (k : Key) (ls : List Lease) :
    leaseOn k (putLease x ls) = if k = x.key then some x else leaseOn k ls := by
  unfold leaseOn
  induction ls with
  | nil =>
    by_cases h : k = x.key
    · subst h; simp [putLease]
    · have h' : ¬ x.key = k := Ne.symm h
      simp [putLease, h, h']
  | cons e es ih =>
    simp only [putLease]
    split
    · by_cases h : k = x.key
      · subst h; simp
      · have h' : ¬ x.key = k := Ne.symm h
        simp [h, h']
    · split
      · rename_i h1 h2
        by_cases h : k = x.key
        · subst h; simp
        · have h' : ¬ x.key = k := Ne.symm h
          have h3 : ¬ e.key = k := h2 ▸ h'
          simp [h, h', h3]
      · rename_i h1 h2
        by_cases h : e.key = k
        · subst h
          have h3 : ¬ e.key = x.key := Ne.symm h2
          simp [h3]
        · simp [h, ih]

theorem leaseOn_key {k : Key} {ls : List Lease} {l : Lease} (h : leaseOn k ls = some l) :
    l.key = k ∧ l ∈ ls := by
  unfold leaseOn at h
  exact ⟨by simpa using List.find?_some h, List.mem_of_find?_eq_some h⟩

theorem waits_iff (p : Port) (l : Lease) : waits p l = true ↔ p ∈ l.waiters.map Waiter.port := by
  simp [waits]

/-- A sweep treats every lease by itself, in table order. -/
theorem sweepLeases_eq (f : Lease → LeaseFate) (ls : List Lease) :
    sweepLeases f ls = (ls.filterMap (fun l => (f l).1), ls.flatMap (fun l => (f l).2)) := by
  induction ls with
  | nil => rfl
  | cons l ls ih =>
    simp only [sweepLeases, ih, List.filterMap_cons, List.flatMap_cons]
    cases (f l).1 <;> rfl

/-- Every treatment of a lease keeps its key. -/
theorem passLease_key {l m : Lease} (h : (passLease l).1 = some m) : m.key = l.key := by
  unfold passLease at h
  split at h
  · cases h
  · cases h; rfl

theorem passLease_holder {l m : Lease} (h : (passLease l).1 = some m) :
    m.holder ∈ l.waiters.map Waiter.port ∧
      ∀ p ∈ m.waiters.map Waiter.port, p ∈ l.waiters.map Waiter.port := by
  unfold passLease at h
  split at h
  · cases h
  · rename_i w ws hw
    cases h
    simp only [hw, List.map_cons, List.mem_cons, true_or, true_and]
    exact fun p hp => .inr hp

/-- The places of one port in one lease. -/
abbrev placesIn (p : Port) (l : Lease) : Nat :=
  (if l.holder = p then 1 else 0) + (l.waiters.filter (fun w => w.port == p)).length

theorem holdCount_nil (p : Port) : holdCount p [] = 0 := rfl

theorem holdCount_cons (p : Port) (l : Lease) (ls : List Lease) :
    holdCount p (l :: ls) = placesIn p l + holdCount p ls := by simp [holdCount, placesIn]

theorem holdCount_append (p : Port) (a b : List Lease) :
    holdCount p (a ++ b) = holdCount p a + holdCount p b := by simp [holdCount]

/-- A passed lease gives no port a place it did not have; the old holder's is gone. -/
theorem placesIn_passLease {l m : Lease} (p : Port) (h : (passLease l).1 = some m) :
    placesIn p m = (l.waiters.filter (fun w => w.port == p)).length := by
  unfold passLease at h
  split at h
  · cases h
  · rename_i w ws hw
    cases h
    by_cases hp : w.port = p <;> simp [placesIn, hw, hp, Nat.add_comm]

/-! ### Notices -/

theorem notify_eq (p : Port) (n : Notice) (s : State) :
    notify p n s = if (s.port p).link = .present then
      s.setPort p { s.port p with queue := placeNotice (s.port p).queue n } else s := rfl

/-- A notice changes its port's queue alone, and only where that port is PRESENT. -/
theorem notify_port (p q : Port) (n : Notice) (s : State) :
    (notify p n s).port q = if q = p ∧ (s.port p).link = .present then
      { s.port q with queue := placeNotice (s.port q).queue n } else s.port q := by
  unfold notify
  by_cases hl : (s.port p).link = .present
  · by_cases hq : q = p
    · subst hq; simp [hl]
    · simp [hl, hq, State.setPort_port]
  · simp [hl]

/-- Notices change nothing but ports. -/
theorem notify_rest (p : Port) (n : Notice) (s : State) :
    (notify p n s) = { s with ports := (notify p n s).ports } := by
  unfold notify
  split <;> rfl

theorem notifyAll_rest (l : List (Port × Notice)) (s : State) :
    (notifyAll l s) = { s with ports := (notifyAll l s).ports } := by
  induction l generalizing s with
  | nil => rfl
  | cons x xs ih =>
    simp only [notifyAll]
    rw [ih, notify_rest]

/-- Of a port's unit, notices change the queue alone. -/
theorem notifyAll_port (l : List (Port × Notice)) (s : State) (q : Port) :
    (notifyAll l s).port q = { s.port q with queue := ((notifyAll l s).port q).queue } := by
  induction l generalizing s with
  | nil => rfl
  | cons x xs ih =>
    simp only [notifyAll]
    rw [ih (notify x.1 x.2 s)]
    rw [notify_port]
    split <;> rfl

theorem notifyAll_append (a b : List (Port × Notice)) (s : State) :
    notifyAll (a ++ b) s = notifyAll b (notifyAll a s) := by
  induction a generalizing s with
  | nil => rfl
  | cons x xs ih => simp only [List.cons_append, notifyAll, ih]

/-- Notices for a port that is not PRESENT change nothing. -/
theorem notify_discarded {p : Port} {n : Notice} {s : State} (h : (s.port p).link ≠ .present) :
    notify p n s = s := by simp [notify, h]

@[simp] theorem notify_setLeases (p : Port) (n : Notice) (s : State) (l : List Lease) :
    notify p n (s.setLeases l) = (notify p n s).setLeases l := by
  by_cases h : (s.port p).link = .present
  · simp only [notify, State.setLeases_port, h, ↓reduceIte]; rfl
  · simp only [notify, State.setLeases_port, h, ↓reduceIte]

/-- What a run of the Lease Unit does: its table by the sweep, its notices in the order of the sweep. -/
theorem runLeases_eq (f : Lease → LeaseFate) (s : State) :
    runLeases f s = notifyAll (s.leases.flatMap (fun l => (f l).2))
      (s.setLeases (s.leases.filterMap (fun l => (f l).1))) := by
  simp [runLeases, sweepLeases_eq]

@[simp] theorem runLeases_leases (f : Lease → LeaseFate) (s : State) :
    (runLeases f s).leases = s.leases.filterMap (fun l => (f l).1) := by
  rw [runLeases_eq, notifyAll_rest]
  rfl

/-- A run of the Lease Unit changes the Lease Table and the ports' queues, nothing else. -/
theorem runLeases_rest (f : Lease → LeaseFate) (s : State) :
    runLeases f s =
      { s with ports := (runLeases f s).ports, leases := (runLeases f s).leases } := by
  rw [runLeases_eq, notifyAll_rest]
  rfl

theorem runLeases_port (f : Lease → LeaseFate) (s : State) (q : Port) :
    (runLeases f s).port q = { s.port q with queue := ((runLeases f s).port q).queue } := by
  rw [runLeases_eq]
  exact notifyAll_port _ _ _

/-! ### Change events -/

theorem mem_allPorts (p : Port) : p ∈ allPorts := by cases p <;> decide

theorem routeChange_rest (o : Port) (k : Key) (n : Notice) (s : State) :
    routeChange o k n s = { s with ports := (routeChange o k n s).ports } := notifyAll_rest _ _

theorem routeChange_port (o : Port) (k : Key) (n : Notice) (s : State) (q : Port) :
    (routeChange o k n s).port q =
      { s.port q with queue := ((routeChange o k n s).port q).queue } := notifyAll_port _ _ _

/-- Notices of one event to ports without repeats: each port on the list gets it once. -/
theorem notifyAll_once (l : List Port) (hl : l.Nodup) (n : Notice) (s : State) (q : Port) :
    ((notifyAll (l.map (fun p => (p, n))) s).port q).queue =
      if q ∈ l ∧ (s.port q).link = .present then placeNotice (s.port q).queue n
      else (s.port q).queue := by
  induction l generalizing s with
  | nil => simp [notifyAll]
  | cons p ps ih =>
    simp only [List.nodup_cons] at hl
    simp only [List.map_cons, notifyAll, ih hl.2, notify_port, List.mem_cons]
    by_cases hq : q = p
    · subst hq
      by_cases hp : (s.port q).link = .present <;> simp [hp, hl.1]
    · simp [hq]

/-- A change event reaches each port that R90 names, once. -/
theorem routeChange_queue (o : Port) (k : Key) (n : Notice) (s : State) (q : Port) :
    ((routeChange o k n s).port q).queue =
      if (q ≠ o ∧ s.watches.any (fun w => w.port == q && watchMatches k w) = true) ∧
          (s.port q).link = .present then placeNotice (s.port q).queue n
      else (s.port q).queue := by
  unfold routeChange
  rw [notifyAll_once]
  · simp [watchers, mem_allPorts]
  · exact List.Nodup.filter _ (by decide)

end Sys2Proof.Machine
end

