-- ==== Sys2Proof/Laws/Grants.lean ====
section
/-! SUPPORT. The fields of a frame from its bytes, what a grant does to a frame, and what an answer leaves. -/

namespace Sys2Proof.Machine

open Sys2Proof

/-! ### Bytes and numbers -/

theorem byteOf_toNat (n : Nat) : (byteOf n).toNat = n % 256 := by simp [byteOf]

theorem fromLE_one (n : Nat) : fromLE [byteOf n] = n % 256 := by simp [fromLE]

theorem fromLE_le16 (n : Nat) : fromLE (le16 n) = n % 65536 := by
  simp [fromLE, le16]
  omega

theorem fromLE_le32 (n : Nat) : fromLE (le32 n) = n % 4294967296 := by
  simp [fromLE, le32]
  omega

theorem fromLE_lt (bs : List Byte) : fromLE bs < 256 ^ bs.length := by
  induction bs with
  | nil => simp [fromLE]
  | cons b bs ih =>
    have hb := b.isLt
    simp only [fromLE, List.length_cons, Nat.pow_succ]
    omega

/-- A field of n bytes is below 256 to the n. -/
theorem param_lt (f : Frame) (a n : Nat) : param f a n < 256 ^ n := by
  refine lt_of_lt_of_le (fromLE_lt _) (Nat.pow_le_pow_right (by decide) ?_)
  simp

@[simp] theorem le16_length (n : Nat) : (le16 n).length = 2 := rfl

@[simp] theorem le32_length (n : Nat) : (le32 n).length = 4 := rfl

@[simp] theorem keyBytes_length (k : Key) : (keyBytes k).length = 3 := rfl

@[simp] theorem codeOf_codeByte (c : Code) : codeOf (codeByte c) = some c := by cases c <;> decide

/-- The key at the front of a frame. -/
@[simp] theorem keyParam_keyBytes (c : Byte) (k : Key) (rest : List Byte) (o : Bool) :
    keyParam ⟨c, keyBytes k ++ rest, o⟩ = some k := by
  obtain ⟨⟨n, hn⟩, ⟨i, hi⟩⟩ := k
  have h1 : n % 256 = n := by omega
  have h2 : i % 256 + 256 * (i / 256 % 256) = i := by omega
  have h3 : n < 8 := hn
  have h4 : i < 4096 := hi
  simp [keyParam, param, keyBytes, le16, fromLE, nsIn, idIn, h1, h2, h3, h4]

@[simp] theorem keyParam_keyBytes_only (c : Byte) (k : Key) (o : Bool) :
    keyParam ⟨c, keyBytes k, o⟩ = some k := by
  have h := keyParam_keyBytes c k [] o
  simpa using h

/-- A field of one byte, of two bytes and of four bytes behind others. -/
theorem param_one (c : Byte) (pre post : List Byte) (n : Nat) (o : Bool) (a : Nat)
    (ha : a = pre.length) (hn : n < 256) : param ⟨c, pre ++ byteOf n :: post, o⟩ a 1 = n := by
  subst ha
  simp [param, fromLE, Nat.mod_eq_of_lt hn]

theorem param_two (c : Byte) (pre post : List Byte) (n : Nat) (o : Bool) (a : Nat)
    (ha : a = pre.length) (hn : n < 65536) : param ⟨c, pre ++ le16 n ++ post, o⟩ a 2 = n := by
  subst ha
  have h : ((pre ++ le16 n ++ post).drop pre.length).take 2 = le16 n := by simp [le16]
  simp only [param, h, fromLE_le16, Nat.mod_eq_of_lt hn]

theorem param_four (c : Byte) (pre post : List Byte) (n : Nat) (o : Bool) (a : Nat)
    (ha : a = pre.length) (hn : n < 4294967296) : param ⟨c, pre ++ le32 n ++ post, o⟩ a 4 = n := by
  subst ha
  have h : ((pre ++ le32 n ++ post).drop pre.length).take 4 = le32 n := by simp [le32]
  simp only [param, h, fromLE_le32, Nat.mod_eq_of_lt hn]

/-! ### Grants -/

@[simp] theorem toRunning_pending (p : Port) (s : State) : (toRunning p s).pending = s.pending := rfl
@[simp] theorem toRunning_resetLow (p : Port) (s : State) :
    (toRunning p s).resetLow = s.resetLow := rfl
@[simp] theorem toRunning_leases (p : Port) (s : State) : (toRunning p s).leases = s.leases := rfl
@[simp] theorem toRunning_watches (p : Port) (s : State) : (toRunning p s).watches = s.watches := rfl
@[simp] theorem toRunning_space (p : Port) (s : State) : (toRunning p s).space = s.space := rfl
@[simp] theorem toRunning_drain (p : Port) (s : State) : (toRunning p s).drain = s.drain := rfl
@[simp] theorem toRunning_ctl (p : Port) (s : State) : (toRunning p s).ctl = s.ctl := rfl
@[simp] theorem toRunning_array (p : Port) (s : State) : (toRunning p s).array = s.array := rfl
@[simp] theorem toRunning_engine (p : Port) (s : State) :
    (toRunning p s).engine = { s.engine with pointer := nextPort p } := rfl
@[simp] theorem nsEntry_toRunning (p : Port) (s : State) (ns : Fin 8) :
    nsEntry (toRunning p s) ns = nsEntry s ns := rfl

theorem toRunning_port (p q : Port) (s : State) :
    (toRunning p s).port q = if q = p then
      { s.port q with mailbox := { (s.port q).mailbox with state := .running } }
    else s.port q := by
  unfold toRunning
  simp only [State.setEngine_port, State.setPort_port]
  split
  · rename_i h; subst h; rfl
  · rfl

/-- A grant touches nothing of the port but its mailbox. -/
@[simp] theorem toRunning_txn (p q : Port) (s : State) :
    ((toRunning p s).port q).txn = (s.port q).txn := by rw [toRunning_port]; split <;> rfl

@[simp] theorem toRunning_generation (p q : Port) (s : State) :
    ((toRunning p s).port q).generation = (s.port q).generation := by
  rw [toRunning_port]; split <;> rfl

@[simp] theorem toRunning_link (p q : Port) (s : State) :
    ((toRunning p s).port q).link = (s.port q).link := by rw [toRunning_port]; split <;> rfl

/-- An answer in the step of the grant. -/
theorem reply_toRunning (p : Port) (r : Result) (fields : List Byte) (s : State) :
    reply p r fields (toRunning p s) = answered p (resultByte r :: fields) s := by
  unfold reply respond answered
  simp only [if_true]
  rw [toRunning_port]
  cases p <;> rfl

/-- A frame that names a command and passes checks 2 and 3 comes to the command's own procedure. -/
theorem grantCommand_eq {s : State} {p : Port} {c : Code} {params : List Byte}
    (procedure : Frame → State → State) (h : FrameGranted s p c params)
    (hl : params.length = paramCount c) (hs : supervisorOnly c = true → p = .A) :
    grantCommand c p procedure s = procedure ⟨codeByte c, params, false⟩ (toRunning p s) := by
  obtain ⟨h1, h2⟩ := h
  have h3 : frameRefusal c p ⟨codeByte c, params, false⟩ = none := by
    unfold frameRefusal
    by_cases hc : supervisorOnly c = true
    · simp [hl, hs hc]
    · simp [hl, hc]
  unfold grantCommand
  simp only [h1, if_true, h2, codeOf_codeByte, h3]

/-- Nothing granted to a port: its grant command changes nothing. -/
theorem grantCommand_none {s : State} {p : Port} (c : Code) (procedure : Frame → State → State)
    (h : granted s ≠ some (.command p)) : grantCommand c p procedure s = s := by
  simp [grantCommand, h]

/-- Checks that all pass lead on. -/
theorem checked_pass {p : Port} {cs : List (Option Result)} {go : State → State} {s : State}
    (h : ∀ c ∈ cs, c = none) : checked p cs go s = go s := by
  have : firstRefusal cs = none := by
    induction cs with
    | nil => rfl
    | cons c cs ih =>
      have hc : c = none := h c (by simp)
      subst hc
      exact ih (fun d hd => h d (by simp [hd]))
  simp [checked, this]

/-- The first check that refuses gives the answer. -/
theorem checked_refuse {p : Port} {pre post : List (Option Result)} {r : Result}
    {go : State → State} {s : State} (h : ∀ c ∈ pre, c = none) :
    checked p (pre ++ some r :: post) go s = reply p r [] s := by
  have : firstRefusal (pre ++ some r :: post) = some r := by
    induction pre with
    | nil => rfl
    | cons c cs ih =>
      have hc : c = none := h c (by simp)
      subst hc
      exact ih (fun d hd => h d (by simp [hd]))
  simp [checked, this]

/-- While the engine is not free nothing is granted. -/
theorem granted_held {s : State} (h : engineFree s = false) : granted s = none := by
  simp [granted, h]

/-- Where a port's response goes. -/
theorem respond_port (p q : Port) (g : Byte) (bs : List Byte) (s : State) :
    (respond p g bs s).port q = if q = p ∧ (s.port p).generation = g then
      { s.port q with mailbox := ⟨.done, ⟨0, [], false⟩, bs⟩ } else s.port q := by
  unfold respond
  by_cases hg : (s.port p).generation = g
  · by_cases hq : q = p
    · subst hq; simp [hg]
    · simp [hg, hq, State.setPort_port]
  · simp [hg]

theorem respond_rest (p : Port) (g : Byte) (bs : List Byte) (s : State) :
    respond p g bs s = { s with ports := (respond p g bs s).ports } := by
  unfold respond
  split <;> rfl

/-! ### The parameters of the frames -/

/-- The parameters of a FETCH frame. -/
theorem fetchParams_frame (k : Key) (off n : Nat) (ho : off ≤ 1024) (h1 : 1 ≤ n) (h2 : n ≤ 240)
    (c : Byte) (o : Bool) :
    fetchParams ⟨c, keyBytes k ++ le16 off ++ [byteOf n], o⟩ = some (k, off, n) := by
  have e1 : param ⟨c, keyBytes k ++ le16 off ++ [byteOf n], o⟩ 5 1 = n :=
    param_one c (keyBytes k ++ le16 off) [] n o 5 rfl (by omega)
  have e2 : param ⟨c, keyBytes k ++ le16 off ++ [byteOf n], o⟩ 3 2 = off :=
    param_two c (keyBytes k) [byteOf n] off o 3 rfl (by omega)
  have e3 : keyParam ⟨c, keyBytes k ++ le16 off ++ [byteOf n], o⟩ = some k := by
    rw [List.append_assoc]; exact keyParam_keyBytes _ _ _ _
  simp only [fetchParams, e3, e1, e2]
  rw [if_neg (by omega)]

/-- The parameters of a SCAN frame. -/
theorem scanParams_frame (ns : Fin 8) (st m : Nat) (h : st ≤ 4095) (h1 : 1 ≤ m) (h2 : m ≤ 40)
    (c : Byte) (o : Bool) :
    scanParams ⟨c, byteOf ns.val :: le16 st ++ [byteOf m], o⟩ = some (ns, st, m) := by
  have e0 : param ⟨c, byteOf ns.val :: le16 st ++ [byteOf m], o⟩ 0 1 = ns.val := by
    simpa using param_one c [] (le16 st ++ [byteOf m]) ns.val o 0 rfl (by omega)
  have e1 : param ⟨c, byteOf ns.val :: le16 st ++ [byteOf m], o⟩ 1 2 = st := by
    simpa using param_two c [byteOf ns.val] [byteOf m] st o 1 rfl (by omega)
  have e2 : param ⟨c, byteOf ns.val :: le16 st ++ [byteOf m], o⟩ 3 1 = m := by
    simpa using param_one c (byteOf ns.val :: le16 st) [] m o 3 rfl (by omega)
  simp only [scanParams, e0, e1, e2, nsIn, ns.isLt, dite_true]
  rw [if_neg (by omega)]

/-- The parameters of a PUT_OPEN frame; a condition out of range leaves none. -/
theorem putOpenParams_frame (k : Key) (L : Nat) (cb : Byte) (v : Word32) (hL : L ≤ 1024)
    (c : Byte) (o : Bool) :
    putOpenParams ⟨c, keyBytes k ++ le16 L ++ [cb] ++ le32 v.toNat, o⟩ =
      (conditionIn cb.toNat v.toNat).map (fun d => (k, L, d)) := by
  have e1 : param ⟨c, keyBytes k ++ le16 L ++ [cb] ++ le32 v.toNat, o⟩ 5 1 = cb.toNat := by
    have h := param_one c (keyBytes k ++ le16 L) (le32 v.toNat) cb.toNat o 5 rfl cb.isLt
    simpa [byteOf] using h
  have e2 : param ⟨c, keyBytes k ++ le16 L ++ [cb] ++ le32 v.toNat, o⟩ 3 2 = L := by
    simpa using param_two c (keyBytes k) ([cb] ++ le32 v.toNat) L o 3 rfl (by omega)
  have e4 : param ⟨c, keyBytes k ++ le16 L ++ [cb] ++ le32 v.toNat, o⟩ 6 4 = v.toNat := by
    simpa using param_four c (keyBytes k ++ le16 L ++ [cb]) [] v.toNat o 6 rfl v.isLt
  have e3 : keyParam ⟨c, keyBytes k ++ le16 L ++ [cb] ++ le32 v.toNat, o⟩ = some k := by
    rw [List.append_assoc, List.append_assoc]; exact keyParam_keyBytes _ _ _ _
  simp only [putOpenParams, e3, e1, e2, e4]
  cases conditionIn cb.toNat v.toNat with
  | none => rfl
  | some d => simp [Nat.not_lt.mpr hL]

/-- The parameters of a REMOVE frame. -/
theorem removeParams_frame (k : Key) (cb : Byte) (v : Word32) (c : Byte) (o : Bool)
    (d : Condition) (h : cb = 0 ∧ d = .none_ ∨ cb = 2 ∧ v ≠ 0 ∧ d = .matching v) :
    removeParams ⟨c, keyBytes k ++ [cb] ++ le32 v.toNat, o⟩ = some (k, d) := by
  have e1 : param ⟨c, keyBytes k ++ [cb] ++ le32 v.toNat, o⟩ 3 1 = cb.toNat := by
    have h := param_one c (keyBytes k) (le32 v.toNat) cb.toNat o 3 rfl cb.isLt
    simpa [byteOf] using h
  have e4 : param ⟨c, keyBytes k ++ [cb] ++ le32 v.toNat, o⟩ 4 4 = v.toNat := by
    simpa using param_four c (keyBytes k ++ [cb]) [] v.toNat o 4 rfl v.isLt
  have e3 : keyParam ⟨c, keyBytes k ++ [cb] ++ le32 v.toNat, o⟩ = some k := by
    rw [List.append_assoc]; exact keyParam_keyBytes _ _ _ _
  simp only [removeParams, e3, e1, e4]
  rcases h with ⟨rfl, rfl⟩ | ⟨rfl, hv, rfl⟩
  · simp [conditionIn]
  · have : v.toNat ≠ 0 := fun h0 => hv (BitVec.eq_of_toNat_eq (by simpa using h0))
    simp [conditionIn, this]

/-- The parameters of a LEASE_TAKE frame. -/
theorem leaseTakeParams_frame (k : Key) (d w : Nat) (h1 : 1 ≤ d) (h2 : d ≤ 65535) (hw : w ≤ 1)
    (c : Byte) (o : Bool) :
    leaseTakeParams ⟨c, keyBytes k ++ le16 d ++ [byteOf w], o⟩ = some (k, d, w == 1) := by
  have e1 : param ⟨c, keyBytes k ++ le16 d ++ [byteOf w], o⟩ 5 1 = w :=
    param_one c (keyBytes k ++ le16 d) [] w o 5 rfl (by omega)
  have e2 : param ⟨c, keyBytes k ++ le16 d ++ [byteOf w], o⟩ 3 2 = d :=
    param_two c (keyBytes k) [byteOf w] d o 3 rfl (by omega)
  have e3 : keyParam ⟨c, keyBytes k ++ le16 d ++ [byteOf w], o⟩ = some k := by
    rw [List.append_assoc]; exact keyParam_keyBytes _ _ _ _
  simp only [leaseTakeParams, e3, e1, e2]
  rw [if_neg (by omega)]

/-- The parameters of a LEASE_RENEW frame. -/
theorem leaseRenewParams_frame (k : Key) (d : Nat) (h2 : d ≤ 65535) (c : Byte) (o : Bool) :
    leaseRenewParams ⟨c, keyBytes k ++ le16 d, o⟩ = if d = 0 then none else some (k, d) := by
  have e2 : param ⟨c, keyBytes k ++ le16 d, o⟩ 3 2 = d := by
    simpa using param_two c (keyBytes k) [] d o 3 rfl (by omega)
  simp only [leaseRenewParams, keyParam_keyBytes, e2]

/-- The parameters of a WATCH or UNWATCH frame. -/
theorem watchParams_frame (ns : Fin 8) (i : Nat) (t : Option (Fin 4096))
    (h : (i = 0xFFFF ∧ t = none) ∨ (∃ h : i < 4096, t = some ⟨i, h⟩)) (c : Byte) (o : Bool) :
    watchParams ⟨c, byteOf ns.val :: le16 i, o⟩ = some (ns, t) := by
  have e0 : param ⟨c, byteOf ns.val :: le16 i, o⟩ 0 1 = ns.val := by
    simpa using param_one c [] (le16 i) ns.val o 0 rfl (by omega)
  have hi : i < 65536 := by rcases h with h | ⟨h, _⟩ <;> omega
  have e1 : param ⟨c, byteOf ns.val :: le16 i, o⟩ 1 2 = i := by
    simpa using param_two c [byteOf ns.val] [] i o 1 rfl hi
  simp only [watchParams, e0, e1, nsIn, ns.isLt, dite_true, idIn]
  rcases h with ⟨rfl, rfl⟩ | ⟨h, rfl⟩
  · rfl
  · rw [if_neg (by omega)]; simp [h]

/-- The parameters of an NS_SET frame. -/
theorem nsSetParams_frame (ns : Fin 8) (r w : PortSet) (q : Nat) (hq : q ≤ 2048) (c : Byte)
    (o : Bool) :
    nsSetParams ⟨c, [byteOf ns.val, byteOf r.toNat, byteOf w.toNat] ++ le16 q, o⟩ =
      some (ns, r, w, q) := by
  have hr := r.isLt
  have hw := w.isLt
  have e0 : param ⟨c, [byteOf ns.val, byteOf r.toNat, byteOf w.toNat] ++ le16 q, o⟩ 0 1 =
      ns.val := by
    simpa using param_one c [] ([byteOf r.toNat, byteOf w.toNat] ++ le16 q) ns.val o 0 rfl
      (by omega)
  have e1 : param ⟨c, [byteOf ns.val, byteOf r.toNat, byteOf w.toNat] ++ le16 q, o⟩ 1 1 =
      r.toNat := by
    simpa using param_one c [byteOf ns.val] ([byteOf w.toNat] ++ le16 q) r.toNat o 1 rfl
      (by omega)
  have e2 : param ⟨c, [byteOf ns.val, byteOf r.toNat, byteOf w.toNat] ++ le16 q, o⟩ 2 1 =
      w.toNat := by
    simpa using param_one c [byteOf ns.val, byteOf r.toNat] (le16 q) w.toNat o 2 rfl (by omega)
  have e3 : param ⟨c, [byteOf ns.val, byteOf r.toNat, byteOf w.toNat] ++ le16 q, o⟩ 3 2 = q := by
    simpa using param_two c [byteOf ns.val, byteOf r.toNat, byteOf w.toNat] [] q o 3 rfl (by omega)
  simp only [nsSetParams, e0, e1, e2, e3, nsIn, ns.isLt, dite_true, portSetIn, hr, hw, if_true]
  simp [Nat.not_lt.mpr hq]

end Sys2Proof.Machine
end

