-- ==== Sys2Proof/Laws/Memory.lean ====
section
/-! SUPPORT. The array's lists: what a read finds after a write, and that every operation of the array
keeps the canonical form `ArrayContents.wf`. -/

namespace Sys2Proof.Machine

open Sys2Proof

/-! ### Reading after writing -/

theorem cellAt_putCell {α : Type} (a b : Nat) (x : α) (m : List (Nat × α)) :
    cellAt b (putCell a x m) = if b = a then some x else cellAt b m := by
  induction m with
  | nil => simp [putCell, cellAt, eq_comm]
  | cons c cs ih =>
    simp only [putCell]
    split
    · simp [cellAt, eq_comm]
    · split
      · subst_vars
        by_cases h : b = c.1 <;> simp [cellAt, h, eq_comm]
      · rename_i h1 h2
        simp only [cellAt, ih]
        by_cases h : c.1 = b
        · have : b ≠ a := fun e => h2 (by rw [← e, h])
          simp [h, this]
        · simp [h]

theorem cellAt_dropCell {α : Type} (a b : Nat) (m : List (Nat × α)) :
    cellAt b (dropCell a m) = if b = a then none else cellAt b m := by
  induction m with
  | nil => simp [dropCell, cellAt]
  | cons c cs ih =>
    simp only [dropCell, List.filter_cons] at ih ⊢
    by_cases hc : c.1 = a
    · simp only [hc, bne_self_eq_false, Bool.false_eq_true, ↓reduceIte, ih, cellAt]
      by_cases h : b = a
      · simp [h]
      · simp [h, Ne.symm h]
    · simp only [bne_iff_ne, ne_eq, hc, not_false_eq_true, ↓reduceIte, cellAt, ih]
      by_cases h : c.1 = b
      · have : b ≠ a := fun e => hc (h.trans e)
        simp [h, this]
      · simp [h]

/-- A list restricted to addresses of one kind shows the same there. -/
theorem cellAt_filter {α : Type} (f : Nat → Bool) (b : Nat) (m : List (Nat × α)) :
    cellAt b (m.filter (fun c => f c.1)) = if f b then cellAt b m else none := by
  induction m with
  | nil => simp [cellAt]
  | cons c cs ih =>
    by_cases hc : f c.1 = true
    · simp only [List.filter_cons, hc, ↓reduceIte, cellAt, ih]
      by_cases h : c.1 = b
      · subst h; simp [hc]
      · simp [h]
    · simp only [List.filter_cons, hc, Bool.false_eq_true, ↓reduceIte, cellAt, ih]
      by_cases h : c.1 = b
      · subst h; simp [hc]
      · simp [h]

/-- A byte reads what was written to it last, and every other byte as before. -/
theorem byteAt_writeByte (a b : Nat) (x : Byte) (m : List Host.Cell) :
    byteAt b (writeByte a x m) = if b = a then x else byteAt b m := by
  unfold writeByte byteAt
  split
  · rw [cellAt_dropCell]
    split <;> simp_all
  · rw [cellAt_putCell]
    split <;> simp_all

/-- Bytes written from an address on are read back in order; every other byte reads as before. -/
theorem byteAt_writeBytes (a b : Nat) (bs : List Byte) (m : List Host.Cell) :
    byteAt b (writeBytes a bs m) =
      if h : a ≤ b ∧ b < a + bs.length then bs[b - a]'(by omega) else byteAt b m := by
  induction bs generalizing a m with
  | nil => simp [writeBytes]
  | cons x xs ih =>
    simp only [writeBytes, ih, byteAt_writeByte, List.length_cons]
    by_cases h0 : b = a
    · subst h0
      simp
    · by_cases h1 : a + 1 ≤ b ∧ b < a + 1 + xs.length
      · have h2 : a ≤ b ∧ b < a + (xs.length + 1) := by omega
        have h3 : b - a = (b - (a + 1)) + 1 := by omega
        simp only [h1, h2, and_self, ↓reduceDIte]
        simp [h3]
      · have h2 : ¬ (a ≤ b ∧ b < a + (xs.length + 1)) := by omega
        rw [dif_neg h1, dif_neg h2, if_neg h0]

/-! ### The canonical form -/

/-- Addresses strictly rising. -/
abbrev Rising {α : Type} (m : List (Nat × α)) : Prop := (m.map Prod.fst).Pairwise (· < ·)

theorem mem_putCell {α : Type} {a : Nat} {x : α} {m : List (Nat × α)} {c : Nat × α}
    (h : c ∈ putCell a x m) : c = (a, x) ∨ c ∈ m := by
  induction m with
  | nil => simpa [putCell] using h
  | cons d ds ih =>
    simp only [putCell] at h
    split at h
    · simpa using h
    · split at h
      · rcases List.mem_cons.1 h with h | h
        · exact .inl h
        · exact .inr (List.mem_cons_of_mem _ h)
      · rcases List.mem_cons.1 h with h | h
        · exact .inr (by simp [h])
        · rcases ih h with h | h
          · exact .inl h
          · exact .inr (List.mem_cons_of_mem _ h)

theorem rising_putCell {α : Type} (a : Nat) (x : α) {m : List (Nat × α)} (h : Rising m) :
    Rising (putCell a x m) := by
  induction m with
  | nil => simp [Rising, putCell]
  | cons d ds ih =>
    simp only [Rising, List.map_cons, List.pairwise_cons, List.mem_map, forall_exists_index,
      and_imp] at h ih ⊢
    obtain ⟨h1, h2⟩ := h
    simp only [putCell]
    split
    · rename_i hlt
      simp only [List.map_cons, List.pairwise_cons, List.mem_cons, List.mem_map]
      refine ⟨?_, ?_, h2⟩
      · rintro b (rfl | ⟨c, hc, rfl⟩)
        · exact hlt
        · exact lt_trans hlt (h1 _ c hc rfl)
      · rintro b ⟨c, hc, rfl⟩
        exact h1 _ c hc rfl
    · split
      · rename_i heq
        simp only [List.map_cons, List.pairwise_cons, List.mem_map]
        refine ⟨?_, h2⟩
        rintro b ⟨c, hc, rfl⟩
        rw [heq]
        exact h1 _ c hc rfl
      · rename_i hlt hne
        simp only [List.map_cons, List.pairwise_cons, List.mem_map]
        refine ⟨?_, ih h2⟩
        rintro b ⟨c, hc, rfl⟩
        rcases mem_putCell hc with h | h
        · subst h
          show d.1 < a
          omega
        · exact h1 _ c h rfl

theorem rising_filter {α : Type} (f : Nat × α → Bool) {m : List (Nat × α)} (h : Rising m) :
    Rising (m.filter f) :=
  List.Pairwise.sublist (List.Sublist.map _ List.filter_sublist) h

/-- No listed byte reads as an unlisted one. -/
abbrev NoErased (m : List Host.Cell) : Prop := ∀ c ∈ m, c.2 ≠ erasedByte

theorem rising_writeByte (a : Nat) (b : Byte) {m : List Host.Cell} (h : Rising m) :
    Rising (writeByte a b m) := by
  unfold writeByte
  split
  · exact rising_filter _ h
  · exact rising_putCell _ _ h

theorem noErased_writeByte (a : Nat) (b : Byte) {m : List Host.Cell} (h : NoErased m) :
    NoErased (writeByte a b m) := by
  unfold writeByte
  split
  · exact fun c hc => h c (List.mem_of_mem_filter hc)
  · rename_i hb
    intro c hc
    rcases mem_putCell hc with e | e
    · subst e; exact hb
    · exact h c e

theorem rising_writeBytes (a : Nat) (bs : List Byte) {m : List Host.Cell} (h : Rising m) :
    Rising (writeBytes a bs m) := by
  induction bs generalizing a m with
  | nil => exact h
  | cons x xs ih => exact ih _ (rising_writeByte _ _ h)

theorem noErased_writeBytes (a : Nat) (bs : List Byte) {m : List Host.Cell} (h : NoErased m) :
    NoErased (writeBytes a bs m) := by
  induction bs generalizing a m with
  | nil => exact h
  | cons x xs ih => exact ih _ (noErased_writeByte _ _ h)

theorem ArrayContents.wf_putRec {a : ArrayContents} (p : Place) (c : RecCell) (h : a.wf) :
    (putRec a p c).wf := ⟨rising_putCell _ _ h.1, h.2⟩

theorem ArrayContents.wf_putRecState {a : ArrayContents} (p : Place) (st : Option RecState)
    (h : a.wf) : (putRecState a p st).wf := wf_putRec _ _ h

theorem ArrayContents.wf_putHeader {a : ArrayContents} (i : Sector) (x : SectorHeader) (h : a.wf) :
    (putHeader a i x).wf := h

theorem ArrayContents.wf_dissolve {a : ArrayContents} (n : Nat) (h : a.wf) : (dissolve a n).wf := by
  unfold dissolve
  split
  · exact ⟨rising_filter _ h.1, rising_writeBytes _ _ h.2.1, noErased_writeBytes _ _ h.2.2⟩
  · exact h

theorem ArrayContents.wf_dissolveAll (l : List Nat) {a : ArrayContents} (h : a.wf) :
    (l.foldl dissolve a).wf := by
  induction l generalizing a with
  | nil => exact h
  | cons n ns ih => exact ih (wf_dissolve n h)

theorem ArrayContents.wf_putBytes {a : ArrayContents} (n : Nat) (bs : List Byte) (h : a.wf) :
    (putBytes a n bs).wf :=
  have hb := wf_dissolveAll (spanGranules n bs.length) h
  ⟨hb.1, rising_writeBytes _ _ hb.2.1, noErased_writeBytes _ _ hb.2.2⟩

theorem ArrayContents.wf_bytesLeft {a : ArrayContents} (n : Nat) (bs : List Byte) (l : SpanLeft)
    (h : a.wf) : (bytesLeft a n bs l).wf := by
  cases l
  · exact h
  · exact wf_putBytes _ _ h
  · exact wf_putBytes _ _ h
  · exact h

theorem ArrayContents.wf_programPassed {a : ArrayContents} (op : ArrayOp) (h : a.wf) :
    (programPassed a op).wf := by
  cases op
  all_goals first
    | exact h
    | exact wf_putRec _ _ h
    | exact wf_putRecState _ _ h
    | exact wf_putBytes _ _ h

theorem ArrayContents.wf_stateLeft {a : ArrayContents} (p : Place) (st : RecState) (l : FieldLeft)
    (h : a.wf) : (stateLeft a p st l).wf := by
  unfold stateLeft
  repeat' split
  all_goals first
    | exact h
    | exact wf_putRecState _ _ h

theorem ArrayContents.wf_programFailed {a : ArrayContents} (l : SpanLeft) (op : ArrayOp)
    (h : a.wf) : (programFailed a l op).wf := by
  unfold programFailed
  split
  all_goals first
    | exact h
    | exact wf_putRec _ _ h
    | exact wf_stateLeft _ _ _ h
    | exact wf_bytesLeft _ _ _ h

theorem ArrayContents.wf_programCut {a : ArrayContents} (l : SpanLeft) (op : ArrayOp)
    (h : a.wf) : (programCut a l op).wf := by
  unfold programCut
  repeat' split
  all_goals first
    | exact h
    | exact wf_putRec _ _ h
    | exact wf_stateLeft _ _ _ h
    | exact wf_bytesLeft _ _ _ h

theorem ArrayContents.wf_eraseSector {a : ArrayContents} (i : Sector) (h : a.wf) :
    (eraseSector a i).wf :=
  ⟨rising_filter _ h.1, rising_filter _ h.2.1, fun c hc => h.2.2 c (List.mem_of_mem_filter hc)⟩

theorem rising_installRecs (i : Sector) (old cs : List (Nat × RecCell)) {m : List (Nat × RecCell)}
    (h : Rising m) : Rising (installRecs i old cs m) := by
  induction cs generalizing m with
  | nil => exact h
  | cons c cs ih =>
    simp only [installRecs]
    split
    · exact ih (rising_putCell _ _ h)
    · exact ih h

theorem installBytes_keeps (i : Sector) (cs : List (Nat × Byte)) {m : List Host.Cell}
    (h : Rising m ∧ NoErased m) : Rising (installBytes i cs m) ∧ NoErased (installBytes i cs m) := by
  induction cs generalizing m with
  | nil => exact h
  | cons c cs ih =>
    unfold installBytes
    split
    · exact ih ⟨rising_writeByte _ _ h.1, noErased_writeByte _ _ h.2⟩
    · exact ih h

theorem ArrayContents.wf_installImage {a : ArrayContents} (i : Sector) (img : SectorImage)
    (h : a.wf) : (installImage a i img).wf :=
  ⟨rising_installRecs _ _ _ (wf_eraseSector i h).1, installBytes_keeps _ _ (wf_eraseSector i h).2⟩

/-- A cut-off erase drops and changes record headers and lists none anew. -/
theorem cutRecs_addresses (i : Sector) (cuts : List (Nat × RecCut)) (m : List (Nat × RecCell)) :
    ((cutRecs i cuts m).map Prod.fst).Sublist (m.map Prod.fst) := by
  induction m with
  | nil => exact List.Sublist.refl _
  | cons c cs ih =>
    simp only [cutRecs, List.filterMap_cons] at ih ⊢
    split
    · exact ih.cons _
    · rename_i d hd
      have hf : d.1 = c.1 := by
        repeat' split at hd
        all_goals simp_all
        obtain ⟨x, -, rfl⟩ := hd
        rfl
      simp only [List.map_cons, hf]
      exact ih.cons_cons _

theorem ArrayContents.wf_cutErase {a : ArrayContents} (i : Sector) (c : EraseCut) (h : a.wf) :
    (cutErase a i c).wf :=
  ⟨List.Pairwise.sublist (cutRecs_addresses i c.recs a.recs) h.1, rising_filter _ h.2.1,
    fun x hx => h.2.2 x (List.mem_of_mem_filter hx)⟩

theorem ArrayContents.wf_partlyErased {a : ArrayContents} (i : Sector) (u : UnderErase) (h : a.wf) :
    (partlyErased a i u).wf :=
  ⟨(wf_cutErase i u.cut h).1, installBytes_keeps _ _ (wf_cutErase i u.cut h).2⟩

theorem ArrayContents.wf_unused : ArrayContents.unused.wf := by
  refine ⟨List.Pairwise.nil, List.Pairwise.nil, ?_⟩
  intro c hc
  cases hc

/-- The array at reset has the canonical form. -/
theorem reset_array_wf : State.reset.array.wf := ArrayContents.wf_unused

/-! ### The bytes that the array shows -/

/-- A header granule is not erased (R3). -/
theorem headerByte_mark (c : RecCell) (n : Nat) :
    headerByte c (n * 16 + (Config.cellMark c n).1.val) ≠ 0xFF := by
  have h1 : (n * 16 + (Config.cellMark c n).1.val) / 16 = n := by omega
  have h2 : (n * 16 + (Config.cellMark c n).1.val) % 16 = (Config.cellMark c n).1.val := by omega
  simp only [headerByte, h1, h2, if_true]
  intro h
  have := congrArg BitVec.toNat h
  simp only [byteOf, BitVec.toNat_ofNat, show (0xFF : Byte).toNat = 255 from rfl] at this
  have := (Config.cellMark c n).2.isLt
  omega

theorem cellAt_dissolve (a : ArrayContents) (n m : Nat) :
    cellAt m (dissolve a n).recs = if m = n then none else cellAt m a.recs := by
  unfold dissolve
  split
  · exact cellAt_dropCell _ _ _
  · rename_i h
    split <;> simp_all

/-- A granule shows the same bytes after its header has been dissolved into them. -/
theorem shownByte_dissolve (a : ArrayContents) (n b : Nat) :
    shownByte (dissolve a n) b = shownByte a b := by
  unfold shownByte
  rw [cellAt_dissolve]
  split_ifs with hb
  · unfold dissolve
    cases hc : cellAt n a.recs with
    | none => simp [hb, hc]
    | some c =>
      simp only [hb, hc, byteAt_writeBytes, List.length_map, List.length_range]
      rw [dif_pos ⟨by omega, by omega⟩]
      simp only [List.getElem_map, List.getElem_range]
      rw [Nat.add_sub_cancel' (by omega)]
  · unfold dissolve
    cases hc : cellAt n a.recs with
    | none => rfl
    | some c =>
      simp only [byteAt_writeBytes, List.length_map, List.length_range]
      rw [dif_neg (by omega)]

theorem cellAt_dissolveAll (l : List Nat) (a : ArrayContents) (m : Nat) :
    cellAt m (l.foldl dissolve a).recs = if m ∈ l then none else cellAt m a.recs := by
  induction l generalizing a with
  | nil => simp
  | cons n ns ih =>
    rw [List.foldl_cons, ih, cellAt_dissolve]
    by_cases h1 : m ∈ ns <;> by_cases h2 : m = n <;> simp [h1, h2]

theorem shownByte_dissolveAll (l : List Nat) (a : ArrayContents) (b : Nat) :
    shownByte (l.foldl dissolve a) b = shownByte a b := by
  induction l generalizing a with
  | nil => rfl
  | cons n ns ih => rw [List.foldl_cons, ih, shownByte_dissolve]

theorem mem_spanGranules {addr n b : Nat} (h : addr ≤ b ∧ b < addr + n) :
    b / 16 ∈ spanGranules addr n := by
  unfold spanGranules
  rw [if_neg (by omega)]
  exact List.mem_map.2 ⟨b / 16 - addr / 16, List.mem_range.2 (by omega), by omega⟩

/-- A header granule after a payload program: none in the span, and those outside as they were. -/
theorem cellAt_putBytes (a : ArrayContents) (addr : Nat) (bs : List Byte) (m : Nat) :
    cellAt m (putBytes a addr bs).recs =
      if m ∈ spanGranules addr bs.length then none else cellAt m a.recs := cellAt_dissolveAll _ _ _

/-- A payload program puts its bytes into its span and leaves every other byte. -/
theorem shownByte_putBytes (a : ArrayContents) (addr : Nat) (bs : List Byte) (b : Nat) :
    shownByte (putBytes a addr bs) b =
      if h : addr ≤ b ∧ b < addr + bs.length then bs[b - addr]'(by omega) else shownByte a b := by
  by_cases h : addr ≤ b ∧ b < addr + bs.length
  · rw [dif_pos h]
    simp only [shownByte, cellAt_putBytes, mem_spanGranules h, if_true]
    exact (byteAt_writeBytes _ _ _ _).trans (dif_pos h)
  · rw [dif_neg h, ← shownByte_dissolveAll (spanGranules addr bs.length) a b]
    have hb : byteAt b (putBytes a addr bs).bytes =
        byteAt b ((spanGranules addr bs.length).foldl dissolve a).bytes :=
      (byteAt_writeBytes _ _ _ _).trans (dif_neg h)
    unfold shownByte
    rw [hb]
    rfl

@[simp] theorem shownBytes_length (a : ArrayContents) (addr n : Nat) :
    (shownBytes a addr n).length = n := by simp [shownBytes]

theorem shownBytes_getElem (a : ArrayContents) (addr n k : Nat)
    (h : k < (shownBytes a addr n).length) :
    (shownBytes a addr n)[k] = shownByte a (addr + k) := by simp [shownBytes]

/-- A read of a span that was programmed gives what was programmed. -/
theorem shownBytes_putBytes (a : ArrayContents) (addr : Nat) (bs : List Byte) :
    shownBytes (putBytes a addr bs) addr bs.length = bs := by
  apply List.ext_getElem
  · simp
  · intro k h1 h2
    rw [shownBytes_getElem, shownByte_putBytes, dif_pos ⟨by omega, by omega⟩]
    congr 1
    omega

/-! ### What an erased sector shows -/

/-- A byte of a sector after its erase, and a byte of any other. -/
theorem byteAt_eraseSector (a : ArrayContents) (i : Sector) (b : Nat) :
    byteAt b (eraseSector a i).bytes =
      if b / 8192 = i.val then erasedByte else byteAt b a.bytes := by
  unfold byteAt eraseSector
  rw [cellAt_filter (fun n => n / 8192 != i.val)]
  by_cases h : b / 8192 = i.val <;> simp [h]

/-- A record header of a sector after its erase, and one of any other. -/
theorem recAt_eraseSector (a : ArrayContents) (i : Sector) (g : Nat) :
    cellAt g (eraseSector a i).recs = if g / 512 = i.val then none else cellAt g a.recs := by
  unfold eraseSector
  rw [cellAt_filter (fun n => n / 512 != i.val)]
  by_cases h : g / 512 = i.val <;> simp [h]

@[simp] theorem cellState_cellWithState (st : Option RecState) (c : RecCell) :
    cellState (cellWithState st c) = st := by cases c <;> rfl

/-- A record's state field after it has been put, whatever stood at the place. -/
@[simp] theorem recStateAt_putRecState_self (a : ArrayContents) (p : Place) (st : Option RecState) :
    recStateAt (putRecState a p st) p = st := by
  simp only [putRecState, recStateAt, putRec, cellAt_putCell, if_true, Option.bind_some]
  cases cellAt (granuleNumber p.sector p.granule) a.recs
  · rfl
  · exact cellState_cellWithState _ _

end Sys2Proof.Machine
end

