-- ==== Sys2Proof/Laws/Operations.lean ====
section
/-! SUPPORT. What the shared operations of the store leave as it is, and what they do to the rest: requests
to the array, reported causes, considerations, retirements, the ends of array operations. -/

namespace Sys2Proof.Machine

open Sys2Proof

/-! ### Operations that touch one unit -/

@[simp] theorem issue_pending (r : Requester) (op : ArrayOp) (s : State) :
    (issue r op s).pending = s.pending := rfl
@[simp] theorem issue_resetLow (r : Requester) (op : ArrayOp) (s : State) :
    (issue r op s).resetLow = s.resetLow := rfl
@[simp] theorem issue_ports (r : Requester) (op : ArrayOp) (s : State) :
    (issue r op s).ports = s.ports := rfl
@[simp] theorem issue_engine (r : Requester) (op : ArrayOp) (s : State) :
    (issue r op s).engine = s.engine := rfl
@[simp] theorem issue_leases (r : Requester) (op : ArrayOp) (s : State) :
    (issue r op s).leases = s.leases := rfl
@[simp] theorem issue_watches (r : Requester) (op : ArrayOp) (s : State) :
    (issue r op s).watches = s.watches := rfl
@[simp] theorem issue_space (r : Requester) (op : ArrayOp) (s : State) :
    (issue r op s).space = s.space := rfl
@[simp] theorem issue_drain (r : Requester) (op : ArrayOp) (s : State) :
    (issue r op s).drain = s.drain := rfl
@[simp] theorem issue_array (r : Requester) (op : ArrayOp) (s : State) :
    (issue r op s).array = s.array := rfl
@[simp] theorem issue_port (r : Requester) (op : ArrayOp) (s : State) (q : Port) :
    (issue r op s).port q = s.port q := rfl
@[simp] theorem arbitrate_pending (s : State) :
    (arbitrate s).pending = s.pending := rfl
@[simp] theorem arbitrate_resetLow (s : State) :
    (arbitrate s).resetLow = s.resetLow := rfl
@[simp] theorem arbitrate_ports (s : State) :
    (arbitrate s).ports = s.ports := rfl
@[simp] theorem arbitrate_engine (s : State) :
    (arbitrate s).engine = s.engine := rfl
@[simp] theorem arbitrate_leases (s : State) :
    (arbitrate s).leases = s.leases := rfl
@[simp] theorem arbitrate_watches (s : State) :
    (arbitrate s).watches = s.watches := rfl
@[simp] theorem arbitrate_space (s : State) :
    (arbitrate s).space = s.space := rfl
@[simp] theorem arbitrate_drain (s : State) :
    (arbitrate s).drain = s.drain := rfl
@[simp] theorem arbitrate_array (s : State) :
    (arbitrate s).array = s.array := rfl
@[simp] theorem arbitrate_port (s : State) (q : Port) :
    (arbitrate s).port q = s.port q := rfl
@[simp] theorem drainPhase_pending (ph : DrainPhase) (s : State) :
    (drainPhase ph s).pending = s.pending := rfl
@[simp] theorem drainPhase_resetLow (ph : DrainPhase) (s : State) :
    (drainPhase ph s).resetLow = s.resetLow := rfl
@[simp] theorem drainPhase_ports (ph : DrainPhase) (s : State) :
    (drainPhase ph s).ports = s.ports := rfl
@[simp] theorem drainPhase_engine (ph : DrainPhase) (s : State) :
    (drainPhase ph s).engine = s.engine := rfl
@[simp] theorem drainPhase_leases (ph : DrainPhase) (s : State) :
    (drainPhase ph s).leases = s.leases := rfl
@[simp] theorem drainPhase_watches (ph : DrainPhase) (s : State) :
    (drainPhase ph s).watches = s.watches := rfl
@[simp] theorem drainPhase_space (ph : DrainPhase) (s : State) :
    (drainPhase ph s).space = s.space := rfl
@[simp] theorem drainPhase_ctl (ph : DrainPhase) (s : State) :
    (drainPhase ph s).ctl = s.ctl := rfl
@[simp] theorem drainPhase_array (ph : DrainPhase) (s : State) :
    (drainPhase ph s).array = s.array := rfl
@[simp] theorem drainPhase_port (ph : DrainPhase) (s : State) (q : Port) :
    (drainPhase ph s).port q = s.port q := rfl
@[simp] theorem putWrite_pending (j : WriteJob) (s : State) :
    (putWrite j s).pending = s.pending := rfl
@[simp] theorem putWrite_resetLow (j : WriteJob) (s : State) :
    (putWrite j s).resetLow = s.resetLow := rfl
@[simp] theorem putWrite_ports (j : WriteJob) (s : State) :
    (putWrite j s).ports = s.ports := rfl
@[simp] theorem putWrite_leases (j : WriteJob) (s : State) :
    (putWrite j s).leases = s.leases := rfl
@[simp] theorem putWrite_watches (j : WriteJob) (s : State) :
    (putWrite j s).watches = s.watches := rfl
@[simp] theorem putWrite_space (j : WriteJob) (s : State) :
    (putWrite j s).space = s.space := rfl
@[simp] theorem putWrite_drain (j : WriteJob) (s : State) :
    (putWrite j s).drain = s.drain := rfl
@[simp] theorem putWrite_ctl (j : WriteJob) (s : State) :
    (putWrite j s).ctl = s.ctl := rfl
@[simp] theorem putWrite_array (j : WriteJob) (s : State) :
    (putWrite j s).array = s.array := rfl
@[simp] theorem putWrite_port (j : WriteJob) (s : State) (q : Port) :
    (putWrite j s).port q = s.port q := rfl
@[simp] theorem putMount_pending (j : MountJob) (s : State) :
    (putMount j s).pending = s.pending := rfl
@[simp] theorem putMount_resetLow (j : MountJob) (s : State) :
    (putMount j s).resetLow = s.resetLow := rfl
@[simp] theorem putMount_ports (j : MountJob) (s : State) :
    (putMount j s).ports = s.ports := rfl
@[simp] theorem putMount_leases (j : MountJob) (s : State) :
    (putMount j s).leases = s.leases := rfl
@[simp] theorem putMount_watches (j : MountJob) (s : State) :
    (putMount j s).watches = s.watches := rfl
@[simp] theorem putMount_space (j : MountJob) (s : State) :
    (putMount j s).space = s.space := rfl
@[simp] theorem putMount_drain (j : MountJob) (s : State) :
    (putMount j s).drain = s.drain := rfl
@[simp] theorem putMount_ctl (j : MountJob) (s : State) :
    (putMount j s).ctl = s.ctl := rfl
@[simp] theorem putMount_array (j : MountJob) (s : State) :
    (putMount j s).array = s.array := rfl
@[simp] theorem putMount_port (j : MountJob) (s : State) (q : Port) :
    (putMount j s).port q = s.port q := rfl
@[simp] theorem pointEntry_pending (e : IndexEntry) (s : State) :
    (pointEntry e s).pending = s.pending := rfl
@[simp] theorem pointEntry_resetLow (e : IndexEntry) (s : State) :
    (pointEntry e s).resetLow = s.resetLow := rfl
@[simp] theorem pointEntry_ports (e : IndexEntry) (s : State) :
    (pointEntry e s).ports = s.ports := rfl
@[simp] theorem pointEntry_leases (e : IndexEntry) (s : State) :
    (pointEntry e s).leases = s.leases := rfl
@[simp] theorem pointEntry_watches (e : IndexEntry) (s : State) :
    (pointEntry e s).watches = s.watches := rfl
@[simp] theorem pointEntry_drain (e : IndexEntry) (s : State) :
    (pointEntry e s).drain = s.drain := rfl
@[simp] theorem pointEntry_ctl (e : IndexEntry) (s : State) :
    (pointEntry e s).ctl = s.ctl := rfl
@[simp] theorem pointEntry_array (e : IndexEntry) (s : State) :
    (pointEntry e s).array = s.array := rfl
@[simp] theorem pointEntry_port (e : IndexEntry) (s : State) (q : Port) :
    (pointEntry e s).port q = s.port q := rfl

@[simp] theorem drainPhase_phase (ph : DrainPhase) (s : State) :
    (drainPhase ph s).drain = { s.drain with phase := ph } := rfl
@[simp] theorem putWrite_engine (j : WriteJob) (s : State) :
    (putWrite j s).engine = { s.engine with job := .write j } := rfl
@[simp] theorem putMount_engine (j : MountJob) (s : State) :
    (putMount j s).engine = { s.engine with job := .mount j } := rfl
@[simp] theorem issue_ctl (r : Requester) (op : ArrayOp) (s : State) :
    (issue r op s).ctl = s.ctl.setPlace r (some ⟨op, false⟩) := rfl
@[simp] theorem arbitrate_ctl (s : State) : (arbitrate s).ctl = s.ctl.run := rfl

/-- What a requester asks for is its own place of the controller. -/
theorem opOf_congr {s t : State} (r : Requester) (h : t.ctl.place r = s.ctl.place r) :
    opOf r t = opOf r s := by simp [opOf, h]

theorem opOf_issue_ne {r q : Requester} (op : ArrayOp) (s : State) (h : q ≠ r) :
    opOf q (issue r op s) = opOf q s :=
  opOf_congr q (by simp [Controller.place_setPlace_ne _ _ h])

/-- Of a port's unit, a response changes the mailbox alone. -/
theorem respond_port_eq (p q : Port) (g : Byte) (bs : List Byte) (s : State) :
    (respond p g bs s).port q =
      { s.port q with mailbox := ((respond p g bs s).port q).mailbox } := by
  rw [respond_port]; split <;> rfl

@[simp] theorem respond_queue (p q : Port) (g : Byte) (bs : List Byte) (s : State) :
    ((respond p g bs s).port q).queue = (s.port q).queue := by rw [respond_port_eq]
@[simp] theorem respond_txn (p q : Port) (g : Byte) (bs : List Byte) (s : State) :
    ((respond p g bs s).port q).txn = (s.port q).txn := by rw [respond_port_eq]
@[simp] theorem respond_generation (p q : Port) (g : Byte) (bs : List Byte) (s : State) :
    ((respond p g bs s).port q).generation = (s.port q).generation := by rw [respond_port_eq]
@[simp] theorem respond_link (p q : Port) (g : Byte) (bs : List Byte) (s : State) :
    ((respond p g bs s).port q).link = (s.port q).link := by rw [respond_port_eq]

/-! ### Causes and considerations -/

/-- A change of the store state touches the store state, its cause, and the ports' STORE_CHANGE. -/
theorem changeStore_eq (st : StoreState) (c : Option Cause) (s : State) :
    changeStore st c s = { s with
      space := { s.space with store := st, cause := c }
      ports := (changeStore st c s).ports } := rfl

theorem changeStore_port (st : StoreState) (c : Option Cause) (s : State) (q : Port) :
    (changeStore st c s).port q =
      if (s.port q).link = .present then
        { s.port q with latched := { (s.port q).latched with storeChange := true } }
      else s.port q := by
  simp only [changeStore, State.port_eq, Ports.get_each]
  rfl

/-- A reported cause acts on a READY store alone. -/
theorem reportCause_ready (c : Cause) {s : State} (h : s.space.store = .ready) :
    reportCause c s = changeStore .readOnly (some c) s := by simp [reportCause, h]

theorem reportCause_held (c : Cause) {s : State} (h : s.space.store ≠ .ready) :
    reportCause c s = s := by simp [reportCause, h]

/-- A consideration changes the Drain Unit and its place at the array, nothing else. -/
theorem consider_eq (s : State) :
    consider s = { s with
      drain := (consider s).drain
      ctl := { s.ctl with drain := (consider s).ctl.drain } } := by
  unfold consider chooseWork startReclaim startEvacuation beginPass issue
  repeat' split
  all_goals rfl

@[simp] theorem consider_space (s : State) : (consider s).space = s.space := by rw [consider_eq]
@[simp] theorem consider_array (s : State) : (consider s).array = s.array := by rw [consider_eq]
@[simp] theorem consider_engine (s : State) : (consider s).engine = s.engine := by rw [consider_eq]
@[simp] theorem consider_ports (s : State) : (consider s).ports = s.ports := by rw [consider_eq]
@[simp] theorem consider_leases (s : State) : (consider s).leases = s.leases := by rw [consider_eq]
@[simp] theorem consider_watches (s : State) : (consider s).watches = s.watches := by
  rw [consider_eq]
@[simp] theorem consider_port (s : State) (q : Port) : (consider s).port q = s.port q := by
  rw [State.port_eq, consider_ports]; rfl
@[simp] theorem consider_ctl_engine (s : State) : (consider s).ctl.engine = s.ctl.engine := by
  rw [consider_eq]
@[simp] theorem consider_ctl_erase (s : State) : (consider s).ctl.erase = s.ctl.erase := by
  rw [consider_eq]

/-! ### Retirement -/

@[simp] theorem Space.listRetired_rec (x : Space) (i k : Sector) :
    (x.listRetired i).rec_ k = x.rec_ k := by
  unfold Space.listRetired; split <;> rfl

/-- A sector listed for evacuation is one more at the list's tail; nothing else of the table changes. -/
theorem Space.listRetired_eq (x : Space) (i : Sector) :
    x.listRetired i = { x with evacuation := (x.listRetired i).evacuation } := by
  unfold Space.listRetired; split <;> rfl

/-- The Sector Table with a sector retired. -/
abbrev Space.retire (i : Sector) (x : Space) : Space :=
  (x.setRec i { x.rec_ i with state := .retired }).listRetired i

@[simp] theorem Space.retire_rec (x : Space) (i k : Sector) :
    (x.retire i).rec_ k = if k = i then { x.rec_ i with state := .retired } else x.rec_ k := by
  rw [Space.listRetired_rec, Space.setRec_rec]

theorem Space.retire_eq (x : Space) (i : Sector) :
    x.retire i =
      { x with sectors := (x.retire i).sectors, evacuation := (x.retire i).evacuation } := by
  unfold Space.retire
  rw [Space.listRetired_eq]
  rfl

theorem retireInTable_def (i : Sector) (s : State) :
    retireInTable i s = consider
      (if 8 ≤ (s.space.retire i).retiredCount then
        reportCause .retireLimit (s.setSpace (s.space.retire i))
      else s.setSpace (s.space.retire i)) := rfl

/-- A retirement changes the Space Manager, the Drain Unit with its place at the array, and the ports'
STORE_CHANGE. -/
theorem retireInTable_eq (i : Sector) (s : State) :
    retireInTable i s = { s with
      space := (retireInTable i s).space
      drain := (retireInTable i s).drain
      ports := (retireInTable i s).ports
      ctl := { s.ctl with drain := (retireInTable i s).ctl.drain } } := by
  rw [retireInTable_def, consider_eq]
  split
  · by_cases h : s.space.store = .ready
    · rw [reportCause_ready _ (by rw [State.setSpace_space, Space.retire_eq]; exact h)]; rfl
    · rw [reportCause_held _ (by rw [State.setSpace_space, Space.retire_eq]; exact h)]; rfl
  · rfl

@[simp] theorem retireInTable_engine (i : Sector) (s : State) :
    (retireInTable i s).engine = s.engine := by rw [retireInTable_eq]
@[simp] theorem retireInTable_array (i : Sector) (s : State) :
    (retireInTable i s).array = s.array := by rw [retireInTable_eq]
@[simp] theorem retireInTable_leases (i : Sector) (s : State) :
    (retireInTable i s).leases = s.leases := by rw [retireInTable_eq]
@[simp] theorem retireInTable_watches (i : Sector) (s : State) :
    (retireInTable i s).watches = s.watches := by rw [retireInTable_eq]
@[simp] theorem retireInTable_ctl_engine (i : Sector) (s : State) :
    (retireInTable i s).ctl.engine = s.ctl.engine := by rw [retireInTable_eq]
@[simp] theorem retireInTable_ctl_erase (i : Sector) (s : State) :
    (retireInTable i s).ctl.erase = s.ctl.erase := by rw [retireInTable_eq]

/-- The Space Manager after a retirement: the table entry, the Evacuation List, and the store state. -/
theorem retireInTable_space (i : Sector) (s : State) :
    (retireInTable i s).space =
      if s.space.store = .ready ∧ 8 ≤ (s.space.retire i).retiredCount then
        { s.space.retire i with store := .readOnly, cause := some .retireLimit }
      else s.space.retire i := by
  rw [retireInTable_def, consider_space]
  by_cases h8 : 8 ≤ (s.space.retire i).retiredCount
  · by_cases h : s.space.store = .ready
    · rw [if_pos h8, if_pos ⟨h, h8⟩,
        reportCause_ready _ (by rw [State.setSpace_space, Space.retire_eq]; exact h)]
      rfl
    · rw [if_pos h8, if_neg (fun c => h c.1),
        reportCause_held _ (by rw [State.setSpace_space, Space.retire_eq]; exact h)]
      rfl
  · rw [if_neg h8, if_neg (fun c => h8 c.2)]
    rfl

@[simp] theorem retireInTable_rec (i k : Sector) (s : State) :
    (retireInTable i s).space.rec_ k =
      if k = i then { s.space.rec_ i with state := .retired } else s.space.rec_ k := by
  rw [retireInTable_space]
  split
  · exact Space.retire_rec _ _ _
  · exact Space.retire_rec _ _ _

/-- Of a port's unit, a retirement changes STORE_CHANGE alone. -/
theorem retireInTable_port (i : Sector) (s : State) (q : Port) :
    ∃ b, (retireInTable i s).port q =
      { s.port q with latched := { (s.port q).latched with storeChange := b } } := by
  rw [retireInTable_def, consider_port]
  split
  · by_cases h : s.space.store = .ready
    · rw [reportCause_ready _ (by rw [State.setSpace_space, Space.retire_eq]; exact h),
        changeStore_port]
      split
      · exact ⟨true, rfl⟩
      · exact ⟨_, rfl⟩
    · rw [reportCause_held _ (by rw [State.setSpace_space, Space.retire_eq]; exact h)]
      exact ⟨_, rfl⟩
  · exact ⟨_, rfl⟩

/-- One sector more is RETIRED. -/
theorem Space.retire_count (x : Space) (i : Sector) (h : (x.rec_ i).state ≠ .retired) :
    (x.retire i).retiredCount = x.retiredCount + 1 := by
  have e : ∀ k, ((x.retire i).rec_ k).state =
      if k = i then SectorState.retired else (x.rec_ k).state := by
    intro k; rw [Space.retire_rec]; split <;> rfl
  unfold Space.retiredCount Space.sectorsIn allSectors
  simp only [e]
  have key : ∀ l : List Sector, l.Nodup →
      (l.filter (fun k => (if k = i then SectorState.retired else (x.rec_ k).state) == .retired)).length =
        (l.filter (fun k => (x.rec_ k).state == .retired)).length + (if i ∈ l then 1 else 0) := by
    intro l hl
    induction l with
    | nil => rfl
    | cons a as ih =>
      obtain ⟨ha, has⟩ := List.nodup_cons.1 hl
      have ih := ih has
      by_cases hai : a = i
      · subst hai
        have : (if a ∈ as then 1 else 0) = 0 := if_neg ha
        rw [this] at ih
        simp [h, ih]
      · have hia : ¬ i = a := fun e => hai e.symm
        by_cases hr : (x.rec_ a).state = .retired
        · simp only [List.filter_cons, hai, if_false, hr, beq_self_eq_true, if_true, List.length_cons, ih,
            List.mem_cons, hia, false_or]
          omega
        · simp only [List.filter_cons, hai, if_false, beq_iff_eq, hr, ih, List.mem_cons, hia, false_or]
  rw [key _ (List.nodup_finRange 128)]
  simp

/-! ### The ends of array operations -/

/-- The state in which a requester goes on after its operation: its place empty, and the array started on
the next request or not. Nothing but the controller has changed. -/
theorem afterOutcome_eq (r : Requester) (first : Bool) (go : State → State) (s : State) :
    ∃ c, c.place r = none ∧ afterOutcome r first go s = arbitrate (go (s.setCtl c)) := by
  unfold afterOutcome
  cases first
  · refine ⟨(s.ctl.setPlace r none).run, ?_, rfl⟩
    have h := Controller.run_op (s.ctl.setPlace r none) r
    rw [Controller.place_setPlace_self] at h
    simpa using h
  · exact ⟨s.ctl.setPlace r none, by simp, rfl⟩

end Sys2Proof.Machine
end

