-- ==== Sys2Proof/Laws/Outcomes.lean ====
section
/-! SUPPORT. What the end of an array operation does, what it leaves of a byte, and what the choices among
sectors choose: one lemma each, to be cited in place of unfolding. -/

namespace Sys2Proof.Machine

open Sys2Proof

/-! ### The ends of READ, PROGRAM and ERASE -/

/-- A READ ends: its requester's place is free, and it goes on with what the array shows. -/
theorem exec_readComplete {s : State} {r : Requester} {i : Sector} {g n : Nat} (first : Bool)
    (seen : SectorImage) (hs : s.ctl.serving = some (r, .read i g n)) :
    ∃ cc : Controller, cc.place r = none ∧ exec (.readComplete first seen) s =
      .next (arbitrate (readEnded r i g (viewOf s i seen) (s.setCtl cc))) := by
  obtain ⟨cc, hcc, e⟩ := afterOutcome_eq r first (readEnded r i g (viewOf s i seen)) s
  refine ⟨cc, hcc, ?_⟩
  show execReadComplete first seen s = _
  simp only [execReadComplete, hs]
  rw [e]

/-- With no erase in progress every place shows the array's contents. -/
theorem unseen_of_no_erase {c : Controller} (h : c.erase = none) : c.unseen = none := by
  unfold Controller.unseen; rw [h]

/-- With no erase in progress a PROGRAM meets the array's contents. -/
theorem metBy_of_no_erase {s : State} (h : s.ctl.erase = none) (op : ArrayOp) (under : UnderErase) :
    metBy s op under = s.array := by
  unfold metBy; rw [unseen_of_no_erase h]

/-- What a PROGRAM meets: the array's contents, or in the sector under erase a mixture of them and 0FFH. -/
theorem metBy_cases (s : State) (op : ArrayOp) (under : UnderErase) :
    metBy s op under = s.array ∨
      ∃ e, s.ctl.erase = some e ∧ (e.suspended && e.shown) = false ∧ opSector op = e.sector.val ∧
        metBy s op under = partlyErased s.array e.sector under := by
  cases he : s.ctl.erase with
  | none => exact .inl (metBy_of_no_erase he op under)
  | some e =>
    by_cases hs : (e.suspended && e.shown) = true
    · exact .inl (by simp [metBy, Controller.unseen, he, hs])
    · by_cases ho : opSector op = e.sector.val
      · exact .inr ⟨e, rfl, by simpa using hs, ho, by simp [metBy, Controller.unseen, he, hs, ho]⟩
      · exact .inl (by simp [metBy, Controller.unseen, he, hs, ho])

/-- What a PROGRAM meets is canonical where the array is. -/
theorem wf_metBy {s : State} (op : ArrayOp) (under : UnderErase) (h : s.array.wf) :
    (metBy s op under).wf := by
  obtain e | ⟨e, -, -, -, he⟩ := metBy_cases s op under
  · rw [e]; exact h
  · rw [he]; exact ArrayContents.wf_partlyErased _ _ h

/-- A PROGRAM ends with its read-back: the array by its outcome, and its requester goes on. -/
theorem exec_programComplete {s : State} {r : Requester} {op : ArrayOp} (pass first : Bool)
    (left : SpanLeft) (under : UnderErase) (hs : s.ctl.serving = some (r, op))
    (hp : isProgram op = true) :
    ∃ cc : Controller, cc.place r = none ∧ exec (.programComplete pass ⟨left, under⟩ first) s =
      .next (arbitrate (programEnded r (programPasses (metBy s op under) pass left op)
        ((s.setArray (if programPasses (metBy s op under) pass left op
          then programPassed (metBy s op under) op
          else programFailed (metBy s op under) left op)).setCtl cc))) := by
  obtain ⟨cc, hcc, e⟩ := afterOutcome_eq r first
    (programEnded r (programPasses (metBy s op under) pass left op))
    ((s.setArray (if programPasses (metBy s op under) pass left op
      then programPassed (metBy s op under) op
      else programFailed (metBy s op under) left op)).setCtl (s.ctl.noteProgram op))
  refine ⟨cc, hcc, ?_⟩
  show execProgramComplete pass ⟨left, under⟩ first s = _
  simp only [execProgramComplete, hs, hp, if_true]
  exact congrArg _ e

/-- A PROGRAM that is stopped at its timeout has failed. -/
theorem exec_programTimeout {s : State} {r : Requester} {op : ArrayOp} (left : SpanLeft) (first : Bool)
    (under : UnderErase) (hs : s.ctl.serving = some (r, op)) (hp : isProgram op = true) :
    ∃ cc : Controller, cc.place r = none ∧ exec (.programTimeout ⟨left, under⟩ first) s =
      .next (arbitrate (programEnded r false
        ((s.setArray (programFailed (metBy s op under) left op)).setCtl cc))) := by
  obtain ⟨cc, hcc, e⟩ := afterOutcome_eq r first (programEnded r false)
    ((s.setArray (programFailed (metBy s op under) left op)).setCtl (s.ctl.noteProgram op))
  refine ⟨cc, hcc, ?_⟩
  show execProgramTimeout ⟨left, under⟩ first s = _
  simp only [execProgramTimeout, hs, hp, if_true]
  exact congrArg _ e

/-- An ERASE below its limit ends with its blank check. -/
theorem exec_eraseComplete {s : State} {e : EraseJob} (pass first : Bool) (left : SectorImage)
    (h : s.ctl.erase = some e) (hs : e.suspended = false) (ha : e.active < 120) :
    ∃ cc : Controller, cc.place e.requester = none ∧ exec (.eraseComplete pass left first) s =
      .next (arbitrate (eraseEnded e.requester (erasePasses s.array pass left e.sector)
        ((s.setArray (if erasePasses s.array pass left e.sector then eraseSector s.array e.sector
          else installImage s.array e.sector left)).setCtl cc))) := by
  obtain ⟨cc, hcc, he⟩ := afterOutcome_eq e.requester first
    (eraseEnded e.requester (erasePasses s.array pass left e.sector))
    ((s.setArray (if erasePasses s.array pass left e.sector then eraseSector s.array e.sector
      else installImage s.array e.sector left)).setCtl { s.ctl with erase := none })
  refine ⟨cc, hcc, ?_⟩
  show execEraseComplete pass left first s = _
  simp only [execEraseComplete, h, hs, ha, and_self, if_true]
  exact congrArg _ he

/-- An ERASE that has reached its limit has failed. -/
theorem exec_eraseTimeout {s : State} {e : EraseJob} (first : Bool) (left : SectorImage)
    (h : s.ctl.erase = some e) (hs : e.suspended = false) (ha : 120 ≤ e.active) :
    ∃ cc : Controller, cc.place e.requester = none ∧ exec (.eraseTimeout left first) s =
      .next (arbitrate (eraseEnded e.requester false
        ((s.setArray (installImage s.array e.sector left)).setCtl cc))) := by
  obtain ⟨cc, hcc, he⟩ := afterOutcome_eq e.requester first (eraseEnded e.requester false)
    ((s.setArray (installImage s.array e.sector left)).setCtl { s.ctl with erase := none })
  refine ⟨cc, hcc, ?_⟩
  show execEraseTimeout left first s = _
  simp only [execEraseTimeout, h, hs, ha, and_self, if_true]
  exact congrArg _ he

/-- A program's end is its requester's own where no activation programs on its behalf. -/
theorem programEnded_job {r : Requester} {ok : Bool} {s : State} (h : NoActivationFor r s) :
    programEnded r ok s = jobProgram r ok s := by
  unfold programEnded
  split
  · rename_i a ha
    rw [if_neg (h a ha)]
  · rfl

/-! ### What is left of a byte -/

@[simp] theorem readBytes_length (a n : Nat) (m : List Host.Cell) : (readBytes a n m).length = n := by
  simp [readBytes]

theorem readBytes_getElem (a n : Nat) (m : List Host.Cell) (i : Nat)
    (h : i < (readBytes a n m).length) : (readBytes a n m)[i] = byteAt (a + i) m := by
  simp [readBytes]

@[simp] theorem settleBytes_length (a : ArrayContents) (addr : Nat) (l : List Byte) :
    (settleBytes a addr l).length = l.length := by simp [settleBytes]

/-- What a PROGRAM can leave of a programmed byte is not 0FFH (R139, R140). -/
theorem settle_keeps (a : ArrayContents) (n : Nat) (l : List Byte) (b : Nat)
    (h : shownByte a b ≠ 0xFF) : shownByte (putBytes a n (settleBytes a n l)) b ≠ 0xFF := by
  rw [shownByte_putBytes]
  split
  · rename_i hb
    rw [settleBytes_length] at hb
    simp only [settleBytes, List.getElem_zipWith, shownBytes_getElem]
    rw [show n + (b - n) = b by omega]
    unfold settleByte
    split
    · rename_i hr
      unfold byteReaches at hr
      intro hc
      simp only [hc, Bool.or_eq_true, beq_iff_eq, bne_iff_ne, ne_eq] at hr
      rcases hr with (h1 | h1) | h1
      · exact h h1
      · exact h h1
      · simp at h1
    · exact h
  · exact h

theorem bytesLeft_keeps (a : ArrayContents) (n : Nat) (bs : List Byte) (l : SpanLeft) (b : Nat)
    (h : shownByte a b ≠ 0xFF) : shownByte (bytesLeft a n bs l) b ≠ 0xFF := by
  unfold bytesLeft
  split
  · exact settle_keeps _ _ _ _ h
  · exact settle_keeps _ _ _ _ h
  · exact h

@[simp] theorem putRecState_bytes (a : ArrayContents) (p : Place) (st : Option RecState) :
    (putRecState a p st).bytes = a.bytes := by
  rfl

/-! ### Choices among sectors -/

theorem mem_sectorsIn {x : Space} {st : SectorState} {i : Sector} :
    i ∈ x.sectorsIn st ↔ (x.rec_ i).state = st := by
  simp [Space.sectorsIn, allSectors]

/-- The first sector with a property, in ascending number. -/
theorem allSectors_find? (P : Sector → Bool) (i : Sector) (hi : P i = true)
    (hlt : ∀ k : Sector, k.val < i.val → P k = false) : allSectors.find? P = some i := by
  unfold allSectors
  rw [List.find?_eq_some_iff_append]
  refine ⟨hi, (List.finRange 128).take i.val, (List.finRange 128).drop (i.val + 1), ?_, ?_⟩
  · have : (List.finRange 128)[i.val]'(by simp) = i := by simp
    conv_lhs => rw [← List.take_append_drop i.val (List.finRange 128)]
    rw [List.drop_eq_getElem_cons (by simp), this]
  · intro a ha
    obtain ⟨n, hn, rfl⟩ := List.mem_iff_getElem.1 ha
    simp only [List.length_take, List.length_finRange] at hn
    simp only [List.getElem_take, List.getElem_finRange, Bool.not_eq_eq_eq_not, Bool.not_true]
    exact hlt _ (by simp; omega)

theorem bestOf_mem {b : Sector → Sector → Bool} {l : List Sector} {i : Sector}
    (h : bestOf b l = some i) : i ∈ l := by
  induction l generalizing i with
  | nil => cases h
  | cons a as ih =>
    simp only [bestOf] at h
    split at h
    · cases h
      simp
    · rename_i j hj
      split at h
      · cases h
        exact List.mem_cons_of_mem _ (ih hj)
      · cases h
        simp

theorem bestOf_some {b : Sector → Sector → Bool} {l : List Sector} (h : l ≠ []) :
    ∃ i, bestOf b l = some i := by
  cases l with
  | nil => exact absurd rfl h
  | cons a as =>
    simp only [bestOf]
    split
    · exact ⟨_, rfl⟩
    · split <;> exact ⟨_, rfl⟩

/-- The best of a list stands in a preorder `R` before every other, where `b` decides by `R`. -/
theorem bestOf_best {b : Sector → Sector → Bool} (R : Sector → Sector → Prop)
    (trans : ∀ x y z, R x y → R y z → R x z) (refl : ∀ x, R x x) (yes : ∀ x y, b x y = true → R x y)
    (no : ∀ x y, b x y = false → R y x) {l : List Sector} {i : Sector} (h : bestOf b l = some i) :
    ∀ k ∈ l, R i k := by
  induction l generalizing i with
  | nil => cases h
  | cons a as ih =>
    simp only [bestOf] at h
    intro k hk
    split at h
    · rename_i hn
      cases h
      cases as with
      | nil =>
        obtain rfl := List.mem_singleton.1 hk
        exact refl _
      | cons c cs =>
        obtain ⟨j, hj⟩ := bestOf_some (b := b) (l := c :: cs) (by simp)
        rw [hj] at hn
        cases hn
    · rename_i j hj
      split at h
      · rename_i hb
        cases h
        rcases List.mem_cons.1 hk with rfl | hk
        · exact yes _ _ hb
        · exact ih hj k hk
      · rename_i hb
        cases h
        rcases List.mem_cons.1 hk with rfl | hk
        · exact refl _
        · exact trans _ _ _ (no _ _ (by simpa using hb)) (ih hj k hk)

/-! ### Notices -/

/-- The queues that notices leave depend on the ports' links and queues alone. -/
theorem notifyAll_queue (l : List (Port × Notice)) (s t : State)
    (h : ∀ q, (s.port q).link = (t.port q).link ∧ (s.port q).queue = (t.port q).queue) (q : Port) :
    ((notifyAll l s).port q).queue = ((notifyAll l t).port q).queue := by
  induction l generalizing s t with
  | nil => exact (h q).2
  | cons x xs ih =>
    simp only [notifyAll]
    refine ih _ _ (fun q => ?_)
    rw [notify_port, notify_port, (h x.1).1]
    split
    · exact ⟨(h q).1, by rw [(h q).2]⟩
    · exact h q

end Sys2Proof.Machine
end

