-- ==== Sys2Proof/Laws/PerInstr.lean ====
section
/-! SUPPORT. What well-formedness says of each command's operands, one lemma a constructor. -/

-- One theorem at a time: many at once take more threads than the memory of a check allows.
set_option Elab.async false

namespace Sys2Proof.Laws

open Sys2Proof

/-- A sector image's entries lie in the record granules and their bytes (R2, R139). -/
def ImageFits (i : SectorImage) : Prop :=
  (∀ r ∈ i.recs, 1 ≤ r.1 ∧ r.1 ≤ 511) ∧ ∀ b ∈ i.bytes, 16 ≤ b.1 ∧ b.1 < 8192

/-- An erase cut's entries lie in the record granules and their bytes (R2, R139). -/
def CutFits (c : EraseCut) : Prop :=
  (∀ r ∈ c.recs, 1 ≤ r.1 ∧ r.1 ≤ 511) ∧ ∀ b ∈ c.bytes, 16 ≤ b ∧ b < 8192

/-- What a program leaves lies within a page (R142). -/
def SpanFits (l : SpanLeft) : Prop := ∀ bs, l = .neither bs → bs.length ≤ 128

theorem image_wellFormed_iff (i : SectorImage) : i.wellFormed = true ↔ ImageFits i := by
  simp [SectorImage.wellFormed, ImageFits]

theorem cut_wellFormed_iff (c : EraseCut) : c.wellFormed = true ↔ CutFits c := by
  simp [EraseCut.wellFormed, CutFits]

theorem span_wellFormed_iff (l : SpanLeft) : l.wellFormed = true ↔ SpanFits l := by
  cases l <;> simp [SpanLeft.wellFormed, SpanFits]

/-- The partial contents of a sector under erase lie in its record granules and their bytes (R2, R139). -/
def UnderFits (u : UnderErase) : Prop := CutFits u.cut ∧ ∀ b ∈ u.others, 16 ≤ b.1 ∧ b.1 < 8192

theorem under_wellFormed_iff (u : UnderErase) : u.wellFormed = true ↔ UnderFits u := by
  simp [UnderErase.wellFormed, UnderFits, cut_wellFormed_iff]

/-- A program's operand: its span fits a page, what a sector under erase held a sector. -/
def ProgramFits (l : ProgramLeft) : Prop := SpanFits l.span ∧ UnderFits l.under

theorem program_wellFormed_iff (l : ProgramLeft) : l.wellFormed = true ↔ ProgramFits l := by
  simp [ProgramLeft.wellFormed, ProgramFits, span_wellFormed_iff, under_wellFormed_iff]

/-- What the operands of a well-formed command satisfy: array operands fit the array, a plain register
write names none of the six offsets with rows of their own, and nothing else is asked. -/
def OperandsFit (i : Instr) : Prop :=
  (∀ first seen, i = .readComplete first seen → ImageFits seen) ∧
  (∀ pass left first, i = .programComplete pass left first → ProgramFits left) ∧
  (∀ left first, i = .programTimeout left first → ProgramFits left) ∧
  (∀ pass left first, i = .eraseComplete pass left first → ImageFits left) ∧
  (∀ left first, i = .eraseTimeout left first → ImageFits left) ∧
  (∀ p o b, i = .registerWrite p o b → o ∉ ([0, 1, 2, 6, 8, 13] : List (Fin 16))) ∧
  (∀ span sector, i = .powerOnReset span sector → SpanFits span ∧ CutFits sector) ∧
  ∀ held span sector, i = .deviceReset held span sector → SpanFits span ∧ CutFits sector

/-- A command is well formed exactly when its operands fit. -/
def WellFormedOperands.Statement (i : Instr) : Prop := i.wellFormed = true ↔ OperandsFit i

theorem WellFormedOperands.fetch (p : Port) :
    WellFormedOperands.Statement (.fetch p) := by
  simp [WellFormedOperands.Statement, OperandsFit, Instr.wellFormed]

theorem WellFormedOperands.probe (p : Port) :
    WellFormedOperands.Statement (.probe p) := by
  simp [WellFormedOperands.Statement, OperandsFit, Instr.wellFormed]

theorem WellFormedOperands.scan (p : Port) :
    WellFormedOperands.Statement (.scan p) := by
  simp [WellFormedOperands.Statement, OperandsFit, Instr.wellFormed]

theorem WellFormedOperands.putOpen (p : Port) :
    WellFormedOperands.Statement (.putOpen p) := by
  simp [WellFormedOperands.Statement, OperandsFit, Instr.wellFormed]

theorem WellFormedOperands.putCommit (p : Port) :
    WellFormedOperands.Statement (.putCommit p) := by
  simp [WellFormedOperands.Statement, OperandsFit, Instr.wellFormed]

theorem WellFormedOperands.putCancel (p : Port) :
    WellFormedOperands.Statement (.putCancel p) := by
  simp [WellFormedOperands.Statement, OperandsFit, Instr.wellFormed]

theorem WellFormedOperands.remove (p : Port) :
    WellFormedOperands.Statement (.remove p) := by
  simp [WellFormedOperands.Statement, OperandsFit, Instr.wellFormed]

theorem WellFormedOperands.leaseTake (p : Port) :
    WellFormedOperands.Statement (.leaseTake p) := by
  simp [WellFormedOperands.Statement, OperandsFit, Instr.wellFormed]

theorem WellFormedOperands.leaseRenew (p : Port) :
    WellFormedOperands.Statement (.leaseRenew p) := by
  simp [WellFormedOperands.Statement, OperandsFit, Instr.wellFormed]

theorem WellFormedOperands.leaseDrop (p : Port) :
    WellFormedOperands.Statement (.leaseDrop p) := by
  simp [WellFormedOperands.Statement, OperandsFit, Instr.wellFormed]

theorem WellFormedOperands.watch (p : Port) :
    WellFormedOperands.Statement (.watch p) := by
  simp [WellFormedOperands.Statement, OperandsFit, Instr.wellFormed]

theorem WellFormedOperands.unwatch (p : Port) :
    WellFormedOperands.Statement (.unwatch p) := by
  simp [WellFormedOperands.Statement, OperandsFit, Instr.wellFormed]

theorem WellFormedOperands.storeQuery (p : Port) :
    WellFormedOperands.Statement (.storeQuery p) := by
  simp [WellFormedOperands.Statement, OperandsFit, Instr.wellFormed]

theorem WellFormedOperands.storeTune (p : Port) :
    WellFormedOperands.Statement (.storeTune p) := by
  simp [WellFormedOperands.Statement, OperandsFit, Instr.wellFormed]

theorem WellFormedOperands.reclaim (p : Port) :
    WellFormedOperands.Statement (.reclaim p) := by
  simp [WellFormedOperands.Statement, OperandsFit, Instr.wellFormed]

theorem WellFormedOperands.format (p : Port) :
    WellFormedOperands.Statement (.format p) := by
  simp [WellFormedOperands.Statement, OperandsFit, Instr.wellFormed]

theorem WellFormedOperands.nsSet (p : Port) :
    WellFormedOperands.Statement (.nsSet p) := by
  simp [WellFormedOperands.Statement, OperandsFit, Instr.wellFormed]

theorem WellFormedOperands.nsFreeze (p : Port) :
    WellFormedOperands.Statement (.nsFreeze p) := by
  simp [WellFormedOperands.Statement, OperandsFit, Instr.wellFormed]

theorem WellFormedOperands.teardownRequest (p : Port) :
    WellFormedOperands.Statement (.teardownRequest p) := by
  simp [WellFormedOperands.Statement, OperandsFit, Instr.wellFormed]

theorem WellFormedOperands.relocate :
    WellFormedOperands.Statement .relocate := by
  simp [WellFormedOperands.Statement, OperandsFit, Instr.wellFormed]

theorem WellFormedOperands.purge :
    WellFormedOperands.Statement .purge := by
  simp [WellFormedOperands.Statement, OperandsFit, Instr.wellFormed]

theorem WellFormedOperands.allocationRequest (r : Requester) :
    WellFormedOperands.Statement (.allocationRequest r) := by
  simp [WellFormedOperands.Statement, OperandsFit, Instr.wellFormed]

theorem WellFormedOperands.readComplete (arrivalFirst : Bool) (seen : SectorImage) :
    WellFormedOperands.Statement (.readComplete arrivalFirst seen) := by
  simp [WellFormedOperands.Statement, OperandsFit, Instr.wellFormed, image_wellFormed_iff]

theorem WellFormedOperands.programComplete (pass : Bool) (left : ProgramLeft) (arrivalFirst : Bool) :
    WellFormedOperands.Statement (.programComplete pass left arrivalFirst) := by
  simp [WellFormedOperands.Statement, OperandsFit, Instr.wellFormed, program_wellFormed_iff]

theorem WellFormedOperands.programTimeout (left : ProgramLeft) (arrivalFirst : Bool) :
    WellFormedOperands.Statement (.programTimeout left arrivalFirst) := by
  simp [WellFormedOperands.Statement, OperandsFit, Instr.wellFormed, program_wellFormed_iff]

theorem WellFormedOperands.eraseComplete (pass : Bool) (left : SectorImage) (arrivalFirst : Bool) :
    WellFormedOperands.Statement (.eraseComplete pass left arrivalFirst) := by
  simp [WellFormedOperands.Statement, OperandsFit, Instr.wellFormed, image_wellFormed_iff]

theorem WellFormedOperands.eraseTimeout (left : SectorImage) (arrivalFirst : Bool) :
    WellFormedOperands.Statement (.eraseTimeout left arrivalFirst) := by
  simp [WellFormedOperands.Statement, OperandsFit, Instr.wellFormed, image_wellFormed_iff]

theorem WellFormedOperands.timebaseStep :
    WellFormedOperands.Statement .timebaseStep := by
  simp [WellFormedOperands.Statement, OperandsFit, Instr.wellFormed]

theorem WellFormedOperands.leaseExpiry (k : Key) :
    WellFormedOperands.Statement (.leaseExpiry k) := by
  simp [WellFormedOperands.Statement, OperandsFit, Instr.wellFormed]

theorem WellFormedOperands.cmd (p : Port) (b : Byte) :
    WellFormedOperands.Statement (.cmd p b) := by
  simp [WellFormedOperands.Statement, OperandsFit, Instr.wellFormed]

theorem WellFormedOperands.param (p : Port) (b : Byte) :
    WellFormedOperands.Statement (.param p b) := by
  simp [WellFormedOperands.Statement, OperandsFit, Instr.wellFormed]

theorem WellFormedOperands.submit (p : Port) (b : Byte) :
    WellFormedOperands.Statement (.submit p b) := by
  simp [WellFormedOperands.Statement, OperandsFit, Instr.wellFormed]

theorem WellFormedOperands.resp (p : Port) :
    WellFormedOperands.Statement (.resp p) := by
  simp [WellFormedOperands.Statement, OperandsFit, Instr.wellFormed]

theorem WellFormedOperands.notice (p : Port) :
    WellFormedOperands.Statement (.notice p) := by
  simp [WellFormedOperands.Statement, OperandsFit, Instr.wellFormed]

theorem WellFormedOperands.stage (p : Port) (b : Byte) :
    WellFormedOperands.Statement (.stage p b) := by
  simp [WellFormedOperands.Statement, OperandsFit, Instr.wellFormed]

theorem WellFormedOperands.flags (p : Port) (b : Byte) :
    WellFormedOperands.Statement (.flags p b) := by
  simp [WellFormedOperands.Statement, OperandsFit, Instr.wellFormed]

theorem WellFormedOperands.portReset (p : Port) (rest : BitVec 7) :
    WellFormedOperands.Statement (.portReset p rest) := by
  simp [WellFormedOperands.Statement, OperandsFit, Instr.wellFormed]

theorem WellFormedOperands.interruptPolarity (p : Port) (rest : BitVec 7) :
    WellFormedOperands.Statement (.interruptPolarity p rest) := by
  simp [WellFormedOperands.Statement, OperandsFit, Instr.wellFormed]

theorem WellFormedOperands.registerWrite (p : Port) (offset : Fin 16) (b : Byte) :
    WellFormedOperands.Statement (.registerWrite p offset b) := by
  simp only [WellFormedOperands.Statement, OperandsFit, Instr.wellFormed]
  revert offset
  simp
  decide

theorem WellFormedOperands.powerGoodFall (p : Port) :
    WellFormedOperands.Statement (.powerGoodFall p) := by
  simp [WellFormedOperands.Statement, OperandsFit, Instr.wellFormed]

theorem WellFormedOperands.powerGoodRise (p : Port) :
    WellFormedOperands.Statement (.powerGoodRise p) := by
  simp [WellFormedOperands.Statement, OperandsFit, Instr.wellFormed]

theorem WellFormedOperands.powerOnReset (span : SpanLeft) (sector : EraseCut) :
    WellFormedOperands.Statement (.powerOnReset span sector) := by
  simp [-Bool.forall_bool, WellFormedOperands.Statement, OperandsFit, Instr.wellFormed,
    span_wellFormed_iff, cut_wellFormed_iff]

theorem WellFormedOperands.deviceReset (held : Bool) (span : SpanLeft) (sector : EraseCut) :
    WellFormedOperands.Statement (.deviceReset held span sector) := by
  simp [-Bool.forall_bool, WellFormedOperands.Statement, OperandsFit, Instr.wellFormed,
    span_wellFormed_iff, cut_wellFormed_iff]

theorem WellFormedOperands.resetNRise :
    WellFormedOperands.Statement .resetNRise := by
  simp [WellFormedOperands.Statement, OperandsFit, Instr.wellFormed]

end Sys2Proof.Laws
end

