-- ==== Sys2Proof/Laws/Steady.lean ====
section
/-! SUPPORT. What the part's inner procedures never change: the queue of commands, RESET_N, the array, the
Namespace Table, the Watch Table, the low-water mark, and of every port its link state, power-good level,
generation count, ENABLE, polarity, staging buffer and data lines. -/

namespace Sys2Proof.Machine

open Sys2Proof

/-- What a port keeps through every inner procedure. -/
structure PortSteady where
  buffer : Vector Byte 1024
  enable : Byte
  activeLow : Bool
  link : Link
  powerGood : Bool
  generation : Byte
  dataOut : Option Byte

/-- What the part keeps through every inner procedure. -/
structure Steady where
  pending : List Instr
  resetLow : Bool
  array : ArrayContents
  names : Vector NsEntry 8
  watches : List WatchEntry
  lowWater : Nat
  ports : Port → PortSteady

def PortUnit.steady (u : PortUnit) : PortSteady :=
  ⟨u.buffer, u.enable, u.activeLow, u.link, u.powerGood, u.generation, u.dataOut⟩

def steady (s : State) : Steady :=
  ⟨s.pending, s.resetLow, s.array, s.engine.names, s.watches, s.space.lowWater,
    fun p => (s.port p).steady⟩

/-- What follows of two states that agree in what is steady. -/
theorem steady_parts {s t : State} (h : steady t = steady s) :
    t.pending = s.pending ∧ t.resetLow = s.resetLow ∧ t.array = s.array ∧
      t.engine.names = s.engine.names ∧ t.watches = s.watches ∧
      t.space.lowWater = s.space.lowWater ∧
      ∀ p, (t.port p).link = (s.port p).link ∧ (t.port p).powerGood = (s.port p).powerGood ∧
        (t.port p).generation = (s.port p).generation ∧ (t.port p).enable = (s.port p).enable ∧
        (t.port p).activeLow = (s.port p).activeLow ∧ (t.port p).buffer = (s.port p).buffer := by
  simp only [steady, Steady.mk.injEq] at h
  obtain ⟨h1, h2, h3, h4, h5, h6, h7⟩ := h
  refine ⟨h1, h2, h3, h4, h5, h6, fun p => ?_⟩
  have h8 := congrFun h7 p
  simp only [PortUnit.steady, PortSteady.mk.injEq] at h8
  exact ⟨h8.2.2.2.1, h8.2.2.2.2.1, h8.2.2.2.2.2.1, h8.2.1, h8.2.2.1, h8.1⟩

/-! ### The setters -/

@[simp] theorem steady_setPort {s : State} {p : Port} {u : PortUnit}
    (h : u.steady = (s.port p).steady) : steady (s.setPort p u) = steady s := by
  simp only [steady, State.setPort_pending, State.setPort_resetLow, State.setPort_array,
    State.setPort_engine, State.setPort_watches, State.setPort_space, Steady.mk.injEq, true_and]
  funext q
  rw [State.setPort_port]
  split
  · rename_i e; subst e; exact h
  · rfl

/-- The Namespace Table replaced in the steady part. -/
def Steady.withNames (x : Steady) (n : Vector NsEntry 8) : Steady := { x with names := n }

/-- The low-water mark replaced in the steady part. -/
def Steady.withLowWater (x : Steady) (n : Nat) : Steady := { x with lowWater := n }

@[simp] theorem steady_setEngine (s : State) (e : Engine) :
    steady (s.setEngine e) = (steady s).withNames e.names := rfl

@[simp] theorem steady_withNames (s : State) :
    (steady s).withNames s.engine.names = steady s := rfl

@[simp] theorem withNames_withNames (x : Steady) (n m : Vector NsEntry 8) :
    (x.withNames n).withNames m = x.withNames m := rfl

@[simp] theorem withNames_withLowWater (x : Steady) (n : Vector NsEntry 8) (k : Nat) :
    (x.withLowWater k).withNames n = (x.withNames n).withLowWater k := rfl

@[simp] theorem steady_setJob (s : State) (j : EngineJob) : steady (s.setJob j) = steady s := rfl

@[simp] theorem steady_setLeases (s : State) (l : List Lease) :
    steady (s.setLeases l) = steady s := rfl

@[simp] theorem steady_setSpace (s : State) (x : Space) :
    steady (s.setSpace x) = (steady s).withLowWater x.lowWater := rfl

@[simp] theorem steady_withLowWater (s : State) :
    (steady s).withLowWater s.space.lowWater = steady s := rfl

@[simp] theorem steady_setDrain (s : State) (d : Drain) : steady (s.setDrain d) = steady s := rfl

@[simp] theorem steady_setCtl (s : State) (c : Controller) : steady (s.setCtl c) = steady s := rfl

/-- Two states with the same ports but for each port's mailbox, transaction, queue and flags. -/
theorem steady_ports {s : State} {ps : Ports}
    (h : ∀ p, (ps.get p).steady = (s.port p).steady) : steady { s with ports := ps } = steady s := by
  simp only [steady, Steady.mk.injEq, true_and]
  funext q
  exact h q

/-! ### The Space Manager's own changes keep the low-water mark -/

@[simp] theorem listRetired_lowWater (x : Space) (i : Sector) :
    (x.listRetired i).lowWater = x.lowWater := by unfold Space.listRetired; split <;> rfl

@[simp] theorem repoint_lowWater (x : Space) (o : Option IndexEntry) (e : IndexEntry) :
    (x.repoint o e).lowWater = x.lowWater := by
  unfold Space.repoint; cases o <;> simp [Space.enliven, Space.deaden]

@[simp] theorem closeSector_lowWater (i : Sector) (x : Space) :
    (closeSector i x).lowWater = x.lowWater := rfl

@[simp] theorem activated_lowWater (a : ActivationJob) (x : Space) :
    (activated a x).lowWater = x.lowWater := by unfold activated; cases x.activeSector <;> rfl

@[simp] theorem allocateIn_lowWater (i : Sector) (n : Nat) (x : Space) :
    (allocateIn i n x).2.lowWater = x.lowWater := rfl

@[simp] theorem setAlloc_lowWater (x : Space) (r : Requester) (q : Option AllocRequest) :
    (x.setAlloc r q).lowWater = x.lowWater := by cases r <;> rfl

@[simp] theorem joinPool_lowWater (i : Sector) (n : EraseCount) (x : Space) :
    (joinPool i n x).lowWater = x.lowWater := rfl

@[simp] theorem dropSequence_lowWater (i : Sector) (x : Space) :
    (dropSequence i x).lowWater = x.lowWater := rfl

@[simp] theorem fillAccounts_lowWater (ends : List (Sector × Nat)) (ix : List IndexEntry) (x : Space) :
    (fillAccounts ends ix x).lowWater = x.lowWater := by unfold fillAccounts; rfl

@[simp] theorem putWrite_lowWater (j : WriteJob) (s : State) :
    (putWrite j s).space.lowWater = s.space.lowWater := rfl

@[simp] theorem issue_lowWater (r : Requester) (op : ArrayOp) (s : State) :
    (issue r op s).space.lowWater = s.space.lowWater := rfl

/-! ### The shared operations -/

@[simp] theorem steady_notify (p : Port) (n : Notice) (s : State) :
    steady (notify p n s) = steady s := by
  unfold notify
  split
  · exact steady_setPort rfl
  · rfl

@[simp] theorem steady_notifyAll (l : List (Port × Notice)) (s : State) :
    steady (notifyAll l s) = steady s := by
  induction l generalizing s with
  | nil => rfl
  | cons x xs ih => simp only [notifyAll, ih, steady_notify]

@[simp] theorem steady_runLeases (f : Lease → LeaseFate) (s : State) :
    steady (runLeases f s) = steady s := by simp [runLeases]

@[simp] theorem steady_routeChange (o : Port) (k : Key) (n : Notice) (s : State) :
    steady (routeChange o k n s) = steady s := by simp [routeChange]

@[simp] theorem steady_pointEntry (e : IndexEntry) (s : State) :
    steady (pointEntry e s) = steady s := by
  simp only [steady, pointEntry, repoint_lowWater]
  rfl

@[simp] theorem steady_changeStore (st : StoreState) (c : Option Cause) (s : State) :
    steady (changeStore st c s) = steady s := by
  refine steady_ports (s := { s with space := { s.space with store := st, cause := c } }) ?_
  intro p
  simp only [Ports.get_each, State.port]
  split <;> rfl

@[simp] theorem steady_arbitrate (s : State) : steady (arbitrate s) = steady s := rfl

@[simp] theorem steady_issue (r : Requester) (op : ArrayOp) (s : State) :
    steady (issue r op s) = steady s := rfl

@[simp] theorem steady_respond (p : Port) (g : Byte) (bs : List Byte) (s : State) :
    steady (respond p g bs s) = steady s := by
  unfold respond
  split
  · exact steady_setPort rfl
  · rfl

@[simp] theorem steady_reply (p : Port) (r : Result) (fs : List Byte) (s : State) :
    steady (reply p r fs s) = steady s := steady_respond _ _ _ _

@[simp] theorem steady_toRunning (p : Port) (s : State) : steady (toRunning p s) = steady s := by
  unfold toRunning
  dsimp only
  rw [steady_setEngine]
  exact steady_setPort (s := s) rfl

@[simp] theorem steady_closeTxn (p : Port) (s : State) : steady (closeTxn p s) = steady s :=
  steady_setPort rfl

theorem steady_afterOutcome {r : Requester} {first : Bool} {go : State → State}
    (h : ∀ u, steady (go u) = steady u) (s : State) :
    steady (afterOutcome r first go s) = steady s := by
  simp only [afterOutcome, steady_arbitrate, h]
  split <;> simp

theorem steady_checked {p : Port} {cs : List (Option Result)} {go : State → State}
    (h : ∀ u, steady (go u) = steady u) (s : State) :
    steady (checked p cs go s) = steady s := by
  unfold checked
  split
  · simp
  · exact h s

theorem steady_grantCommand {c : Code} {p : Port} {procedure : Frame → State → State}
    (h : ∀ f u, steady (procedure f u) = steady u) (s : State) :
    steady (grantCommand c p procedure s) = steady s := by
  unfold grantCommand
  dsimp only
  repeat' split
  all_goals simp [h]

/-! ### The procedures -/

@[simp] theorem steady_retireThen {r : Requester} {i : Sector} {wait go : State → State}
    (hw : ∀ u, steady (wait u) = steady u) (hg : ∀ u, steady (go u) = steady u) (s : State)
    (hr : steady (retireInTable i s) = steady s) :
    steady (retireThen r i wait go s) = steady s := by
  unfold retireThen
  split
  · exact hg s
  · rw [hw, steady_issue, hr]

@[simp] theorem steady_drainGo {go : State → State} (hg : ∀ u, steady (go u) = steady u) (s : State)
    (ha : steady (takeAbandonment s) = steady s) : steady (drainGo go s) = steady s := by
  unfold drainGo
  split
  · exact ha
  · exact hg s

@[simp] theorem steady_activationGo {a : ActivationJob} {go : State → State}
    (hg : ∀ u, steady (go u) = steady u) (s : State)
    (ha : steady (takeAbandonment s) = steady s) : steady (activationGo a go s) = steady s := by
  unfold activationGo
  split
  · exact steady_drainGo hg s ha
  · exact hg s

@[simp] theorem steady_reportCause (c : Cause) (s : State) :
    steady (reportCause c s) = steady s := by
  unfold reportCause
  repeat' split
  all_goals simp

@[simp] theorem steady_beginPass (k : DrainState) (i : Sector) (ph : DrainPhase) (op : ArrayOp) (s : State) :
    steady (beginPass k i ph op s) = steady s := by
  unfold beginPass
  simp

@[simp] theorem steady_startEvacuation (i : Sector) (s : State) :
    steady (startEvacuation i s) = steady s := by
  unfold startEvacuation
  simp

@[simp] theorem steady_startReclaim (i : Sector) (s : State) :
    steady (startReclaim i s) = steady s := by
  unfold startReclaim
  repeat' split
  all_goals simp

@[simp] theorem steady_chooseWork (b : Bool) (s : State) :
    steady (chooseWork b s) = steady s := by
  unfold chooseWork
  repeat' split
  all_goals simp

@[simp] theorem steady_consider (s : State) :
    steady (consider s) = steady s := by
  unfold consider
  dsimp only
  repeat' split
  all_goals simp

@[simp] theorem steady_leaveHold (st : StoreState) (c : Option Cause) (s : State) :
    steady (leaveHold st c s) = steady s := by
  unfold leaveHold
  dsimp only
  repeat' split
  all_goals simp

@[simp] theorem steady_retireInTable (i : Sector) (s : State) :
    steady (retireInTable i s) = steady s := by
  unfold retireInTable
  dsimp only
  repeat' split
  all_goals simp

@[simp] theorem steady_takeForActivation (a : ActivationFor) (i : Sector) (s : State) :
    steady (takeForActivation a i s) = steady s := by
  unfold takeForActivation
  dsimp only
  repeat' split
  all_goals simp

@[simp] theorem steady_formatPhase (ph : FormatPhase) (s : State) :
    steady (formatPhase ph s) = steady s := by
  unfold formatPhase
  repeat' split
  all_goals simp

@[simp] theorem steady_formatEnd (s : State) :
    steady (formatEnd s) = steady s := by
  unfold formatEnd
  dsimp only
  repeat' split
  all_goals simp

@[simp] theorem steady_formatActivate (s : State) :
    steady (formatActivate s) = steady s := by
  unfold formatActivate
  repeat' split
  all_goals simp

@[simp] theorem steady_formatErase (k : Nat) (s : State) :
    steady (formatErase k s) = steady s := by
  unfold formatErase
  repeat' split
  all_goals simp

@[simp] theorem steady_formatMark (k : Nat) (s : State) :
    steady (formatMark k s) = steady s := by
  unfold formatMark
  repeat' split
  all_goals simp

@[simp] theorem steady_formatStart (s : State) :
    steady (formatStart s) = steady s := by
  unfold formatStart
  dsimp only
  rw [steady_formatMark, steady_setSpace, steady_setEngine]
  show steady { runLeases dropLease s with ports := (runLeases dropLease s).ports.each closeOpenTxn } = _
  rw [steady_ports (s := runLeases dropLease s), steady_runLeases]
  intro p
  rw [Ports.get_each]
  unfold closeOpenTxn
  split <;> rfl

@[simp] theorem steady_takeAbandonment (s : State) :
    steady (takeAbandonment s) = steady s := by
  unfold takeAbandonment
  simp

@[simp] theorem steady_formatProgram (ph : FormatPhase) (ok : Bool) (s : State) :
    steady (formatProgram ph ok s) = steady s := by
  unfold formatProgram
  dsimp only
  repeat' split
  all_goals simp

@[simp] theorem steady_formatErased (i : Sector) (ok : Bool) (s : State) :
    steady (formatErased i ok s) = steady s := by
  unfold formatErased
  repeat' split
  all_goals simp

@[simp] theorem steady_formatGrant (p : Port) (s : State) :
    steady (formatGrant p s) = steady s := by
  unfold formatGrant
  dsimp only
  generalize ht : changeStore _ _ _ = t
  have h : steady t = steady s := by rw [← ht]; simp
  rw [← h]
  split <;> simp

@[simp] theorem steady_drainPhase (ph : DrainPhase) (s : State) :
    steady (drainPhase ph s) = steady s := by
  unfold drainPhase
  simp

@[simp] theorem steady_passEnd (s : State) :
    steady (passEnd s) = steady s := by
  unfold passEnd
  simp

@[simp] theorem steady_walkEnd (i : Sector) (s : State) :
    steady (walkEnd i s) = steady s := by
  unfold walkEnd
  dsimp only
  repeat' split
  all_goals simp

@[simp] theorem steady_walkTo (n : Nat) (s : State) :
    steady (walkTo n s) = steady s := by
  unfold walkTo
  dsimp only
  repeat' split
  all_goals simp

@[simp] theorem steady_drainHeader (g : GranuleRead) (s : State) :
    steady (drainHeader g s) = steady s := by
  unfold drainHeader
  dsimp only
  repeat' split
  all_goals simp

@[simp] theorem steady_askRoom (c : Copy) (s : State) :
    steady (askRoom c s) = steady s := by
  unfold askRoom
  simp

@[simp] theorem steady_drainRecord (bs : List Byte) (s : State) :
    steady (drainRecord bs s) = steady s := by
  unfold drainRecord
  repeat' split
  all_goals simp

@[simp] theorem steady_drainRoom (q : Place) (s : State) :
    steady (drainRoom q s) = steady s := by
  unfold drainRoom
  dsimp only
  repeat' split
  all_goals simp

@[simp] theorem steady_copyNext (q : Place) (ps : List (Nat × List Byte)) (s : State) :
    steady (copyNext q ps s) = steady s := by
  unfold copyNext
  repeat' split
  all_goals simp

@[simp] theorem steady_afterCopyFailure (s : State) :
    steady (afterCopyFailure s) = steady s := by
  unfold afterCopyFailure
  repeat' split
  all_goals simp

@[simp] theorem steady_drainRefused (s : State) :
    steady (drainRefused s) = steady s := by
  unfold drainRefused
  simp

@[simp] theorem steady_walkPast (n : Nat) (s : State) :
    steady (walkPast n s) = steady s := by
  unfold walkPast
  simp

@[simp] theorem steady_staleCopy (q : Place) (n : Nat) (s : State) :
    steady (staleCopy q n s) = steady s := by
  unfold staleCopy
  simp

@[simp] theorem steady_drainProgram (ok : Bool) (s : State) :
    steady (drainProgram ok s) = steady s := by
  unfold drainProgram
  dsimp only
  repeat' split
  all_goals first
    | simp
    | (refine (steady_drainGo (fun u => ?_) _ ?_).trans ?_ <;> simp)

@[simp] theorem steady_drainErased (ok : Bool) (s : State) :
    steady (drainErased ok s) = steady s := by
  unfold drainErased
  repeat' split
  all_goals first
    | simp
    | (refine (steady_drainGo (fun u => ?_) _ ?_).trans ?_ <;> simp)

@[simp] theorem steady_putWrite (j : WriteJob) (s : State) :
    steady (putWrite j s) = steady s := by
  unfold putWrite
  simp

@[simp] theorem steady_writeRoom (j : WriteJob) (s : State) :
    steady (writeRoom j s) = steady s := by
  unfold writeRoom
  dsimp only
  repeat' split
  all_goals simp

@[simp] theorem steady_writeRoomGiven (j : WriteJob) (q : Place) (s : State) :
    steady (writeRoomGiven j q s) = steady s := by
  unfold writeRoomGiven
  dsimp only
  repeat' split
  all_goals simp

@[simp] theorem steady_writeNext (j : WriteJob) (ps : List (Nat × List Byte)) (s : State) :
    steady (writeNext j ps s) = steady s := by
  unfold writeNext
  repeat' split
  all_goals simp

@[simp] theorem steady_writeEnd (j : WriteJob) (bs : List Byte) (s : State) :
    steady (writeEnd j bs s) = steady s := by
  unfold writeEnd
  dsimp only
  repeat' split
  all_goals simp

@[simp] theorem steady_writeOk (j : WriteJob) (s : State) :
    steady (writeOk j s) = steady s := by
  unfold writeOk
  simp

@[simp] theorem steady_writeStoreFull (j : WriteJob) (s : State) :
    steady (writeStoreFull j s) = steady s := by
  unfold writeStoreFull
  dsimp only
  split
  · rw [steady_respond, steady_setJob]
    exact steady_setPort rfl
  · simp

@[simp] theorem steady_writeMediaError (j : WriteJob) (s : State) :
    steady (writeMediaError j s) = steady s := by
  unfold writeMediaError
  simp

@[simp] theorem steady_writeAfterFailure (j : WriteJob) (s : State) :
    steady (writeAfterFailure j s) = steady s := by
  unfold writeAfterFailure
  repeat' split
  all_goals simp

@[simp] theorem steady_writeRefused (j : WriteJob) (s : State) :
    steady (writeRefused j s) = steady s := by
  unfold writeRefused
  repeat' split
  all_goals simp

@[simp] theorem steady_commitPoint (j : WriteJob) (s : State) :
    steady (commitPoint j s) = steady s := by
  unfold commitPoint
  dsimp only
  repeat' split
  all_goals simp

@[simp] theorem steady_writeProgram (j : WriteJob) (ok : Bool) (s : State) :
    steady (writeProgram j ok s) = steady s := by
  unfold writeProgram
  dsimp only
  repeat' split
  all_goals simp

@[simp] theorem steady_fetchDone (j : FetchJob) (g : GranuleRead) (bs : List Byte) (s : State) :
    steady (fetchDone j g bs s) = steady s := by
  unfold fetchDone
  dsimp only
  repeat' split
  all_goals simp

@[simp] theorem steady_relocateDone (s : State) :
    steady (relocateDone s) = steady s := by
  unfold relocateDone
  dsimp only
  repeat' split
  all_goals simp

@[simp] theorem steady_putMount (j : MountJob) (s : State) :
    steady (putMount j s) = steady s := by
  unfold putMount
  simp

@[simp] theorem steady_walkRead (w : Walk) (s : State) :
    steady (walkRead w s) = steady s := by
  unfold walkRead
  simp

@[simp] theorem steady_mountEnd (s : State) :
    steady (mountEnd s) = steady s := by
  unfold mountEnd
  dsimp only
  repeat' split
  all_goals simp

@[simp] theorem steady_mountDrainWork (s : State) :
    steady (mountDrainWork s) = steady s := by
  unfold mountDrainWork
  simp

@[simp] theorem steady_mountActivate (j : MountJob) (s : State) :
    steady (mountActivate j s) = steady s := by
  unfold mountActivate
  dsimp only
  repeat' split
  all_goals simp

@[simp] theorem steady_mountSurplus (j : MountJob) (l : List Sector) (s : State) :
    steady (mountSurplus j l s) = steady s := by
  unfold mountSurplus
  repeat' split
  all_goals simp

@[simp] theorem steady_mountActive (j : MountJob) (s : State) :
    steady (mountActive j s) = steady s := by
  unfold mountActive
  dsimp only
  repeat' split
  all_goals simp

@[simp] theorem steady_mountCounters (j : MountJob) (s : State) :
    steady (mountCounters j s) = steady s := by
  unfold mountCounters
  simp

@[simp] theorem steady_scanNext (j : MountJob) (l : List Sector) (s : State) :
    steady (scanNext j l s) = steady s := by
  unfold scanNext
  repeat' split
  all_goals simp

@[simp] theorem steady_sectorScanned (j : MountJob) (w : Walk) (l : List Sector) (s : State) :
    steady (sectorScanned j w l s) = steady s := by
  unfold sectorScanned
  dsimp only
  repeat' split
  all_goals simp

@[simp] theorem steady_scanOn (j : MountJob) (w : Walk) (l : List Sector) (s : State) :
    steady (scanOn j w l s) = steady s := by
  unfold scanOn
  repeat' split
  all_goals simp

@[simp] theorem steady_offerRecord (j : MountJob) (h : RecHeader) (q : Place) (w : Walk) (l : List Sector) (s : State) :
    steady (offerRecord j h q w l s) = steady s := by
  unfold offerRecord
  dsimp only
  repeat' split
  all_goals simp

@[simp] theorem steady_scanRead (j : MountJob) (w : Walk) (l : List Sector) (g : GranuleRead) (s : State) :
    steady (scanRead j w l g s) = steady s := by
  unfold scanRead
  repeat' split
  all_goals simp

@[simp] theorem steady_repairIdentity (j : MountJob) (i : Sector) (n : EraseCount) (s : State) :
    steady (repairIdentity j i n s) = steady s := by
  unfold repairIdentity
  simp

@[simp] theorem steady_repairFrom (j : MountJob) (k : Nat) (s : State) :
    steady (repairFrom j k s) = steady s := by
  unfold repairFrom
  repeat' split
  all_goals simp

@[simp] theorem steady_repairFailed (j : MountJob) (i : Sector) (s : State) :
    steady (repairFailed j i s) = steady s := by
  unfold repairFailed
  simp

@[simp] theorem steady_repairErased (j : MountJob) (i : Sector) (ok : Bool) (s : State) :
    steady (repairErased j i ok s) = steady s := by
  unfold repairErased
  repeat' split
  all_goals simp

@[simp] theorem steady_surveyEnd (j : MountJob) (s : State) :
    steady (surveyEnd j s) = steady s := by
  unfold surveyEnd
  simp

@[simp] theorem steady_surveyNext (j : MountJob) (l : List Sector) (s : State) :
    steady (surveyNext j l s) = steady s := by
  unfold surveyNext
  repeat' split
  all_goals simp

@[simp] theorem steady_surveyRead (j : MountJob) (w : Walk) (l : List Sector) (g : GranuleRead) (s : State) :
    steady (surveyRead j w l g s) = steady s := by
  unfold surveyRead
  dsimp only
  repeat' split
  all_goals simp

@[simp] theorem steady_surveyHeader (j : MountJob) (i : Sector) (h : SectorHeader) (s : State) :
    steady (surveyHeader j i h s) = steady s := by
  unfold surveyHeader
  dsimp only
  repeat' split
  all_goals simp

@[simp] theorem steady_mountRead (j : MountJob) (v : ArrayContents) (s : State) :
    steady (mountRead j v s) = steady s := by
  unfold mountRead
  repeat' split
  all_goals simp

@[simp] theorem steady_mountProgram (j : MountJob) (ok : Bool) (s : State) :
    steady (mountProgram j ok s) = steady s := by
  unfold mountProgram
  dsimp only
  repeat' split
  all_goals simp

@[simp] theorem steady_mountErased (j : MountJob) (ok : Bool) (s : State) :
    steady (mountErased j ok s) = steady s := by
  unfold mountErased
  repeat' split
  all_goals simp

@[simp] theorem steady_answerRoom (r : Requester) (q : Place) (s : State) :
    steady (answerRoom r q s) = steady s := by
  unfold answerRoom
  dsimp only
  repeat' split
  all_goals simp

@[simp] theorem steady_refuseRoom (r : Requester) (s : State) :
    steady (refuseRoom r s) = steady s := by
  unfold refuseRoom
  dsimp only
  repeat' split
  all_goals simp

@[simp] theorem steady_allocateByActivation (r : Requester) (q : AllocRequest) (s : State) :
    steady (allocateByActivation r q s) = steady s := by
  unfold allocateByActivation
  repeat' split
  all_goals simp

@[simp] theorem steady_allocateFrom (r : Requester) (q : AllocRequest) (i : Sector) (s : State) :
    steady (allocateFrom r q i s) = steady s := by
  unfold allocateFrom
  simp

@[simp] theorem steady_allocate (r : Requester) (q : AllocRequest) (s : State) :
    steady (allocate r q s) = steady s := by
  unfold allocate
  repeat' split
  all_goals simp

@[simp] theorem steady_activationDone (a : ActivationJob) (s : State) :
    steady (activationDone a s) = steady s := by
  unfold activationDone
  dsimp only
  repeat' split
  all_goals simp

@[simp] theorem steady_activationAgain (a : ActivationJob) (s : State) :
    steady (activationAgain a s) = steady s := by
  unfold activationAgain
  dsimp only
  repeat' split
  all_goals simp

@[simp] theorem steady_activationProgram (a : ActivationJob) (ok : Bool) (s : State) :
    steady (activationProgram a ok s) = steady s := by
  unfold activationProgram
  dsimp only
  split
  · split
    · split
      · exact (steady_activationGo (fun u => by simp) _ (by simp)).trans (by simp)
      · exact (steady_activationGo (fun u => by simp) _ (by simp)).trans (by simp)
    · exact steady_retireThen (fun u => by simp)
        (fun u => steady_activationGo (fun v => by simp) u (by simp)) _ (by simp)
  · exact steady_activationGo (fun u => by simp) _ (by simp)
  · exact steady_activationGo (fun u => by simp) _ (by simp)

@[simp] theorem steady_readEnded (r : Requester) (i : Sector) (g : Nat) (v : ArrayContents) (s : State) :
    steady (readEnded r i g v s) = steady s := by
  unfold readEnded
  repeat' split
  all_goals simp

@[simp] theorem steady_jobProgram (r : Requester) (ok : Bool) (s : State) :
    steady (jobProgram r ok s) = steady s := by
  unfold jobProgram
  repeat' split
  all_goals simp

@[simp] theorem steady_programEnded (r : Requester) (ok : Bool) (s : State) :
    steady (programEnded r ok s) = steady s := by
  unfold programEnded
  repeat' split
  all_goals simp

@[simp] theorem steady_eraseEnded (r : Requester) (ok : Bool) (s : State) :
    steady (eraseEnded r ok s) = steady s := by
  unfold eraseEnded
  repeat' split
  all_goals simp

@[simp] theorem steady_passTime (s : State) :
    steady (passTime s) = steady s := by
  unfold passTime
  dsimp only
  repeat' split
  all_goals simp

@[simp] theorem steady_fetchStart (p : Port) (e : IndexEntry) (o n : Nat) (s : State) :
    steady (fetchStart p e o n s) = steady s := by
  unfold fetchStart
  simp

@[simp] theorem steady_commitStart (p : Port) (s : State) :
    steady (commitStart p s) = steady s := by
  unfold commitStart
  dsimp only
  refine (steady_writeRoom _ _).trans ?_
  exact steady_setPort rfl

@[simp] theorem steady_removeStart (p : Port) (k : Key) (s : State) :
    steady (removeStart p k s) = steady s := by
  unfold removeStart
  simp

@[simp] theorem steady_relocateProcedure (k : Key) (a b : Place) (n : Nat) (s : State) :
    steady (relocateProcedure k a b n s) = steady s := by
  unfold relocateProcedure
  repeat' split
  all_goals simp

end Sys2Proof.Machine
end

