-- ==== Sys2Proof/Tests/Slice0.lean ====
section
/-! SUPPORT. Own tests: the operand checks refuse, each command once on a small state with the result
worked out by hand from the rule named, and for each statement with hypotheses a state that meets them. -/

-- One theorem at a time: many at once take more threads than the memory of a check allows.
set_option Elab.async false

namespace Sys2Proof.Tests

open Sys2Proof Sys2Proof.Machine

/-! ### Small states -/

/-- The state after a command. -/
def ran (c : Instr) (s : State) : State :=
  match exec c s with
  | .next t => t
  | _ => s

/-- READY: sector 0 ACTIVE with write pointer n, the other sectors below m ERASED, those from m on not
classed, but for the given ones; namespace 0 DEFINED for all ports, 2 FROZEN for port A's reads, the others UNDEFINED. -/
def store (n m : Nat) (others : List (Sector × SectorRecord)) : State where
  pending := []
  resetLow := false
  ports := State.reset.ports
  engine := ⟨[], vset (vset namesAtPowerOn 0 ⟨.defined, 15, 15, 2048⟩) 2 ⟨.frozen, 1, 0, 3⟩,
    5, false, .A, .idle⟩
  leases := []
  watches := []
  space :=
    { Space.atReset 4 with
      store := .ready
      sectors := others.foldl (fun v x => vset v x.1 x.2)
        ((allSectors.take m).foldl (fun v i => vset v i ⟨.erased, 1, none, 0, 0, 0⟩)
          (vset (Space.atReset 4).sectors 0 ⟨.active, 1, some 1, n, 0, n⟩)) }
  drain := .atReset
  ctl := .empty
  array := .unused

/-- The store with room: sector 0 ACTIVE, empty. -/
def ready : State := store 0 0 []

/-- A frame waits at a port. -/
def ask (p : Port) (c : Code) (ps : List Byte) (s : State) : State :=
  s.setPort p { s.port p with mailbox := ⟨.waiting, ⟨codeByte c, ps, false⟩, []⟩ }

/-- A port's transaction. -/
def txn (p : Port) (x : Txn) (s : State) : State := s.setPort p { s.port p with txn := x }

/-- A port's mailbox. -/
def mail (p : Port) (m : Mailbox) (s : State) : State := s.setPort p { s.port p with mailbox := m }

/-- A port's link state. -/
def link (p : Port) (l : Link) (s : State) : State := s.setPort p { s.port p with link := l }

/-- A port's notice queue. -/
def queue (p : Port) (q : NoticeQueue) (s : State) : State := s.setPort p { s.port p with queue := q }

/-- The Key Index. -/
def index (ix : List IndexEntry) (s : State) : State := s.setEngine { s.engine with index := ix }

/-- The operation in service for a requester. -/
def serve (r : Requester) (op : ArrayOp) (s : State) : State :=
  s.setCtl (s.ctl.setPlace r (some ⟨op, true⟩))

/-- The command at the front of the queue. -/
def front (c : Instr) (s : State) : State := { s with pending := [c] }

/-- Key 5 of namespace 0, PRESENT with 20 bytes at granule 1 of sector 0, version 7. -/
def entry5 : IndexEntry := ⟨⟨0, 5⟩, .present, ⟨0, 1⟩, 20, 7⟩

/-- Key 6 of namespace 0, DELETED. -/
def entry6 : IndexEntry := ⟨⟨0, 6⟩, .deleted, ⟨0, 4⟩, 0, 8⟩

/-- Port B holds key 5, C waits for 300 ms. -/
def lease5 (r : Nat) : Lease := ⟨⟨0, 5⟩, .B, r, [⟨.C, 300⟩]⟩

/-- The response waiting at a port. -/
def response (p : Port) (s : State) : List Byte := (s.port p).mailbox.response

/-- A write of key 5 by port B in a phase, 20 bytes, at granule 1 of sector 0 with version 5. -/
def write5 (ph : WritePhase) : WriteJob := ⟨.B, 0, false, ⟨0, 5⟩, 20, 1, ⟨0, 1⟩, 5, ph⟩

/-- A record header of key 5 with 20 bytes, as the part writes it. -/
def header5 (v : Word32) (st : RecState) : RecHeader := checkedHeader ⟨0, 5⟩ .data v 20 0 st

/-- An erase that was cut off before it changed a cell. -/
def uncut : EraseCut := ⟨.kept, .kept, .kept, [], []⟩

/-- A sector under erase that shows its old contents. -/
def whole : UnderErase := ⟨uncut, []⟩

theorem forall_ports {P : Port → Prop} (a : P .A) (b : P .B) (c : P .C) (d : P .D) : ∀ p, P p
  | .A => a
  | .B => b
  | .C => c
  | .D => d

/-! ### The operand checks refuse -/

/-- A sector image with granule 0 as a record header. -/
theorem test_wf_image_granule_0 :
    (Instr.readComplete false ⟨.blank, [(0, .broken none)], []⟩).wellFormed = false := by decide

theorem test_wf_image_granule_512 :
    (Instr.eraseTimeout ⟨.blank, [(512, .broken none)], []⟩ false).wellFormed = false := by decide

theorem test_wf_image_byte_15 :
    (Instr.eraseComplete false ⟨.blank, [], [(15, 0)]⟩ false).wellFormed = false := by decide

theorem test_wf_image_byte_8192 :
    (Instr.eraseComplete false ⟨.blank, [], [(8192, 0)]⟩ false).wellFormed = false := by decide

/-- An erase cut that names granule 0, granule 512, byte 15 or byte 8192. -/
theorem test_wf_cut :
    (Instr.powerOnReset .old { uncut with recs := [(0, .erased)] }).wellFormed = false ∧
    (Instr.powerOnReset .old { uncut with recs := [(512, .torn)] }).wellFormed = false ∧
    (Instr.deviceReset true .old { uncut with bytes := [15] }).wellFormed = false ∧
    (Instr.deviceReset true .old { uncut with bytes := [8192] }).wellFormed = false := by decide

theorem test_wf_span_129 :
    (Instr.programTimeout ⟨.neither (List.replicate 129 0), whole⟩ false).wellFormed = false ∧
      (Instr.programTimeout ⟨.old, ⟨uncut, [(15, 0)]⟩⟩ false).wellFormed = false ∧
      (Instr.programComplete false ⟨.neither (List.replicate 129 0), whole⟩ false).wellFormed = false ∧
      (Instr.deviceReset true (.neither (List.replicate 129 0)) uncut).wellFormed = false := by
  decide +kernel

/-- CMD, PARAM, SUBMIT, FLAGS, STAGE and CONTROL are not written by REGISTER_WRITE. -/
theorem test_wf_offsets :
    ∀ o ∈ ([0, 1, 2, 6, 8, 13] : List (Fin 16)), (Instr.registerWrite .A o 1).wellFormed = false := by
  decide

/-- The table gives no bits: no word spells a command. -/
theorem test_no_words (n w : Nat) (s : State) : s.withFetchWord n w = s := rfl

/-! ### Each command once -/

/-- R13, R15: the READ of a 20-byte record is 3 granules. -/
theorem test_fetch :
    opOf .engine (ran (.fetch .B) (ask .B .fetch [0, 5, 0, 0, 0, 240] (index [entry5] ready))) =
      some (.read 0 1 3) := by decide

/-- R14: a DELETED key is NOT_FOUND. -/
theorem test_fetch_deleted :
    response .B (ran (.fetch .B) (ask .B .fetch [0, 6, 0, 0, 0, 1] (index [entry6] ready))) =
      [0x10] := by decide

/-- R17, R76: presence, version 7, length 20; holder B, one waiter, 258 ms. -/
theorem test_probe :
    response .D (ran (.probe .D) (ask .D .probe [0, 5, 0]
      { index [entry5] ready with leases := [lease5 258] })) =
      [0, 1, 7, 0, 0, 0, 20, 0, 1, 1, 2, 1] := by decide

/-- R18: one key listed, DELETED ones are not. -/
theorem test_scan :
    response .B (ran (.scan .B) (ask .B .scan [0, 0, 0, 40] (index [entry5, entry6] ready))) =
      [0, 1, 0, 5, 0, 7, 0, 0, 0] := by decide

/-- R27: OPEN with staged count 0. -/
theorem test_putOpen :
    ((ran (.putOpen .B) (ask .B .putOpen [0, 5, 0, 0, 4, 0, 0, 0, 0, 0] ready)).port .B).txn =
      ⟨.open_, ⟨0, 5⟩, 1024, .none_, 0⟩ := by decide

/-- R26, R76: another port's lease. -/
theorem test_putOpen_held :
    response .A (ran (.putOpen .A) (ask .A .putOpen [0, 5, 0, 20, 0, 0, 0, 0, 0, 0]
      { ready with leases := [lease5 9] })) = [0x20] := by decide

/-- R31: a 20-byte record asks for 3 granules of class COMMIT. -/
theorem test_putCommit :
    (ran (.putCommit .B) (ask .B .putCommit []
      (txn .B ⟨.open_, ⟨0, 5⟩, 20, .none_, 20⟩ ready))).space.allocEngine = some ⟨3, .commit⟩ := by
  decide

/-- R28. -/
theorem test_putCancel :
    ((ran (.putCancel .B) (ask .B .putCancel []
      (txn .B ⟨.open_, ⟨0, 5⟩, 20, .none_, 9⟩ ready))).port .B).txn =
      ⟨.none_, ⟨0, 5⟩, 20, .none_, 0⟩ := by decide

/-- R46: one granule of class REMOVE. -/
theorem test_remove :
    (ran (.remove .B) (ask .B .remove [0, 5, 0, 2, 7, 0, 0, 0]
      (index [entry5] ready))).space.allocEngine = some ⟨1, .remove⟩ := by decide

/-- R70, R71: a second port queues at position 2. -/
theorem test_leaseTake :
    response .D (ran (.leaseTake .D) (ask .D .leaseTake [0, 5, 0, 100, 0, 1]
      { ready with leases := [lease5 9] })) = [0x01, 2] := by decide

/-- R72. -/
theorem test_leaseRenew :
    (ran (.leaseRenew .B) (ask .B .leaseRenew [0, 5, 0, 0xFF, 0xFF]
      { ready with leases := [lease5 9] })).leases = [lease5 65535] := by decide

/-- R73, R74: the lease passes to C with C's duration, and C is told. -/
theorem test_leaseDrop :
    (ran (.leaseDrop .B) (ask .B .leaseDrop [0, 5, 0]
      { ready with leases := [lease5 9] })).leases = [⟨⟨0, 5⟩, .C, 300, []⟩] ∧
    ((ran (.leaseDrop .B) (ask .B .leaseDrop [0, 5, 0]
      { ready with leases := [lease5 9] })).port .C).queue.entries =
      [.notice (.granted ⟨0, 5⟩)] := by decide

/-- R86: 0FFFFH is ALL. -/
theorem test_watch :
    (ran (.watch .B) (ask .B .watch [0, 0xFF, 0xFF] ready)).watches = [⟨.B, 0, none⟩] := by decide

/-- R87. -/
theorem test_unwatch :
    (ran (.unwatch .B) (ask .B .unwatch [0, 5, 0]
      { ready with watches := [⟨.B, 0, none⟩, ⟨.B, 0, some 5⟩] })).watches =
      [⟨.B, 0, none⟩] := by decide

/-- R118: READY, no cause, pool 5, active sector 0, mark 4, one key of one entry, counters 5 and 1. -/
theorem test_storeQuery :
    response .C (ran (.storeQuery .C) (ask .C .storeQuery [] (index [entry5] (store 3 6
      [(0, ⟨.active, 1, some 1, 3, 3, 0⟩)])))) =
      [0, 1, 0, 5, 0, 0, 0, 0xFF, 0, 4, 1, 0, 1, 0, 5, 0, 0, 0, 1, 0, 0, 0, 3, 0, 0, 0, 0, 0, 0, 0] := by
  decide +kernel

/-- R117. -/
theorem test_storeTune :
    (ran (.storeTune .A) (ask .A .storeTune [16] ready)).space.lowWater = 16 := by decide

/-- R138, R123: a FULL sector with dead granules is marked DRAINING. -/
theorem test_reclaim :
    opOf .drain (ran (.reclaim .A) (ask .A .reclaim []
      (store 0 0 [(3, ⟨.full, 1, some 1, 511, 500, 11⟩)]))) = some (.programMark 3 .draining) := by
  decide +kernel

/-- R164 to R166: FORMATTING, the leases dropped, the ACTIVE sector marked first. -/
theorem test_format :
    (ran (.format .A) (ask .A .format [] { ready with leases := [lease5 9] })).leases = [] ∧
    opOf .engine (ran (.format .A) (ask .A .format [] { ready with leases := [lease5 9] })) =
      some (.programMark 0 .discarded) := by decide +kernel

/-- R57 to R60: B loses its lease to C, and its watch. -/
theorem test_nsSet :
    (ran (.nsSet .A) (ask .A .nsSet [0, 0x0D, 0x0D, 0, 8]
      { ready with leases := [lease5 9], watches := [⟨.B, 0, none⟩, ⟨.C, 0, none⟩] })).leases =
      [⟨⟨0, 5⟩, .C, 300, []⟩] ∧
    (ran (.nsSet .A) (ask .A .nsSet [0, 0x0D, 0x0D, 0, 8]
      { ready with leases := [lease5 9], watches := [⟨.B, 0, none⟩, ⟨.C, 0, none⟩] })).watches =
      [⟨.C, 0, none⟩] := by decide

/-- R61. -/
theorem test_nsFreeze :
    (nsEntry (ran (.nsFreeze .A) (ask .A .nsFreeze [0] ready)) 0).state = .frozen := by decide

/-- R182, R190. -/
theorem test_teardownRequest :
    ((ran (.teardownRequest .B) (link .B .teardown ready)).port .B).link = .present ∧
    flagsByte ((ran (.teardownRequest .B) (link .B .teardown ready)).port .B) = 0x80 := by decide

/-- R128: applied. -/
theorem test_relocate :
    entryOf ⟨0, 5⟩ (ran .relocate { index [entry5] ready with
      drain := { Drain.atReset with request := some (.relocate ⟨0, 5⟩ ⟨0, 1⟩ ⟨4, 9⟩ 3) } }).engine.index =
      some { entry5 with place := ⟨4, 9⟩ } := by decide

/-- R131: the DELETED entry goes. -/
theorem test_purge :
    (ran .purge { index [entry5, entry6] ready with
      drain := { Drain.atReset with request := some (.purge ⟨0, 6⟩ ⟨0, 4⟩) } }).engine.index =
      [entry5] := by decide

/-- R106, R103: granules 1 to 3, write pointer 3. -/
theorem test_allocationRequest :
    (ran (.allocationRequest .engine)
      { (ready.setJob (.write (write5 .room))) with
        space := { ready.space with allocEngine := some ⟨3, .commit⟩ } }).space.rec_ 0 =
      ⟨.active, 1, some 1, 3, 0, 3⟩ := by decide

/-- R16: an erased granule where the record should be. -/
theorem test_readComplete :
    response .B (ran (.readComplete false ⟨.blank, [], []⟩)
      (serve .engine (.read 0 1 3) (ready.setJob (.fetch ⟨.B, 0, entry5, 0, 20⟩)))) = [0x42] := by
  decide

/-- R34, R36: the VALID program passes, and the key is PRESENT with the new version. -/
theorem test_programComplete :
    entryOf ⟨0, 5⟩ (ran (.programComplete true ⟨.old, whole⟩ false)
      { serve .engine (.programState ⟨0, 1⟩ .valid) (ready.setJob (.write (write5 .valid))) with
        array := { ArrayContents.unused with
          recs := [(1, .written (header5 5 .allocated))] } }).engine.index =
      some { entry5 with version := 5 } := by decide

/-- R142, R112: the sector is retired. -/
theorem test_programTimeout :
    ((ran (.programTimeout ⟨.old, whole⟩ false)
      (serve .engine (.programState ⟨0, 1⟩ .valid)
        (ready.setJob (.write (write5 .valid))))).space.rec_ 0).state = .retired := by decide +kernel

/-- An erase of sector 3 by the Drain Unit after a number of milliseconds. -/
def erasing (ms : Nat) : State :=
  { store 0 0 [(3, ⟨.draining, 6, some 1, 511, 0, 511⟩)] with
    ctl := ⟨none, some ⟨.erase 3, true⟩, some ⟨.drain, 3, ms, 0, false, false⟩⟩
    drain := { Drain.atReset with state := .reclaiming, sector := some 3, phase := .erase } }

/-- R132, R104: the identity program raises the count from 6 to 7. -/
theorem test_eraseComplete :
    opOf .drain (ran (.eraseComplete true ⟨.blank, [], []⟩ false) (erasing 119)) =
      some (.programIdentity 3 7) := by decide

/-- R132, R144: the victim is retired. -/
theorem test_eraseTimeout :
    opOf .drain (ran (.eraseTimeout ⟨.blank, [], []⟩ false) (erasing 120)) =
      some (.programMark 3 .retired) := by decide +kernel

/-- R140, R143: SUPERSEDED does not go back to VALID, and the sector of the record is retired. -/
theorem test_programComplete_backward :
    ((ran (.programComplete true ⟨.new, whole⟩ false)
      { serve .engine (.programState ⟨0, 1⟩ .valid) (ready.setJob (.write (write5 .valid))) with
        array := { ArrayContents.unused with
          recs := [(1, .written (header5 5 .superseded))] } }).space.rec_ 0).state = .retired := by
  decide +kernel

/-- R67, R77: at 1 ms the lease expires and passes; at 2 ms it counts down. -/
theorem test_timebaseStep :
    (ran .timebaseStep { ready with leases := [lease5 1] }).leases = [⟨⟨0, 5⟩, .C, 300, []⟩] ∧
    (ran .timebaseStep { ready with leases := [lease5 2] }).leases = [lease5 1] := by decide

/-- R77: the holder loses it. -/
theorem test_leaseExpiry :
    ((ran (.leaseExpiry ⟨0, 5⟩) { ready with leases := [lease5 1] }).port .B).queue.entries =
      [.notice (.lost ⟨0, 5⟩)] := by decide

/-- R184: a response that is not read is lost. -/
theorem test_cmd :
    ((ran (.cmd .B 0x11) (mail .B ⟨.done, ⟨0, [], false⟩, [1]⟩ ready)).port .B).mailbox =
      ⟨.filling, ⟨0x11, [], false⟩, []⟩ ∧
    flagsByte ((ran (.cmd .B 0x11) (mail .B ⟨.done, ⟨0, [], false⟩, [1]⟩ ready)).port .B) =
      0x08 := by decide

/-- R172: the seventeenth byte marks the frame. -/
theorem test_param :
    ((ran (.param .B 9) (mail .B ⟨.filling, ⟨0x10, List.replicate 16 1, false⟩, []⟩ ready)).port
      .B).mailbox.frame = ⟨0x10, List.replicate 16 1, true⟩ := by decide

/-- R185. -/
theorem test_submit :
    ((ran (.submit .B 0) (mail .B ⟨.filling, ⟨0x10, [], false⟩, []⟩ ready)).port .B).mailbox.state =
      .waiting := by decide

/-- R186: the last byte leaves IDLE. -/
theorem test_resp :
    ((ran (.resp .B) (mail .B ⟨.done, ⟨0, [], false⟩, [0x42]⟩ ready)).port .B).mailbox =
      Mailbox.empty ∧
    ((ran (.resp .B) (mail .B ⟨.done, ⟨0, [], false⟩, [0x42]⟩ ready)).port .B).dataOut =
      some 0x42 := by decide

/-- R96: the second byte of a CHANGED entry is its namespace. -/
theorem test_notice :
    ((ran (.notice .B) (queue .B ⟨[.notice (.changed ⟨3, 5⟩ 7)], 1⟩ ready)).port .B).queue =
      ⟨[.notice (.changed ⟨3, 5⟩ 7)], 2⟩ ∧
    ((ran (.notice .B) (queue .B ⟨[.notice (.changed ⟨3, 5⟩ 7)], 1⟩ ready)).port .B).dataOut =
      some 3 := by decide

/-- R22: beyond the declared length. -/
theorem test_stage :
    flagsByte ((ran (.stage .B 9) (txn .B ⟨.open_, ⟨0, 5⟩, 2, .none_, 2⟩ ready)).port .B) =
      0x20 := by decide

/-- R188. -/
theorem test_flags :
    flagsByte ((ran (.flags .B 0x1F) (ready.setPort .B
      { ready.port .B with latched := ⟨true, true, true, true, true, true⟩ })).port .B) = 0xE0 := by
  decide

/-- R190, R191. -/
theorem test_portReset :
    ((ran (.portReset .B 0) ready).port .B).link = .teardown ∧
    ((ran (.portReset .B 0) ready).port .B).generation = 1 := by decide

/-- R189: bit 1 of CONTROL. -/
theorem test_interruptPolarity :
    ((ran (.interruptPolarity .B 1) ready).port .B).activeLow = true ∧
    ((ran (.interruptPolarity .B 0x7E) ready).port .B).activeLow = false := by decide

/-- R183. -/
theorem test_registerWrite :
    ((ran (.registerWrite .B 7 0xA5) ready).port .B).enable = 0xA5 := by decide

/-- R190: TEARDOWN, then its end leaves the port ABSENT. -/
theorem test_powerGoodFall :
    ((ran (.powerGoodFall .B) ready).port .B).link = .teardown ∧
    ((ran (.teardownRequest .B) (ran (.powerGoodFall .B) ready)).port .B).link = .absent := by decide

/-- R190: the data lines are high-impedance while power-good is low. -/
theorem test_dataLines :
    dataLines ready .B 14 = some 0x28 ∧ dataLines (ran (.powerGoodFall .B) ready) .B 14 = none := by
  decide

/-- R190, R192: the generation count is kept. -/
theorem test_powerGoodRise :
    ((ran (.powerGoodRise .B) (ready.setPort .B
      { ready.port .B with link := .absent, powerGood := false, generation := 4 })).port
      .B).generation = 4 ∧
    ((ran (.powerGoodRise .B) (ready.setPort .B
      { ready.port .B with link := .absent, powerGood := false, generation := 4 })).port .B).link =
      .present := by decide

/-- R49, R116. -/
theorem test_powerOnReset :
    nsEntry (ran (.powerOnReset .old uncut) ready) 2 = ⟨.undefined, 0, 0, 0⟩ := by decide

/-- R49: a device reset keeps the Namespace Table, and while RESET_N is low nothing mounts. -/
theorem test_deviceReset :
    nsEntry (ran (.deviceReset true .old uncut) ready) 2 = ⟨.frozen, 1, 0, 3⟩ ∧
    (ran (.deviceReset true .old uncut) ready).engine.job = .idle := by decide

/-- R152: an erase cut off with its state field partly 0FFH leaves a sector that reads UNINTELLIGIBLE. -/
theorem test_deviceReset_cut_erase :
    classify (sectorHeader (ran (.deviceReset true .old { uncut with mark := .partly })
      { erasing 9 with
        array := putHeader ArrayContents.unused 3 ⟨.written 6, .erased, some .draining⟩ }).array 3) =
        .unintelligible := by decide +kernel

/-- R194: the rise begins the mount. -/
theorem test_resetNRise :
    (ran .resetNRise { ready with resetLow := true }).engine.job = .mount .start := by decide

/-! ### A state for each statement's hypotheses -/

theorem all_none {α : Type} {o : Option α} {P : α → Prop} (h : o = none) :
    ∀ x, o = some x → P x := by
  intro x hx
  rw [h] at hx
  cases hx

theorem all_some {α : Type} {o : Option α} {a : α} {P : α → Prop} (h : o = some a) (ha : P a) :
    ∀ x, o = some x → P x := by
  intro x hx
  rw [h] at hx
  cases hx
  exact ha

/-- READ_ONLY. -/
def readOnly : State :=
  { ready with space := { ready.space with store := .readOnly, cause := some .noSpace } }

/-- An open transaction of port B on key 5, 20 bytes declared. -/
def opened (staged : Nat) : State := txn .B ⟨.open_, ⟨0, 5⟩, 20, .none_, staged⟩ ready

theorem witness_StepRunsTheFrontCommand :
    (front .timebaseStep ready).pending = .timebaseStep :: [] := rfl

theorem witness_EmptyQueueStepAgesARunningErase :
    (erasing 119).pending = [] ∧
    (erasing 119).ctl.erase = some ⟨.drain, 3, 119, 0, false, false⟩ ∧
    (erasing 120).ctl.erase = some ⟨.drain, 3, 120, 0, false, false⟩ ∧ ready.ctl.erase = none := by decide

theorem witness_ArrayStaysCanonical :
    (serve .engine (.programBytes 32 [1, 0xFF]) (ready.setJob (.write (write5 (.payload []))))).array.wf ∧
    ∃ t, step (front (.programComplete true ⟨.old, whole⟩ false)
      (serve .engine (.programBytes 32 [1, 0xFF])
        (ready.setJob (.write (write5 (.payload [])))))) = .next t := ⟨by decide, _, rfl⟩

theorem witness_FrozenNamespaceKeepsItsRights :
    (nsEntry ready 2).state = .frozen ∧
    (∃ t, step (front (.nsSet .A) (ask .A .nsSet [2, 1, 1, 0, 0] ready)) = .next t) ∧
    (∃ t, exec (.powerOnReset .old uncut) ready = .next t) ∧
    granted (ask .A .nsSet [2, 15, 15, 0, 8] ready) = some (.command .A) ∧
    ∃ t, step (front (.format .A) (ask .A .format [] ready)) = .next t :=
  ⟨by decide, ⟨_, rfl⟩, ⟨_, rfl⟩, by decide, _, rfl⟩

theorem witness_StagingLawIsKept :
    StagingLaw (opened 19) ∧ ∃ t, step (front (.stage .B 1) (opened 19)) = .next t :=
  ⟨forall_ports (by decide) (by decide) (by decide) (by decide), _, rfl⟩

theorem witness_NoticeQueueLawIsKept :
    QueueLaw ⟨[.notice (.changed ⟨0, 5⟩ 7)], 7⟩ ∧ QueuesLaw ready ∧
    ∃ t, step (front (.notice .B) (queue .B ⟨[.notice (.changed ⟨0, 5⟩ 7)], 7⟩ ready)) = .next t := by
  refine ⟨⟨by decide, by decide, by simp, by decide, by decide, by decide⟩, ?_, _, rfl⟩
  have h : QueueLaw NoticeQueue.empty := ⟨by decide, by decide, by simp [NoticeQueue.empty], by decide,
    by decide, by decide⟩
  exact forall_ports h h h h

theorem witness_LeaseAndWatchLawsAreKept :
    (LeaseLaw [lease5 1] ∧
      ∃ t, step (front .timebaseStep { ready with leases := [lease5 1] }) = .next t) ∧
    WatchLaw [⟨.B, 0, none⟩] ∧
    ∃ t, step (front (.watch .B) (ask .B .watch [0, 5, 0]
      { ready with watches := [⟨.B, 0, none⟩] })) = .next t :=
  ⟨⟨⟨by decide, by decide, by decide,
      forall_ports (by decide) (by decide) (by decide) (by decide)⟩, _, rfl⟩,
    ⟨by decide, by decide, forall_ports (by decide) (by decide) (by decide) (by decide)⟩, _, rfl⟩

theorem witness_IndexOrderIsKept :
    IndexOrder (index [entry5, entry6] ready).engine.index ∧
    ∃ t, step (front (.programComplete true ⟨.old, whole⟩ false)
      (serve .engine (.programState ⟨0, 1⟩ .valid)
        ((index [entry5, entry6] ready).setJob (.write (write5 .valid))))) = .next t :=
  ⟨by unfold IndexOrder; decide, _, rfl⟩

theorem witness_SpaceLimitsAreKept :
    SpaceLimits ready.space ∧
    ∃ t, step (front (.storeTune .A) (ask .A .storeTune [16] ready)) = .next t :=
  ⟨by unfold SpaceLimits; decide, _, rfl⟩

theorem witness_CountersMoveByTheirRules :
    (∃ t, step (front (.portReset .B 0) ready) = .next t) ∧ (∃ t, step (front (.allocationRequest .engine) ready) = .next t) ∧
    ¬ frontIs isReset (front (.allocationRequest .engine) ready) ∧
    ∀ j, (front (.allocationRequest .engine) ready).engine.job ≠ .mount j := by
  refine ⟨⟨_, rfl⟩, ⟨_, rfl⟩, ?_, fun j h => by cases h⟩
  rintro ⟨c, rest, h, hc⟩
  cases h
  exact absurd hc (by decide)

/-- A payload program at granule 2 of sector 0, with a VALID record at granule 1 and the byte 3 at granule 3. -/
def payload2 : State :=
  serve .engine (.programBytes 32 [1]) ((ready.setJob (.write (write5 (.payload [])))).setArray
    { ArrayContents.unused with recs := [(1, .written (header5 5 .valid))], bytes := [(48, 3)] })

theorem witness_ArrayChangesOnlyByItsOperations :
    (∃ t, step (front (.stage .B 1) (opened 19)) = .next t) ∧
    ¬ frontIs touchesArray (front (.stage .B 1) (opened 19)) ∧
    (∃ t, step (front (.programTimeout ⟨.neither [0xFF], whole⟩ false) payload2) = .next t ∧
      cellAt (48 / 16) t.array.recs = none ∧ recStateAt t.array ⟨0, 1⟩ = some .valid) ∧
    ¬ frontIs endsErase (front (.programTimeout ⟨.neither [0xFF], whole⟩ false) payload2) ∧
    ¬ frontIs isReset (front (.programTimeout ⟨.neither [0xFF], whole⟩ false) payload2) ∧
    ¬ frontIs (fun c => match c with
      | .programComplete _ _ _ => true
      | _ => false) (front (.programTimeout ⟨.neither [0xFF], whole⟩ false) payload2) ∧
    payload2.ctl.erase = none ∧ shownByte payload2.array 48 ≠ 0xFF ∧
    readGranule payload2.array 0 3 ≠ .erased := by
  refine ⟨⟨_, rfl⟩, ?_, ⟨_, rfl, by decide, by decide +kernel⟩, ?_, ?_, ?_, by decide, by decide, by decide⟩
  all_goals
    rintro ⟨c, rest, h, hc⟩
    cases h
    exact absurd hc (by decide)

/-- The SUPERSEDED program of a write's old record in sector 3, whose erase it has suspended. -/
def suspended (shown : Bool) : State :=
  { (erasing 9).setJob (.write (write5 .supersede)) with
    ctl := ⟨some ⟨.programState ⟨3, 1⟩ .superseded, true⟩, some ⟨.erase 3, true⟩,
      some ⟨.drain, 3, 9, 1, true, shown⟩⟩
    array := { ArrayContents.unused with recs := [(1537, .written (header5 4 .superseded))] } }

/-- The partial contents of a sector whose erase has done one thing to the header at its granule 1. -/
def reached (c : RecCut) : UnderErase := ⟨{ uncut with recs := [(1, c)] }, []⟩

/-- R140, R150: the record under erase was SUPERSEDED before; where the erase has reached its state field, the
program of it takes, or fails, as the cells decide. -/
theorem test_under_erase :
    let op : ArrayOp := .programState ⟨3, 1⟩ .superseded
    let m := metBy (suspended false) op (reached .torn)
    recStateAt m ⟨3, 1⟩ = none ∧ programPasses m false .old op = false ∧
      programPasses m true .old op = true ∧
      programPasses (metBy (suspended false) op whole) false .old op = true ∧
      metBy (suspended true) op (reached .torn) = (suspended true).array :=
  ⟨by decide +kernel, by decide +kernel, by decide +kernel, by decide +kernel, rfl⟩

/-- R143, R150, R152: over a header that the erase has returned to 0FFH the state field is programmed and reads so,
and a reset in that suspension leaves it standing. -/
theorem test_program_where_the_erase_has_been :
    let m := metBy (suspended false) (.programState ⟨3, 1⟩ .superseded) (reached .erased)
    readGranule m 3 1 = .erased ∧
      readGranule (programPassed m (.programState ⟨3, 1⟩ .superseded)) 3 1 = .broken ∧
      recStateAt (arrayCut { suspended true with
        array := programPassed m (.programState ⟨3, 1⟩ .superseded)
        ctl := { (suspended true).ctl with engine := none } } .old (reached .erased).cut) ⟨3, 1⟩ =
        some .superseded := by decide +kernel

/-- R141: a byte under erase may read as neither its old value nor 0FFH. -/
theorem test_neither_under_erase :
    byteAt 24592 (partlyErased ArrayContents.unused 3 ⟨uncut, [(16, 7)]⟩).bytes = 7 := by decide +kernel

/-- A program into a sector under erase, before and after another; a payload of 0FFH asked of a header
granule; a record SUPERSEDED with VALID asked for, SUPERSEDED again, and ALLOCATED with VALID asked for; and a sector mark FULL with ACTIVE, FULL, DRAINING and RETIRED asked for. -/
theorem witness_ProgramOutcomesFollowTheReadBack :
    (serve .engine (.programState ⟨0, 1⟩ .valid) ready).ctl.serving =
      some (.engine, .programState ⟨0, 1⟩ .valid) ∧
    isProgram (.programState ⟨0, 1⟩ .valid) = true ∧
    (suspended false).ctl.serving = some (.engine, .programState ⟨3, 1⟩ .superseded) ∧
    (suspended false).ctl.erase = some ⟨.drain, 3, 9, 1, true, false⟩ ∧
    (suspended true).ctl.erase = some ⟨.drain, 3, 9, 1, true, true⟩ ∧
    opSector (.programState ⟨3, 1⟩ .superseded) = (3 : Sector).val ∧
    opSector (.programState ⟨0, 1⟩ .valid) ≠ (3 : Sector).val ∧
    (cellAt 1 payload2.array.recs).isSome = true ∧ 16 / 16 ≤ 1 ∧ 1 * 16 < 16 + 16 ∧
    List.replicate 16 (0xFF : Byte) ≠ [] ∧
    recStateAt { ArrayContents.unused with recs := [(1, .written (header5 5 .superseded))] } ⟨0, 1⟩ =
      some .superseded ∧
    recStateAt { ArrayContents.unused with recs := [(1, .written (header5 5 .allocated))] } ⟨0, 1⟩ =
      some .allocated ∧
    recRank .valid < recRank .superseded ∧ recRank .allocated < recRank .valid ∧
    (header5 5 .allocated).state = some .allocated ∧ RecState.superseded ≠ .allocated ∧
    recStateAt ArrayContents.unused ⟨0, 1⟩ = none ∧
    (sectorHeader (putHeader ArrayContents.unused 3 ⟨.written 6, .erased, some .full⟩) 3).mark =
      some .full ∧
    SectorMark.active ≠ .full ∧ SectorMark.active ∉ [SectorMark.discarded, .retired] ∧
    markRank .active ≤ markRank .full ∧ markRank .full < markRank .draining ∧
    SectorMark.retired ∈ [SectorMark.discarded, .retired] := by decide +kernel

theorem witness_NothingIsGrantedWhileTheEngineIsHeld :
    (ready.setJob .relocate).engine.job ≠ .idle ∧ State.reset.space.store = .mounting ∧
    { ready.space with store := StoreState.formatting }.store = .formatting ∧
    { ready with resetLow := true }.resetLow = true := by decide

theorem witness_ArbitersChooseInOrder_engine :
    engineFree (link .C .teardown ready) = true ∧
    ((link .C .teardown ready).port .C).link = .teardown ∧
    (∀ q, portNumber q < portNumber .C → ((link .C .teardown ready).port q).link ≠ .teardown) ∧
    engineFree ready = true ∧ (∀ q, (ready.port q).link ≠ .teardown) ∧
    ready.drain.request = none ∧ (∀ q, (ready.port q).mailbox.state ≠ .waiting) ∧
    ((ask .D .probe [] ready).port .D).mailbox.state = .waiting ∧
    (∀ q, (portNumber q + 4 - portNumber ready.engine.pointer) % 4 <
        (portNumber .D + 4 - portNumber ready.engine.pointer) % 4 →
      ((ask .D .probe [] ready).port q).mailbox.state ≠ .waiting) ∧
    { Drain.atReset with request := some (.purge ⟨0, 6⟩ ⟨0, 4⟩) }.request ≠ none :=
  ⟨by decide, by decide,
    forall_ports (by decide) (by decide) (by decide) (by decide), by decide,
    forall_ports (by decide) (by decide) (by decide) (by decide), by decide,
    forall_ports (by decide) (by decide) (by decide) (by decide), by decide,
    forall_ports (by decide) (by decide) (by decide) (by decide), by decide⟩

/-- A controller in each of the cases: free with both waiting; free with the drain waiting; an erase at 63
suspensions and 119 ms, at 64 suspensions, and at 120 ms, with a READ waiting; suspended with a READ
waiting; with nothing waiting. -/
theorem witness_ArbitersChooseInOrder_array :
    Controller.serving ⟨some ⟨.read 0 0 1, false⟩, some ⟨.erase 3, false⟩, none⟩ = none ∧
    Controller.serving ⟨none, some ⟨.erase 3, false⟩, none⟩ = none ∧
    Controller.serving ⟨some ⟨.read 0 0 1, false⟩, some ⟨.erase 3, true⟩,
      some ⟨.drain, 3, 119, 63, false, false⟩⟩ = none ∧
    Controller.serving ⟨some ⟨.read 0 0 1, false⟩, some ⟨.erase 3, true⟩,
      some ⟨.drain, 3, 120, 63, false, false⟩⟩ = none ∧
    Controller.serving ⟨some ⟨.read 0 0 1, false⟩, some ⟨.erase 3, true⟩,
      some ⟨.drain, 3, 9, 64, false, false⟩⟩ = none ∧
    Controller.serving ⟨some ⟨.read 0 0 1, false⟩, some ⟨.erase 3, true⟩,
      some ⟨.drain, 3, 9, 64, true, false⟩⟩ = none ∧
    Controller.serving ⟨none, some ⟨.erase 3, true⟩, some ⟨.drain, 3, 9, 64, true, false⟩⟩ = none ∧
    isErase (.read 0 0 1) = false ∧ waitsIn true (some ⟨.erase 3, true⟩) = false := by decide

theorem witness_FirstThreeFrameChecks :
    granted (mail .B ⟨.waiting, ⟨0x13, [], false⟩, []⟩ ready) = some (.command .B) ∧
    codeOf 0x13 = none ∧
    granted (mail .B ⟨.waiting, ⟨0x50, [], true⟩, []⟩ ready) = some (.command .B) ∧
    codeOf 0x50 = some .storeQuery ∧ ([1] : List Byte).length ≠ paramCount .storeQuery ∧
    granted (ask .B .storeTune [16] ready) = some (.command .B) ∧
    supervisorOnly .storeTune = true ∧ Port.B ≠ .A := by decide

/-- For each command with a range, a frame of its length at the first value out of range. -/
theorem witness_ParametersOutOfRangeAreRefused :
    (∀ x ∈ ([(.fetch, [8, 0, 0, 0, 0, 1]), (.fetch, [7, 0, 0x10, 0, 0, 1]),
        (.fetch, [7, 0xFF, 0x0F, 1, 4, 240]), (.fetch, [0, 5, 0, 0, 4, 241]),
        (.fetch, [0, 5, 0, 0, 4, 0]), (.probe, [0, 0, 0x10]), (.scan, [0, 0, 0x10, 1]),
        (.scan, [0, 0xFF, 0x0F, 41]), (.scan, [0, 0, 0, 0]),
        (.putOpen, [0, 5, 0, 1, 4, 0, 0, 0, 0, 0]), (.putOpen, [0, 5, 0, 0, 4, 3, 0, 0, 0, 0]),
        (.putOpen, [0, 5, 0, 0, 4, 2, 0, 0, 0, 0]), (.remove, [0, 5, 0, 1, 1, 0, 0, 0]),
        (.remove, [0, 5, 0, 3, 1, 0, 0, 0]), (.remove, [0, 5, 0, 2, 0, 0, 0, 0]),
        (.leaseTake, [0, 5, 0, 0, 0, 0]), (.leaseTake, [0, 5, 0, 1, 0, 2]),
        (.leaseRenew, [0, 5, 0, 0, 0]), (.leaseDrop, [8, 5, 0]), (.watch, [0, 0, 0x10]),
        (.unwatch, [0, 0xFE, 0xFF]), (.storeTune, [2]), (.storeTune, [17]), (.nsSet, [8, 0, 0, 0, 0]),
        (.nsSet, [0, 16, 0, 0, 0]), (.nsSet, [0, 0, 16, 0, 0]), (.nsSet, [0, 0, 0, 1, 8]),
        (.nsFreeze, [8])] : List (Code × List Byte)),
      OutOfRange x.1 x.2 ∧ x.2.length = paramCount x.1) ∧
    FrameGranted (ask .A .nsSet [0, 0, 0, 1, 8] ready) .A .nsSet [0, 0, 0, 1, 8] ∧
    (supervisorOnly .nsSet = true → Port.A = .A) := by
  unfold FrameGranted
  simp only [List.forall_mem_cons, List.not_mem_nil, false_imp_iff, implies_true, OutOfRange]
  repeat' apply And.intro
  all_goals decide

theorem witness_ReadOnlyStoreRefusesWrites :
    readOnly.space.store = .readOnly ∧ (readOnly.port .B).txn.state = .none_ ∧
    FrameGranted (ask .B .putOpen [0, 5, 0, 0, 4, 1, 0, 0, 0, 0] readOnly) .B .putOpen
      (keyBytes ⟨0, 5⟩ ++ le16 1024 ++ [1] ++ le32 (0 : Word32).toNat) ∧
    FrameGranted (ask .B .putOpen [0, 5, 0, 0, 0, 2, 1, 0, 0, 0] readOnly) .B .putOpen
      (keyBytes ⟨0, 5⟩ ++ le16 0 ++ [2] ++ le32 (1 : Word32).toNat) ∧
    FrameGranted (ask .B .putCommit [] (txn .B ⟨.open_, ⟨0, 5⟩, 20, .none_, 20⟩ readOnly)) .B
      .putCommit [] ∧
    FrameGranted (ask .B .remove [0, 5, 0, 2, 1, 0, 0, 0] readOnly) .B .remove
      (keyBytes ⟨0, 5⟩ ++ [2] ++ le32 (1 : Word32).toNat) ∧
    FrameGranted (ask .A .reclaim [] readOnly) .A .reclaim [] := by
  unfold FrameGranted
  decide

theorem witness_NamespaceChecksRefuse :
    (∀ x ∈ ([(.fetch, [1, 5, 0, 0, 4, 240]), (.probe, [1, 5, 0]), (.scan, [1, 0xFF, 0x0F, 40]),
        (.watch, [1, 0xFF, 0xFF]), (.unwatch, [1, 0xFF, 0xFF]), (.leaseTake, [1, 5, 0, 1, 0, 1]),
        (.leaseRenew, [1, 5, 0, 1, 0]), (.leaseDrop, [1, 5, 0]),
        (.putOpen, [1, 5, 0, 0, 4, 2, 1, 0, 0, 0]), (.remove, [1, 5, 0, 0, 0, 0, 0, 0]),
        (.putCommit, [])] : List (Code × List Byte)),
      ¬ OutOfRange x.1 x.2 ∧ x.2.length = paramCount x.1) ∧
    FrameGranted (ask .B .watch [1, 0xFF, 0xFF] ready) .B .watch [1, 0xFF, 0xFF] ∧
    (nsEntry ready 1).state = .undefined ∧ ready.space.store = .ready ∧
    (ready.port .B).txn.state = .none_ ∧
    FrameGranted (ask .B .putOpen [2, 5, 0, 0, 4, 2, 1, 0, 0, 0] ready) .B .putOpen
      [2, 5, 0, 0, 4, 2, 1, 0, 0, 0] ∧
    FrameGranted (ask .B .putCommit [] (txn .B ⟨.open_, ⟨2, 5⟩, 20, .none_, 20⟩ ready)) .B
      .putCommit [] ∧
    (nsEntry ready 2).state ≠ .undefined ∧ hasPort (nsEntry ready 2).readers .B = false ∧
    hasPort (nsEntry ready 2).writers .B = false := by
  unfold FrameGranted
  simp only [List.forall_mem_cons, List.not_mem_nil, false_imp_iff, implies_true, OutOfRange]
  repeat' apply And.intro
  all_goals decide

theorem witness_HostAccessIsLocalToItsPort :
    isWriteAt .B (.cmd .B 0) = true ∧ isReadAt .B (.resp .B) = true ∧
    isEdgeAt .B (.powerGoodFall .B) = true ∧ busTaken ready .B = true ∧
    busTaken (link .B .absent ready) .B = false ∧ busTaken { ready with resetLow := true } .B = false := by
  decide

theorem witness_CmdParamAndSubmitBuildTheFrame_cmd :
    busTaken ready .B = true ∧ (ready.port .B).link = .present ∧
    (ready.port .B).mailbox.state = .idle ∧
    busTaken (link .B .teardown ready) .B = true ∧
    ((link .B .teardown ready).port .B).link = .teardown ∧
    ((ask .B .probe [] ready).port .B).mailbox.state = .waiting ∧
    ((mail .B ⟨.done, ⟨0, [], false⟩, [1]⟩ ready).port .B).mailbox.state = .done := by decide

theorem witness_CmdParamAndSubmitBuildTheFrame_param :
    busTaken ready .B = true ∧ (ready.port .B).link = .present ∧
    ((mail .B ⟨.filling, ⟨0x10, List.replicate 15 1, false⟩, []⟩ ready).port .B).mailbox.state =
      .filling ∧
    (List.replicate 15 (1 : Byte)).length < 16 ∧ 16 ≤ (List.replicate 16 (1 : Byte)).length ∧
    (ready.port .B).mailbox.state ≠ .filling ∧
    ((link .B .teardown ready).port .B).link = .teardown := by decide

theorem witness_StageByteIsPlacedOrDropped :
    busTaken (opened 19) .B = true ∧ ((opened 19).port .B).txn.state = .open_ ∧
    ((opened 19).port .B).txn.staged < ((opened 19).port .B).txn.length ∧
    ((opened 19).port .B).txn.length ≤ 1024 ∧
    ((opened 20).port .B).txn.length ≤ ((opened 20).port .B).txn.staged ∧
    (ready.port .B).txn.state ≠ .open_ := by decide

theorem witness_RespAndNoticeReadsTakeOneByte_resp :
    busTaken ready .B = true ∧
    ((mail .B ⟨.done, ⟨0, [], false⟩, [1, 2]⟩ ready).port .B).mailbox.response = 1 :: 2 :: [] ∧
    ((mail .B ⟨.done, ⟨0, [], false⟩, [1]⟩ ready).port .B).mailbox.response = [1] ∧
    ((mail .B ⟨.done, ⟨0, [], false⟩, [1]⟩ ready).port .B).mailbox.state = .done ∧
    (ready.port .B).mailbox.state ≠ .done := by decide

theorem witness_RespAndNoticeReadsTakeOneByte_notice :
    busTaken ready .B = true ∧ (ready.port .B).queue.entries = [] ∧
    ((queue .B ⟨[.overflow 255], 6⟩ ready).port .B).queue.entries = .overflow 255 :: [] ∧
    ((queue .B ⟨[.overflow 255], 6⟩ ready).port .B).queue.taken < 7 ∧
    ((queue .B ⟨[.overflow 255], 7⟩ ready).port .B).queue.taken = 7 := by decide

/-- A port in TEARDOWN with power and without; RESPONSE_READY enabled and set, and set alone. -/
theorem witness_FlagsEnableAndTheInterruptLine :
    busTaken ready .B = true ∧ ((link .B .absent ready).port .B).link = .absent ∧
    ((ran (.powerGoodFall .B) ready).port .B).link = .teardown ∧
    ((ran (.powerGoodFall .B) ready).port .B).powerGood = false ∧
    ((ran (.portReset .B 0) ready).port .B).link = .teardown ∧
    ((ran (.portReset .B 0) ready).port .B).powerGood = true ∧ (ready.port .B).link = .present ∧
    (flagsByte ((mail .B ⟨.done, ⟨0, [], false⟩, [1]⟩ ready).port .B)).getLsbD 0 = true ∧
    (ready.port .B).enable.getLsbD 0 = false ∧
    ((ran (.registerWrite .B 7 1) ready).port .B).enable.getLsbD 0 = true := by decide

theorem witness_ControlWriteResetsOrSetsPolarity :
    busTaken ready .B = true ∧ (ready.port .B).link = .present ∧
    busTaken (link .B .teardown ready) .B = true ∧
    ((link .B .teardown ready).port .B).link = .teardown := by decide

theorem witness_WindowReadsByTheTable :
    ready.resetLow = false ∧ (ready.port .B).powerGood = true ∧ (ready.port .B).link ≠ .absent ∧
    ((ran (.powerGoodFall .B) ready).port .B).powerGood = false ∧
    ((mail .B ⟨.done, ⟨0, [], false⟩, [1]⟩ ready).port .B).mailbox.response = 1 :: [] ∧
    (ready.port .B).mailbox.state ≠ .done ∧ (ready.port .B).queue.entries = [] ∧
    ((queue .B ⟨[.overflow 255], 7⟩ ready).port .B).queue.entries = .overflow 255 :: [] ∧
    busTaken ready .B = true ∧
    (3 : Fin 16) ∈ ([3, 4, 5, 9, 10, 11, 12, 14, 15] : List (Fin 16)) := by
  decide

theorem witness_PowerGoodEdgesMoveTheLink :
    ready.resetLow = false ∧ (ready.port .B).link = .present ∧
    ((link .B .teardown ready).port .B).link ≠ .present ∧
    ((link .B .absent ready).port .B).link = .absent := by decide

theorem witness_NoticePlacementFollowsTheFourCases :
    changeKey (.changed ⟨0, 5⟩ 7) = some ⟨0, 5⟩ ∧
    (unopened ⟨[.notice (.deleted ⟨0, 5⟩ 6)], 0⟩).any (coalescesAt ⟨0, 5⟩) = true ∧
    coalesces ⟨[.notice (.deleted ⟨0, 5⟩ 6)], 1⟩ (.changed ⟨0, 5⟩ 7) = false ∧
    coalesces ⟨List.replicate 14 (.notice (.granted ⟨0, 5⟩)), 0⟩ (.granted ⟨0, 5⟩) = false ∧
    coalesces ⟨List.replicate 15 (.notice (.granted ⟨0, 5⟩)), 0⟩ (.granted ⟨0, 5⟩) = false ∧
    coalesces ⟨List.replicate 15 (.notice (.granted ⟨0, 5⟩)) ++ [.overflow 255], 0⟩
      (.granted ⟨0, 5⟩) = false ∧
    changeKey (.lost ⟨0, 5⟩) = none ∧ (ready.port .B).link = .present ∧
    ((link .B .teardown ready).port .B).link ≠ .present := by decide

/-- FETCH of 240 bytes at offset 20 of 20, at offset 21, and of a DELETED and an ABSENT key. -/
theorem witness_FetchReadsTheWholeRecord :
    FrameGranted (ask .B .fetch [0, 5, 0, 20, 0, 240] (index [entry5] ready)) .B .fetch
      (keyBytes ⟨0, 5⟩ ++ le16 20 ++ [byteOf 240]) ∧
    FrameGranted (ask .B .fetch [0, 5, 0, 21, 0, 1] (index [entry5] ready)) .B .fetch
      (keyBytes ⟨0, 5⟩ ++ le16 21 ++ [byteOf 1]) ∧
    (nsEntry ready 0).state ≠ .undefined ∧ hasPort (nsEntry ready 0).readers .B = true ∧
    entryOf ⟨0, 5⟩ (index [entry5] ready).engine.index = some entry5 ∧
    entry5.presence = .present ∧ 20 ≤ entry5.length ∧ entry5.length < 21 ∧
    (∀ e, entryOf ⟨0, 5⟩ ready.engine.index = some e → e.presence = .deleted) ∧
    ∀ e, entryOf ⟨0, 6⟩ (index [entry6] ready).engine.index = some e → e.presence = .deleted := by
  unfold FrameGranted
  refine ⟨by decide, by decide, by decide, by decide, by decide, by decide, by decide, by decide,
    all_none (by decide), all_some (a := entry6) (by decide) rfl⟩

/-- A FETCH of key 5 whose record stands at its place. -/
def fetching (c : RecCell) : State :=
  { serve .engine (.read 0 1 3) (ready.setJob (.fetch ⟨.B, 0, entry5, 0, 20⟩)) with
    array := { ArrayContents.unused with recs := [(1, c)] } }

/-- A granule whose cell holds a header with fields in range and its check computed. -/
theorem read_header {a : ArrayContents} {i : Sector} {g : Nat} {h : RecHeader}
    (hc : cellAt (granuleNumber i g) a.recs = some (.written h)) (hr : headerInRange h = true)
    (hh : h.headerCheck = Config.headerCheck h.key h.kind h.version h.length h.check) :
    readGranule a i g = .header h := by
  simp [readGranule, hc, headerIntact, headerChecks, hr, hh]

theorem witness_FetchAnswersWhatItRead :
    (fetching (.broken none)).ctl.serving = some (.engine, .read 0 1 3) ∧
    (fetching (.broken none)).ctl.erase = none ∧
    (fetching (.broken none)).engine.job = .fetch ⟨.B, 0, entry5, 0, 20⟩ ∧
    ((fetching (.broken none)).port .B).generation = 0 ∧
    readGranule (fetching (.broken none)).array 0 1 = .broken ∧
    ∃ h, readGranule (fetching (.written h)).array 0 1 = .header h ∧ h.key = entry5.key ∧
      h.version = entry5.version ∧
      Config.payloadCheck (readPayload (fetching (.written h)).array ⟨0, 1⟩ 20) = h.check :=
  ⟨by decide, by decide, by decide, by decide, by decide,
    checkedHeader ⟨0, 5⟩ .data 7 20
      (Config.payloadCheck (readPayload (fetching (.broken none)).array ⟨0, 1⟩ 20)) .valid,
    read_header (by simp [fetching, cellAt, granuleNumber]) (by simp [headerInRange, checkedHeader]) rfl, rfl, rfl, rfl⟩

theorem witness_ProbeReportsKeyAndLease :
    FrameGranted (ask .B .probe [0, 5, 0] ready) .B .probe (keyBytes ⟨0, 5⟩) ∧
    (nsEntry ready 0).state ≠ .undefined ∧ hasPort (nsEntry ready 0).readers .B = true ∧
    entryOf ⟨0, 5⟩ [entry5] = some entry5 ∧ entryOf ⟨0, 6⟩ [entry5, entry6] = some entry6 ∧
    entryOf ⟨0, 5⟩ [] = none ∧ leaseOn ⟨0, 5⟩ [lease5 9] = some (lease5 9) ∧
    leaseOn ⟨0, 5⟩ [] = none := by
  unfold FrameGranted
  decide

theorem witness_ScanListsPresentKeys :
    FrameGranted (ask .B .scan [0, 0xFF, 0x0F, 40] (index [entry5] ready)) .B .scan
      (byteOf (0 : Fin 8).val :: le16 4095 ++ [byteOf 40]) ∧
    FrameGranted (ask .B .scan [0, 0, 0, 1] (index [entry5] ready)) .B .scan
      (byteOf (0 : Fin 8).val :: le16 0 ++ [byteOf 1]) ∧
    (nsEntry ready 0).state ≠ .undefined ∧ hasPort (nsEntry ready 0).readers .B = true := by
  unfold FrameGranted
  decide

theorem witness_PutOpenOpensAndPutCancelCloses_open :
    FrameGranted (ask .B .putOpen [0, 5, 0, 0, 4, 2, 7, 0, 0, 0] (index [entry5] ready)) .B .putOpen
      (keyBytes ⟨0, 5⟩ ++ le16 1024 ++ [2] ++ le32 (7 : Word32).toNat) ∧
    FrameGranted (ask .B .putOpen [0, 5, 0, 0, 0, 1, 0, 0, 0, 0] (opened 0)) .B .putOpen
      (keyBytes ⟨0, 5⟩ ++ le16 0 ++ [1] ++ le32 (0 : Word32).toNat) ∧
    ((opened 0).port .B).txn.state ≠ .none_ ∧ (ready.port .B).txn.state = .none_ ∧
    ready.space.store = .ready ∧ (nsEntry ready 0).state ≠ .undefined ∧
    hasPort (nsEntry ready 0).writers .B = true ∧
    leaseOn ⟨0, 5⟩ [lease5 9] = some (lease5 9) ∧ (lease5 9).holder = .B ∧
    entryOf ⟨0, 5⟩ (index [entry5] ready).engine.index = some entry5 ∧
    entry5.presence = .present ∧ entry5.version = 7 ∧ (7 : Word32) ≠ 0 ∧
    (∀ e, entryOf ⟨0, 5⟩ ready.engine.index = some e → e.presence = .deleted) ∧
    ∀ l, leaseOn ⟨0, 5⟩ ready.leases = some l → l.holder = .B := by
  unfold FrameGranted
  refine ⟨by decide, by decide, by decide, by decide, by decide, by decide, by decide, by decide,
    by decide, by decide, by decide, by decide, by decide, all_none (by decide), all_none (by decide)⟩

/-- A commit at each check: no transaction; READ_ONLY; an UNDEFINED namespace; without write right; short;
held by another; each failing condition; the quota reached; the index full; and all passed. -/
theorem witness_PutCommitChecksInOrder :
    FrameGranted (ask .B .putCommit [] (opened 20)) .B .putCommit [] ∧
    FrameGranted (ask .B .putCommit [] ready) .B .putCommit [] ∧
    (ready.port .B).txn.state ≠ .open_ ∧ readOnly.space.store = .readOnly ∧
    ((opened 20).port .B).txn.state = .open_ ∧ (opened 20).space.store = .ready ∧
    (nsEntry ready 1).state = .undefined ∧ (nsEntry ready 2).state ≠ .undefined ∧
    hasPort (nsEntry ready 2).writers .B = false ∧
    (nsEntry ready 0).state ≠ .undefined ∧ hasPort (nsEntry ready 0).writers .B = true ∧
    ((opened 20).port .B).txn.staged = ((opened 20).port .B).txn.length ∧
    ((opened 19).port .B).txn.staged ≠ ((opened 19).port .B).txn.length ∧
    leaseOn ⟨0, 5⟩ [lease5 9] = some (lease5 9) ∧ (lease5 9).holder ≠ .C ∧
    (∀ l, leaseOn ⟨0, 5⟩ (opened 20).leases = some l → l.holder = .B) ∧
    ((opened 20).port .B).txn.cond = .none_ ∧
    entryOf ⟨0, 5⟩ (index [entry5] ready).engine.index = some entry5 ∧
    entry5.presence = .present ∧ entry5.version ≠ 6 ∧ entry6.presence = .deleted ∧
    presentIn 0 (opened 20).engine.index < (nsEntry ready 0).quota ∧
    (opened 20).engine.index.length < 2048 ∧
    (nsEntry ready 1).quota ≤ presentIn 1 ready.engine.index ∧
    (List.replicate 2048 entry6).length ≥ 2048 := by
  unfold FrameGranted
  refine ⟨by decide, by decide, by decide, by decide, by decide, by decide, by decide, by decide,
    by decide, by decide, by decide, by decide, by decide, by decide, by decide,
    all_none (by decide), by decide, by decide, by decide, by decide, by decide, by decide,
    by decide, by decide, le_of_eq List.length_replicate.symm⟩

theorem witness_PutOpenOpensAndPutCancelCloses_cancel :
    FrameGranted (ask .B .putCancel [] (opened 9)) .B .putCancel [] ∧
    ((opened 9).port .B).txn.state = .open_ ∧
    FrameGranted (ask .B .putCancel [] ready) .B .putCancel [] ∧
    (ready.port .B).txn.state = .none_ := by
  unfold FrameGranted
  decide

theorem witness_RemoveAsksForOneGranule :
    FrameGranted (ask .B .remove [0, 5, 0, 2, 7, 0, 0, 0] (index [entry5] ready)) .B .remove
      (keyBytes ⟨0, 5⟩ ++ [2] ++ le32 (7 : Word32).toNat) ∧
    FrameGranted (ask .B .remove [0, 6, 0, 0, 0, 0, 0, 0] (index [entry6] ready)) .B .remove
      (keyBytes ⟨0, 6⟩ ++ [0] ++ le32 (0 : Word32).toNat) ∧
    ready.space.store = .ready ∧ (nsEntry ready 0).state ≠ .undefined ∧
    hasPort (nsEntry ready 0).writers .B = true ∧
    leaseOn ⟨0, 5⟩ [lease5 9] = some (lease5 9) ∧ (lease5 9).holder ≠ .C ∧
    (∀ l, leaseOn ⟨0, 5⟩ ready.leases = some l → l.holder = .B) ∧
    (∀ e, entryOf ⟨0, 6⟩ (index [entry6] ready).engine.index = some e → e.presence = .deleted) ∧
    entryOf ⟨0, 5⟩ (index [entry5] ready).engine.index = some entry5 ∧
    entry5.presence = .present ∧ entry5.version = 7 ∧ entry5.version ≠ 6 := by
  unfold FrameGranted
  refine ⟨by decide, by decide, by decide, by decide, by decide, by decide, by decide, all_none (by decide),
    all_some (a := entry6) (by decide) rfl, by decide, by decide, by decide, by decide⟩

/-- A write of key 5 that asks for room, 3 granules, in a sector with a write pointer and with a pool. -/
def asking (pointer pool : Nat) : State :=
  { (store pointer (pool + 1) [(0, ⟨.active, 1, some 1, pointer, 0, pointer⟩)]).setJob
      (.write (write5 .room)) with
    space := { (store pointer (pool + 1) [(0, ⟨.active, 1, some 1, pointer, 0, pointer⟩)]).space with
      allocEngine := some ⟨3, .commit⟩, allocDrain := some ⟨3, .drain⟩ } }

/-- The same with a drain copy of key 5 in hand, and with the last version not yet taken. -/
def askingCopy : State :=
  { asking 508 2 with
    engine := { (asking 508 2).engine with counter := lastWord }
    drain := { (asking 508 2).drain with
      copy := some ⟨⟨0, 5⟩, .data, 5, 20, 0, ⟨5, 1⟩, [], none, 1⟩ } }

theorem witness_AllocationGivesThePlaceAboveThePointer :
    askingCopy.space.activation = none ∧ askingCopy.space.activeSector = some 0 ∧
    (askingCopy.space.rec_ 0).pointer + 3 ≤ 511 ∧ askingCopy.space.store = .ready ∧
    askingCopy.space.allocEngine = some ⟨3, .commit⟩ ∧
    askingCopy.engine.job = .write (write5 .room) ∧ askingCopy.engine.counter = lastWord ∧
    askingCopy.space.allocDrain = some ⟨3, .drain⟩ ∧
    askingCopy.drain.copy = some ⟨⟨0, 5⟩, .data, 5, 20, 0, ⟨5, 1⟩, [], none, 1⟩ ∧
    (asking 508 2).space.activation = none ∧ (asking 508 2).space.activeSector = some 0 ∧
    (asking 508 2).space.allocEngine = some ⟨3, .commit⟩ ∧
    (asking 508 2).engine.job = .write (write5 .room) ∧
    ((asking 508 2).space.rec_ 0).pointer + 3 ≤ 511 ∧ (asking 508 2).engine.counter ≠ lastWord ∧
    (asking 508 2).space.allocDrain = some ⟨3, .drain⟩ := by decide +kernel

/-- A request of 3 granules above write pointer 509, with a pool of 3 and of 2 ERASED sectors. -/
theorem witness_ActivationTakesTheLeastErasedSector :
    (asking 509 3).space.activation = none ∧
    (asking 509 3).space.alloc .engine = some ⟨3, .commit⟩ ∧
    (asking 509 3).space.alloc .drain = some ⟨3, .drain⟩ ∧
    (asking 509 3).space.activeSector = some 0 ∧
    511 < ((asking 509 3).space.rec_ 0).pointer + 3 ∧
    (asking 509 3).space.actSpent = false ∧ 3 ≤ (asking 509 3).space.pool.length ∧
    (asking 509 2).space.pool.length < 3 ∧ (asking 509 0).space.pool.length < 1 ∧
    (asking 509 2).engine.job = .write (write5 .room) ∧
    ((asking 509 2).port .B).generation = (write5 .room).gen := by decide +kernel

/-- An activation of sector 1 for a commit's request of 3 granules, in a phase, with one of its programs. -/
def activating (ph : ActivationPhase) (op : ArrayOp) : State :=
  serve .engine op { asking 509 3 with
    space := { (asking 509 3).space with
      activation := some ⟨.request .engine, 1, ⟨2, 5, 1⟩, ph⟩ } }

theorem witness_ActivationProgramsEnd :
    (activating .program (.programActivation 1 ⟨2, 5, 1⟩)).ctl.serving =
      some (.engine, .programActivation 1 ⟨2, 5, 1⟩) ∧
    isProgram (.programActivation 1 ⟨2, 5, 1⟩) = true ∧
    activationRequester (.request .engine) = .engine ∧
    programPasses (metBy (activating .program (.programActivation 1 ⟨2, 5, 1⟩))
      (.programActivation 1 ⟨2, 5, 1⟩) whole) true .old (.programActivation 1 ⟨2, 5, 1⟩) = true ∧
    ((activating .program (.programActivation 1 ⟨2, 5, 1⟩)).space.rec_ 1).state = .erased ∧
    ((activating .program (.programActivation 1 ⟨2, 5, 1⟩)).space.rec_ 1).pointer = 0 ∧
    (activating .program (.programActivation 1 ⟨2, 5, 1⟩)).space.activeSector = some 0 ∧
    (activating .close (.programMark 0 .full)).ctl.serving = some (.engine, .programMark 0 .full) ∧
    (activating .close (.programMark 0 .full)).space.allocEngine = some ⟨3, .commit⟩ ∧
    (activating .close (.programMark 0 .full)).engine.job = .write (write5 .room) ∧
    (activating .retire (.programMark 1 .retired)).space.alloc .engine = some ⟨3, .commit⟩ ∧
    3 ≤ ((activating .retire (.programMark 1 .retired)).space.sectorsIn .erased).length ∧
    (activating .retire (.programMark 1 .retired)).space.actSpent = false := by decide +kernel

/-- The VALID program of a write in service. -/
def validating (ix : List IndexEntry) : State :=
  { serve .engine (.programState ⟨0, 1⟩ .valid) ((index ix ready).setJob (.write (write5 .valid))) with
    array := { ArrayContents.unused with
      recs := [(1, .written (header5 5 .allocated))] } }

theorem witness_ValidProgramMakesTheRecordCurrent :
    (validating []).ctl.serving = some (.engine, .programState (write5 .valid).place .valid) ∧
    NoActivationFor .engine (validating []) ∧
    (validating []).engine.job = .write (write5 .valid) ∧ (write5 .valid).phase = .valid ∧
    recStateAt (metBy (validating []) (.programState (write5 .valid).place .valid) whole) ⟨0, 1⟩ =
      some .allocated ∧
    entryOf ⟨0, 5⟩ (validating []).engine.index = none ∧
    entryOf ⟨0, 5⟩ (validating [entry5]).engine.index = some entry5 := by
  refine ⟨by decide, fun a h => ?_, by decide, by decide, by decide, by decide, by decide⟩
  cases h

theorem witness_FailedProgramRetiresTheSector :
    (validating []).ctl.serving = some (.engine, .programState ⟨0, 1⟩ .valid) ∧
    programPasses (metBy (validating []) (.programState ⟨0, 1⟩ .valid) whole) false .old
      (.programState ⟨0, 1⟩ .valid) = false ∧
    isProgram (.programState ⟨0, 1⟩ .valid) = true ∧ NoActivationFor .engine (validating []) ∧
    (validating []).engine.job = .write (write5 .valid) ∧ (write5 .valid).phase = .valid ∧
    (write5 .valid).place.sector = 0 ∧ ((validating []).space.rec_ 0).state ≠ .retired ∧
    (validating []).space.store = .ready ∧ (validating []).space.retiredCount + 1 < 8 := by
  refine ⟨by decide, by decide, by decide, fun a h => ?_, by decide, by decide, by decide, by decide, by decide,
    by decide +kernel⟩
  cases h

/-- Just below the limit, a blank check that passes and one that fails; and at the limit. -/
theorem witness_VictimEraseEnds :
    (erasing 119).ctl.erase = some ⟨.drain, 3, 119, 0, false, false⟩ ∧
    (erasing 120).ctl.erase = some ⟨.drain, 3, 120, 0, false, false⟩ ∧
    (erasing 119).drain.phase = .erase ∧ (erasing 119).drain.sector = some 3 ∧
    abandoning (erasing 119) = false ∧ ((erasing 119).space.rec_ 3).state ≠ .retired ∧
    erasePasses (erasing 119).array true ⟨.blank, [], []⟩ 3 = true ∧
    erasePasses (erasing 119).array false ⟨.blank, [], [(16, 0)]⟩ 3 = false ∧
    (⟨.bad, .erased, some .erased⟩ : SectorHeader) ≠ SectorHeader.blank := by decide +kernel

theorem witness_TimebaseCountsDownAndExpires :
    { ready with leases := [lease5 1] }.leases = [] ++ lease5 1 :: [] ∧ (lease5 1).remaining = 1 ∧
    ∀ m ∈ ([] : List Lease) ++ [], m.key ≠ (lease5 1).key := by decide

theorem witness_LeaseTakeByHolderAndLimits :
    FrameGranted (ask .D .leaseTake [0, 5, 0, 0xFF, 0xFF, 1] ready) .D .leaseTake
      (keyBytes ⟨0, 5⟩ ++ le16 65535 ++ [byteOf 1]) ∧
    FrameGranted (ask .D .leaseTake [0, 5, 0, 1, 0, 0] { ready with leases := [lease5 9] }) .D
      .leaseTake (keyBytes ⟨0, 5⟩ ++ le16 1 ++ [byteOf 0]) ∧
    (nsEntry ready 0).state ≠ .undefined ∧ hasPort (nsEntry ready 0).writers .D = true ∧
    leaseOn ⟨0, 5⟩ ready.leases = none ∧ ready.leases.length < 32 ∧
    holdCount .D ready.leases < 8 ∧
    leaseOn ⟨0, 5⟩ [lease5 9] = some (lease5 9) ∧ (lease5 9).holder ≠ .D ∧
    Port.D ∉ (lease5 9).waiters.map Waiter.port ∧ (lease5 9).waiters.length < 3 ∧
    Port.C ∈ (lease5 9).waiters.map Waiter.port ∧
    3 ≤ [(⟨.A, 1⟩ : Waiter), ⟨.C, 1⟩, ⟨.D, 1⟩].length ∧
    8 ≤ holdCount .C (List.replicate 8 (lease5 9)) ∧ 32 ≤ (List.replicate 32 (lease5 9)).length := by
  unfold FrameGranted
  decide

theorem witness_LeaseRenewAndLeaseDropByPlace_renew :
    FrameGranted (ask .B .leaseRenew [0, 5, 0, 0xFF, 0xFF] { ready with leases := [lease5 9] }) .B
      .leaseRenew (keyBytes ⟨0, 5⟩ ++ le16 65535) ∧
    FrameGranted (ask .B .leaseRenew [0, 5, 0, 0, 0] ready) .B .leaseRenew
      (keyBytes ⟨0, 5⟩ ++ le16 0) ∧
    (nsEntry ready 0).state ≠ .undefined ∧
    (nsEntry ready 1).state = .undefined ∧
    leaseOn ⟨0, 5⟩ [lease5 9] = some (lease5 9) ∧ (lease5 9).holder = .B ∧
    ∀ l, leaseOn ⟨0, 5⟩ ready.leases = some l → l.holder ≠ .B := by
  unfold FrameGranted
  exact ⟨by decide, by decide, by decide, by decide, by decide, by decide, all_none (by decide)⟩

theorem witness_LeaseRenewAndLeaseDropByPlace_drop :
    FrameGranted (ask .C .leaseDrop [0, 5, 0] { ready with leases := [lease5 9] }) .C .leaseDrop
      (keyBytes ⟨0, 5⟩) ∧
    FrameGranted (ask .B .leaseDrop [0, 5, 0] { ready with leases := [lease5 9] }) .B .leaseDrop
      (keyBytes ⟨0, 5⟩) ∧
    (nsEntry ready 0).state ≠ .undefined ∧ LeaseLaw [lease5 9] ∧
    LeaseLaw [⟨⟨0, 5⟩, .B, 9, []⟩] ∧ LeaseLaw ready.leases ∧
    leaseOn ⟨0, 5⟩ [lease5 9] = some (lease5 9) ∧ (lease5 9).holder = .B ∧
    Port.C ∈ (lease5 9).waiters.map Waiter.port ∧
    (∀ l, leaseOn ⟨0, 5⟩ ready.leases = some l →
      l.holder ≠ .B ∧ Port.B ∉ l.waiters.map Waiter.port) := by
  unfold FrameGranted
  refine ⟨by decide, by decide, by decide, ?_, ?_, ?_, by decide, by decide, by decide,
    all_none (by decide)⟩
  all_goals exact ⟨by decide, by decide, by decide,
    forall_ports (by decide) (by decide) (by decide) (by decide)⟩

theorem witness_WatchAndUnwatchOneEntry :
    FrameGranted (ask .B .watch [0, 0xFF, 0xFF] ready) .B .watch
      (byteOf (0 : Fin 8).val :: le16 0xFFFF) ∧
    FrameGranted (ask .B .unwatch [0, 0xFF, 0x0F] { ready with watches := [⟨.B, 0, some 4095⟩] }) .B
      .unwatch (byteOf (0 : Fin 8).val :: le16 4095) ∧
    (nsEntry ready 0).state ≠ .undefined ∧ hasPort (nsEntry ready 0).readers .B = true ∧
    (⟨.B, 0, none⟩ : WatchEntry) ∉ ready.watches ∧ watchCount .B ready.watches < 16 ∧
    ready.watches.length < 64 ∧ ([⟨.B, 0, some 4095⟩] : List WatchEntry).Nodup ∧
    16 ≤ watchCount .B (List.replicate 16 ⟨.B, 0, some 4095⟩) := by
  unfold FrameGranted
  decide

theorem witness_StoreQueryReportsTheMoment :
    FrameGranted (ask .D .storeQuery [] ready) .D .storeQuery [] := by
  unfold FrameGranted
  decide

theorem witness_StoreTuneReplacesTheMark :
    FrameGranted (ask .A .storeTune [16] ready) .A .storeTune [16] ∧
    FrameGranted (ask .A .storeTune [17] ready) .A .storeTune [17] ∧
    FrameGranted (ask .D .storeTune [3] ready) .D .storeTune [3] ∧ Port.D ≠ .A := by
  unfold FrameGranted
  decide

/-- One FULL sector with dead granules; a DRAINING one; one on the Evacuation List; a pass under way. -/
theorem witness_ReclaimStartsAPass :
    FrameGranted (ask .A .reclaim [] ready) .A .reclaim [] ∧ ready.space.store = .ready ∧
    ready.drain.state = .idle ∧ (erasing 0).drain.state ≠ .idle ∧
    (∀ i, (ready.space.rec_ i).state ≠ .draining ∧
      ((ready.space.rec_ i).state = .full → (ready.space.rec_ i).dead = 0)) ∧
    (erasing 0).space.evacuation = [] ∧ (∃ i, ((erasing 0).space.rec_ i).state = .draining) ∧
    (∀ i, ((store 0 0 [(3, ⟨.full, 1, some 1, 511, 510, 1⟩)]).space.rec_ i).state ≠ .draining) ∧
    (∃ i, ((store 0 0 [(3, ⟨.full, 1, some 1, 511, 510, 1⟩)]).space.rec_ i).state = .full ∧
      0 < ((store 0 0 [(3, ⟨.full, 1, some 1, 511, 510, 1⟩)]).space.rec_ i).dead) ∧
    { ready.space with evacuation := [3] }.evacuation = 3 :: [] := by
  unfold FrameGranted
  decide +kernel

theorem witness_FormatEmptiesTheStore :
    FrameGranted (ask .A .format [] ready) .A .format [] ∧ ready.ctl.drain = none ∧
    (ready.space.rec_ 0).state ∈ [SectorState.active, .full, .draining, .discarded] ∧
    (∀ k : Sector, k.val < 0 →
      (ready.space.rec_ k).state ∉ [SectorState.active, .full, .draining, .discarded]) ∧
    FrameGranted (ask .A .format [] (erasing 0)) .A .format [] ∧ (erasing 0).ctl.drain ≠ none := by
  unfold FrameGranted
  refine ⟨by decide, by decide, by decide, fun k h => absurd h (by simp), by decide, by decide⟩

theorem witness_NsSetReplacesAndRevokes :
    FrameGranted (ask .A .nsSet [0, 13, 13, 0, 8] ready) .A .nsSet
      ([byteOf (0 : Fin 8).val, byteOf (13 : PortSet).toNat, byteOf (13 : PortSet).toNat] ++
        le16 2048) ∧
    (nsEntry ready 0).state ≠ .frozen ∧
    (∀ p, (p == Port.B) = (hasPort (nsEntry ready 0).writers p && !hasPort 13 p)) ∧
    FrameGranted (ask .A .nsSet [2, 15, 15, 0, 0] ready) .A .nsSet
      ([byteOf (2 : Fin 8).val, byteOf (15 : PortSet).toNat, byteOf (15 : PortSet).toNat] ++
        le16 0) ∧
    (nsEntry ready 2).state = .frozen := by
  unfold FrameGranted
  exact ⟨by decide, by decide, forall_ports (by decide) (by decide) (by decide) (by decide),
    by decide, by decide⟩

theorem witness_NsFreezeByState :
    FrameGranted (ask .A .nsFreeze [8] ready) .A .nsFreeze [8] ∧ 7 < (8 : Byte).toNat ∧
    FrameGranted (ask .A .nsFreeze [0] ready) .A .nsFreeze [0] ∧ (nsEntry ready 0).state = .defined ∧
    FrameGranted (ask .A .nsFreeze [2] ready) .A .nsFreeze [2] ∧ (nsEntry ready 2).state = .frozen ∧
    FrameGranted (ask .A .nsFreeze [7] ready) .A .nsFreeze [7] ∧
    (nsEntry ready 7).state = .undefined := by
  unfold FrameGranted
  decide

theorem witness_TeardownDropsThePort :
    granted (link .B .teardown ready) = some (.teardown .B) ∧
    ((link .B .teardown ready).port .B).powerGood = true ∧
    granted (ran (.powerGoodFall .D) ready) = some (.teardown .D) ∧
    ((ran (.powerGoodFall .D) ready).port .D).powerGood = false := by decide

/-- The Drain Unit's request at the arbiter. -/
def requesting (r : DrainRequest) : State :=
  { index [entry5, entry6] ready with drain := { Drain.atReset with request := some r } }

theorem witness_RelocateAndPurgeByPlace :
    granted (requesting (.relocate ⟨0, 5⟩ ⟨0, 1⟩ ⟨4, 9⟩ 3)) = some .drain ∧
    entryOf ⟨0, 5⟩ (requesting (.relocate ⟨0, 5⟩ ⟨0, 1⟩ ⟨4, 9⟩ 3)).engine.index = some entry5 ∧
    entry5.place = ⟨0, 1⟩ ∧
    (∀ e, entryOf ⟨0, 5⟩ (requesting (.relocate ⟨0, 5⟩ ⟨7, 1⟩ ⟨4, 9⟩ 3)).engine.index = some e →
      e.place ≠ ⟨7, 1⟩) ∧
    granted (requesting (.purge ⟨0, 6⟩ ⟨0, 4⟩)) = some .drain ∧
    entryOf ⟨0, 6⟩ (requesting (.purge ⟨0, 6⟩ ⟨0, 4⟩)).engine.index = some entry6 ∧
    entry6.presence = .deleted ∧ entry6.place = ⟨0, 4⟩ ∧
    (∀ e, entryOf ⟨0, 5⟩ (requesting (.purge ⟨0, 5⟩ ⟨0, 1⟩)).engine.index = some e →
      e.presence = .present ∨ e.place ≠ ⟨0, 1⟩) :=
  ⟨by decide, by decide, by decide, all_some (a := entry5) (by decide) (by decide), by decide,
    by decide, by decide, by decide, all_some (a := entry5) (by decide) (by decide)⟩

/-- The state right after reset, and the survey at the last sector but one. -/
theorem witness_MountSurveyEntersTheHeader :
    State.reset.ctl.serving = some (.engine, .read 0 0 1) ∧ State.reset.ctl.erase = none ∧
    State.reset.engine.job = .mount .start ∧ MountJob.start.phase = .surveyHeader 0 ∧
    (126 : Sector).val + 1 < 128 ∧
    activationOf ⟨.written 6, .written ⟨2, 5, 1⟩, none⟩ = some ⟨2, 5, 1⟩ ∧
    activationOf ⟨.written 6, .written ⟨2, 5, 0⟩, none⟩ = none ∧
    (⟨.bad, .erased, some .erased⟩ : SectorHeader) ≠ SectorHeader.blank := by decide

/-- A mount in a phase, with a survey of format base 2, erase count 6 and sequence 9, and with sectors to scan. -/
def mount (ph : MountPhase) (scans : List Sector) (s : State) : State :=
  { s.setJob (.mount ⟨ph, ⟨2, 6, 9, 5, 7⟩, scans, []⟩) with
    space := { s.space with store := .mounting } }

/-- The last header of the survey, with sector 3 the first to walk; and a walk at granules 510 and 511. -/
theorem witness_MountWalksEachSector :
    (serve .engine (.read 127 0 1) (mount (.surveyHeader 127) [] (store 0 0 []))).ctl.serving =
      some (.engine, .read 127 0 1) ∧
    (serve .engine (.read 127 0 1) (mount (.surveyHeader 127) [] (store 0 0 []))).ctl.erase = none ∧
    ((store 0 0 []).space.rec_ 0).state ∉ [SectorState.blank, .erased] ∧
    (∀ m : Sector, m < 0 → ((store 0 0 []).space.rec_ m).state ∈ [SectorState.blank, .erased]) ∧
    readGranule (store 0 0 []).array 3 510 = .erased ∧
    (Walk.move ⟨3, 510, .normal⟩ .erased).pos ≤ 511 ∧
    511 < (Walk.move ⟨3, 511, .normal⟩ .erased).pos ∧ ([4] : List Sector) = 4 :: [] := by
  refine ⟨by decide, by decide, by decide, fun m h => absurd h (Nat.not_lt_zero _), by decide,
    by decide, by decide, rfl⟩

/-- Sectors of each class before header repair: 1 BLANK, 2 DISCARDED, 3 UNINTELLIGIBLE, 4 FULL and stale,
5 FULL, 6 RETIRED; 0 is ACTIVE and stale. -/
def unrepaired : State :=
  store 0 0 [(1, ⟨.blank, 0, none, 0, 0, 0⟩), (2, ⟨.discarded, 16777215, some 1, 0, 0, 0⟩),
    (3, ⟨.unintelligible, 0, none, 0, 0, 0⟩), (4, ⟨.full, 3, some 1, 511, 0, 0⟩),
    (5, ⟨.full, 3, some 2, 511, 0, 0⟩), (6, ⟨.retired, 3, some 1, 9, 0, 9⟩)]

theorem witness_HeaderRepairByClass :
    (unrepaired.space.rec_ 1).state = .blank ∧ (unrepaired.space.rec_ 2).state = .discarded ∧
    (unrepaired.space.rec_ 3).state = .unintelligible ∧
    (unrepaired.space.rec_ 4).sequence = some 1 ∧ (unrepaired.space.rec_ 5).sequence = some 2 ∧
    (unrepaired.space.rec_ 6).state = .retired ∧
    repairOf ⟨2, 6, 9, 5, 7⟩ unrepaired.space 2 = some (true, 16777215) ∧
    repairOf ⟨2, 6, 9, 5, 7⟩ unrepaired.space 1 = some (false, 6) ∧
    (∀ l : Sector, 4 < l → repairOf ⟨2, 6, 9, 5, 7⟩ unrepaired.space l = none) ∧
    (serve .engine (.programIdentity 1 6)
      (mount (.repairIdentity 1 6) [5] unrepaired)).ctl.serving =
        some (.engine, .programIdentity 1 6) ∧
    (unrepaired.space.rec_ 1).live = 0 ∧
    programPasses (metBy unrepaired (.programIdentity 1 6) whole) false .old
      (.programIdentity 1 6) = false ∧
    erasePasses unrepaired.array false ⟨.blank, [], [(16, 0)]⟩ 2 = false := by decide +kernel

/-- The record scan at granule 1 of sector 5, a record of key 5 there, the index with and without an entry. -/
def scanning (ix : List IndexEntry) (h : RecHeader) : State :=
  { serve .engine (.read 5 1 1) (mount (.scan ⟨5, 1, .normal⟩ []) [5] (index ix unrepaired)) with
    array := { ArrayContents.unused with recs := [(2561, .written h)] } }

/-- A record of version 6 and of version 7 against an entry of version 7; one that is not VALID; a walk that
ends at granule 511, gap or broken. -/
theorem witness_RecordScanOffersRecords :
    (scanning [] (header5 7 .valid)).ctl.serving = some (.engine, .read 5 1 1) ∧
    (scanning [] (header5 7 .valid)).ctl.erase = none ∧
    readGranule (scanning [] (header5 7 .valid)).array 5 1 = .header (header5 7 .valid) ∧
    entryOf ⟨0, 5⟩ (scanning [] (header5 7 .valid)).engine.index = none ∧
    entryOf ⟨0, 5⟩ (scanning [entry5] (header5 6 .valid)).engine.index = some entry5 ∧
    (header5 6 .valid).version < entry5.version ∧ entry5.version ≤ (header5 7 .valid).version ∧
    (header5 7 .allocated).state ≠ some .valid ∧
    (serve .engine (.programState ⟨5, 1⟩ .superseded) (mount
      (.scanSupersede ⟨5, 511, .normal⟩ [] true) [5] unrepaired)).ctl.serving =
        some (.engine, .programState ⟨5, 1⟩ .superseded) ∧
    (∀ h, readGranule unrepaired.array 5 511 = .header h → h.state ≠ some .valid) ∧
    511 < (Walk.move ⟨5, 511, .broken 9⟩ (readGranule unrepaired.array 5 511)).pos ∧
    (Walk.move ⟨5, 511, .broken 9⟩ (readGranule unrepaired.array 5 511)).mode = .broken 9 ∧
    (Walk.move ⟨5, 511, .gap 9⟩ (readGranule unrepaired.array 5 511)).mode = .gap 9 := by
  have e : readGranule unrepaired.array 5 511 = .erased := by decide
  refine ⟨by decide, by decide,
    read_header (by simp [scanning, cellAt, granuleNumber])
      (by simp [headerInRange, header5, checkedHeader]) rfl,
    by decide, by decide, by decide, by decide, by decide, by decide, fun h hh => ?_, ?_, ?_, ?_⟩
  · rw [e] at hh
    cases hh
  all_goals
    rw [e]
    decide

/-- The record scan's last READ, with no, one and two ACTIVE sectors, and with and without ERASED ones; and the
FULL program of a surplus one. -/
theorem witness_MountSettlesTheStore :
    ScanEnds (serve .engine (.read 5 511 1) (mount (.scan ⟨5, 511, .gap 9⟩ []) [5] unrepaired))
      (.readComplete false ⟨.blank, [], []⟩) ⟨.scan ⟨5, 511, .gap 9⟩ [], ⟨2, 6, 9, 5, 7⟩, [5], []⟩
      (serve .engine (.read 5 511 1)
        (mount (.scan ⟨5, 511, .gap 9⟩ []) [5] unrepaired)).space [(5, 511)] ∧
    unrepaired.space.activation = none ∧ unrepaired.drain.state = .idle ∧
    unrepaired.space.sectorsIn .active = [0] ∧
    (store 0 2 [(0, ⟨.full, 1, some 1, 511, 0, 0⟩)]).space.sectorsIn .active = [] ∧
    ((store 0 2 [(0, ⟨.full, 1, some 1, 511, 0, 0⟩)]).space.rec_ 1).state = .erased ∧
    (store 0 0 [(7, ⟨.active, 1, some 3, 9, 0, 0⟩)]).space.sectorsIn .active = [0, 7] ∧
    (serve .engine (.programMark 0 .full) (mount (.surplus []) [] unrepaired)).ctl.serving =
      some (.engine, .programMark 0 .full) := by
  refine ⟨⟨by decide, by decide, .inl ⟨⟨5, 511, .gap 9⟩, false, ⟨.blank, [], []⟩, rfl, by decide, rfl,
    by decide, fun h hh => ?_, .inl (by decide), rfl, by decide +kernel⟩⟩, by decide, by decide,
    by decide +kernel, by decide +kernel, by decide +kernel, by decide +kernel, by decide⟩
  have e : readGranule unrepaired.array 5 511 = .erased := by decide
  exact absurd (e.symm.trans hh) (by simp)

/-- FORMAT at its first mark, sector 0, and at its activation of sector 3. -/
def marking : State :=
  serve .engine (.programMark 0 .discarded) (ready.setJob (.format .A 0 (.mark 0)))

def choosing : State :=
  serve .engine (.programActivation 3 ⟨1, 5, 1⟩)
    ((ready.setJob (.format .A 0 .activate)).setArray
      (putHeader ArrayContents.unused 3 ⟨.written 6, .erased, some .erased⟩))

/-- A READ served in the suspension of an erase. -/
def reading (shown : Bool) : State :=
  { suspended shown with
    ctl := { (suspended shown).ctl with engine := some ⟨.read 0 1 3, true⟩ } }

theorem witness_ResetsLeaveTheResetValues :
    { ready with resetLow := true }.resetLow = true ∧ ready.ctl.serving = none ∧
    ready.ctl.erase = none ∧ ready.resetLow = false ∧ (erasing 9).ctl.serving = none ∧
    (erasing 9).ctl.erase = some ⟨.drain, 3, 9, 0, false, false⟩ ∧
    (serve .engine (.programHeader ⟨0, 1⟩ (header5 5 .allocated)) ready).ctl.serving =
      some (.engine, .programHeader ⟨0, 1⟩ (header5 5 .allocated)) ∧
    (serve .engine (.programHeader ⟨0, 1⟩ (header5 5 .allocated)) ready).ctl.erase = none ∧
    marking.ctl.serving = some (.engine, .programMark 0 .discarded) ∧
    marking.engine.job = .format .A 0 (.mark 0) ∧ marking.ctl.erase = none ∧
    (∀ k : Sector, k < 0 → (marking.space.rec_ k).state ≠ .discarded) ∧
    choosing.ctl.serving = some (.engine, .programActivation 3 ⟨1, 5, 1⟩) ∧
    choosing.engine.job = .format .A 0 .activate ∧ choosing.ctl.erase = none ∧
    (sectorHeader choosing.array 3).identity = .written 6 ∧
    (sectorHeader choosing.array 3).mark = some .erased ∧
    (reading true).ctl.erase = some ⟨.drain, 3, 9, 1, true, true⟩ ∧
    (∀ r op, (reading true).ctl.serving = some (r, op) → isProgram op = false) ∧
    Instr.powerOnReset .old uncut ≠ .resetNRise := by
  refine ⟨by decide, by decide, by decide, by decide, by decide, by decide, rfl, by decide, by decide,
    by decide, by decide, fun k h => absurd h (by simp), by decide, by decide, by decide, by decide, by decide,
    rfl, fun r op h => by cases h; rfl, by decide⟩

end Sys2Proof.Tests
end

section
/-! SUPPORT. The ledger of the Record Engine: its Key Index and its commit counter. What the part's
procedures do to it is said once, as a path of five moves; what holds of every such path holds of every
step. -/

namespace Sys2Proof.Machine

open Sys2Proof

/-- The Key Index and the commit counter. -/
structure Ledger where
  index : List IndexEntry
  counter : Word32

/-- The ledger of a state. -/
def ledger (s : State) : Ledger := ⟨s.engine.index, s.engine.counter⟩

/-- A ledger is reached from ledger `a`: entries are put and dropped, the index is emptied (FORMAT, reset),
the counter's value is taken (R32), or, where `recounts` holds, the counter is set anew (R12, R160). -/
inductive Leads (recounts : Prop) (a : Ledger) : Ledger → Prop
  | start : Leads recounts a a
  | enter {l : Ledger} (x : IndexEntry) (h : Leads recounts a l) :
      Leads recounts a ⟨putEntry x l.index, l.counter⟩
  | drop {l : Ledger} (k : Key) (h : Leads recounts a l) :
      Leads recounts a ⟨dropEntry k l.index, l.counter⟩
  | clear {l : Ledger} (h : Leads recounts a l) : Leads recounts a ⟨[], l.counter⟩
  | take {l : Ledger} (h : Leads recounts a l) :
      Leads recounts a ⟨l.index, (advance l.counter).1⟩
  | recount {l : Ledger} (c : Word32) (hr : recounts) (h : Leads recounts a l) :
      Leads recounts a ⟨l.index, c⟩

/-! ### What holds of every path -/

/-- Putting an entry keeps the key order. -/
theorem indexOrder_putEntry (x : IndexEntry) {ix : List IndexEntry} (h : IndexOrder ix) :
    IndexOrder (putEntry x ix) := by
  induction ix with
  | nil => simp [IndexOrder, putEntry]
  | cons e es ih =>
    have hes : IndexOrder es := List.Pairwise.of_cons h
    have above : ∀ y ∈ es, keyCode e.key < keyCode y.key := by
      intro y hy
      exact List.rel_of_pairwise_cons h (List.mem_map_of_mem hy)
    simp only [putEntry]
    split
    · rename_i hlt
      refine List.pairwise_cons.2 ⟨?_, h⟩
      simp only [List.map_cons, List.mem_cons, List.mem_map]
      rintro c (rfl | ⟨y, hy, rfl⟩)
      · exact hlt
      · exact hlt.trans (above y hy)
    · split
      · rename_i hkey
        refine List.pairwise_cons.2 ⟨?_, hes⟩
        simp only [List.mem_map]
        rintro c ⟨y, hy, rfl⟩
        rw [hkey]
        exact above y hy
      · rename_i hge hne
        refine List.pairwise_cons.2 ⟨?_, ih hes⟩
        simp only [List.mem_map]
        rintro c ⟨y, hy, rfl⟩
        rcases mem_putEntry hy with rfl | hy
        · have : keyCode y.key ≠ keyCode e.key := fun hc => hne (keyCode_inj.1 hc)
          omega
        · exact above y hy

/-- Dropping an entry keeps the key order. -/
theorem indexOrder_dropEntry (k : Key) {ix : List IndexEntry} (h : IndexOrder ix) :
    IndexOrder (dropEntry k ix) :=
  List.Pairwise.sublist (List.Sublist.map _ List.filter_sublist) h

/-- Every path keeps the key order of the index. -/
theorem Leads.indexOrder {r : Prop} {a l : Ledger} (h : Leads r a l) (ha : IndexOrder a.index) :
    IndexOrder l.index := by
  induction h with
  | start => exact ha
  | enter x _ ih => exact indexOrder_putEntry x ih
  | drop k _ ih => exact indexOrder_dropEntry k ih
  | clear _ _ => exact List.Pairwise.nil
  | take _ ih => exact ih
  | recount _ _ _ ih => exact ih

/-- A 32-bit counter does not fall when its value is taken (R7). -/
theorem le_advance (c : Word32) : c.toNat ≤ (advance c).1.toNat := by
  unfold advance
  split
  · exact Nat.le_refl _
  · rename_i h
    have hne : c.toNat ≠ lastWord.toNat := fun e => h (BitVec.eq_of_toNat_eq e)
    have hlt := c.isLt
    have hsum : (c + 1).toNat = (c.toNat + 1) % 4294967296 := BitVec.toNat_add c 1
    have hlast : lastWord.toNat = 4294967295 := rfl
    show c.toNat ≤ (c + 1).toNat
    omega

/-- Along a path that does not set it anew the counter never falls. -/
theorem Leads.counter_le {a l : Ledger} (h : Leads False a l) :
    a.counter.toNat ≤ l.counter.toNat := by
  induction h with
  | start => exact Nat.le_refl _
  | enter _ _ ih => exact ih
  | drop _ _ ih => exact ih
  | clear _ ih => exact ih
  | take _ ih => exact ih.trans (le_advance _)
  | recount _ hr _ _ => exact hr.elim

/-! ### Operations that keep the ledger -/

@[simp] theorem ledger_fold (s : State) :
    (⟨s.engine.index, s.engine.counter⟩ : Ledger) = ledger s := rfl

/-- The ledger is the engine's index and counter. -/
theorem ledger_congr {s t : State} (hi : t.engine.index = s.engine.index)
    (hc : t.engine.counter = s.engine.counter) : ledger t = ledger s := by
  unfold ledger; rw [hi, hc]

@[simp] theorem ledger_setEngine (s : State) (e : Engine) :
    ledger (s.setEngine e) = ⟨e.index, e.counter⟩ := (rfl)
@[simp] theorem ledger_setPort (s : State) (p : Port) (u : PortUnit) :
    ledger (s.setPort p u) = ledger s := ledger_congr rfl rfl
@[simp] theorem ledger_setJob (s : State) (j : EngineJob) :
    ledger (s.setJob j) = ledger s := ledger_congr rfl rfl
@[simp] theorem ledger_setLeases (s : State) (l : List Lease) :
    ledger (s.setLeases l) = ledger s := ledger_congr rfl rfl
@[simp] theorem ledger_setWatches (s : State) (w : List WatchEntry) :
    ledger (s.setWatches w) = ledger s := ledger_congr rfl rfl
@[simp] theorem ledger_setSpace (s : State) (x : Space) :
    ledger (s.setSpace x) = ledger s := ledger_congr rfl rfl
@[simp] theorem ledger_setDrain (s : State) (d : Drain) :
    ledger (s.setDrain d) = ledger s := ledger_congr rfl rfl
@[simp] theorem ledger_setCtl (s : State) (c : Controller) :
    ledger (s.setCtl c) = ledger s := ledger_congr rfl rfl
@[simp] theorem ledger_setArray (s : State) (a : ArrayContents) :
    ledger (s.setArray a) = ledger s := ledger_congr rfl rfl
@[simp] theorem ledger_issue (r : Requester) (op : ArrayOp) (s : State) :
    ledger (issue r op s) = ledger s := ledger_congr rfl rfl
@[simp] theorem ledger_arbitrate (s : State) :
    ledger (arbitrate s) = ledger s := ledger_congr rfl rfl
@[simp] theorem ledger_toRunning (p : Port) (s : State) :
    ledger (toRunning p s) = ledger s := ledger_congr rfl rfl
@[simp] theorem ledger_changeStore (st : StoreState) (c : Option Cause) (s : State) :
    ledger (changeStore st c s) = ledger s := ledger_congr rfl rfl

@[simp] theorem ledger_runLeases (f : Lease → LeaseFate) (s : State) :
    ledger (runLeases f s) = ledger s := by rw [runLeases_rest]; rfl

@[simp] theorem ledger_routeChange (o : Port) (k : Key) (n : Notice) (s : State) :
    ledger (routeChange o k n s) = ledger s := by rw [routeChange_rest]; rfl

@[simp] theorem ledger_respond (p : Port) (g : Byte) (bs : List Byte) (s : State) :
    ledger (respond p g bs s) = ledger s := by rw [respond_rest]; rfl

@[simp] theorem ledger_reply (p : Port) (r : Result) (fs : List Byte) (s : State) :
    ledger (reply p r fs s) = ledger s := ledger_respond _ _ _ _

@[simp] theorem ledger_consider (s : State) : ledger (consider s) = ledger s :=
  by
  unfold ledger; rw [consider_engine]

@[simp] theorem ledger_retireInTable (i : Sector) (s : State) :
    ledger (retireInTable i s) = ledger s := by
  unfold ledger; rw [retireInTable_engine]

@[simp] theorem ledger_reportCause (c : Cause) (s : State) :
    ledger (reportCause c s) = ledger s := by
  unfold reportCause
  split <;> simp

@[simp] theorem ledger_chooseWork (b : Bool) (s : State) : ledger (chooseWork b s) = ledger s := by
  unfold chooseWork startReclaim startEvacuation beginPass
  repeat' split
  all_goals simp

@[simp] theorem ledger_leaveHold (st : StoreState) (c : Option Cause) (s : State) :
    ledger (leaveHold st c s) = ledger s := by
  unfold leaveHold
  dsimp only
  split <;> simp

@[simp] theorem ledger_retireThen {r : Requester} {i : Sector} {wait go : State → State}
    (hw : ∀ u, ledger (wait u) = ledger u) (hg : ∀ u, ledger (go u) = ledger u) (s : State) :
    ledger (retireThen r i wait go s) = ledger s := by
  unfold retireThen
  split <;> simp [hw, hg]

@[simp] theorem ledger_takeForActivation (a : ActivationFor) (i : Sector) (s : State) :
    ledger (takeForActivation a i s) = ledger s := by
  unfold takeForActivation
  rw [ledger_issue, ledger_consider]
  split <;> simp

theorem ledger_checked {p : Port} {cs : List (Option Result)} {go : State → State}
    (h : ∀ u, ledger (go u) = ledger u) (s : State) : ledger (checked p cs go s) = ledger s := by
  unfold checked
  split <;> simp [h]

/-! ### FORMAT after its start -/

@[simp] theorem ledger_formatPhase (ph : FormatPhase) (s : State) :
    ledger (formatPhase ph s) = ledger s := by
  unfold formatPhase
  split <;> simp

@[simp] theorem ledger_formatEnd (s : State) : ledger (formatEnd s) = ledger s := by
  unfold formatEnd
  dsimp only
  split <;> simp

@[simp] theorem ledger_formatActivate (s : State) : ledger (formatActivate s) = ledger s := by
  unfold formatActivate
  split <;> simp

@[simp] theorem ledger_formatErase (k : Nat) (s : State) :
    ledger (formatErase k s) = ledger s := by
  unfold formatErase
  split <;> simp

@[simp] theorem ledger_formatMark (k : Nat) (s : State) : ledger (formatMark k s) = ledger s := by
  unfold formatMark
  split <;> simp

@[simp] theorem ledger_formatProgram (ph : FormatPhase) (ok : Bool) (s : State) :
    ledger (formatProgram ph ok s) = ledger s := by
  unfold formatProgram
  repeat' split
  all_goals simp

@[simp] theorem ledger_formatErased (i : Sector) (ok : Bool) (s : State) :
    ledger (formatErased i ok s) = ledger s := by
  unfold formatErased
  split <;> simp

/-! ### The drain pass -/

@[simp] theorem ledger_drainPhase (ph : DrainPhase) (s : State) :
    ledger (drainPhase ph s) = ledger s := by simp [drainPhase]

@[simp] theorem ledger_passEnd (s : State) : ledger (passEnd s) = ledger s := by simp [passEnd]

@[simp] theorem ledger_walkEnd (i : Sector) (s : State) : ledger (walkEnd i s) = ledger s := by
  unfold walkEnd
  dsimp only
  repeat' split
  all_goals simp

@[simp] theorem ledger_walkTo (n : Nat) (s : State) : ledger (walkTo n s) = ledger s := by
  unfold walkTo
  dsimp only
  repeat' split
  all_goals simp

@[simp] theorem ledger_drainHeader (g : GranuleRead) (s : State) :
    ledger (drainHeader g s) = ledger s := by
  unfold drainHeader
  dsimp only
  repeat' split
  all_goals simp

@[simp] theorem ledger_askRoom (c : Copy) (s : State) :
    ledger (askRoom c s) = ledger s := ledger_congr rfl rfl

@[simp] theorem ledger_drainRecord (bs : List Byte) (s : State) :
    ledger (drainRecord bs s) = ledger s := by
  unfold drainRecord
  split <;> simp

@[simp] theorem ledger_drainRoom (q : Place) (s : State) : ledger (drainRoom q s) = ledger s := by
  unfold drainRoom
  split <;> simp

@[simp] theorem ledger_copyNext (q : Place) (ps : List (Nat × List Byte)) (s : State) :
    ledger (copyNext q ps s) = ledger s := by
  unfold copyNext
  split <;> simp

@[simp] theorem ledger_afterCopyFailure (s : State) : ledger (afterCopyFailure s) = ledger s := by
  unfold afterCopyFailure
  repeat' split
  all_goals simp

@[simp] theorem ledger_drainRefused (s : State) : ledger (drainRefused s) = ledger s := by
  simp [drainRefused]

@[simp] theorem ledger_walkPast (n : Nat) (s : State) : ledger (walkPast n s) = ledger s := by
  simp [walkPast]

@[simp] theorem ledger_staleCopy (q : Place) (n : Nat) (s : State) :
    ledger (staleCopy q n s) = ledger s := ledger_congr rfl rfl

/-! ### The write path before and after its commit point -/

@[simp] theorem ledger_putWrite (j : WriteJob) (s : State) :
    ledger (putWrite j s) = ledger s := by simp [putWrite]

@[simp] theorem ledger_writeRoom (j : WriteJob) (s : State) :
    ledger (writeRoom j s) = ledger s := ledger_congr rfl rfl

@[simp] theorem ledger_writeNext (j : WriteJob) (ps : List (Nat × List Byte)) (s : State) :
    ledger (writeNext j ps s) = ledger s := by
  unfold writeNext
  split <;> simp

@[simp] theorem ledger_closeTxn (p : Port) (s : State) :
    ledger (closeTxn p s) = ledger s := ledger_congr rfl rfl

@[simp] theorem ledger_writeEnd (j : WriteJob) (bs : List Byte) (s : State) :
    ledger (writeEnd j bs s) = ledger s := by
  unfold writeEnd
  dsimp only
  split <;> simp

@[simp] theorem ledger_writeOk (j : WriteJob) (s : State) : ledger (writeOk j s) = ledger s := by
  simp [writeOk]

@[simp] theorem ledger_writeStoreFull (j : WriteJob) (s : State) :
    ledger (writeStoreFull j s) = ledger s := by
  unfold writeStoreFull
  dsimp only
  split <;> simp

@[simp] theorem ledger_writeMediaError (j : WriteJob) (s : State) :
    ledger (writeMediaError j s) = ledger s := by simp [writeMediaError]

@[simp] theorem ledger_writeAfterFailure (j : WriteJob) (s : State) :
    ledger (writeAfterFailure j s) = ledger s := by
  unfold writeAfterFailure
  split <;> simp

@[simp] theorem ledger_writeRefused (j : WriteJob) (s : State) :
    ledger (writeRefused j s) = ledger s := by
  unfold writeRefused
  split <;> simp

@[simp] theorem ledger_fetchDone (j : FetchJob) (g : GranuleRead) (bs : List Byte) (s : State) :
    ledger (fetchDone j g bs s) = ledger s := by
  unfold fetchDone
  dsimp only
  split <;> simp

@[simp] theorem ledger_relocateDone (s : State) : ledger (relocateDone s) = ledger s := by
  unfold relocateDone
  dsimp only
  split <;> simp

/-! ### The mount after its counters -/

@[simp] theorem ledger_putMount (j : MountJob) (s : State) :
    ledger (putMount j s) = ledger s := by simp [putMount]

@[simp] theorem ledger_walkRead (w : Walk) (s : State) :
    ledger (walkRead w s) = ledger s := ledger_congr rfl rfl

@[simp] theorem ledger_mountDrainWork (s : State) : ledger (mountDrainWork s) = ledger s := by
  simp [mountDrainWork, mountEnd]

@[simp] theorem ledger_mountActivate (j : MountJob) (s : State) :
    ledger (mountActivate j s) = ledger s := by
  unfold mountActivate
  repeat' split
  all_goals simp

@[simp] theorem ledger_mountSurplus (j : MountJob) (l : List Sector) (s : State) :
    ledger (mountSurplus j l s) = ledger s := by
  unfold mountSurplus
  split <;> simp

@[simp] theorem ledger_mountActive (j : MountJob) (s : State) :
    ledger (mountActive j s) = ledger s := by
  unfold mountActive
  dsimp only
  split <;> simp

/-! ### Allocation where no room is given -/

@[simp] theorem ledger_refuseRoom (r : Requester) (s : State) :
    ledger (refuseRoom r s) = ledger s := by
  unfold refuseRoom
  dsimp only
  split <;> simp

@[simp] theorem ledger_allocateByActivation (r : Requester) (q : AllocRequest) (s : State) :
    ledger (allocateByActivation r q s) = ledger s := by
  unfold allocateByActivation
  split <;> simp

@[simp] theorem ledger_activationAgain (a : ActivationJob) (s : State) :
    ledger (activationAgain a s) = ledger s := by
  unfold activationAgain
  dsimp only
  repeat' split
  all_goals simp

end Sys2Proof.Machine
end

section
/-! SUPPORT. The procedures that move the ledger: the commit point, a version taken, a relocation, a purge,
FORMAT's start, the record scan and the mount's counters; and what goes on from them. -/

namespace Sys2Proof.Machine

open Sys2Proof

section Paths

variable {r : Prop} {a : Ledger}

/-! ### Operations that move the ledger -/

@[simp] theorem leads_pointEntry (e : IndexEntry) {s : State} (h : Leads r a (ledger s)) :
    Leads r a (ledger (pointEntry e s)) := .enter e h

@[simp] theorem leads_takeAbandonment {s : State} (h : Leads r a (ledger s)) :
    Leads r a (ledger (takeAbandonment s)) := by
  have e : ledger (takeAbandonment s) = ⟨[], (ledger s).counter⟩ := by
    unfold takeAbandonment formatStart
    dsimp only
    rw [ledger_formatMark, runLeases_rest]
    rfl
  rw [e]
  exact .clear h

@[simp] theorem leads_formatGrant (p : Port) {s : State} (h : Leads r a (ledger s)) :
    Leads r a (ledger (formatGrant p s)) := by
  unfold formatGrant
  dsimp only
  split
  · exact leads_takeAbandonment (by simpa using h)
  · simpa using h

@[simp] theorem leads_writeRoomGiven (j : WriteJob) (q : Place) {s : State}
    (h : Leads r a (ledger s)) : Leads r a (ledger (writeRoomGiven j q s)) := by
  unfold writeRoomGiven
  rw [ledger_issue, ledger_putWrite]
  split
  · rw [ledger_reportCause]
    exact .take h
  · exact .take h

@[simp] theorem leads_commitPoint (j : WriteJob) {s : State} (h : Leads r a (ledger s)) :
    Leads r a (ledger (commitPoint j s)) := by
  unfold commitPoint
  dsimp only
  split <;> simp [h]

@[simp] theorem leads_relocateProcedure (k : Key) (q c : Place) (n : Nat) {s : State}
    (h : Leads r a (ledger s)) : Leads r a (ledger (relocateProcedure k q c n s)) := by
  unfold relocateProcedure
  repeat' split
  all_goals simp [h]

@[simp] theorem leads_purgeEntry (k : Key) (q : Place) {s : State} (h : Leads r a (ledger s)) :
    Leads r a (ledger (purgeEntry k q s)) := by
  unfold purgeEntry
  repeat' split
  · exact .drop k h
  · exact h
  · exact h

/-! ### Continuations -/

@[simp] theorem leads_retireThen {q : Requester} {i : Sector} {wait go : State → State}
    (hw : ∀ u, Leads r a (ledger u) → Leads r a (ledger (wait u)))
    (hg : ∀ u, Leads r a (ledger u) → Leads r a (ledger (go u))) {s : State}
    (h : Leads r a (ledger s)) : Leads r a (ledger (retireThen q i wait go s)) := by
  unfold retireThen
  split
  · exact hg s h
  · exact hw _ (by simpa using h)

@[simp] theorem leads_drainGo {go : State → State}
    (hg : ∀ u, Leads r a (ledger u) → Leads r a (ledger (go u))) {s : State}
    (h : Leads r a (ledger s)) : Leads r a (ledger (drainGo go s)) := by
  unfold drainGo
  split
  · exact leads_takeAbandonment h
  · exact hg s h

@[simp] theorem leads_activationGo {j : ActivationJob} {go : State → State}
    (hg : ∀ u, Leads r a (ledger u) → Leads r a (ledger (go u))) {s : State}
    (h : Leads r a (ledger s)) : Leads r a (ledger (activationGo j go s)) := by
  unfold activationGo
  split
  · exact leads_drainGo hg h
  · exact hg s h

/-- A failure in a pass: the failed sector is retired, and the pass goes on. -/
@[simp] theorem leads_passFailure {i : Sector} {ph : DrainPhase} {go : State → State}
    (hg : ∀ u, Leads r a (ledger u) → Leads r a (ledger (go u))) {s : State}
    (h : Leads r a (ledger s)) :
    Leads r a (ledger (retireThen .drain i (drainPhase ph) (drainGo go) s)) :=
  leads_retireThen (fun _ hu => by simpa using hu) (fun _ hu => leads_drainGo hg hu) h

/-! ### The drain pass and the write path -/

@[simp] theorem leads_drainProgram (ok : Bool) {s : State} (h : Leads r a (ledger s)) :
    Leads r a (ledger (drainProgram ok s)) := by
  unfold drainProgram
  dsimp only
  repeat' split
  all_goals simp [h]

@[simp] theorem leads_drainErased (ok : Bool) {s : State} (h : Leads r a (ledger s)) :
    Leads r a (ledger (drainErased ok s)) := by
  unfold drainErased
  repeat' split
  all_goals simp [h]

@[simp] theorem leads_writeProgram (j : WriteJob) (ok : Bool) {s : State}
    (h : Leads r a (ledger s)) : Leads r a (ledger (writeProgram j ok s)) := by
  unfold writeProgram
  dsimp only
  repeat' split
  all_goals simp [h]

/-! ### Allocation and activation -/

@[simp] theorem leads_answerRoom (q : Requester) (c : Place) {s : State}
    (h : Leads r a (ledger s)) : Leads r a (ledger (answerRoom q c s)) := by
  unfold answerRoom
  dsimp only
  split <;> simp [h]

@[simp] theorem leads_allocateFrom (q : Requester) (n : AllocRequest) (i : Sector) {s : State}
    (h : Leads r a (ledger s)) : Leads r a (ledger (allocateFrom q n i s)) := by
  simp [allocateFrom, h]

@[simp] theorem leads_allocate (q : Requester) (n : AllocRequest) {s : State}
    (h : Leads r a (ledger s)) : Leads r a (ledger (allocate q n s)) := by
  unfold allocate
  repeat' split
  all_goals simp [h]

@[simp] theorem leads_activationDone (j : ActivationJob) {s : State}
    (h : Leads r a (ledger s)) : Leads r a (ledger (activationDone j s)) := by
  unfold activationDone
  dsimp only
  repeat' split
  all_goals simp [h]

@[simp] theorem leads_activationProgram (j : ActivationJob) (ok : Bool) {s : State}
    (h : Leads r a (ledger s)) : Leads r a (ledger (activationProgram j ok s)) := by
  unfold activationProgram
  dsimp only
  repeat' split
  all_goals simp +contextual [h]

/-! ### The mount, in which the counter is set anew -/

section Mount

variable (hr : r)
include hr

theorem leads_mountCounters (j : MountJob) {s : State} (h : Leads r a (ledger s)) :
    Leads r a (ledger (mountCounters j s)) := by
  unfold mountCounters
  rw [ledger_mountActive, ledger_setSpace]
  exact .recount _ hr h

theorem leads_scanNext (j : MountJob) (l : List Sector) {s : State} (h : Leads r a (ledger s)) :
    Leads r a (ledger (scanNext j l s)) := by
  unfold scanNext
  split
  · exact leads_mountCounters hr _ (by simpa using h)
  · simpa using h

theorem leads_sectorScanned (j : MountJob) (w : Walk) (l : List Sector) {s : State}
    (h : Leads r a (ledger s)) : Leads r a (ledger (sectorScanned j w l s)) := by
  unfold sectorScanned
  by_cases hc : (s.space.rec_ w.sector).state = .active ∧ w.endedBroken = true
  · rw [if_pos hc]
    simpa using h
  · rw [if_neg hc]
    exact leads_scanNext hr _ _ h

theorem leads_scanOn (j : MountJob) (w : Walk) (l : List Sector) {s : State}
    (h : Leads r a (ledger s)) : Leads r a (ledger (scanOn j w l s)) := by
  unfold scanOn
  split
  · exact leads_sectorScanned hr _ _ _ h
  · simpa using h

theorem leads_scanRead (j : MountJob) (w : Walk) (l : List Sector) (g : GranuleRead) {s : State}
    (h : Leads r a (ledger s)) : Leads r a (ledger (scanRead j w l g s)) := by
  unfold scanRead offerRecord
  dsimp only
  repeat' split
  · exact leads_scanOn hr _ _ _ (.enter _ h)
  · exact leads_scanOn hr _ _ _ h
  · simpa using h
  · exact .enter _ h
  · exact leads_scanOn hr _ _ _ h
  · exact leads_scanOn hr _ _ _ h

theorem leads_repairFrom (j : MountJob) (k : Nat) {s : State} (h : Leads r a (ledger s)) :
    Leads r a (ledger (repairFrom j k s)) := by
  unfold repairFrom
  repeat' split
  · exact leads_scanNext hr _ _ h
  · simpa using h
  · simpa [repairIdentity] using h
  · exact h

theorem leads_repairFailed (j : MountJob) (i : Sector) {s : State} (h : Leads r a (ledger s)) :
    Leads r a (ledger (repairFailed j i s)) := by
  refine leads_retireThen (fun u hu => ?_) (fun u hu => leads_repairFrom hr _ _ hu) h
  simpa using hu

theorem leads_surveyNext (j : MountJob) (l : List Sector) {s : State}
    (h : Leads r a (ledger s)) : Leads r a (ledger (surveyNext j l s)) := by
  unfold surveyNext
  split
  · exact leads_repairFrom hr _ _ h
  · simpa using h

theorem leads_surveyRead (j : MountJob) (w : Walk) (l : List Sector) (g : GranuleRead) {s : State}
    (h : Leads r a (ledger s)) : Leads r a (ledger (surveyRead j w l g s)) := by
  unfold surveyRead
  dsimp only
  split
  · exact leads_surveyNext hr _ _ h
  · simpa using h

theorem leads_surveyHeader (j : MountJob) (i : Sector) (x : SectorHeader) {s : State}
    (h : Leads r a (ledger s)) : Leads r a (ledger (surveyHeader j i x s)) := by
  unfold surveyHeader
  dsimp only
  split
  · simpa using h
  · exact leads_surveyNext hr _ _ (by simpa using h)

theorem leads_mountRead (j : MountJob) (v : ArrayContents) {s : State}
    (h : Leads r a (ledger s)) : Leads r a (ledger (mountRead j v s)) := by
  unfold mountRead
  split
  · exact leads_surveyHeader hr _ _ _ h
  · exact leads_surveyRead hr _ _ _ _ h
  · exact leads_scanRead hr _ _ _ _ h
  · exact h

theorem leads_mountProgram (j : MountJob) (ok : Bool) {s : State} (h : Leads r a (ledger s)) :
    Leads r a (ledger (mountProgram j ok s)) := by
  unfold mountProgram
  split
  case h_1 =>
    split
    · exact leads_repairFrom hr _ _ (by simpa using h)
    · exact leads_repairFailed hr _ _ h
  case h_2 => exact leads_repairFrom hr _ _ h
  case h_3 =>
    refine leads_scanOn hr _ _ _ ?_
    split <;> simpa using h
  case h_4 => exact leads_scanNext hr _ _ h
  case h_5 => simpa using h
  case h_6 => exact h

theorem leads_mountErased (j : MountJob) (ok : Bool) {s : State} (h : Leads r a (ledger s)) :
    Leads r a (ledger (mountErased j ok s)) := by
  unfold mountErased repairErased
  repeat' split
  · simpa [repairIdentity] using h
  · exact h
  · exact leads_repairFailed hr _ _ h
  · exact h

end Mount

/-! ### The ends of array operations -/

section Ends

variable {s : State} (hm : ∀ j, s.engine.job = .mount j → r)
include hm

theorem leads_readEnded (q : Requester) (i : Sector) (g : Nat) (v : ArrayContents)
    (h : Leads r a (ledger s)) : Leads r a (ledger (readEnded q i g v s)) := by
  unfold readEnded
  split
  · split
    · simpa using h
    · rename_i j hj
      exact leads_mountRead (hm j hj) _ _ h
    · exact h
  · split <;> simp [h]

theorem leads_programEnded (q : Requester) (ok : Bool) (h : Leads r a (ledger s)) :
    Leads r a (ledger (programEnded q ok s)) := by
  have job : Leads r a (ledger (jobProgram q ok s)) := by
    unfold jobProgram
    split
    · split
      case h_4 => rename_i j hj; exact leads_mountProgram (hm j hj) _ _ h
      all_goals simp [h]
    · simp [h]
  unfold programEnded
  repeat' split
  · simp [h]
  · exact job
  · exact job

theorem leads_eraseEnded (q : Requester) (ok : Bool) (h : Leads r a (ledger s)) :
    Leads r a (ledger (eraseEnded q ok s)) := by
  unfold eraseEnded
  split
  · split
    · simpa using h
    · rename_i j hj
      exact leads_mountErased (hm j hj) _ _ h
    · exact h
  · simp [h]

end Ends

end Paths

end Sys2Proof.Machine
end

section
/-! SUPPORT. What every command and every step does to the ledger. Most commands leave it unmoved, and with it
what every port keeps: both are said of them at once. -/

namespace Sys2Proof.Machine

open Sys2Proof

/-! ### What a command leaves unmoved that neither writes the index, accesses a window nor resets -/

/-- The ledger, and what every port keeps through the inner procedures. -/
def unmoved (s : State) : Ledger × (Port → PortSteady) := (ledger s, (steady s).ports)

@[simp] theorem withLowWater_ports (x : Steady) (n : Nat) : (x.withLowWater n).ports = x.ports :=
  rfl

@[simp] theorem withNames_ports (x : Steady) (n : Vector NsEntry 8) :
    (x.withNames n).ports = x.ports := rfl

@[simp] theorem steady_setWatches_ports (s : State) (w : List WatchEntry) :
    (steady (s.setWatches w)).ports = (steady s).ports := (rfl)

@[simp] theorem steady_setArray_ports (s : State) (x : ArrayContents) :
    (steady (s.setArray x)).ports = (steady s).ports := (rfl)

@[simp] theorem ledger_fetchStart (p : Port) (e : IndexEntry) (o n : Nat) (s : State) :
    ledger (fetchStart p e o n s) = ledger s := by simp [fetchStart]

@[simp] theorem ledger_openTxn (p : Port) (k : Key) (L : Nat) (c : Condition) (s : State) :
    ledger (openTxn p k L c s) = ledger s := by simp [openTxn]

@[simp] theorem steady_openTxn (p : Port) (k : Key) (L : Nat) (c : Condition) (s : State) :
    steady (openTxn p k L c s) = steady s := steady_setPort rfl

@[simp] theorem ledger_commitStart (p : Port) (s : State) :
    ledger (commitStart p s) = ledger s := by simp [commitStart]

@[simp] theorem ledger_removeStart (p : Port) (k : Key) (s : State) :
    ledger (removeStart p k s) = ledger s := by simp [removeStart]

theorem unmoved_checked {p : Port} {cs : List (Option Result)} {go : State → State}
    (h : ∀ u, unmoved (go u) = unmoved u) (s : State) :
    unmoved (checked p cs go s) = unmoved s := by
  unfold checked
  split
  · simp [unmoved]
  · exact h s

theorem unmoved_grantCommand {c : Code} {p : Port} {procedure : Frame → State → State}
    (h : ∀ f u, unmoved (procedure f u) = unmoved u) (s : State) :
    unmoved (grantCommand c p procedure s) = unmoved s := by
  unfold grantCommand
  dsimp only
  repeat' split
  · simp [unmoved]
  · simp [unmoved]
  · rw [h]
    simp [unmoved]
  · rfl
  · rfl

/-! ### The procedures of the granted commands -/

@[simp] theorem unmoved_fetchProcedure (p : Port) (f : Frame) (s : State) :
    unmoved (fetchProcedure p f s) = unmoved s := by
  unfold fetchProcedure
  split
  · simp [unmoved]
  · refine unmoved_checked (fun u => ?_) s
    split <;> simp [unmoved]

@[simp] theorem unmoved_probeProcedure (p : Port) (f : Frame) (s : State) :
    unmoved (probeProcedure p f s) = unmoved s := by
  unfold probeProcedure
  split
  · simp [unmoved]
  · exact unmoved_checked (fun u => by simp [unmoved]) s

@[simp] theorem unmoved_scanProcedure (p : Port) (f : Frame) (s : State) :
    unmoved (scanProcedure p f s) = unmoved s := by
  unfold scanProcedure
  split
  · simp [unmoved]
  · exact unmoved_checked (fun u => by simp [unmoved]) s

@[simp] theorem unmoved_putOpenProcedure (p : Port) (f : Frame) (s : State) :
    unmoved (putOpenProcedure p f s) = unmoved s := by
  unfold putOpenProcedure
  split
  · simp [unmoved]
  · exact unmoved_checked (fun u => by simp [unmoved]) s

@[simp] theorem unmoved_putCommitProcedure (p : Port) (s : State) :
    unmoved (putCommitProcedure p s) = unmoved s :=
  unmoved_checked (fun u => by simp [unmoved]) s

@[simp] theorem unmoved_putCancelProcedure (p : Port) (s : State) :
    unmoved (putCancelProcedure p s) = unmoved s := by
  unfold putCancelProcedure
  split <;> simp [unmoved]

@[simp] theorem unmoved_removeProcedure (p : Port) (f : Frame) (s : State) :
    unmoved (removeProcedure p f s) = unmoved s := by
  unfold removeProcedure
  split
  · simp [unmoved]
  · exact unmoved_checked (fun u => by simp [unmoved]) s

@[simp] theorem unmoved_leaseTakeProcedure (p : Port) (f : Frame) (s : State) :
    unmoved (leaseTakeProcedure p f s) = unmoved s := by
  unfold leaseTakeProcedure
  split
  · simp [unmoved]
  · exact unmoved_checked (fun u => by simp [unmoved]) s

@[simp] theorem unmoved_leaseRenewProcedure (p : Port) (f : Frame) (s : State) :
    unmoved (leaseRenewProcedure p f s) = unmoved s := by
  unfold leaseRenewProcedure
  split
  · simp [unmoved]
  · refine unmoved_checked (fun u => ?_) s
    split <;> simp [unmoved]

@[simp] theorem unmoved_leaseDropProcedure (p : Port) (f : Frame) (s : State) :
    unmoved (leaseDropProcedure p f s) = unmoved s := by
  unfold leaseDropProcedure
  split
  · simp [unmoved]
  · refine unmoved_checked (fun u => ?_) s
    split <;> simp [unmoved]

@[simp] theorem unmoved_watchProcedure (p : Port) (f : Frame) (s : State) :
    unmoved (watchProcedure p f s) = unmoved s := by
  unfold watchProcedure
  split
  · simp [unmoved]
  · exact unmoved_checked (fun u => by simp [unmoved]) s

@[simp] theorem unmoved_unwatchProcedure (p : Port) (f : Frame) (s : State) :
    unmoved (unwatchProcedure p f s) = unmoved s := by
  unfold unwatchProcedure
  split
  · simp [unmoved]
  · exact unmoved_checked (fun u => by simp [unmoved]) s

@[simp] theorem unmoved_storeTuneProcedure (p : Port) (f : Frame) (s : State) :
    unmoved (storeTuneProcedure p f s) = unmoved s := by
  unfold storeTuneProcedure
  split <;> simp [unmoved]

@[simp] theorem unmoved_reclaimProcedure (p : Port) (s : State) :
    unmoved (reclaimProcedure p s) = unmoved s := unmoved_checked (fun u => by simp [unmoved]) s

@[simp] theorem unmoved_nsSetProcedure (p : Port) (f : Frame) (s : State) :
    unmoved (nsSetProcedure p f s) = unmoved s := by
  unfold nsSetProcedure setRights putNs
  repeat' split
  all_goals simp [unmoved]

@[simp] theorem unmoved_nsFreezeProcedure (p : Port) (f : Frame) (s : State) :
    unmoved (nsFreezeProcedure p f s) = unmoved s := by
  unfold nsFreezeProcedure putNs
  repeat' split
  all_goals simp [unmoved]

/-- The port commands but FORMAT, the steps of the timebase and the expiries. -/
def leavesUnmoved : Instr → Bool
  | .fetch _ | .probe _ | .scan _ | .putOpen _ | .putCommit _ | .putCancel _ | .remove _ => true
  | .leaseTake _ | .leaseRenew _ | .leaseDrop _ | .watch _ | .unwatch _ => true
  | .storeQuery _ | .storeTune _ | .reclaim _ | .nsSet _ | .nsFreeze _ => true
  | .timebaseStep | .leaseExpiry _ => true
  | _ => false

theorem unmoved_exec {c : Instr} {s t : State} (hc : leavesUnmoved c = true)
    (he : exec c s = .next t) : unmoved t = unmoved s := by
  cases c
  all_goals cases hc
  all_goals obtain rfl := Host.Outcome.next.inj he
  case timebaseStep | leaseExpiry => simp [unmoved]
  case storeQuery => exact unmoved_grantCommand (fun f u => by simp [unmoved]) s
  all_goals exact unmoved_grantCommand (fun f u => by simp) s

theorem ledger_of_unmoved {s t : State} (h : unmoved t = unmoved s) : ledger t = ledger s :=
  congrArg Prod.fst h

/-! ### Every command -/

section Commands

variable {r : Prop} {a : Ledger} {s t : State}

theorem leads_grantCommand (c : Code) (p : Port) {procedure : Frame → State → State}
    (hg : ∀ f u, Leads r a (ledger u) → Leads r a (ledger (procedure f u)))
    (h : Leads r a (ledger s)) : Leads r a (ledger (grantCommand c p procedure s)) := by
  unfold grantCommand
  dsimp only
  repeat' split
  · simpa using h
  · simpa using h
  · exact hg _ _ (by simpa using h)
  · exact h
  · exact h

@[simp] theorem ledger_hostWrite (p : Port) (f : PortUnit → PortUnit) (s : State) :
    ledger (hostWrite p f s) = ledger s := by
  unfold hostWrite
  split <;> simp

theorem leads_relocate (h : Leads r a (ledger s)) (he : execRelocate s = .next t) :
    Leads r a (ledger t) := by
  unfold execRelocate at he
  split at he
  · cases he
    simp [h]
  · cases he
    exact h

theorem leads_purge (h : Leads r a (ledger s)) (he : execPurge s = .next t) :
    Leads r a (ledger t) := by
  unfold execPurge at he
  split at he
  · dsimp only at he
    split at he <;> cases he <;> simp [h]
  · cases he
    exact h

theorem leads_allocationRequest (q : Requester) (h : Leads r a (ledger s))
    (he : execAllocationRequest q s = .next t) : Leads r a (ledger t) := by
  unfold execAllocationRequest at he
  split at he <;> cases he
  · simp [h]
  · exact h

section Outcomes

/-- A requester goes on with the job of the state in which its operation ended. -/
theorem leads_afterOutcome {q : Requester} {first : Bool} {go : State → State}
    (hg : ∀ u, u.engine.job = s.engine.job → Leads r a (ledger u) → Leads r a (ledger (go u)))
    (h : Leads r a (ledger s)) : Leads r a (ledger (afterOutcome q first go s)) := by
  obtain ⟨c, -, e⟩ := afterOutcome_eq q first go s
  rw [e, ledger_arbitrate]
  exact hg _ rfl (by simpa using h)

variable (hm : ∀ j, s.engine.job = .mount j → r) (h : Leads r a (ledger s))
include hm h

theorem leads_endProgram (met : ArrayContents) (ok : Bool) (left : SpanLeft) (first : Bool)
    (q : Requester) (op : ArrayOp) : Leads r a (ledger (endProgram met ok left first q op s)) := by
  unfold endProgram
  refine leads_afterOutcome (fun u hu hl => ?_) (by simpa using h)
  exact leads_programEnded (fun j hj => hm j (hu.symm.trans hj)) q ok hl

theorem leads_endErase (ok : Bool) (left : SectorImage) (first : Bool) (e : EraseJob) :
    Leads r a (ledger (endErase ok left first e s)) := by
  unfold endErase
  refine leads_afterOutcome (fun u hu hl => ?_) (by simpa using h)
  exact leads_eraseEnded (fun j hj => hm j (hu.symm.trans hj)) e.requester ok hl

theorem leads_readComplete (first : Bool) (seen : SectorImage)
    (he : execReadComplete first seen s = .next t) : Leads r a (ledger t) := by
  unfold execReadComplete at he
  split at he <;> cases he
  · refine leads_afterOutcome (fun u hu hl => ?_) h
    exact leads_readEnded (fun j hj => hm j (hu.symm.trans hj)) _ _ _ _ hl
  · exact h

theorem leads_programComplete (pass : Bool) (left : ProgramLeft) (first : Bool)
    (he : execProgramComplete pass left first s = .next t) : Leads r a (ledger t) := by
  unfold execProgramComplete at he
  dsimp only at he
  repeat' split at he
  all_goals cases he
  · exact leads_endProgram hm h _ _ _ _ _ _
  · exact h
  · exact h

theorem leads_programTimeout (left : ProgramLeft) (first : Bool)
    (he : execProgramTimeout left first s = .next t) : Leads r a (ledger t) := by
  unfold execProgramTimeout at he
  repeat' split at he
  all_goals cases he
  · exact leads_endProgram hm h _ _ _ _ _ _
  · exact h
  · exact h

theorem leads_eraseComplete (pass : Bool) (left : SectorImage) (first : Bool)
    (he : execEraseComplete pass left first s = .next t) : Leads r a (ledger t) := by
  unfold execEraseComplete at he
  repeat' split at he
  all_goals cases he
  · exact leads_endErase hm h _ _ _ _
  · exact h
  · exact h

theorem leads_eraseTimeout (left : SectorImage) (first : Bool)
    (he : execEraseTimeout left first s = .next t) : Leads r a (ledger t) := by
  unfold execEraseTimeout at he
  repeat' split at he
  all_goals cases he
  · exact leads_endErase hm h _ _ _ _
  · exact h
  · exact h

end Outcomes

/-- A reset empties the index and sets the counter to 1. -/
theorem leads_resetPart (hr : r) (names : Vector NsEntry 8) (n : Nat) (low : Bool)
    (x : ArrayContents) (h : Leads r a (ledger s)) :
    Leads r a (ledger (resetPart names n low x s)) := .recount 1 hr (.clear h)

/-- What any command does to the ledger; the counter is set anew in a mount and at a reset alone. -/
theorem leads_exec {c : Instr} (hm : ∀ j, s.engine.job = .mount j → r) (hr : isReset c = true → r)
    (he : exec c s = .next t) : Leads r (ledger s) (ledger t) := by
  have h : Leads r (ledger s) (ledger s) := .start
  cases c
  case relocate => exact leads_relocate h he
  case purge => exact leads_purge h he
  case allocationRequest q => exact leads_allocationRequest q h he
  case readComplete first seen => exact leads_readComplete hm h first seen he
  case programComplete pass left first => exact leads_programComplete hm h pass left first he
  case programTimeout left first => exact leads_programTimeout hm h left first he
  case eraseComplete pass left first => exact leads_eraseComplete hm h pass left first he
  case eraseTimeout left first => exact leads_eraseTimeout hm h left first he
  case teardownRequest p =>
    simp only [exec, execTeardownRequest] at he
    split at he <;> cases he <;> simp [teardownProcedure, h]
  case resetNRise =>
    simp only [exec, execResetNRise] at he
    split at he <;> cases he
    · exact leads_resetPart (hr rfl) _ _ _ _ h
    · exact h
  case format =>
    obtain rfl := Host.Outcome.next.inj he
    exact leads_grantCommand _ _ (fun f u hu => by simp [hu]) h
  case powerOnReset | deviceReset =>
    obtain rfl := Host.Outcome.next.inj he
    exact leads_resetPart (hr rfl) _ _ _ _ h
  case resp | notice | powerGoodFall | powerGoodRise =>
    obtain rfl := Host.Outcome.next.inj he
    exact h
  case cmd | param | submit | stage | flags | portReset | interruptPolarity | registerWrite =>
    obtain rfl := Host.Outcome.next.inj he
    simpa using h
  all_goals
    rw [ledger_of_unmoved (unmoved_exec rfl he)]
    exact h

/-- What a step does to the ledger. -/
theorem leads_step (hm : ∀ j, s.engine.job = .mount j → r) (hr : frontIs isReset s → r)
    (he : step s = .next t) : Leads r (ledger s) (ledger t) := by
  unfold step at he
  split at he
  · cases he
    have e : ledger (passTime s) = ledger s := by
      unfold passTime
      repeat' split
      all_goals simp
    rw [e]
    exact .start
  · rename_i c rest hp
    exact leads_exec (s := { s with pending := rest }) hm (fun hc => hr ⟨c, rest, hp, hc⟩) he

end Commands

end Sys2Proof.Machine
end

section
/-! The Key Index stays in key order. -/

namespace Sys2Proof.Machine

/-- Settles O10: every path of the ledger keeps the key order. -/
theorem indexOrderIsKept : Obligations.IndexOrderIsKept := by
  intro s t h he
  exact (leads_step (r := True) (fun _ _ => trivial) (fun _ => trivial) he).indexOrder h

end Sys2Proof.Machine
end

section
/-! How a port's generation count moves in one step: kept, one more at a teardown's beginning, or 0 at a
reset (R180, R190, R191, R193). -/

namespace Sys2Proof.Machine

open Sys2Proof

/-- A port's unit goes from `u` to `v` without a reset: the generation count is kept, or a teardown of the
PRESENT port begins and it is one more. -/
def GenerationMoves (u v : PortUnit) : Prop :=
  v.generation = u.generation ∨
    u.link = .present ∧ v.link = .teardown ∧ v.generation = u.generation + 1

/-- Ports that agree in what is steady have the same generation counts. -/
theorem generationMoves_of_steady {s t : State} (h : (steady t).ports = (steady s).ports) (p : Port) :
    GenerationMoves (s.port p) (t.port p) :=
  .inl (congrArg PortSteady.generation (congrFun h p))

@[simp] theorem steady_purgeEntry (k : Key) (q : Place) (s : State) :
    steady (purgeEntry k q s) = steady s := by
  unfold purgeEntry
  repeat' split
  all_goals rfl

/-! ### The window and the edges -/

theorem generationMoves_teardownBegin {u : PortUnit} (h : u.link = .present) :
    GenerationMoves u (teardownBegin u) := .inr ⟨h, rfl, rfl⟩

theorem generationMoves_writeCmd (b : Byte) (u : PortUnit) : GenerationMoves u (writeCmd b u) := by
  unfold writeCmd
  repeat' split
  all_goals exact .inl rfl

theorem generationMoves_writeParam (b : Byte) (u : PortUnit) :
    GenerationMoves u (writeParam b u) := by
  unfold writeParam
  split <;> exact .inl rfl

theorem generationMoves_writeSubmit (u : PortUnit) : GenerationMoves u (writeSubmit u) := by
  unfold writeSubmit
  split <;> exact .inl rfl

theorem generationMoves_writeStage (b : Byte) (u : PortUnit) :
    GenerationMoves u (writeStage b u) := by
  unfold writeStage
  split <;> exact .inl rfl

/-- CONTROL is the one register whose write begins a teardown (R190). -/
theorem generationMoves_writeControl (b : Byte) (u : PortUnit) :
    GenerationMoves u (writeControl b u) := by
  unfold writeControl
  repeat' split
  · exact generationMoves_teardownBegin ‹_›
  · exact .inl rfl
  · exact .inl rfl

theorem generationMoves_writeRegister (o : Fin 16) (b : Byte) (u : PortUnit) :
    GenerationMoves u (writeRegister o b u) := by
  unfold writeRegister
  split
  · exact generationMoves_writeCmd b u
  · exact generationMoves_writeParam b u
  · exact generationMoves_writeSubmit u
  · exact .inl rfl
  · exact .inl rfl
  · exact generationMoves_writeStage b u
  · exact generationMoves_writeControl b u
  · exact .inl rfl

theorem generationMoves_powerFall (u : PortUnit) : GenerationMoves u (powerFall u) := by
  unfold powerFall
  split
  · exact .inr ⟨‹_›, rfl, rfl⟩
  · exact .inl rfl

theorem generationMoves_powerRise (u : PortUnit) : GenerationMoves u (powerRise u) := by
  unfold powerRise
  split <;> exact .inl rfl

theorem generation_readResp (u : PortUnit) : (readResp u).generation = u.generation := by
  unfold readResp
  split <;> rfl

theorem generation_readNotice (u : PortUnit) : (readNotice u).generation = u.generation := by
  unfold readNotice
  split <;> rfl

/-- One port's unit changes in a way that the rule allows, the others not at all. -/
theorem generationMoves_setPort {s : State} {q : Port} {v : PortUnit}
    (h : GenerationMoves (s.port q) v) (p : Port) :
    GenerationMoves (s.port p) ((s.setPort q v).port p) := by
  rw [State.setPort_port]
  split
  · rename_i e
    subst e
    exact h
  · exact .inl rfl

theorem generationMoves_hostWrite {q : Port} {f : PortUnit → PortUnit}
    (h : ∀ u, GenerationMoves u (f u)) (s : State) (p : Port) :
    GenerationMoves (s.port p) ((hostWrite q f s).port p) := by
  unfold hostWrite
  split
  · exact generationMoves_setPort (h _) p
  · exact .inl rfl

theorem generationMoves_hostRead {q : Port} {o : Fin 16} {f : PortUnit → PortUnit}
    (h : ∀ u, (f u).generation = u.generation) (s : State) (p : Port) :
    GenerationMoves (s.port p) ((hostRead q o f s).port p) := by
  refine generationMoves_setPort (.inl ?_) p
  dsimp only
  split
  · exact h _
  · rfl

theorem generationMoves_powerEdge {q : Port} {level : Bool} {f : PortUnit → PortUnit}
    (h : ∀ u, GenerationMoves u (f u)) (s : State) (p : Port) :
    GenerationMoves (s.port p) ((powerEdge q level f s).port p) := by
  refine generationMoves_setPort ?_ p
  split
  · exact .inl rfl
  · exact h _

/-- A teardown's completion keeps every generation count (R182). -/
theorem generationMoves_teardownProcedure (q : Port) (s : State) (p : Port) :
    GenerationMoves (s.port p) ((teardownProcedure q s).port p) := by
  have hrun : ((runLeases (dropPortFromLease q) s).port p).generation = (s.port p).generation := by
    rw [runLeases_port]
  have hdone : ∀ u, (completeTeardown u).generation = u.generation := by
    intro u
    unfold completeTeardown
    split <;> rfl
  refine .inl ?_
  unfold teardownProcedure
  dsimp only
  rw [State.setPort_port]
  split
  · rename_i e
    subst e
    rw [hdone]
    exact hrun
  · exact hrun

/-! ### The outcomes of array operations and the requests -/

theorem steady_endProgram (met : ArrayContents) (ok : Bool) (left : SpanLeft) (first : Bool)
    (r : Requester) (op : ArrayOp) (s : State) :
    (steady (endProgram met ok left first r op s)).ports = (steady s).ports := by
  unfold endProgram
  rw [steady_afterOutcome (fun u => steady_programEnded r ok u)]
  simp

theorem steady_endErase (ok : Bool) (left : SectorImage) (first : Bool) (e : EraseJob) (s : State) :
    (steady (endErase ok left first e s)).ports = (steady s).ports := by
  unfold endErase
  rw [steady_afterOutcome (fun u => steady_eraseEnded e.requester ok u)]
  simp

/-- The ends of READ, PROGRAM and ERASE, ALLOCATION_REQUEST, RELOCATE, PURGE and FORMAT keep what is steady
of every port. -/
def keepsPorts : Instr → Bool
  | .relocate | .purge | .allocationRequest _ | .format _ => true
  | .readComplete _ _ | .programComplete _ _ _ | .programTimeout _ _ => true
  | .eraseComplete _ _ _ | .eraseTimeout _ _ => true
  | _ => false

theorem steady_exec_ports {c : Instr} {s t : State} (hc : keepsPorts c = true)
    (he : exec c s = .next t) : (steady t).ports = (steady s).ports := by
  cases c
  all_goals cases hc
  case format =>
    obtain rfl := Host.Outcome.next.inj he
    exact congrArg Steady.ports (steady_grantCommand (fun f u => by simp) s)
  case relocate =>
    simp only [exec, execRelocate] at he
    split at he <;> cases he <;> simp
  case purge =>
    simp only [exec, execPurge] at he
    repeat' split at he
    all_goals cases he
    all_goals simp
  case allocationRequest =>
    simp only [exec, execAllocationRequest] at he
    split at he <;> cases he <;> simp
  case readComplete =>
    simp only [exec, execReadComplete] at he
    split at he <;> cases he
    · rw [steady_afterOutcome (fun u => steady_readEnded _ _ _ _ u)]
    · rfl
  case programComplete =>
    simp only [exec, execProgramComplete] at he
    repeat' split at he
    all_goals cases he
    · exact steady_endProgram _ _ _ _ _ _ _
    all_goals rfl
  case programTimeout =>
    simp only [exec, execProgramTimeout] at he
    repeat' split at he
    all_goals cases he
    · exact steady_endProgram _ _ _ _ _ _ _
    all_goals rfl
  case eraseComplete =>
    simp only [exec, execEraseComplete] at he
    repeat' split at he
    all_goals cases he
    · exact steady_endErase _ _ _ _ _
    all_goals rfl
  case eraseTimeout =>
    simp only [exec, execEraseTimeout] at he
    repeat' split at he
    all_goals cases he
    · exact steady_endErase _ _ _ _ _
    all_goals rfl

/-! ### Every command -/

/-- Every port is at its reset values after a reset, its generation count 0 (R193). -/
theorem generation_resetPart (names : Vector NsEntry 8) (n : Nat) (low : Bool)
    (x : ArrayContents) (s : State) (p : Port) :
    ((resetPart names n low x s).port p).generation = 0 := by
  cases p <;> rfl

theorem generation_exec {c : Instr} {s t : State} (he : exec c s = .next t) (p : Port) :
    GenerationMoves (s.port p) (t.port p) ∨ isReset c = true ∧ (t.port p).generation = 0 := by
  cases c
  case powerOnReset | deviceReset =>
    obtain rfl := Host.Outcome.next.inj he
    exact .inr ⟨rfl, generation_resetPart _ _ _ _ _ p⟩
  case resetNRise =>
    simp only [exec, execResetNRise] at he
    split at he <;> cases he
    · exact .inr ⟨rfl, generation_resetPart _ _ _ _ _ p⟩
    · exact .inl (.inl rfl)
  all_goals left
  case relocate | purge | allocationRequest | format | readComplete | programComplete |
      programTimeout | eraseComplete | eraseTimeout =>
    exact generationMoves_of_steady (steady_exec_ports rfl he) p
  case teardownRequest =>
    simp only [exec, execTeardownRequest] at he
    split at he <;> cases he
    · exact generationMoves_teardownProcedure _ _ p
    · exact .inl rfl
  case cmd =>
    obtain rfl := Host.Outcome.next.inj he
    exact generationMoves_hostWrite (generationMoves_writeCmd _) s p
  case param =>
    obtain rfl := Host.Outcome.next.inj he
    exact generationMoves_hostWrite (generationMoves_writeParam _) s p
  case submit =>
    obtain rfl := Host.Outcome.next.inj he
    exact generationMoves_hostWrite generationMoves_writeSubmit s p
  case stage =>
    obtain rfl := Host.Outcome.next.inj he
    exact generationMoves_hostWrite (generationMoves_writeStage _) s p
  case flags =>
    obtain rfl := Host.Outcome.next.inj he
    exact generationMoves_hostWrite (f := writeFlags _) (fun u => .inl rfl) s p
  case portReset | interruptPolarity =>
    obtain rfl := Host.Outcome.next.inj he
    exact generationMoves_hostWrite (generationMoves_writeControl _) s p
  case registerWrite =>
    obtain rfl := Host.Outcome.next.inj he
    exact generationMoves_hostWrite (generationMoves_writeRegister _ _) s p
  case resp =>
    obtain rfl := Host.Outcome.next.inj he
    exact generationMoves_hostRead generation_readResp s p
  case notice =>
    obtain rfl := Host.Outcome.next.inj he
    exact generationMoves_hostRead generation_readNotice s p
  case powerGoodFall =>
    obtain rfl := Host.Outcome.next.inj he
    exact generationMoves_powerEdge generationMoves_powerFall s p
  case powerGoodRise =>
    obtain rfl := Host.Outcome.next.inj he
    exact generationMoves_powerEdge generationMoves_powerRise s p
  all_goals exact generationMoves_of_steady (congrArg Prod.snd (unmoved_exec rfl he)) p

theorem generation_step {s t : State} (he : step s = .next t) (p : Port) :
    GenerationMoves (s.port p) (t.port p) ∨ frontIs isReset s ∧ (t.port p).generation = 0 := by
  unfold step at he
  split at he
  · cases he
    exact .inl (generationMoves_of_steady (congrArg Steady.ports (steady_passTime s)) p)
  · rename_i c rest hp
    refine (generation_exec (s := { s with pending := rest }) he p).imp_right ?_
    rintro ⟨hc, hg⟩
    exact ⟨⟨c, rest, hp, hc⟩, hg⟩

/-- Settles O12: the ledger's counter along a path that no mount and no reset is on, and the ports' rule. -/
theorem countersMoveByTheirRules : Obligations.CountersMoveByTheirRules := by
  refine ⟨fun s t he hr hm => ?_, fun s t p he => ?_⟩
  · exact (leads_step (r := False) hm hr he).counter_le
  · exact or_assoc.1 (generation_step he p)

end Sys2Proof.Machine
end

section
/-! The range checks of the commands: a frame's fields by its bytes, and for each command that a frame out of
range gives no parameters. -/

namespace Sys2Proof.Machine

open Sys2Proof

section Ranges

variable {f : Frame}

/-! ### Fields -/

/-- A field is its first byte, 0 where the frame is shorter, and the field behind it. -/
theorem param_succ (f : Frame) (a n : Nat) :
    param f a (n + 1) = (f.params.getD a 0).toNat + 256 * param f (a + 1) n := by
  unfold param
  rw [List.drop_add_one_eq_tail_drop, List.getD_eq_getElem?_getD, ← List.head?_drop]
  cases f.params.drop a with
  | nil => simp [fromLE]
  | cons b bs => simp [fromLE]

theorem param_byte (f : Frame) (a : Nat) : param f a 1 = (f.params.getD a 0).toNat := by
  rw [param_succ f a 0]
  simp [param, fromLE]

theorem param_word (f : Frame) (a : Nat) :
    param f a 2 = (f.params.getD a 0).toNat + 256 * (f.params.getD (a + 1) 0).toNat := by
  rw [param_succ f a 1, param_byte]

/-- A field of four bytes is 0 where its two words are. -/
theorem param_long_eq_zero {a : Nat} (hl : param f a 2 = 0) (hh : param f (a + 2) 2 = 0) :
    param f a 4 = 0 := by
  rw [param_word] at hl
  rw [param_succ f a 3, param_succ f (a + 1) 2, hh]
  omega

theorem nsIn_eq_none {n : Nat} (h : 7 < n) : nsIn n = none := dif_neg (by omega)

theorem idIn_eq_none {n : Nat} (h : 4095 < n) : idIn n = none := dif_neg (by omega)

theorem portSetIn_eq_none {n : Nat} (h : 15 < n) : portSetIn n = none := if_neg (by omega)

/-- A namespace above 7 or an id above 4095 is no key (R1). -/
theorem keyParam_eq_none (h : 7 < param f 0 1 ∨ 4095 < param f 1 2) : keyParam f = none := by
  unfold keyParam
  rcases h with h | h
  · rw [nsIn_eq_none h]
  · rw [idIn_eq_none h]
    cases nsIn (param f 0 1) <;> rfl

/-- A condition byte above 2, or MATCH of version 0, is no condition (R24). -/
theorem conditionIn_eq_none {b v : Nat} (h : 2 < b ∨ b = 2 ∧ v = 0) : conditionIn b v = none := by
  unfold conditionIn
  split
  · omega
  · omega
  · exact if_pos (by omega)
  · rfl

/-- The condition in a frame whose version field starts behind its condition byte. -/
theorem conditionIn_param_eq_none {a : Nat} (h : 2 < param f a 1 ∨
    param f a 1 = 2 ∧ param f (a + 1) 2 = 0 ∧ param f (a + 3) 2 = 0) :
    conditionIn (param f a 1) (param f (a + 1) 4) = none :=
  conditionIn_eq_none (h.imp_right fun ⟨hb, hl, hh⟩ => ⟨hb, param_long_eq_zero hl hh⟩)

/-! ### One range check for each command -/

theorem fetchParams_eq_none (h : OutOfRange .fetch f.params) : fetchParams f = none := by
  have h : (7 < param f 0 1 ∨ 4095 < param f 1 2) ∨
      1024 < param f 3 2 ∨ param f 5 1 = 0 ∨ 240 < param f 5 1 := by
    simp only [param_byte, param_word]
    exact h
  unfold fetchParams
  rcases h with hk | h
  · rw [keyParam_eq_none hk]
  · split
    · rfl
    · exact if_pos (by omega)

theorem scanParams_eq_none (h : OutOfRange .scan f.params) : scanParams f = none := by
  have h : 7 < param f 0 1 ∨ 4095 < param f 1 2 ∨ param f 3 1 = 0 ∨ 40 < param f 3 1 := by
    simp only [param_byte, param_word]
    exact h
  unfold scanParams
  rcases h with hn | h
  · rw [nsIn_eq_none hn]
  · split
    · rfl
    · exact if_pos h

theorem putOpenParams_eq_none (h : OutOfRange .putOpen f.params) : putOpenParams f = none := by
  have h : (7 < param f 0 1 ∨ 4095 < param f 1 2) ∨ 1024 < param f 3 2 ∨ 2 < param f 5 1 ∨
      param f 5 1 = 2 ∧ param f 6 2 = 0 ∧ param f 8 2 = 0 := by
    simp only [param_byte, param_word]
    exact h
  unfold putOpenParams
  rcases h with hk | hL | hc
  · rw [keyParam_eq_none hk]
  · split
    · exact if_pos hL
    · rfl
  · rw [conditionIn_param_eq_none hc]
    cases keyParam f <;> rfl

theorem removeParams_eq_none (h : OutOfRange .remove f.params) : removeParams f = none := by
  have h : (7 < param f 0 1 ∨ 4095 < param f 1 2) ∨ param f 3 1 = 1 ∨ 2 < param f 3 1 ∨
      param f 3 1 = 2 ∧ param f 4 2 = 0 ∧ param f 6 2 = 0 := by
    simp only [param_byte, param_word]
    exact h
  unfold removeParams
  rcases h with hk | hcreate | hc
  · rw [keyParam_eq_none hk]
  · rw [hcreate]
    cases keyParam f <;> rfl
  · rw [conditionIn_param_eq_none hc]
    cases keyParam f <;> rfl

theorem leaseTakeParams_eq_none (h : OutOfRange .leaseTake f.params) :
    leaseTakeParams f = none := by
  have h : (7 < param f 0 1 ∨ 4095 < param f 1 2) ∨ param f 3 2 = 0 ∨ 1 < param f 5 1 := by
    simp only [param_byte, param_word]
    exact h
  unfold leaseTakeParams
  rcases h with hk | h
  · rw [keyParam_eq_none hk]
  · split
    · rfl
    · exact if_pos h

theorem leaseRenewParams_eq_none (h : OutOfRange .leaseRenew f.params) :
    leaseRenewParams f = none := by
  have h : (7 < param f 0 1 ∨ 4095 < param f 1 2) ∨ param f 3 2 = 0 := by
    simp only [param_byte, param_word]
    exact h
  unfold leaseRenewParams
  rcases h with hk | h
  · rw [keyParam_eq_none hk]
  · split
    · rfl
    · exact if_pos h

/-- PROBE and LEASE_DROP have a key alone. -/
theorem keyParam_eq_none_of_range (h : OutOfRange .probe f.params) : keyParam f = none :=
  keyParam_eq_none (by simp only [param_byte, param_word]; exact h)

/-- WATCH and UNWATCH have the same range. -/
theorem watchParams_eq_none (h : OutOfRange .watch f.params) : watchParams f = none := by
  have h : 7 < param f 0 1 ∨ 4095 < param f 1 2 ∧ param f 1 2 ≠ 0xFFFF := by
    simp only [param_byte, param_word]
    exact h
  unfold watchParams
  rcases h with hn | ⟨hi, hall⟩
  · rw [nsIn_eq_none hn]
  · rw [idIn_eq_none hi]
    split
    · rfl
    · exact if_neg hall

theorem storeTuneParams_eq_none (h : OutOfRange .storeTune f.params) :
    storeTuneParams f = none :=
  if_pos (by simp only [param_byte]; exact h)

theorem nsSetParams_eq_none (h : OutOfRange .nsSet f.params) : nsSetParams f = none := by
  have h : 7 < param f 0 1 ∨ 15 < param f 1 1 ∨ 15 < param f 2 1 ∨ 2048 < param f 3 2 := by
    simp only [param_byte, param_word]
    exact h
  unfold nsSetParams
  rcases h with hn | hr | hw | hq
  · rw [nsIn_eq_none hn]
  · rw [portSetIn_eq_none hr]
    cases nsIn (param f 0 1) <;> rfl
  · rw [portSetIn_eq_none hw]
    cases nsIn (param f 0 1) <;> cases portSetIn (param f 1 1) <;> rfl
  · split
    · exact if_pos hq
    · rfl

theorem nsFreezeParams_eq_none (h : OutOfRange .nsFreeze f.params) : nsFreezeParams f = none :=
  nsIn_eq_none (by simp only [param_byte]; exact h)

end Ranges

/-! ### The answer -/

/-- A granted frame that the command's procedure refuses at its range check is answered BAD_PARAM. -/
theorem answered_badParam {s : State} {p : Port} {c : Code} {params : List Byte}
    {procedure : Frame → State → State} (hg : FrameGranted s p c params)
    (hl : params.length = paramCount c) (hs : supervisorOnly c = true → p = .A)
    (h : ∀ u, procedure ⟨codeByte c, params, false⟩ u = reply p .badParam [] u) :
    Host.Outcome.next (grantCommand c p procedure s) =
      (.next (answered p [0x52] s) : Host.Outcome State Fault Refusal) := by
  rw [grantCommand_eq procedure hg hl hs, h, reply_toRunning]
  rfl

/-- Settles O18: each command's procedure asks first whether its frame gives parameters. -/
theorem parametersOutOfRangeAreRefused : Obligations.ParametersOutOfRangeAreRefused := by
  intro s p c params hg hl hs h
  have ho : OutOfRange c (Frame.params ⟨codeByte c, params, false⟩) := h
  clear h
  cases c
  case fetch =>
    exact answered_badParam hg hl hs fun u => by simp only [fetchProcedure, fetchParams_eq_none ho]
  case probe =>
    exact answered_badParam hg hl hs fun u => by
      simp only [probeProcedure, keyParam_eq_none_of_range ho]
  case scan =>
    exact answered_badParam hg hl hs fun u => by simp only [scanProcedure, scanParams_eq_none ho]
  case putOpen =>
    exact answered_badParam hg hl hs fun u => by
      simp only [putOpenProcedure, putOpenParams_eq_none ho]
  case remove =>
    exact answered_badParam hg hl hs fun u => by simp only [removeProcedure, removeParams_eq_none ho]
  case leaseTake =>
    exact answered_badParam hg hl hs fun u => by
      simp only [leaseTakeProcedure, leaseTakeParams_eq_none ho]
  case leaseRenew =>
    exact answered_badParam hg hl hs fun u => by
      simp only [leaseRenewProcedure, leaseRenewParams_eq_none ho]
  case leaseDrop =>
    exact answered_badParam hg hl hs fun u => by
      simp only [leaseDropProcedure, keyParam_eq_none_of_range ho]
  case watch =>
    exact answered_badParam hg hl hs fun u => by simp only [watchProcedure, watchParams_eq_none ho]
  case unwatch =>
    exact answered_badParam hg hl hs fun u => by simp only [unwatchProcedure, watchParams_eq_none ho]
  case storeTune =>
    exact answered_badParam hg hl hs fun u => by
      simp only [storeTuneProcedure, storeTuneParams_eq_none ho]
  case nsSet =>
    exact answered_badParam hg hl hs fun u => by simp only [nsSetProcedure, nsSetParams_eq_none ho]
  case nsFreeze =>
    exact answered_badParam hg hl hs fun u => by
      simp only [nsFreezeProcedure, nsFreezeParams_eq_none ho]
  case putCommit | putCancel | storeQuery | reclaim | format => exact ho.elim

end Sys2Proof.Machine
end

section
/-! The read commands: FETCH, PROBE and SCAN by a port of the read set (R13 to R19). -/

namespace Sys2Proof.Machine

open Sys2Proof

/-- A port of the read set of a DEFINED or FROZEN namespace passes the access check (R51, R52). -/
theorem accessRefusal_read {s : State} {p : Port} {ns : Fin 8}
    (hd : (nsEntry s ns).state ≠ .undefined) (hr : hasPort (nsEntry s ns).readers p = true) :
    accessRefusal .read ns p (toRunning p s) = none := by
  simp [accessRefusal, hd, hr]

/-! ### PROBE and SCAN -/

/-- Settles O32: PROBE's answer is its two groups of fields, each by cases of its lookup. -/
theorem probeReportsKeyAndLease : Obligations.ProbeReportsKeyAndLease := by
  intro s p k hg hd hr
  refine ⟨presenceFields (entryOf k s.engine.index), leaseFields (leaseOn k s.leases), ?_,
    fun he => ?_, fun e he => ⟨fun hp => ?_, fun hp => ?_⟩, fun hl => ?_, fun l hl => ?_⟩
  · show Host.Outcome.next (grantCommand .probe p (probeProcedure p) s) = _
    rw [grantCommand_eq _ hg rfl (fun h => by cases h)]
    simp only [probeProcedure, keyParam_keyBytes_only]
    rw [checked_pass (by simpa using accessRefusal_read hd hr), reply_toRunning]
    rfl
  · rw [he]; rfl
  · rw [he]; simp only [presenceFields, hp]
  · rw [he]; simp only [presenceFields, hp]; rfl
  · rw [hl]; rfl
  · rw [hl]; rfl

/-- Settles O33: the filter of R18 is the list asked for, and the response spells its first entries. -/
theorem scanListsPresentKeys : Obligations.ScanListsPresentKeys := by
  intro s p ns start maximum l hg hs h1 h2 hd hr hl
  have found : scanMatches ns start s.engine.index = l := by
    rw [hl, scanMatches]
    congr 1
    funext e
    simp only [Bool.decide_and, Bool.and_assoc]
    rfl
  show Host.Outcome.next (grantCommand .scan p (scanProcedure p) s) = _
  rw [grantCommand_eq _ hg rfl (fun h => by cases h)]
  simp only [scanProcedure, scanParams_frame ns start maximum hs h1 h2]
  rw [checked_pass (by simpa using accessRefusal_read hd hr), reply_toRunning, toRunning_engine,
    found]
  simp only [scanResponse, List.length_take]
  rfl

/-! ### FETCH -/

section Fetch

variable {s : State} {p : Port} {k : Key} {off n : Nat}
  (hg : FrameGranted s p .fetch (keyBytes k ++ le16 off ++ [byteOf n]))
  (ho : off ≤ 1024) (h1 : 1 ≤ n) (h2 : n ≤ 240) (hd : (nsEntry s k.ns).state ≠ .undefined)
  (hr : hasPort (nsEntry s k.ns).readers p = true)
include hg ho h1 h2 hd hr

/-- A FETCH by a port of the read set that R14's own checks refuse. -/
theorem exec_fetch_refused {r : Result} (hf : fetchRefusal (entryOf k s.engine.index) off = some r) :
    exec (.fetch p) s = .next (answered p [resultByte r] s) := by
  show Host.Outcome.next (grantCommand .fetch p (fetchProcedure p) s) = _
  rw [grantCommand_eq _ hg rfl (fun h => by cases h)]
  simp only [fetchProcedure, fetchParams_frame k off n ho h1 h2, toRunning_engine, hf,
    accessRefusal_read hd hr]
  exact congrArg _ ((checked_refuse (pre := [none]) (by simp)).trans (reply_toRunning p r [] s))

/-- A FETCH by a port of the read set that passes R14's own checks. -/
theorem exec_fetch_started {e : IndexEntry} (he : entryOf k s.engine.index = some e)
    (hf : fetchRefusal (some e) off = none) :
    exec (.fetch p) s = .next (fetchStart p e off n (toRunning p s)) := by
  show Host.Outcome.next (grantCommand .fetch p (fetchProcedure p) s) = _
  rw [grantCommand_eq _ hg rfl (fun h => by cases h)]
  simp only [fetchProcedure, fetchParams_frame k off n ho h1 h2, toRunning_engine, he, hf,
    accessRefusal_read hd hr]
  exact congrArg _ (checked_pass (by simp))

end Fetch

/-- Settles O30, by the cases of R14: no PRESENT entry, an offset within its length, an offset beyond it. -/
theorem fetchReadsTheWholeRecord : Obligations.FetchReadsTheWholeRecord := by
  intro s p k off n hg ho h1 h2 hd hr
  refine ⟨fun hdel => ?_, fun e he hp => ⟨fun hle => ?_, fun hlt => ?_⟩⟩
  · refine exec_fetch_refused hg ho h1 h2 hd hr (r := .notFound) ?_
    cases he : entryOf k s.engine.index with
    | none => rfl
    | some e => simp [fetchRefusal, hdel e he]
  · have hf : fetchRefusal (some e) off = none := by simp [fetchRefusal, hp, hle]
    rw [exec_fetch_started hg ho h1 h2 hd hr he hf, fetchStart, toRunning_generation]
    rfl
  · refine exec_fetch_refused hg ho h1 h2 hd hr (r := .badParam) ?_
    simp [he, fetchRefusal, hp, hlt]

/-! ### The end of a FETCH's READ -/

/-- Outside a sector under erase a READ shows the array's contents (R141). -/
theorem viewOf_of_no_erase {s : State} (h : s.ctl.erase = none) (i : Sector) (seen : SectorImage) :
    viewOf s i seen = s.array := by
  simp [viewOf, unseen_of_no_erase h]

/-- While an erase is in progress a READ shows the array's contents of every other sector, and of its own after
a PROGRAM of the same suspension (R150, log 8). -/
theorem viewOf_seen {s : State} {e : EraseJob} (h : s.ctl.erase = some e) {i : Sector}
    (hi : e.sector ≠ i ∨ e.suspended = true ∧ e.shown = true) (seen : SectorImage) :
    viewOf s i seen = s.array := by
  rcases hi with hi | ⟨hs, hw⟩
  · by_cases hb : (e.suspended && e.shown) = true <;> simp [viewOf, Controller.unseen, h, hb, hi]
  · simp [viewOf, Controller.unseen, h, hs, hw]

/-- Of its own sector, an erase in progress shows what the operand says (R141, log 8). -/
theorem viewOf_unseen {s : State} {e : EraseJob} (h : s.ctl.erase = some e)
    (hb : ¬ (e.suspended = true ∧ e.shown = true)) (seen : SectorImage) :
    viewOf s e.sector seen = installImage s.array e.sector seen := by
  have hb : (e.suspended && e.shown) = false := by simpa using hb
  simp [viewOf, Controller.unseen, h, hb]

/-- The response of a FETCH whose READ brought a granule and bytes (R15). -/
def fetchResponse (j : FetchJob) (g : GranuleRead) (bytes : List Byte) : List Byte :=
  if fetchPasses j.entry g bytes then
    resultByte .ok :: le32 j.entry.version.toNat ++ le16 j.entry.length ++
      (bytes.drop j.offset).take (min j.count (j.entry.length - j.offset))
  else [resultByte .mediaError]

theorem fetchDone_eq (j : FetchJob) (g : GranuleRead) (bytes : List Byte) (s : State) :
    fetchDone j g bytes s = respond j.port j.gen (fetchResponse j g bytes) (s.setJob .idle) := by
  unfold fetchDone fetchResponse
  split <;> rfl

theorem fetchPasses_header {e : IndexEntry} {h : RecHeader} {bytes : List Byte} :
    fetchPasses e (.header h) bytes = true ↔
      h.key = e.key ∧ h.version = e.version ∧ Config.payloadCheck bytes = h.check := by
  simp [fetchPasses, and_assoc]

/-- A response whose port has kept its generation is placed (R180). -/
theorem respond_placed {p : Port} {gen : Byte} {s : State} (h : (s.port p).generation = gen)
    (bytes : List Byte) : respond p gen bytes s =
      s.setPort p { s.port p with mailbox := ⟨.done, ⟨0, [], false⟩, bytes⟩ } := if_pos h

/-- The end of a FETCH's READ, where no teardown of its port has begun: the engine is free, the response is
placed, and but for the controller nothing else changes. -/
theorem exec_readComplete_fetch {s : State} {j : FetchJob} {i : Sector} {g n : Nat} (first : Bool)
    (seen : SectorImage) (hs : s.ctl.serving = some (.engine, .read i g n))
    (hj : s.engine.job = .fetch j) (hgen : (s.port j.port).generation = j.gen) :
    ∃ cc : Controller, exec (.readComplete first seen) s = .next
      (((s.setJob .idle).setPort j.port { s.port j.port with mailbox := ⟨.done, ⟨0, [], false⟩,
        fetchResponse j (readGranule (viewOf s i seen) i g)
          (readPayload (viewOf s i seen) ⟨i, g⟩ j.entry.length)⟩ }).setCtl cc) := by
  obtain ⟨cc, -, hx⟩ := exec_readComplete first seen hs
  refine ⟨cc.run, hx.trans ?_⟩
  simp only [readEnded, State.setCtl_engine, hj]
  rw [fetchDone_eq, respond_placed (by simpa using hgen)]
  rfl

/-- Settles O31: the view by the state of the erase, and the response by R15's tests. -/
theorem fetchAnswersWhatItRead : Obligations.FetchAnswersWhatItRead := by
  intro s j i g n first seen v hs hv hj hgen
  refine ⟨fun he => hv.trans (viewOf_of_no_erase he i seen),
    fun e he => ⟨fun hi => hv.trans (viewOf_seen he hi seen), ?_⟩, ?_⟩
  · rintro rfl hb
    exact hv.trans (viewOf_unseen he hb seen)
  · obtain ⟨cc, hx⟩ := exec_readComplete_fetch first seen hs hj hgen
    rw [← hv] at hx
    refine ⟨_, hx, rfl, rfl, rfl, rfl, rfl, rfl, fun q hq => State.setPort_port_ne _ _ hq, ?_⟩
    simp only [State.setCtl_port, State.setPort_port_self, true_and]
    refine ⟨fun h hg hk hver hc => ?_, fun hno => ?_, fun h hg hne => ?_⟩
    · rw [hg]
      exact if_pos (fetchPasses_header.2 ⟨hk, hver, hc⟩)
    · refine if_neg ?_
      cases hg : readGranule v i g with
      | erased => simp [fetchPasses]
      | broken => simp [fetchPasses]
      | header h => exact absurd hg (hno h)
    · rw [hg]
      refine if_neg fun hp => ?_
      obtain ⟨hk, hver, hc⟩ := fetchPasses_header.1 hp
      rcases hne with hne | hne | hne
      · exact hne hk
      · exact hne hver
      · exact hne hc

end Sys2Proof.Machine
end

section
/-! SUPPORT. The desk of a port: its transaction and its notice queue. What the part's procedures do to the
four desks is said once, as a path of moves; what holds of every such path holds of every step. -/

namespace Sys2Proof.Machine

open Sys2Proof

/-- The transaction and the notice queue of a port. -/
structure Desk where
  txn : Txn
  queue : NoticeQueue

/-- The desk of a Port Unit. -/
def PortUnit.desk (u : PortUnit) : Desk := ⟨u.txn, u.queue⟩

/-- The desks of the four ports. -/
def desks (s : State) (p : Port) : Desk := (s.port p).desk

/-- A desk is reached from desk `a`: a notice is placed, a byte of one is read, the queue is emptied; and a
transaction is opened with a length in range (R25, R27), stages a byte short of its length (R22), changes
between OPEN and COMMITTING (R31), is closed, or takes its reset value (R21). -/
inductive DeskMoves (a : Desk) : Desk → Prop
  | start : DeskMoves a a
  | place {d : Desk} (n : Notice) (h : DeskMoves a d) :
      DeskMoves a { d with queue := placeNotice d.queue n }
  | take {d : Desk} (h : DeskMoves a d) : DeskMoves a { d with queue := takeNoticeByte d.queue }
  | empty {d : Desk} (h : DeskMoves a d) : DeskMoves a { d with queue := .empty }
  | opened {d : Desk} (k : Key) {L : Nat} (c : Condition) (hL : L ≤ 1024) (h : DeskMoves a d) :
      DeskMoves a { d with txn := ⟨.open_, k, L, c, 0⟩ }
  | staged {d : Desk} (hs : d.txn.state = .open_ ∧ d.txn.staged < d.txn.length)
      (h : DeskMoves a d) :
      DeskMoves a { d with txn := { d.txn with staged := d.txn.staged + 1 } }
  | held {d : Desk} {st : TxnState} (hst : st ≠ .none_) (h : DeskMoves a d) :
      DeskMoves a { d with txn := { d.txn with state := st } }
  | closed {d : Desk} (h : DeskMoves a d) :
      DeskMoves a { d with txn := { d.txn with state := .none_, staged := 0 } }
  | reset {d : Desk} (h : DeskMoves a d) : DeskMoves a { d with txn := .empty }

/-- Every port's desk is reached from its desk in `a`. -/
def DesksMove (a b : Port → Desk) : Prop := ∀ p, DeskMoves (a p) (b p)

theorem desksMove_start (a : Port → Desk) : DesksMove a a := fun _ => .start

/-! ### Operations that keep the desks -/

/-- One port's unit changes beside its desk. -/
theorem desks_setPort {s : State} {p : Port} {u : PortUnit} (hu : u.desk = (s.port p).desk) :
    desks (s.setPort p u) = desks s := by
  funext q
  unfold desks
  rw [State.setPort_port]
  split
  · rename_i e
    subst e
    exact hu
  · rfl

@[simp] theorem desks_setEngine (s : State) (e : Engine) :
    desks (s.setEngine e) = desks s := (rfl)
@[simp] theorem desks_setJob (s : State) (j : EngineJob) : desks (s.setJob j) = desks s := (rfl)
@[simp] theorem desks_setLeases (s : State) (l : List Lease) :
    desks (s.setLeases l) = desks s := (rfl)
@[simp] theorem desks_setWatches (s : State) (w : List WatchEntry) :
    desks (s.setWatches w) = desks s := (rfl)
@[simp] theorem desks_setSpace (s : State) (x : Space) : desks (s.setSpace x) = desks s := (rfl)
@[simp] theorem desks_setDrain (s : State) (d : Drain) : desks (s.setDrain d) = desks s := (rfl)
@[simp] theorem desks_setCtl (s : State) (c : Controller) : desks (s.setCtl c) = desks s := (rfl)
@[simp] theorem desks_setArray (s : State) (x : ArrayContents) :
    desks (s.setArray x) = desks s := (rfl)
@[simp] theorem desks_issue (r : Requester) (op : ArrayOp) (s : State) :
    desks (issue r op s) = desks s := (rfl)
@[simp] theorem desks_arbitrate (s : State) : desks (arbitrate s) = desks s := (rfl)
@[simp] theorem desks_pointEntry (e : IndexEntry) (s : State) :
    desks (pointEntry e s) = desks s := (rfl)
@[simp] theorem desks_drainPhase (ph : DrainPhase) (s : State) :
    desks (drainPhase ph s) = desks s := (rfl)
@[simp] theorem desks_putWrite (j : WriteJob) (s : State) :
    desks (putWrite j s) = desks s := (rfl)
@[simp] theorem desks_putMount (j : MountJob) (s : State) :
    desks (putMount j s) = desks s := (rfl)

@[simp] theorem desks_toRunning (p : Port) (s : State) : desks (toRunning p s) = desks s := by
  unfold toRunning
  rw [desks_setEngine]
  exact desks_setPort rfl

@[simp] theorem desks_respond (p : Port) (g : Byte) (bs : List Byte) (s : State) :
    desks (respond p g bs s) = desks s := by
  unfold respond
  split
  · exact desks_setPort rfl
  · rfl

@[simp] theorem desks_reply (p : Port) (r : Result) (fs : List Byte) (s : State) :
    desks (reply p r fs s) = desks s := desks_respond _ _ _ _

@[simp] theorem desks_changeStore (st : StoreState) (c : Option Cause) (s : State) :
    desks (changeStore st c s) = desks s := by
  funext p
  unfold desks
  rw [changeStore_port]
  split <;> rfl

@[simp] theorem desks_reportCause (c : Cause) (s : State) :
    desks (reportCause c s) = desks s := by
  unfold reportCause
  split <;> simp

@[simp] theorem desks_consider (s : State) : desks (consider s) = desks s := by
  funext p
  unfold desks
  rw [consider_port]

@[simp] theorem desks_chooseWork (b : Bool) (s : State) : desks (chooseWork b s) = desks s := by
  unfold chooseWork startReclaim startEvacuation beginPass
  repeat' split
  all_goals simp

@[simp] theorem desks_leaveHold (st : StoreState) (c : Option Cause) (s : State) :
    desks (leaveHold st c s) = desks s := by
  unfold leaveHold
  dsimp only
  split <;> simp

@[simp] theorem desks_retireInTable (i : Sector) (s : State) :
    desks (retireInTable i s) = desks s := by
  funext p
  obtain ⟨b, e⟩ := retireInTable_port i s p
  unfold desks
  rw [e]
  rfl

@[simp] theorem desks_retireThen {r : Requester} {i : Sector} {wait go : State → State}
    (hw : ∀ u, desks (wait u) = desks u) (hg : ∀ u, desks (go u) = desks u) (s : State) :
    desks (retireThen r i wait go s) = desks s := by
  unfold retireThen
  split <;> simp [hw, hg]

@[simp] theorem desks_takeForActivation (a : ActivationFor) (i : Sector) (s : State) :
    desks (takeForActivation a i s) = desks s := by
  unfold takeForActivation
  rw [desks_issue, desks_consider]
  split <;> simp

/-! ### FORMAT after its start -/

@[simp] theorem desks_formatPhase (ph : FormatPhase) (s : State) :
    desks (formatPhase ph s) = desks s := by
  unfold formatPhase
  split <;> simp

@[simp] theorem desks_formatEnd (s : State) : desks (formatEnd s) = desks s := by
  unfold formatEnd
  dsimp only
  split <;> simp

@[simp] theorem desks_formatActivate (s : State) : desks (formatActivate s) = desks s := by
  unfold formatActivate
  split <;> simp

@[simp] theorem desks_formatErase (k : Nat) (s : State) : desks (formatErase k s) = desks s := by
  unfold formatErase
  split <;> simp

@[simp] theorem desks_formatMark (k : Nat) (s : State) : desks (formatMark k s) = desks s := by
  unfold formatMark
  split <;> simp

@[simp] theorem desks_formatProgram (ph : FormatPhase) (ok : Bool) (s : State) :
    desks (formatProgram ph ok s) = desks s := by
  unfold formatProgram
  repeat' split
  all_goals simp

@[simp] theorem desks_formatErased (i : Sector) (ok : Bool) (s : State) :
    desks (formatErased i ok s) = desks s := by
  unfold formatErased
  split <;> simp

/-! ### The drain pass -/

@[simp] theorem desks_passEnd (s : State) : desks (passEnd s) = desks s := by simp [passEnd]

@[simp] theorem desks_walkEnd (i : Sector) (s : State) : desks (walkEnd i s) = desks s := by
  unfold walkEnd
  dsimp only
  repeat' split
  all_goals simp

@[simp] theorem desks_walkTo (n : Nat) (s : State) : desks (walkTo n s) = desks s := by
  unfold walkTo
  dsimp only
  repeat' split
  all_goals simp

@[simp] theorem desks_drainHeader (g : GranuleRead) (s : State) :
    desks (drainHeader g s) = desks s := by
  unfold drainHeader
  dsimp only
  repeat' split
  all_goals simp

@[simp] theorem desks_askRoom (c : Copy) (s : State) : desks (askRoom c s) = desks s := (rfl)

@[simp] theorem desks_drainRecord (bs : List Byte) (s : State) :
    desks (drainRecord bs s) = desks s := by
  unfold drainRecord
  split <;> simp

@[simp] theorem desks_drainRoom (q : Place) (s : State) : desks (drainRoom q s) = desks s := by
  unfold drainRoom
  split <;> simp

@[simp] theorem desks_copyNext (q : Place) (ps : List (Nat × List Byte)) (s : State) :
    desks (copyNext q ps s) = desks s := by
  unfold copyNext
  split <;> simp

@[simp] theorem desks_afterCopyFailure (s : State) : desks (afterCopyFailure s) = desks s := by
  unfold afterCopyFailure
  repeat' split
  all_goals simp

@[simp] theorem desks_drainRefused (s : State) : desks (drainRefused s) = desks s := by
  simp [drainRefused]

@[simp] theorem desks_walkPast (n : Nat) (s : State) : desks (walkPast n s) = desks s := by
  simp [walkPast]

@[simp] theorem desks_staleCopy (q : Place) (n : Nat) (s : State) :
    desks (staleCopy q n s) = desks s := (rfl)

@[simp] theorem desks_relocateProcedure (k : Key) (q c : Place) (n : Nat) (s : State) :
    desks (relocateProcedure k q c n s) = desks s := by
  unfold relocateProcedure
  repeat' split
  all_goals simp

@[simp] theorem desks_purgeEntry (k : Key) (q : Place) (s : State) :
    desks (purgeEntry k q s) = desks s := by
  unfold purgeEntry
  repeat' split
  all_goals rfl

/-! ### The write path before its end, and the reads -/

@[simp] theorem desks_writeRoom (j : WriteJob) (s : State) :
    desks (writeRoom j s) = desks s := (rfl)

@[simp] theorem desks_writeRoomGiven (j : WriteJob) (q : Place) (s : State) :
    desks (writeRoomGiven j q s) = desks s := by
  unfold writeRoomGiven
  rw [desks_issue, desks_putWrite]
  split <;> simp

@[simp] theorem desks_writeNext (j : WriteJob) (ps : List (Nat × List Byte)) (s : State) :
    desks (writeNext j ps s) = desks s := by
  unfold writeNext
  split <;> simp

@[simp] theorem desks_removeStart (p : Port) (k : Key) (s : State) :
    desks (removeStart p k s) = desks s := (rfl)

@[simp] theorem desks_fetchStart (p : Port) (e : IndexEntry) (o n : Nat) (s : State) :
    desks (fetchStart p e o n s) = desks s := (rfl)

@[simp] theorem desks_fetchDone (j : FetchJob) (g : GranuleRead) (bs : List Byte) (s : State) :
    desks (fetchDone j g bs s) = desks s := by
  rw [fetchDone_eq, desks_respond, desks_setJob]

@[simp] theorem desks_relocateDone (s : State) : desks (relocateDone s) = desks s := by
  unfold relocateDone
  dsimp only
  split <;> simp

/-! ### The mount -/

@[simp] theorem desks_walkRead (w : Walk) (s : State) : desks (walkRead w s) = desks s := (rfl)

@[simp] theorem desks_mountDrainWork (s : State) : desks (mountDrainWork s) = desks s := by
  simp [mountDrainWork, mountEnd]

@[simp] theorem desks_mountActivate (j : MountJob) (s : State) :
    desks (mountActivate j s) = desks s := by
  unfold mountActivate
  repeat' split
  all_goals simp

@[simp] theorem desks_mountSurplus (j : MountJob) (l : List Sector) (s : State) :
    desks (mountSurplus j l s) = desks s := by
  unfold mountSurplus
  split <;> simp

@[simp] theorem desks_mountCounters (j : MountJob) (s : State) :
    desks (mountCounters j s) = desks s := by
  unfold mountCounters mountActive
  dsimp only
  split <;> simp

@[simp] theorem desks_scanNext (j : MountJob) (l : List Sector) (s : State) :
    desks (scanNext j l s) = desks s := by
  unfold scanNext
  split <;> simp

@[simp] theorem desks_scanOn (j : MountJob) (w : Walk) (l : List Sector) (s : State) :
    desks (scanOn j w l s) = desks s := by
  unfold scanOn sectorScanned
  dsimp only
  repeat' split
  all_goals simp

@[simp] theorem desks_scanRead (j : MountJob) (w : Walk) (l : List Sector) (g : GranuleRead)
    (s : State) : desks (scanRead j w l g s) = desks s := by
  unfold scanRead offerRecord
  dsimp only
  repeat' split
  all_goals simp

@[simp] theorem desks_repairIdentity (j : MountJob) (i : Sector) (n : EraseCount) (s : State) :
    desks (repairIdentity j i n s) = desks s := (rfl)

@[simp] theorem desks_repairFrom (j : MountJob) (k : Nat) (s : State) :
    desks (repairFrom j k s) = desks s := by
  unfold repairFrom
  repeat' split
  all_goals simp

@[simp] theorem desks_repairFailed (j : MountJob) (i : Sector) (s : State) :
    desks (repairFailed j i s) = desks s := by simp [repairFailed]

@[simp] theorem desks_surveyNext (j : MountJob) (l : List Sector) (s : State) :
    desks (surveyNext j l s) = desks s := by
  unfold surveyNext surveyEnd
  split <;> simp

@[simp] theorem desks_surveyRead (j : MountJob) (w : Walk) (l : List Sector) (g : GranuleRead)
    (s : State) : desks (surveyRead j w l g s) = desks s := by
  unfold surveyRead
  dsimp only
  split <;> simp

@[simp] theorem desks_surveyHeader (j : MountJob) (i : Sector) (x : SectorHeader) (s : State) :
    desks (surveyHeader j i x s) = desks s := by
  unfold surveyHeader
  dsimp only
  split <;> simp

@[simp] theorem desks_mountRead (j : MountJob) (v : ArrayContents) (s : State) :
    desks (mountRead j v s) = desks s := by
  unfold mountRead
  split <;> simp

@[simp] theorem desks_mountProgram (j : MountJob) (ok : Bool) (s : State) :
    desks (mountProgram j ok s) = desks s := by
  unfold mountProgram
  repeat' split
  all_goals simp

@[simp] theorem desks_mountErased (j : MountJob) (ok : Bool) (s : State) :
    desks (mountErased j ok s) = desks s := by
  unfold mountErased repairErased
  repeat' split
  all_goals simp

end Sys2Proof.Machine
end

section
/-! SUPPORT. The procedures that move the desks: notices placed, a transaction closed or taken back, FORMAT's
start; and what goes on from them. -/

namespace Sys2Proof.Machine

open Sys2Proof

section Moves

variable {a : Port → Desk}

/-! ### Operations that move the desks -/

/-- One port's desk is reached from its own in `a`, the others stay. -/
theorem moves_setPort {s : State} {p : Port} {u : PortUnit} (hu : DeskMoves (a p) u.desk)
    (h : DesksMove a (desks s)) : DesksMove a (desks (s.setPort p u)) := by
  intro q
  unfold desks
  rw [State.setPort_port]
  split
  · rename_i e
    subst e
    exact hu
  · exact h q

@[simp] theorem moves_notify (p : Port) (n : Notice) {s : State} (h : DesksMove a (desks s)) :
    DesksMove a (desks (notify p n s)) := by
  unfold notify
  split
  · exact moves_setPort (.place n (h p)) h
  · exact h

@[simp] theorem moves_notifyAll (l : List (Port × Notice)) {s : State} (h : DesksMove a (desks s)) :
    DesksMove a (desks (notifyAll l s)) := by
  induction l generalizing s with
  | nil => exact h
  | cons x xs ih => exact ih (moves_notify x.1 x.2 h)

@[simp] theorem moves_runLeases (f : Lease → LeaseFate) {s : State} (h : DesksMove a (desks s)) :
    DesksMove a (desks (runLeases f s)) := by
  rw [runLeases_eq]
  exact moves_notifyAll _ (by simpa using h)

@[simp] theorem moves_routeChange (o : Port) (k : Key) (n : Notice) {s : State}
    (h : DesksMove a (desks s)) : DesksMove a (desks (routeChange o k n s)) :=
  moves_notifyAll _ h

@[simp] theorem moves_closeTxn (p : Port) {s : State} (h : DesksMove a (desks s)) :
    DesksMove a (desks (closeTxn p s)) := moves_setPort (.closed (h p)) h

theorem moves_closeOpenTxn {d : Desk} {u : PortUnit} (h : DeskMoves d u.desk) :
    DeskMoves d (closeOpenTxn u).desk := by
  unfold closeOpenTxn
  split
  · exact .closed h
  · exact h

@[simp] theorem moves_takeAbandonment {s : State} (h : DesksMove a (desks s)) :
    DesksMove a (desks (takeAbandonment s)) := by
  unfold takeAbandonment formatStart
  dsimp only
  rw [desks_formatMark, desks_setSpace, desks_setEngine]
  intro p
  unfold desks State.port
  rw [Ports.get_each]
  exact moves_closeOpenTxn (moves_runLeases dropLease (by simpa using h) p)

@[simp] theorem moves_formatGrant (p : Port) {s : State} (h : DesksMove a (desks s)) :
    DesksMove a (desks (formatGrant p s)) := by
  unfold formatGrant
  dsimp only
  split
  · exact moves_takeAbandonment (by simpa using h)
  · simpa using h

/-! ### The write path -/

@[simp] theorem moves_commitStart (p : Port) {s : State} (h : DesksMove a (desks s)) :
    DesksMove a (desks (commitStart p s)) := by
  unfold commitStart
  rw [desks_writeRoom]
  exact moves_setPort (.held (st := .committing) (by decide) (h p)) h

@[simp] theorem moves_writeEnd (j : WriteJob) (bs : List Byte) {s : State}
    (h : DesksMove a (desks s)) : DesksMove a (desks (writeEnd j bs s)) := by
  unfold writeEnd
  dsimp only
  split <;> simp [h]

@[simp] theorem moves_writeOk (j : WriteJob) {s : State} (h : DesksMove a (desks s)) :
    DesksMove a (desks (writeOk j s)) := moves_writeEnd j _ h

@[simp] theorem moves_writeStoreFull (j : WriteJob) {s : State} (h : DesksMove a (desks s)) :
    DesksMove a (desks (writeStoreFull j s)) := by
  unfold writeStoreFull
  dsimp only
  split
  · rw [desks_respond, desks_setJob]
    exact moves_setPort (.held (st := .open_) (by decide) (h j.port)) h
  · exact moves_writeEnd j _ h

@[simp] theorem moves_writeAfterFailure (j : WriteJob) {s : State} (h : DesksMove a (desks s)) :
    DesksMove a (desks (writeAfterFailure j s)) := by
  unfold writeAfterFailure writeMediaError
  split <;> simp [h]

@[simp] theorem moves_writeRefused (j : WriteJob) {s : State} (h : DesksMove a (desks s)) :
    DesksMove a (desks (writeRefused j s)) := by
  unfold writeRefused writeMediaError
  split <;> simp [h]

@[simp] theorem moves_commitPoint (j : WriteJob) {s : State} (h : DesksMove a (desks s)) :
    DesksMove a (desks (commitPoint j s)) := by
  unfold commitPoint
  dsimp only
  split <;> simp [h]

/-! ### Continuations -/

@[simp] theorem moves_retireThen {q : Requester} {i : Sector} {wait go : State → State}
    (hw : ∀ u, DesksMove a (desks u) → DesksMove a (desks (wait u)))
    (hg : ∀ u, DesksMove a (desks u) → DesksMove a (desks (go u))) {s : State}
    (h : DesksMove a (desks s)) : DesksMove a (desks (retireThen q i wait go s)) := by
  unfold retireThen
  split
  · exact hg s h
  · exact hw _ (by simpa using h)

@[simp] theorem moves_drainGo {go : State → State}
    (hg : ∀ u, DesksMove a (desks u) → DesksMove a (desks (go u))) {s : State}
    (h : DesksMove a (desks s)) : DesksMove a (desks (drainGo go s)) := by
  unfold drainGo
  split
  · exact moves_takeAbandonment h
  · exact hg s h

@[simp] theorem moves_activationGo {j : ActivationJob} {go : State → State}
    (hg : ∀ u, DesksMove a (desks u) → DesksMove a (desks (go u))) {s : State}
    (h : DesksMove a (desks s)) : DesksMove a (desks (activationGo j go s)) := by
  unfold activationGo
  split
  · exact moves_drainGo hg h
  · exact hg s h

/-- A requester goes on after the end of its operation. -/
theorem moves_afterOutcome {q : Requester} {first : Bool} {go : State → State}
    (hg : ∀ u, DesksMove a (desks u) → DesksMove a (desks (go u))) {s : State}
    (h : DesksMove a (desks s)) : DesksMove a (desks (afterOutcome q first go s)) := by
  obtain ⟨c, -, e⟩ := afterOutcome_eq q first go s
  rw [e, desks_arbitrate]
  exact hg _ (by simpa using h)

theorem moves_checked {p : Port} {cs : List (Option Result)} {go : State → State}
    (hg : ∀ u, DesksMove a (desks u) → DesksMove a (desks (go u))) {s : State}
    (h : DesksMove a (desks s)) : DesksMove a (desks (checked p cs go s)) := by
  unfold checked
  split
  · simpa using h
  · exact hg s h

theorem moves_grantCommand {c : Code} {p : Port} {procedure : Frame → State → State}
    (hg : ∀ f u, DesksMove a (desks u) → DesksMove a (desks (procedure f u))) {s : State}
    (h : DesksMove a (desks s)) : DesksMove a (desks (grantCommand c p procedure s)) := by
  unfold grantCommand
  dsimp only
  repeat' split
  · simpa using h
  · simpa using h
  · exact hg _ _ (by simpa using h)
  · exact h
  · exact h

/-! ### The ends of array operations -/

@[simp] theorem moves_writeProgram (j : WriteJob) (ok : Bool) {s : State}
    (h : DesksMove a (desks s)) : DesksMove a (desks (writeProgram j ok s)) := by
  have failed : DesksMove a (desks (retireThen .engine j.place.sector
      (putWrite { j with phase := .retire }) (writeAfterFailure j) s)) :=
    moves_retireThen (fun u hu => by simpa using hu) (fun u hu => moves_writeAfterFailure j hu) h
  unfold writeProgram
  dsimp only
  repeat' split
  all_goals simp [h, failed]

/-- A failure in a pass: the failed sector is retired, and the pass goes on. -/
@[simp] theorem moves_passFailure {i : Sector} {ph : DrainPhase} {go : State → State}
    (hg : ∀ u, DesksMove a (desks u) → DesksMove a (desks (go u))) {s : State}
    (h : DesksMove a (desks s)) :
    DesksMove a (desks (retireThen .drain i (drainPhase ph) (drainGo go) s)) :=
  moves_retireThen (fun _ hu => by simpa using hu) (fun _ hu => moves_drainGo hg hu) h

@[simp] theorem moves_drainProgram (ok : Bool) {s : State} (h : DesksMove a (desks s)) :
    DesksMove a (desks (drainProgram ok s)) := by
  unfold drainProgram
  dsimp only
  repeat' split
  all_goals simp [h]

@[simp] theorem moves_drainErased (ok : Bool) {s : State} (h : DesksMove a (desks s)) :
    DesksMove a (desks (drainErased ok s)) := by
  unfold drainErased
  repeat' split
  all_goals simp [h]

@[simp] theorem moves_answerRoom (q : Requester) (c : Place) {s : State}
    (h : DesksMove a (desks s)) : DesksMove a (desks (answerRoom q c s)) := by
  unfold answerRoom
  dsimp only
  split <;> simp [h]

@[simp] theorem moves_allocateByActivation (q : Requester) (n : AllocRequest) {s : State}
    (h : DesksMove a (desks s)) : DesksMove a (desks (allocateByActivation q n s)) := by
  unfold allocateByActivation refuseRoom
  dsimp only
  repeat' split
  all_goals simp [h]

@[simp] theorem moves_allocateFrom (q : Requester) (n : AllocRequest) (i : Sector) {s : State}
    (h : DesksMove a (desks s)) : DesksMove a (desks (allocateFrom q n i s)) := by
  simp [allocateFrom, h]

@[simp] theorem moves_allocate (q : Requester) (n : AllocRequest) {s : State}
    (h : DesksMove a (desks s)) : DesksMove a (desks (allocate q n s)) := by
  unfold allocate
  repeat' split
  all_goals simp [h]

@[simp] theorem moves_activationDone (j : ActivationJob) {s : State}
    (h : DesksMove a (desks s)) : DesksMove a (desks (activationDone j s)) := by
  unfold activationDone
  dsimp only
  repeat' split
  all_goals simp [h]

@[simp] theorem moves_activationAgain (j : ActivationJob) {s : State}
    (h : DesksMove a (desks s)) : DesksMove a (desks (activationAgain j s)) := by
  unfold activationAgain
  dsimp only
  repeat' split
  all_goals simp [h]

@[simp] theorem moves_activationProgram (j : ActivationJob) (ok : Bool) {s : State}
    (h : DesksMove a (desks s)) : DesksMove a (desks (activationProgram j ok s)) := by
  have again : ∀ u, DesksMove a (desks u) →
      DesksMove a (desks (activationGo j (activationAgain j) u)) :=
    fun u hu => moves_activationGo (fun v hv => moves_activationAgain j hv) hu
  have done : ∀ u, DesksMove a (desks u) →
      DesksMove a (desks (activationGo j (activationDone j) u)) :=
    fun u hu => moves_activationGo (fun v hv => moves_activationDone j hv) hu
  unfold activationProgram
  dsimp only
  repeat' split
  all_goals simp +contextual [h, again, done]

theorem moves_readEnded (q : Requester) (i : Sector) (g : Nat) (v : ArrayContents) {s : State}
    (h : DesksMove a (desks s)) : DesksMove a (desks (readEnded q i g v s)) := by
  unfold readEnded
  repeat' split
  all_goals simp [h]

theorem moves_programEnded (q : Requester) (ok : Bool) {s : State} (h : DesksMove a (desks s)) :
    DesksMove a (desks (programEnded q ok s)) := by
  have job : DesksMove a (desks (jobProgram q ok s)) := by
    unfold jobProgram
    repeat' split
    all_goals simp [h]
  unfold programEnded
  repeat' split
  · simp [h]
  · exact job
  · exact job

theorem moves_eraseEnded (q : Requester) (ok : Bool) {s : State} (h : DesksMove a (desks s)) :
    DesksMove a (desks (eraseEnded q ok s)) := by
  unfold eraseEnded
  repeat' split
  all_goals simp [h]

theorem moves_endProgram (met : ArrayContents) (ok : Bool) (left : SpanLeft) (first : Bool)
    (q : Requester) (op : ArrayOp) {s : State} (h : DesksMove a (desks s)) :
    DesksMove a (desks (endProgram met ok left first q op s)) := by
  unfold endProgram
  exact moves_afterOutcome (fun _ hu => moves_programEnded q ok hu) (by simpa using h)

theorem moves_endErase (ok : Bool) (left : SectorImage) (first : Bool) (e : EraseJob) {s : State}
    (h : DesksMove a (desks s)) : DesksMove a (desks (endErase ok left first e s)) := by
  unfold endErase
  exact moves_afterOutcome (fun _ hu => moves_eraseEnded e.requester ok hu) (by simpa using h)

end Moves

end Sys2Proof.Machine
end

section
/-! SUPPORT. What every command and every step does to the desks. -/

namespace Sys2Proof.Machine

open Sys2Proof

/-! ### The window and the edges -/

@[simp] theorem desk_writeCmd (b : Byte) (u : PortUnit) : (writeCmd b u).desk = u.desk := by
  unfold writeCmd
  repeat' split
  all_goals rfl

@[simp] theorem desk_writeParam (b : Byte) (u : PortUnit) : (writeParam b u).desk = u.desk := by
  unfold writeParam
  split <;> rfl

@[simp] theorem desk_writeSubmit (u : PortUnit) : (writeSubmit u).desk = u.desk := by
  unfold writeSubmit
  split <;> rfl

@[simp] theorem desk_readResp (u : PortUnit) : (readResp u).desk = u.desk := by
  unfold readResp
  split <;> rfl

@[simp] theorem desk_completeTeardown (u : PortUnit) : (completeTeardown u).desk = u.desk := by
  unfold completeTeardown
  split <;> rfl

section Units

variable {d : Desk} {u : PortUnit} (h : DeskMoves d u.desk)
include h

theorem moves_writeStage (b : Byte) : DeskMoves d (writeStage b u).desk := by
  unfold writeStage
  split
  · rename_i hs
    exact .staged hs h
  · exact h

theorem moves_readNotice : DeskMoves d (readNotice u).desk := by
  unfold readNotice
  split
  · exact h
  · exact .take h

/-- A teardown's beginning closes an OPEN transaction and empties the queue (R191). -/
theorem moves_teardownBegin : DeskMoves d (teardownBegin u).desk := .empty (moves_closeOpenTxn h)

theorem moves_writeControl (b : Byte) : DeskMoves d (writeControl b u).desk := by
  unfold writeControl
  repeat' split
  · exact moves_teardownBegin h
  · exact h
  · exact h

theorem moves_writeRegister (o : Fin 16) (b : Byte) : DeskMoves d (writeRegister o b u).desk := by
  unfold writeRegister
  split
  case h_6 => exact moves_writeStage h b
  case h_7 => exact moves_writeControl h b
  case h_1 | h_2 | h_3 => simpa using h
  all_goals exact h

theorem moves_powerFall : DeskMoves d (powerFall u).desk := by
  unfold powerFall
  split
  · exact moves_teardownBegin h
  · exact h

theorem moves_powerRise : DeskMoves d (powerRise u).desk := by
  unfold powerRise
  split
  · exact .empty (.reset h)
  · exact h

end Units

section Accesses

variable {a : Port → Desk} {p : Port} {f : PortUnit → PortUnit}
  (hf : ∀ {d u}, DeskMoves d (PortUnit.desk u) → DeskMoves d (f u).desk)
include hf

theorem moves_hostWrite {s : State} (h : DesksMove a (desks s)) :
    DesksMove a (desks (hostWrite p f s)) := by
  unfold hostWrite
  split
  · exact moves_setPort (hf (h p)) h
  · exact h

theorem moves_hostRead (o : Fin 16) {s : State} (h : DesksMove a (desks s)) :
    DesksMove a (desks (hostRead p o f s)) := by
  refine moves_setPort ?_ h
  show DeskMoves (a p) (if busTaken s p then f (s.port p) else s.port p).desk
  split
  · exact hf (h p)
  · exact h p

theorem moves_powerEdge (level : Bool) {s : State} (h : DesksMove a (desks s)) :
    DesksMove a (desks (powerEdge p level f s)) := by
  refine moves_setPort ?_ h
  split
  · exact h p
  · exact hf (h p)

end Accesses

/-! ### The granted commands -/

section Commands

variable {a : Port → Desk} {s t : State}

theorem moves_fetchProcedure (p : Port) (f : Frame) (h : DesksMove a (desks s)) :
    DesksMove a (desks (fetchProcedure p f s)) := by
  unfold fetchProcedure
  split
  · simpa using h
  · refine moves_checked (fun u hu => ?_) h
    split <;> simpa using hu

theorem moves_probeProcedure (p : Port) (f : Frame) (h : DesksMove a (desks s)) :
    DesksMove a (desks (probeProcedure p f s)) := by
  unfold probeProcedure
  split
  · simpa using h
  · exact moves_checked (fun u hu => by simpa using hu) h

theorem moves_scanProcedure (p : Port) (f : Frame) (h : DesksMove a (desks s)) :
    DesksMove a (desks (scanProcedure p f s)) := by
  unfold scanProcedure
  split
  · simpa using h
  · exact moves_checked (fun u hu => by simpa using hu) h

/-- A PUT_OPEN frame in range declares at most 1024 bytes (R25). -/
theorem putOpenParams_length {f : Frame} {k : Key} {L : Nat} {c : Condition}
    (h : putOpenParams f = some (k, L, c)) : L ≤ 1024 := by
  unfold putOpenParams at h
  split at h
  · split at h
    · cases h
    · cases h
      omega
  · cases h

theorem moves_putOpenProcedure (p : Port) (f : Frame) (h : DesksMove a (desks s)) :
    DesksMove a (desks (putOpenProcedure p f s)) := by
  unfold putOpenProcedure
  split
  · simpa using h
  · rename_i k L c hf
    refine moves_checked (fun u hu => ?_) h
    rw [desks_reply]
    exact moves_setPort (.opened k c (putOpenParams_length hf) (hu p)) hu

theorem moves_putCommitProcedure (p : Port) (h : DesksMove a (desks s)) :
    DesksMove a (desks (putCommitProcedure p s)) :=
  moves_checked (fun _ hu => moves_commitStart p hu) h

theorem moves_putCancelProcedure (p : Port) (h : DesksMove a (desks s)) :
    DesksMove a (desks (putCancelProcedure p s)) := by
  unfold putCancelProcedure
  split <;> simp [h]

theorem moves_removeProcedure (p : Port) (f : Frame) (h : DesksMove a (desks s)) :
    DesksMove a (desks (removeProcedure p f s)) := by
  unfold removeProcedure
  split
  · simpa using h
  · exact moves_checked (fun u hu => by simpa using hu) h

theorem moves_leaseTakeProcedure (p : Port) (f : Frame) (h : DesksMove a (desks s)) :
    DesksMove a (desks (leaseTakeProcedure p f s)) := by
  unfold leaseTakeProcedure
  split
  · simpa using h
  · exact moves_checked (fun u hu => by simpa using hu) h

theorem moves_leaseRenewProcedure (p : Port) (f : Frame) (h : DesksMove a (desks s)) :
    DesksMove a (desks (leaseRenewProcedure p f s)) := by
  unfold leaseRenewProcedure
  split
  · simpa using h
  · refine moves_checked (fun u hu => ?_) h
    split <;> simpa using hu

theorem moves_leaseDropProcedure (p : Port) (f : Frame) (h : DesksMove a (desks s)) :
    DesksMove a (desks (leaseDropProcedure p f s)) := by
  unfold leaseDropProcedure
  split
  · simpa using h
  · refine moves_checked (fun u hu => ?_) h
    split <;> simp [hu]

theorem moves_watchProcedure (p : Port) (f : Frame) (h : DesksMove a (desks s)) :
    DesksMove a (desks (watchProcedure p f s)) := by
  unfold watchProcedure
  split
  · simpa using h
  · exact moves_checked (fun u hu => by simpa using hu) h

theorem moves_unwatchProcedure (p : Port) (f : Frame) (h : DesksMove a (desks s)) :
    DesksMove a (desks (unwatchProcedure p f s)) := by
  unfold unwatchProcedure
  split
  · simpa using h
  · exact moves_checked (fun u hu => by simpa using hu) h

theorem moves_storeTuneProcedure (p : Port) (f : Frame) (h : DesksMove a (desks s)) :
    DesksMove a (desks (storeTuneProcedure p f s)) := by
  unfold storeTuneProcedure
  split <;> simpa using h

theorem moves_reclaimProcedure (p : Port) (h : DesksMove a (desks s)) :
    DesksMove a (desks (reclaimProcedure p s)) :=
  moves_checked (fun u hu => by simpa using hu) h

theorem moves_nsSetProcedure (p : Port) (f : Frame) (h : DesksMove a (desks s)) :
    DesksMove a (desks (nsSetProcedure p f s)) := by
  unfold nsSetProcedure setRights putNs
  repeat' split
  all_goals simp [h]

theorem moves_nsFreezeProcedure (p : Port) (f : Frame) (h : DesksMove a (desks s)) :
    DesksMove a (desks (nsFreezeProcedure p f s)) := by
  unfold nsFreezeProcedure putNs
  repeat' split
  all_goals simpa using h

/-! ### Every command -/

/-- A reset gives every port an empty desk (R193). -/
theorem moves_resetPart (names : Vector NsEntry 8) (n : Nat) (low : Bool) (x : ArrayContents)
    (h : DesksMove a (desks s)) : DesksMove a (desks (resetPart names n low x s)) := by
  intro p
  unfold desks resetPart State.port
  rw [Ports.get_each]
  exact .empty (.reset (h p))

theorem moves_teardownProcedure (p : Port) (h : DesksMove a (desks s)) :
    DesksMove a (desks (teardownProcedure p s)) := by
  have hrun : DesksMove a (desks (runLeases (dropPortFromLease p) s)) := moves_runLeases _ h
  unfold teardownProcedure
  dsimp only
  refine moves_setPort ?_ hrun
  rw [desk_completeTeardown]
  exact hrun p

theorem moves_teardownRequest (p : Port) (h : DesksMove a (desks s))
    (he : execTeardownRequest p s = .next t) : DesksMove a (desks t) := by
  unfold execTeardownRequest at he
  split at he <;> cases he
  · exact moves_teardownProcedure p h
  · exact h

theorem moves_resetNRise (h : DesksMove a (desks s)) (he : execResetNRise s = .next t) :
    DesksMove a (desks t) := by
  unfold execResetNRise at he
  split at he <;> cases he
  · exact moves_resetPart _ _ _ _ h
  · exact h

theorem moves_relocate (h : DesksMove a (desks s)) (he : execRelocate s = .next t) :
    DesksMove a (desks t) := by
  unfold execRelocate at he
  split at he <;> cases he
  · simpa using h
  · exact h

theorem moves_purge (h : DesksMove a (desks s)) (he : execPurge s = .next t) :
    DesksMove a (desks t) := by
  unfold execPurge at he
  dsimp only at he
  repeat' split at he
  all_goals cases he
  all_goals simpa using h

theorem moves_allocationRequest (q : Requester) (h : DesksMove a (desks s))
    (he : execAllocationRequest q s = .next t) : DesksMove a (desks t) := by
  unfold execAllocationRequest at he
  split at he <;> cases he
  · simp [h]
  · exact h

theorem moves_readComplete (first : Bool) (seen : SectorImage) (h : DesksMove a (desks s))
    (he : execReadComplete first seen s = .next t) : DesksMove a (desks t) := by
  unfold execReadComplete at he
  split at he <;> cases he
  · exact moves_afterOutcome (fun _ hu => moves_readEnded _ _ _ _ hu) h
  · exact h

theorem moves_programComplete (pass : Bool) (left : ProgramLeft) (first : Bool)
    (h : DesksMove a (desks s)) (he : execProgramComplete pass left first s = .next t) :
    DesksMove a (desks t) := by
  unfold execProgramComplete at he
  dsimp only at he
  repeat' split at he
  all_goals cases he
  · exact moves_endProgram _ _ _ _ _ _ h
  · exact h
  · exact h

theorem moves_programTimeout (left : ProgramLeft) (first : Bool) (h : DesksMove a (desks s))
    (he : execProgramTimeout left first s = .next t) : DesksMove a (desks t) := by
  unfold execProgramTimeout at he
  repeat' split at he
  all_goals cases he
  · exact moves_endProgram _ _ _ _ _ _ h
  · exact h
  · exact h

theorem moves_eraseComplete (pass : Bool) (left : SectorImage) (first : Bool)
    (h : DesksMove a (desks s)) (he : execEraseComplete pass left first s = .next t) :
    DesksMove a (desks t) := by
  unfold execEraseComplete at he
  repeat' split at he
  all_goals cases he
  · exact moves_endErase _ _ _ _ h
  · exact h
  · exact h

theorem moves_eraseTimeout (left : SectorImage) (first : Bool) (h : DesksMove a (desks s))
    (he : execEraseTimeout left first s = .next t) : DesksMove a (desks t) := by
  unfold execEraseTimeout at he
  repeat' split at he
  all_goals cases he
  · exact moves_endErase _ _ _ _ h
  · exact h
  · exact h

/-- What any command does to the desks. -/
theorem moves_exec {c : Instr} (h : DesksMove a (desks s)) (he : exec c s = .next t) :
    DesksMove a (desks t) := by
  cases c
  case teardownRequest => exact moves_teardownRequest _ h he
  case resetNRise => exact moves_resetNRise h he
  case relocate => exact moves_relocate h he
  case purge => exact moves_purge h he
  case allocationRequest => exact moves_allocationRequest _ h he
  case readComplete => exact moves_readComplete _ _ h he
  case programComplete => exact moves_programComplete _ _ _ h he
  case programTimeout => exact moves_programTimeout _ _ h he
  case eraseComplete => exact moves_eraseComplete _ _ _ h he
  case eraseTimeout => exact moves_eraseTimeout _ _ h he
  all_goals obtain rfl := Host.Outcome.next.inj he
  case fetch => exact moves_grantCommand (fun f _ hu => moves_fetchProcedure _ f hu) h
  case probe => exact moves_grantCommand (fun f _ hu => moves_probeProcedure _ f hu) h
  case scan => exact moves_grantCommand (fun f _ hu => moves_scanProcedure _ f hu) h
  case putOpen => exact moves_grantCommand (fun f _ hu => moves_putOpenProcedure _ f hu) h
  case putCommit => exact moves_grantCommand (fun _ _ hu => moves_putCommitProcedure _ hu) h
  case putCancel => exact moves_grantCommand (fun _ _ hu => moves_putCancelProcedure _ hu) h
  case remove => exact moves_grantCommand (fun f _ hu => moves_removeProcedure _ f hu) h
  case leaseTake => exact moves_grantCommand (fun f _ hu => moves_leaseTakeProcedure _ f hu) h
  case leaseRenew => exact moves_grantCommand (fun f _ hu => moves_leaseRenewProcedure _ f hu) h
  case leaseDrop => exact moves_grantCommand (fun f _ hu => moves_leaseDropProcedure _ f hu) h
  case watch => exact moves_grantCommand (fun f _ hu => moves_watchProcedure _ f hu) h
  case unwatch => exact moves_grantCommand (fun f _ hu => moves_unwatchProcedure _ f hu) h
  case storeQuery => exact moves_grantCommand (fun _ _ hu => by simpa using hu) h
  case storeTune => exact moves_grantCommand (fun f _ hu => moves_storeTuneProcedure _ f hu) h
  case reclaim => exact moves_grantCommand (fun _ _ hu => moves_reclaimProcedure _ hu) h
  case format => exact moves_grantCommand (fun _ _ hu => by simpa using moves_formatGrant _ hu) h
  case nsSet => exact moves_grantCommand (fun f _ hu => moves_nsSetProcedure _ f hu) h
  case nsFreeze => exact moves_grantCommand (fun f _ hu => moves_nsFreezeProcedure _ f hu) h
  case timebaseStep | leaseExpiry => exact moves_runLeases _ h
  case cmd => exact moves_hostWrite (fun hd => by simpa using hd) h
  case param => exact moves_hostWrite (fun hd => by simpa using hd) h
  case submit => exact moves_hostWrite (fun hd => by simpa using hd) h
  case stage => exact moves_hostWrite (fun hd => moves_writeStage hd _) h
  case flags => exact moves_hostWrite (f := writeFlags _) (fun hd => hd) h
  case portReset | interruptPolarity => exact moves_hostWrite (fun hd => moves_writeControl hd _) h
  case registerWrite => exact moves_hostWrite (fun hd => moves_writeRegister hd _ _) h
  case resp => exact moves_hostRead (fun hd => by simpa using hd) _ h
  case notice => exact moves_hostRead moves_readNotice _ h
  case powerGoodFall => exact moves_powerEdge moves_powerFall _ h
  case powerGoodRise => exact moves_powerEdge moves_powerRise _ h
  case powerOnReset | deviceReset => exact moves_resetPart _ _ _ _ h

/-- What a step does to the desks. -/
theorem moves_step (he : step s = .next t) : DesksMove (desks s) (desks t) := by
  unfold step at he
  split at he
  · cases he
    unfold passTime
    repeat' split
    all_goals exact desksMove_start _
  · rename_i c rest hp
    exact moves_exec (s := { s with pending := rest }) (desksMove_start (desks s)) he

end Commands

end Sys2Proof.Machine
end

section
/-! The staging law along a path of a desk. -/

namespace Sys2Proof.Machine

open Sys2Proof

/-- The staging law of one transaction (R20, R22). -/
def Txn.Lawful (x : Txn) : Prop :=
  x.staged ≤ x.length ∧ x.length ≤ 1024 ∧ (x.state = .none_ → x.staged = 0)

/-- Every move of a desk keeps its transaction's law. -/
theorem DeskMoves.lawful {a d : Desk} (h : DeskMoves a d) (ha : a.txn.Lawful) : d.txn.Lawful := by
  induction h with
  | start => exact ha
  | place _ _ ih | take _ ih | empty _ ih => exact ih
  | opened _ _ hL _ _ => exact ⟨Nat.zero_le _, hL, fun _ => rfl⟩
  | staged hs _ ih =>
    obtain ⟨hopen, hlt⟩ := hs
    exact ⟨hlt, ih.2.1, fun hn => absurd (hopen.symm.trans hn) (by decide)⟩
  | held hst _ ih => exact ⟨ih.1, ih.2.1, fun hn => absurd hn hst⟩
  | closed _ ih => exact ⟨Nat.zero_le _, ih.2.1, fun _ => rfl⟩
  | reset _ _ => exact ⟨Nat.le_refl _, Nat.zero_le _, fun _ => rfl⟩

/-- Settles O7: every step moves each desk along a path, and every move keeps the law. -/
theorem stagingLawIsKept : Obligations.StagingLawIsKept :=
  fun _ _ h he p => (moves_step he p).lawful (h p)

end Sys2Proof.Machine
end

section
/-! The STAGE register (R22). -/

namespace Sys2Proof.Machine

open Sys2Proof

/-- An access that is taken changes its port's unit. -/
theorem hostWrite_taken {s : State} {p : Port} (h : busTaken s p = true) (f : PortUnit → PortUnit) :
    hostWrite p f s = s.setPort p (f (s.port p)) := if_pos h

/-- Settles O23, by the two cases of R22. -/
theorem stageByteIsPlacedOrDropped : Obligations.StageByteIsPlacedOrDropped := by
  rintro s p b u rfl hb
  have hx : exec (.stage p b) s = .next (s.setPort p (writeStage b (s.port p))) :=
    congrArg Host.Outcome.next (hostWrite_taken hb _)
  refine ⟨fun ho hlt hlen => ?_, fun hno => ?_⟩
  · have hw : writeStage b (s.port p) = { s.port p with
        buffer := (s.port p).buffer.setIfInBounds (s.port p).txn.staged b
        txn := { (s.port p).txn with staged := (s.port p).txn.staged + 1 } } := if_pos ⟨ho, hlt⟩
    rw [hw] at hx
    refine ⟨_, hx, by rw [State.setPort_port_self], fun j => ?_⟩
    rw [State.setPort_port_self]
    simp [Vector.getElem_setIfInBounds, eq_comm]
  · rw [hx, writeStage, if_neg]
    rintro ⟨ho, hlt⟩
    rcases hno with hno | hge
    · exact hno ho
    · omega

end Sys2Proof.Machine
end

section
/-! The write commands in the step of their grant: PUT_OPEN, PUT_COMMIT, PUT_CANCEL and REMOVE (R24 to R31, R45,
R46). Each command's checks are written as a list over the state before the grant; the first that refuses gives
the answer. -/

namespace Sys2Proof.Machine

open Sys2Proof

/-! ### The checks -/

/-- A port of the write set of a DEFINED or FROZEN namespace passes the access check (R51, R52). -/
theorem accessRefusal_write {s : State} {p : Port} {ns : Fin 8}
    (hd : (nsEntry s ns).state ≠ .undefined) (hw : hasPort (nsEntry s ns).writers p = true) :
    accessRefusal .write ns p s = none := by
  simp [accessRefusal, hd, hw]

theorem gateRefusal_ready {s : State} (h : s.space.store = .ready) : gateRefusal s = none := by
  simp [gateRefusal, h]

theorem heldByOther_held {s : State} {p : Port} {k : Key} {l : Lease}
    (hl : leaseOn k s.leases = some l) (hp : l.holder ≠ p) : heldByOther p k s = some .held := by
  simp [heldByOther, hl, hp]

theorem heldByOther_free {s : State} {p : Port} {k : Key}
    (h : ∀ l, leaseOn k s.leases = some l → l.holder = p) : heldByOther p k s = none := by
  unfold heldByOther
  split
  · rename_i l hl
    exact if_pos (h l hl)
  · rfl

/-- CREATE fails on a PRESENT key (R24). -/
theorem conditionRefusal_create {e : IndexEntry} (h : e.presence = .present) :
    conditionRefusal .create (some e) = some .exists_ := if_pos h

/-- MATCH fails on a PRESENT key of another version (R24). -/
theorem conditionRefusal_version {e : IndexEntry} {w : Word32} (h : e.presence = .present)
    (hv : e.version ≠ w) : conditionRefusal (.matching w) (some e) = some .versionMismatch := by
  simp [conditionRefusal, h, hv]

/-- MATCH fails on a key that is not PRESENT (R24). -/
theorem conditionRefusal_absent {e : Option IndexEntry} (w : Word32)
    (h : ∀ o, e = some o → o.presence = .deleted) :
    conditionRefusal (.matching w) e = some .notFound := by
  cases e with
  | none => rfl
  | some o => simp [conditionRefusal, h o rfl]

/-- The three ways in which a condition holds (R24). -/
theorem conditionRefusal_pass {c : Condition} {e : Option IndexEntry}
    (h : c = .none_ ∨ (c = .create ∧ ∀ o, e = some o → o.presence = .deleted) ∨
      ∃ o w, c = .matching w ∧ e = some o ∧ o.presence = .present ∧ o.version = w) :
    conditionRefusal c e = none := by
  rcases h with rfl | ⟨rfl, hdel⟩ | ⟨o, w, rfl, rfl, hp, hv⟩
  · rfl
  · cases e with
    | none => rfl
    | some o => simp [conditionRefusal, hdel o rfl]
  · simp [conditionRefusal, hp, hv]

/-- The condition that a frame's bytes spell. -/
theorem conditionIn_frame {cb : Byte} {v : Word32} {c : Condition}
    (h : (cb = 0 ∧ c = .none_) ∨ (cb = 1 ∧ c = .create) ∨ (cb = 2 ∧ v ≠ 0 ∧ c = .matching v)) :
    conditionIn cb.toNat v.toNat = some c := by
  rcases h with ⟨rfl, rfl⟩ | ⟨rfl, rfl⟩ | ⟨rfl, hv, rfl⟩
  · rfl
  · rfl
  · have hv : v.toNat ≠ 0 := fun h0 => hv (BitVec.eq_of_toNat_eq (by simpa using h0))
    simp [conditionIn, hv]

/-! ### The grant and the transaction -/

/-- The grant and a change of the port's transaction may be taken in either order. -/
theorem toRunning_setTxn (p : Port) (x : Txn) (s : State) :
    (toRunning p s).setPort p { (toRunning p s).port p with txn := x } =
      toRunning p (s.setPort p { s.port p with txn := x }) := by
  simp [toRunning, State.setPort, State.setEngine, State.port]

/-- A command of checks over a granted frame whose checks refuse. -/
theorem checked_toRunning_refused {p : Port} {cs : List (Option Result)} {go : State → State}
    {s : State} {r : Result} (h : firstRefusal cs = some r) :
    checked p cs go (toRunning p s) = answered p [resultByte r] s := by
  simp only [checked, h]
  exact reply_toRunning p r [] s

theorem checked_none {p : Port} {cs : List (Option Result)} {go : State → State} {s : State}
    (h : firstRefusal cs = none) : checked p cs go s = go s := by
  simp only [checked, h]

/-! ### PUT_OPEN and PUT_CANCEL -/

/-- PUT_OPEN's checks in order (R26). -/
def openChecks (p : Port) (k : Key) (c : Condition) (s : State) : List (Option Result) :=
  [txnOpenRefusal (s.port p).txn, gateRefusal s, accessRefusal .write k.ns p s, heldByOther p k s,
    conditionRefusal c (entryOf k s.engine.index)]

section PutOpen

variable {s : State} {p : Port} {k : Key} {L : Nat} {cb : Byte} {v : Word32} {c : Condition}
  (hg : FrameGranted s p .putOpen (keyBytes k ++ le16 L ++ [cb] ++ le32 v.toNat)) (hL : L ≤ 1024)
  (hc : (cb = 0 ∧ c = .none_) ∨ (cb = 1 ∧ c = .create) ∨ (cb = 2 ∧ v ≠ 0 ∧ c = .matching v))
include hg hL hc

/-- A granted PUT_OPEN frame in range comes to its checks. -/
theorem exec_putOpen : exec (.putOpen p) s = .next (checked p (openChecks p k c s)
    (fun t => reply p .ok [] (openTxn p k L c t)) (toRunning p s)) := by
  show Host.Outcome.next (grantCommand .putOpen p (putOpenProcedure p) s) = _
  rw [grantCommand_eq _ hg rfl (fun h => by cases h)]
  simp only [putOpenProcedure, putOpenParams_frame k L cb v hL, conditionIn_frame hc, Option.map_some,
    toRunning_txn]
  rfl

theorem exec_putOpen_refused {r : Result} (h : firstRefusal (openChecks p k c s) = some r) :
    exec (.putOpen p) s = .next (answered p [resultByte r] s) := by
  rw [exec_putOpen hg hL hc, checked_toRunning_refused h]

/-- A PUT_OPEN that passes its checks opens the transaction and is answered OK (R27). -/
theorem exec_putOpen_opened (h : firstRefusal (openChecks p k c s) = none) :
    exec (.putOpen p) s = .next (answered p [0x00]
      (s.setPort p { s.port p with txn := ⟨.open_, k, L, c, 0⟩ })) := by
  rw [exec_putOpen hg hL hc, checked_none h, openTxn, toRunning_setTxn, reply_toRunning]
  rfl

end PutOpen

/-- PUT_CANCEL of an OPEN transaction closes it; without one it is refused (R28). -/
theorem exec_putCancel {s : State} {p : Port} (hg : FrameGranted s p .putCancel []) :
    exec (.putCancel p) s = .next
      (if (s.port p).txn.state = .open_ then answered p [0x00] (s.setPort p { s.port p with
        txn := { (s.port p).txn with state := .none_, staged := 0 } })
      else answered p [0x14] s) := by
  show Host.Outcome.next (grantCommand .putCancel p (fun _ => putCancelProcedure p) s) = _
  rw [grantCommand_eq _ hg rfl (fun h => by cases h)]
  simp only [putCancelProcedure, closeTxn, toRunning_setTxn, toRunning_txn, reply_toRunning]
  rfl

theorem txnOpenRefusal_none {x : Txn} (h : x.state = .none_) : txnOpenRefusal x = none := if_pos h

/-- Settles O34: the hypotheses of each clause pass the checks before its own; PUT_CANCEL by its two cases. -/
theorem putOpenOpensAndPutCancelCloses : Obligations.PutOpenOpensAndPutCancelCloses := by
  refine ⟨fun s p k L cb v c hg hL hc => ⟨fun htxn => ?_, fun htxn hr hd hw => ?_⟩,
    fun s p hg => ⟨fun ho => ?_, fun hn => ?_⟩⟩
  · exact exec_putOpen_refused hg hL hc (r := .transactionOpen) (by
      simp [openChecks, firstRefusal, txnOpenRefusal, htxn])
  · have htxn := txnOpenRefusal_none htxn
    have hgate := gateRefusal_ready hr
    have haccess := accessRefusal_write hd hw
    refine ⟨fun l hl hp => ?_, fun hfree => ?_⟩
    · exact exec_putOpen_refused hg hL hc (r := .held) (by
        simp [openChecks, firstRefusal, htxn, hgate, haccess, heldByOther_held hl hp])
    · have hheld := heldByOther_free hfree
      refine ⟨?_, ?_, ?_, fun hpass => ?_⟩
      · rintro e rfl he hp
        exact exec_putOpen_refused hg hL hc (r := .exists_) (by
          simp [openChecks, firstRefusal, htxn, hgate, haccess, hheld, he, conditionRefusal_create hp])
      · rintro e w rfl he hp hv
        exact exec_putOpen_refused hg hL hc (r := .versionMismatch) (by
          simp [openChecks, firstRefusal, htxn, hgate, haccess, hheld, he,
            conditionRefusal_version hp hv])
      · rintro w rfl hdel
        exact exec_putOpen_refused hg hL hc (r := .notFound) (by
          simp [openChecks, firstRefusal, htxn, hgate, haccess, hheld, conditionRefusal_absent w hdel])
      · exact exec_putOpen_opened hg hL hc (by
          simp [openChecks, firstRefusal, htxn, hgate, haccess, hheld, conditionRefusal_pass hpass])
  · rw [exec_putCancel hg, if_pos ho]
  · rw [exec_putCancel hg, if_neg (by simp [hn])]

/-! ### PUT_COMMIT -/

/-- PUT_COMMIT's checks in order (R29). -/
def commitChecks (p : Port) (x : Txn) (s : State) : List (Option Result) :=
  [noTxnRefusal x, gateRefusal s, accessRefusal .write x.key.ns p s, lengthRefusal x,
    heldByOther p x.key s, conditionRefusal x.cond (entryOf x.key s.engine.index),
    quotaRefusal x.key s, capacityRefusal x.key s]

section PutCommit

variable {s : State} {p : Port} (hg : FrameGranted s p .putCommit [])
include hg

/-- A granted PUT_COMMIT frame comes to its checks. -/
theorem exec_putCommit : exec (.putCommit p) s = .next
    (checked p (commitChecks p (s.port p).txn s) (commitStart p) (toRunning p s)) := by
  show Host.Outcome.next (grantCommand .putCommit p (fun _ => putCommitProcedure p) s) = _
  rw [grantCommand_eq _ hg rfl (fun h => by cases h)]
  simp only [putCommitProcedure, toRunning_txn]
  rfl

theorem exec_putCommit_refused {r : Result}
    (h : firstRefusal (commitChecks p (s.port p).txn s) = some r) :
    exec (.putCommit p) s = .next (answered p [resultByte r] s) := by
  rw [exec_putCommit hg, checked_toRunning_refused h]

/-- A commit that passes its checks is COMMITTING and asks for its record's granules (R31). -/
theorem exec_putCommit_started (h : firstRefusal (commitChecks p (s.port p).txn s) = none) :
    exec (.putCommit p) s = .next { s with
      ports := s.ports.set p { s.port p with
        mailbox := { (s.port p).mailbox with state := .running }
        txn := { (s.port p).txn with state := .committing } }
      engine := { s.engine with
        pointer := nextPort p
        job := .write ⟨p, (s.port p).generation, false, (s.port p).txn.key, (s.port p).txn.length, 1,
          ⟨0, 0⟩, 0, .room⟩ }
      space := { s.space with
        allocEngine := some ⟨recordSize (s.port p).txn.length, .commit⟩ } } := by
  rw [exec_putCommit hg, checked_none h]
  simp [commitStart, writeRoom, putWrite, toRunning, State.setPort, State.setEngine, State.setJob,
    State.setSpace, State.port]

end PutCommit

/-- A key that is not PRESENT meets its namespace's quota (R30). -/
theorem quotaRefusal_full {s : State} {k : Key}
    (hdel : ∀ o, entryOf k s.engine.index = some o → o.presence = .deleted)
    (hq : (nsEntry s k.ns).quota ≤ presentIn k.ns s.engine.index) :
    quotaRefusal k s = some .quota := by
  unfold quotaRefusal
  split
  · rename_i he
    cases hdel _ he
  · exact if_pos hq

theorem quotaRefusal_pass {s : State} {k : Key}
    (h : (∃ o, entryOf k s.engine.index = some o ∧ o.presence = .present) ∨
      presentIn k.ns s.engine.index < (nsEntry s k.ns).quota) : quotaRefusal k s = none := by
  unfold quotaRefusal
  split
  · rfl
  · rename_i hno
    rcases h with ⟨o, ho, hp⟩ | hq
    · obtain ⟨key, presence, place, length, version⟩ := o
      cases hp
      exact absurd ho (hno _ _ _ _)
    · exact if_neg (by omega)

/-- An ABSENT key meets a full index (R30). -/
theorem capacityRefusal_full {s : State} {k : Key} (hn : entryOf k s.engine.index = none)
    (hf : 2048 ≤ s.engine.index.length) : capacityRefusal k s = some .indexFull := by
  simp [capacityRefusal, hn, entriesUsed, hf]

theorem capacityRefusal_pass {s : State} {k : Key}
    (h : (∃ o, entryOf k s.engine.index = some o) ∨ s.engine.index.length < 2048) :
    capacityRefusal k s = none := by
  unfold capacityRefusal
  split
  · rfl
  · rename_i hn
    rcases h with ⟨o, ho⟩ | hlt
    · cases hn.symm.trans ho
    · exact if_neg (by simpa [entriesUsed] using hlt)

theorem noTxnRefusal_open {x : Txn} (h : x.state = .open_) : noTxnRefusal x = none := if_pos h

/-- Settles O35: the hypotheses of each clause pass the checks before its own. -/
theorem putCommitChecksInOrder : Obligations.PutCommitChecksInOrder := by
  rintro s p x e rfl rfl hg
  refine ⟨fun ho => ?_, fun ho hro => ?_,
    fun ho hr => ⟨fun hu => ?_, fun hd hnw => ?_, fun hd hw => ?_⟩⟩
  · exact exec_putCommit_refused hg (r := .noTransaction) (by
      simp [commitChecks, firstRefusal, noTxnRefusal, ho])
  · exact exec_putCommit_refused hg (r := .readOnly) (by
      simp [commitChecks, firstRefusal, noTxnRefusal_open ho, gateRefusal, hro])
  · exact exec_putCommit_refused hg (r := .noNamespace) (by
      simp [commitChecks, firstRefusal, noTxnRefusal_open ho, gateRefusal_ready hr, accessRefusal, hu])
  · exact exec_putCommit_refused hg (r := .noAccess) (by
      simp [commitChecks, firstRefusal, noTxnRefusal_open ho, gateRefusal_ready hr, accessRefusal, hd,
        hnw])
  have htxn := noTxnRefusal_open ho
  have hgate := gateRefusal_ready hr
  have haccess := accessRefusal_write hd hw
  refine ⟨fun hne => ?_, fun l heq hl hp => ?_, fun heq hfree => ?_⟩
  · exact exec_putCommit_refused hg (r := .lengthMismatch) (by
      simp [commitChecks, firstRefusal, htxn, hgate, haccess, lengthRefusal, hne])
  · exact exec_putCommit_refused hg (r := .held) (by
      simp [commitChecks, firstRefusal, htxn, hgate, haccess, lengthRefusal, heq,
        heldByOther_held hl hp])
  have hlen : lengthRefusal (s.port p).txn = none := if_pos heq
  have hheld := heldByOther_free hfree
  refine ⟨fun o hcr he hp => ?_, fun o w hm he hp hv => ?_, fun w hm hdel => ?_, fun hpass => ?_⟩
  · exact exec_putCommit_refused hg (r := .exists_) (by
      simp [commitChecks, firstRefusal, htxn, hgate, haccess, hlen, hheld, hcr, he,
        conditionRefusal_create hp])
  · exact exec_putCommit_refused hg (r := .versionMismatch) (by
      simp [commitChecks, firstRefusal, htxn, hgate, haccess, hlen, hheld, hm, he,
        conditionRefusal_version hp hv])
  · exact exec_putCommit_refused hg (r := .notFound) (by
      simp [commitChecks, firstRefusal, htxn, hgate, haccess, hlen, hheld, hm,
        conditionRefusal_absent w hdel])
  have hcond := conditionRefusal_pass hpass
  refine ⟨fun hdel hq => ?_, fun hn hf hq => ?_, fun hroom => ?_⟩
  · exact exec_putCommit_refused hg (r := .quota) (by
      simp [commitChecks, firstRefusal, htxn, hgate, haccess, hlen, hheld, hcond,
        quotaRefusal_full hdel hq])
  · exact exec_putCommit_refused hg (r := .indexFull) (by
      simp [commitChecks, firstRefusal, htxn, hgate, haccess, hlen, hheld, hcond,
        quotaRefusal_pass (.inr hq), capacityRefusal_full hn hf])
  · have hquota := quotaRefusal_pass (hroom.imp_right And.left)
    have hcap := capacityRefusal_pass
      (hroom.elim (fun ⟨o, ho, _⟩ => .inl ⟨o, ho⟩) (fun h => h.2))
    refine ⟨_, exec_putCommit_started hg ?_, rfl, rfl, rfl, rfl, rfl, rfl, rfl⟩
    simp [commitChecks, firstRefusal, htxn, hgate, haccess, hlen, hheld, hcond, hquota, hcap]

/-! ### REMOVE -/

/-- REMOVE's checks in order (R45). -/
def removeChecks (p : Port) (k : Key) (c : Condition) (s : State) : List (Option Result) :=
  [gateRefusal s, accessRefusal .write k.ns p s, heldByOther p k s,
    removeRefusal c (entryOf k s.engine.index)]

section Remove

variable {s : State} {p : Port} {k : Key} {cb : Byte} {v : Word32} {c : Condition}
  (hg : FrameGranted s p .remove (keyBytes k ++ [cb] ++ le32 v.toNat))
  (hc : cb = 0 ∧ c = .none_ ∨ cb = 2 ∧ v ≠ 0 ∧ c = .matching v)
include hg hc

/-- A granted REMOVE frame in range comes to its checks. -/
theorem exec_remove : exec (.remove p) s = .next
    (checked p (removeChecks p k c s) (removeStart p k) (toRunning p s)) := by
  show Host.Outcome.next (grantCommand .remove p (removeProcedure p) s) = _
  rw [grantCommand_eq _ hg rfl (fun h => by cases h)]
  simp only [removeProcedure, removeParams_frame k cb v _ _ c hc]
  rfl

theorem exec_remove_refused {r : Result} (h : firstRefusal (removeChecks p k c s) = some r) :
    exec (.remove p) s = .next (answered p [resultByte r] s) := by
  rw [exec_remove hg hc, checked_toRunning_refused h]

/-- A remove that passes its checks is RUNNING and asks for its tombstone's granule (R46). -/
theorem exec_remove_started (h : firstRefusal (removeChecks p k c s) = none) :
    exec (.remove p) s = .next { s with
      ports := s.ports.set p { s.port p with
        mailbox := { (s.port p).mailbox with state := .running } }
      engine := { s.engine with
        pointer := nextPort p
        job := .write ⟨p, (s.port p).generation, true, k, 0, 1, ⟨0, 0⟩, 0, .room⟩ }
      space := { s.space with allocEngine := some ⟨1, .remove⟩ } } := by
  rw [exec_remove hg hc, checked_none h]
  simp [removeStart, writeRoom, putWrite, toRunning, State.setPort, State.setEngine, State.setJob,
    State.setSpace, State.port, recordSize]

end Remove

/-- REMOVE finds no key that is not PRESENT (R45). -/
theorem removeRefusal_absent {c : Condition} {e : Option IndexEntry}
    (h : ∀ o, e = some o → o.presence = .deleted) : removeRefusal c e = some .notFound := by
  cases e with
  | none => rfl
  | some o => simp [removeRefusal, h o rfl]

/-- On a PRESENT key REMOVE's condition decides (R45). -/
theorem removeRefusal_present {c : Condition} {e : IndexEntry} (h : e.presence = .present) :
    removeRefusal c (some e) = conditionRefusal c (some e) := if_pos h

/-- Settles O36: with either condition, the hypotheses of each clause pass the checks before its own. -/
theorem removeAsksForOneGranule : Obligations.RemoveAsksForOneGranule := by
  intro s p k cb v hg hcb hr hd hw
  obtain ⟨c, hc⟩ : ∃ c, cb = 0 ∧ c = .none_ ∨ cb = 2 ∧ v ≠ 0 ∧ c = Condition.matching v := by
    rcases hcb with h0 | ⟨h2, hv⟩
    · exact ⟨_, .inl ⟨h0, rfl⟩⟩
    · exact ⟨_, .inr ⟨h2, hv, rfl⟩⟩
  have hgate := gateRefusal_ready hr
  have haccess := accessRefusal_write hd hw
  refine ⟨fun l hl hp => ?_, fun hfree => ?_⟩
  · exact exec_remove_refused hg hc (r := .held) (by
      simp [removeChecks, firstRefusal, hgate, haccess, heldByOther_held hl hp])
  have hheld := heldByOther_free hfree
  refine ⟨fun hdel => ?_, fun e he hp => ⟨fun h2 hv => ?_, fun hok => ?_⟩⟩
  · exact exec_remove_refused hg hc (r := .notFound) (by
      simp [removeChecks, firstRefusal, hgate, haccess, hheld, removeRefusal_absent hdel])
  · obtain rfl : c = .matching v :=
      hc.elim (fun h => absurd (h2.symm.trans h.1) (by decide)) (fun h => h.2.2)
    exact exec_remove_refused hg hc (r := .versionMismatch) (by
      simp [removeChecks, firstRefusal, hgate, haccess, hheld, he, removeRefusal_present hp,
        conditionRefusal_version hp hv])
  · have hcond : conditionRefusal c (some e) = none := by
      obtain ⟨-, rfl⟩ | ⟨h2, -, rfl⟩ := hc
      · rfl
      · have hv : e.version = v := hok.resolve_left (fun h0 => absurd (h2.symm.trans h0) (by decide))
        exact conditionRefusal_pass (.inr (.inr ⟨e, v, rfl, rfl, hp, hv⟩))
    refine ⟨_, exec_remove_started hg hc ?_, rfl, rfl, rfl, rfl, rfl, rfl, rfl⟩
    simp [removeChecks, firstRefusal, hgate, haccess, hheld, he, removeRefusal_present hp, hcond]

end Sys2Proof.Machine
end

section
/-! The programs of a write: the commit point of a VALID program that passes (R34 to R37, R46), and the
retirement after a header, payload or VALID program that fails (R38, R112). -/

namespace Sys2Proof.Machine

open Sys2Proof

/-! ### The accounts -/

@[simp] theorem Space.enliven_rec (x : Space) (i k : Sector) (n : Nat) :
    (x.enliven i n).rec_ k = if k = i then
      { x.rec_ i with live := (x.rec_ i).live + n, dead := (x.rec_ i).dead - n }
    else x.rec_ k := Space.setRec_rec _ _ _ _

@[simp] theorem Space.deaden_rec (x : Space) (i k : Sector) (n : Nat) :
    (x.deaden i n).rec_ k = if k = i then
      { x.rec_ i with live := (x.rec_ i).live - n, dead := (x.rec_ i).dead + n }
    else x.rec_ k := Space.setRec_rec _ _ _ _

/-- The accounts where the index first points at a record of a key (R103). -/
theorem Space.repoint_first (x : Space) (e : IndexEntry) (k : Sector) :
    (x.repoint none e).rec_ k = (x.enliven e.place.sector (entrySize e)).rec_ k :=
  Space.listRetired_rec _ _ _

/-- The accounts where the index leaves a place for another (R11, R103). -/
theorem Space.repoint_moved (x : Space) (o e : IndexEntry) (k : Sector) :
    (x.repoint (some o) e).rec_ k =
      ((x.deaden o.place.sector (entrySize o)).enliven e.place.sector (entrySize e)).rec_ k :=
  Space.listRetired_rec _ _ _

section Moved

variable (x : Space) {o e : IndexEntry}

/-- The sector pointed at, where another is left. -/
theorem Space.repoint_new (h : o.place.sector ≠ e.place.sector) :
    (x.repoint (some o) e).rec_ e.place.sector = { x.rec_ e.place.sector with
      live := (x.rec_ e.place.sector).live + entrySize e
      dead := (x.rec_ e.place.sector).dead - entrySize e } := by
  rw [Space.repoint_moved]
  simp [Ne.symm h]

/-- The sector left, where another is pointed at. -/
theorem Space.repoint_old (h : o.place.sector ≠ e.place.sector) :
    (x.repoint (some o) e).rec_ o.place.sector = { x.rec_ o.place.sector with
      live := (x.rec_ o.place.sector).live - entrySize o
      dead := (x.rec_ o.place.sector).dead + entrySize o } := by
  rw [Space.repoint_moved]
  simp [h]

/-- The sector left and pointed at. -/
theorem Space.repoint_same (h : o.place.sector = e.place.sector) :
    (x.repoint (some o) e).rec_ e.place.sector = { x.rec_ e.place.sector with
      live := (x.rec_ e.place.sector).live - entrySize o + entrySize e
      dead := (x.rec_ e.place.sector).dead + entrySize o - entrySize e } := by
  rw [Space.repoint_moved]
  simp [h]

/-- A sector neither left nor pointed at. -/
theorem Space.repoint_other {k : Sector} (hn : k ≠ e.place.sector) (ho : k ≠ o.place.sector) :
    (x.repoint (some o) e).rec_ k = x.rec_ k := by
  rw [Space.repoint_moved]
  simp [hn, ho]

end Moved

/-! ### The end of a write -/

/-- The end of a write changes the ports and frees the engine. -/
theorem writeEnd_rest (j : WriteJob) (bs : List Byte) (s : State) :
    writeEnd j bs s = { s with
      ports := (writeEnd j bs s).ports
      engine := { s.engine with job := .idle } } := by
  unfold writeEnd
  dsimp only
  rw [respond_rest]
  split <;> rfl

theorem closeTxn_port (p q : Port) (s : State) :
    (closeTxn p s).port q = if q = p then
      { s.port q with txn := { (s.port q).txn with state := .none_, staged := 0 } }
    else s.port q := by
  unfold closeTxn
  rw [State.setPort_port]
  split
  · rename_i e
    subst e
    rfl
  · rfl

@[simp] theorem writeEnd_queue (j : WriteJob) (bs : List Byte) (s : State) (q : Port) :
    ((writeEnd j bs s).port q).queue = (s.port q).queue := by
  unfold writeEnd
  rw [respond_queue, State.setJob_port]
  split
  · rfl
  · rw [closeTxn_port]
    split <;> rfl

/-- The response of a write whose port has kept its generation is placed (R180). -/
theorem writeEnd_mailbox {j : WriteJob} {s : State} (h : (s.port j.port).generation = j.gen)
    (bs : List Byte) :
    ((writeEnd j bs s).port j.port).mailbox = ⟨.done, ⟨0, [], false⟩, bs⟩ := by
  unfold writeEnd
  rw [respond_placed]
  · rw [State.setPort_port_self]
  · rw [State.setJob_port]
    split
    · exact h
    · rw [closeTxn_port, if_pos rfl]
      exact h

/-- A commit's end closes its transaction (R37, R39). -/
theorem writeEnd_txn {j : WriteJob} (h : j.tombstone = false) (bs : List Byte) (s : State) :
    ((writeEnd j bs s).port j.port).txn =
      { (s.port j.port).txn with state := .none_, staged := 0 } := by
  unfold writeEnd
  rw [respond_txn, State.setJob_port, h, if_neg (by decide), closeTxn_port, if_pos rfl]

/-! ### The commit point -/

/-- A write's record made current: the index, the accounts and the notices (R34, R35). -/
def makeCurrent (j : WriteJob) (s : State) : State :=
  routeChange j.port j.key (writeNotice j) (pointEntry (writeEntry j) s)

/-- Of what is no port, making a record current changes the index and the sector accounts. -/
theorem makeCurrent_rest (j : WriteJob) (s : State) :
    makeCurrent j s = { s with
      ports := (makeCurrent j s).ports
      engine := { s.engine with index := putEntry (writeEntry j) s.engine.index }
      space := s.space.repoint (entryOf j.key s.engine.index) (writeEntry j) } := by
  unfold makeCurrent
  rw [routeChange_rest]
  rfl

theorem makeCurrent_port (j : WriteJob) (s : State) (q : Port) :
    (makeCurrent j s).port q =
      { s.port q with queue := ((makeCurrent j s).port q).queue } :=
  routeChange_port _ _ _ _ _

/-- One notice to every PRESENT port but the writer that has a matching watch (R90, R91). -/
theorem makeCurrent_queue (j : WriteJob) (s : State) (q : Port) :
    ((makeCurrent j s).port q).queue =
      if (s.port q).link = .present ∧ q ≠ j.port ∧ ∃ w ∈ s.watches, w.port = q ∧
          w.ns = j.key.ns ∧ (w.target = none ∨ w.target = some j.key.id) then
        placeNotice (s.port q).queue (writeNotice j)
      else (s.port q).queue := by
  unfold makeCurrent
  rw [routeChange_queue]
  refine if_congr ?_ rfl rfl
  simp [watchMatches, and_comm, and_left_comm]

/-- An ABSENT key's write is answered at its commit point (R37). -/
theorem commitPoint_new {j : WriteJob} {s : State} (h : entryOf j.key s.engine.index = none) :
    commitPoint j s = writeOk j (makeCurrent j s) := by
  simp only [commitPoint, h]
  rfl

/-- A key's old record is superseded after the commit point (R36). -/
theorem commitPoint_old {j : WriteJob} {s : State} {e : IndexEntry}
    (h : entryOf j.key s.engine.index = some e) :
    commitPoint j s = issue .engine (.programState e.place .superseded)
      (putWrite { j with phase := .supersede } (makeCurrent j s)) := by
  simp only [commitPoint, h]
  rfl

/-- Of what is no port, the commit point changes the index, the accounts, the engine's job and the engine's
place at the array. -/
theorem commitPoint_rest (j : WriteJob) (s : State) :
    ∃ job ctl, commitPoint j s = { s with
      ports := (commitPoint j s).ports
      engine := { s.engine with index := putEntry (writeEntry j) s.engine.index, job := job }
      space := s.space.repoint (entryOf j.key s.engine.index) (writeEntry j)
      ctl := ctl } := by
  cases h : entryOf j.key s.engine.index with
  | none =>
    refine ⟨.idle, s.ctl, ?_⟩
    rw [commitPoint_new h, writeOk, writeEnd_rest, makeCurrent_rest, h]
  | some e =>
    refine ⟨.write { j with phase := .supersede },
      s.ctl.setPlace .engine (some ⟨.programState e.place .superseded, false⟩), ?_⟩
    rw [commitPoint_old h, makeCurrent_rest, h]
    rfl

@[simp] theorem commitPoint_queue (j : WriteJob) (s : State) (q : Port) :
    ((commitPoint j s).port q).queue = ((makeCurrent j s).port q).queue := by
  cases h : entryOf j.key s.engine.index with
  | none => rw [commitPoint_new h, writeOk, writeEnd_queue]
  | some e => rw [commitPoint_old h, issue_port, putWrite_port]

/-! ### The end of a write's program -/

@[simp] theorem opOf_putWrite (r : Requester) (j : WriteJob) (s : State) :
    opOf r (putWrite j s) = opOf r s := opOf_congr r (by rw [putWrite_ctl])

/-- A VALID program passes over an ALLOCATED record where its cells take the value (R140, R143). -/
theorem programPasses_valid {a : ArrayContents} {p : Place} (h : recStateAt a p = some .allocated)
    (left : SpanLeft) : programPasses a true left (.programState p .valid) = true := by
  simp [programPasses, programReachable, h, recReaches, recRank]

/-- The end of an engine program comes to the write in flight where no activation programs for the engine. -/
theorem programEnded_write {j : WriteJob} {s : State} (hn : NoActivationFor .engine s)
    (hj : s.engine.job = .write j) (ok : Bool) (x : ArrayContents) (cc : Controller) :
    programEnded .engine ok ((s.setArray x).setCtl cc) =
      writeProgram j ok ((s.setArray x).setCtl cc) := by
  rw [programEnded_job (s := (s.setArray x).setCtl cc) hn]
  simp only [jobProgram, State.setCtl_engine, State.setArray_engine, hj]

/-- A VALID program of a write that passes brings the write to its commit point. -/
theorem exec_valid_passed {s : State} {j : WriteJob} (left : SpanLeft) (first : Bool)
    (under : UnderErase) (hs : s.ctl.serving = some (.engine, .programState j.place .valid))
    (hn : NoActivationFor .engine s) (hj : s.engine.job = .write j) (hp : j.phase = .valid)
    (ha : recStateAt (metBy s (.programState j.place .valid) under) j.place = some .allocated) :
    ∃ cc, exec (.programComplete true ⟨left, under⟩ first) s =
      .next (arbitrate (commitPoint j ((s.setArray (putRecState
        (metBy s (.programState j.place .valid) under) j.place (some .valid))).setCtl cc))) := by
  obtain ⟨cc, -, hx⟩ := exec_programComplete true first left under hs rfl
  refine ⟨cc, hx.trans ?_⟩
  rw [programPasses_valid ha, programEnded_write hn hj]
  simp only [writeProgram, hp, if_true]
  rfl

/-- Settles O40: the commit point's index and notices, and the accounts with or without an old entry. -/
theorem validProgramMakesTheRecordCurrent : Obligations.ValidProgramMakesTheRecordCurrent := by
  rintro s j left first under new hs hn hj hp ha rfl
  obtain ⟨cc, hx⟩ := exec_valid_passed left first under hs hn hj hp ha
  generalize hu : (s.setArray _).setCtl cc = u at hx
  obtain ⟨job, ctl, hrest⟩ := commitPoint_rest j u
  have hindex : (commitPoint j u).engine.index = putEntry (writeEntry j) s.engine.index := by
    rw [hrest, ← hu]; rfl
  have hspace : (commitPoint j u).space =
      s.space.repoint (entryOf j.key s.engine.index) (writeEntry j) := by
    rw [hrest, ← hu]; rfl
  refine ⟨_, hx, ?_, ?_, fun k hk => ?_, ?_, ?_, ?_, ?_, ?_, fun q => ?_, fun hnone => ?_,
    fun e he => ?_⟩
  · rw [arbitrate_array, hrest, ← hu]
    exact recStateAt_putRecState_self _ _ _
  · rw [arbitrate_engine, hindex, entryOf_putEntry]
    exact if_pos rfl
  · rw [arbitrate_engine, hindex, entryOf_putEntry]
    exact if_neg hk
  · rw [arbitrate_engine, hrest, ← hu]; rfl
  · rw [arbitrate_engine, hrest, ← hu]; rfl
  · rw [arbitrate_leases, hrest, ← hu]; rfl
  · rw [arbitrate_watches, hrest, ← hu]; rfl
  · rw [arbitrate_drain, hrest, ← hu]; rfl
  · rw [arbitrate_port, commitPoint_queue, makeCurrent_queue, ← hu]
    exact if_congr Iff.rfl rfl rfl
  · have hend : commitPoint j u = writeOk j (makeCurrent j u) :=
      commitPoint_new (by rw [← hu]; exact hnone)
    have hrec : ∀ k, (commitPoint j u).space.rec_ k =
        (s.space.enliven j.place.sector (recordSize j.length)).rec_ k := by
      intro k
      rw [hspace, hnone]
      exact Space.repoint_first _ _ _
    have hgen : ((makeCurrent j u).port j.port).generation = (s.port j.port).generation := by
      rw [makeCurrent_port, ← hu]
      rfl
    refine ⟨?_, fun k hk => ?_, ?_, fun hg => ?_, fun ht => ?_⟩
    · rw [arbitrate_space, hrec, Space.enliven_rec, if_pos rfl]
    · rw [arbitrate_space, hrec, Space.enliven_rec, if_neg hk]
    · rw [arbitrate_engine, hend, writeOk, writeEnd_rest]
    · rw [arbitrate_port, hend, writeOk, writeEnd_mailbox (hgen.trans hg)]
      exact ⟨rfl, rfl⟩
    · rw [arbitrate_port, hend, writeOk, writeEnd_txn ht]
      exact ⟨rfl, rfl⟩
  · have hend := commitPoint_old (j := j) (s := u) (e := e) (by rw [← hu]; exact he)
    have hrec : ∀ k, (arbitrate (commitPoint j u)).space.rec_ k =
        (s.space.repoint (some e) (writeEntry j)).rec_ k := by
      intro k
      rw [arbitrate_space, hspace, he]
    refine ⟨?_, ?_, fun hne => ⟨(hrec _).trans (Space.repoint_new _ hne),
      (hrec _).trans (Space.repoint_old _ hne)⟩, fun heq => (hrec _).trans (Space.repoint_same _ heq),
      fun k hk hke => (hrec k).trans (Space.repoint_other _ hk hke)⟩
    · rw [arbitrate_engine, hend]
      rfl
    · rw [opOf_arbitrate, hend, opOf_issue_self]

/-! ### A program that fails -/

/-- A failure in a sector that is not RETIRED retires it and programs RETIRED before its requester goes on. -/
theorem retireThen_retires {r : Requester} {i : Sector} {s : State}
    (h : (s.space.rec_ i).state ≠ .retired) (wait go : State → State) :
    retireThen r i wait go s = wait (issue r (.programMark i .retired) (retireInTable i s)) := if_neg h

/-- After the failure of a header, payload or VALID program a write waits for the RETIRED program (R38, log 12). -/
theorem writeProgram_failed {j : WriteJob} {s : State}
    (hp : j.phase = .header ∨ (∃ r, j.phase = .payload r) ∨ j.phase = .valid)
    (hr : (s.space.rec_ j.place.sector).state ≠ .retired) :
    writeProgram j false s = putWrite { j with phase := .retire }
      (issue .engine (.programMark j.place.sector .retired) (retireInTable j.place.sector s)) := by
  have failed := retireThen_retires (r := .engine) hr (putWrite { j with phase := .retire })
    (writeAfterFailure j)
  rcases hp with hp | ⟨r, hp⟩ | hp
  all_goals
    simp only [writeProgram, hp]
    exact failed

/-- A write's program that fails or times out comes to the write, the array and its controller changed alone. -/
theorem exec_write_failed {s : State} {j : WriteJob} {op : ArrayOp} {pass first : Bool}
    {left : SpanLeft} {under : UnderErase} {c : Instr}
    (hc : c = .programTimeout ⟨left, under⟩ first ∨
      (c = .programComplete pass ⟨left, under⟩ first ∧
        programPasses (metBy s op under) pass left op = false))
    (hs : s.ctl.serving = some (.engine, op)) (hop : isProgram op = true)
    (hn : NoActivationFor .engine s) (hj : s.engine.job = .write j) :
    ∃ u : State, u.space = s.space ∧ u.engine = s.engine ∧ u.ports = s.ports ∧
      exec c s = .next (arbitrate (writeProgram j false u)) := by
  rcases hc with rfl | ⟨rfl, hf⟩
  · obtain ⟨cc, -, hx⟩ := exec_programTimeout left first under hs hop
    rw [programEnded_write hn hj] at hx
    refine ⟨_, ?_, ?_, ?_, hx⟩
    all_goals rfl
  · obtain ⟨cc, -, hx⟩ := exec_programComplete pass first left under hs hop
    rw [hf, programEnded_write hn hj] at hx
    refine ⟨_, ?_, ?_, ?_, hx⟩
    all_goals rfl

/-- The Evacuation List after a retirement (R112, R120). -/
theorem Space.retire_evacuation (i : Sector) (x : Space) :
    (x.retire i).evacuation =
      if 0 < (x.rec_ i).live ∧ i ∉ x.evacuation ∧ x.evacuation.length < 8 then x.evacuation ++ [i]
      else x.evacuation := by
  unfold Space.retire Space.listRetired
  simp only [Space.setRec_rec_self, Space.setRec_evacuation, true_and, List.contains_iff_mem]
  split <;> rfl

theorem retireInTable_evacuation (i : Sector) (s : State) :
    (retireInTable i s).space.evacuation = (s.space.retire i).evacuation := by
  rw [retireInTable_space]
  split <;> rfl

/-- The eighth retired sector makes a READY store READ_ONLY (R114). -/
theorem retireInTable_limit {i : Sector} {s : State} (hr : s.space.store = .ready)
    (h : 8 ≤ (s.space.retire i).retiredCount) :
    (retireInTable i s).space.store = .readOnly ∧
      (retireInTable i s).space.cause = some .retireLimit := by
  rw [retireInTable_space, if_pos ⟨hr, h⟩]
  exact ⟨rfl, rfl⟩

/-- Below eight retired sectors a retirement keeps the store state (R114). -/
theorem retireInTable_store {i : Sector} {s : State} (h : (s.space.retire i).retiredCount < 8) :
    (retireInTable i s).space.store = s.space.store := by
  rw [retireInTable_space, if_neg (by omega), Space.retire_eq]

/-- Settles O41: the failed program ends in a retirement, whose parts are those of `retireInTable`. -/
theorem failedProgramRetiresTheSector : Obligations.FailedProgramRetiresTheSector := by
  rintro s j op pass first left under i c hc hs hop hn hj hp rfl hr
  obtain ⟨u, hspace, hengine, hports, hx⟩ := exec_write_failed hc hs hop hn hj
  rw [writeProgram_failed hp (by rwa [hspace])] at hx
  have hcount := Space.retire_count s.space j.place.sector hr
  rw [← hspace] at hcount
  rw [← hspace, ← hengine]
  refine ⟨_, hx, ?_, fun k hk => ?_, ?_, fun hready h8 => ?_, fun hready h8 => ?_, ?_, ?_,
    fun q => ?_⟩
  · rw [arbitrate_space, putWrite_space, issue_space, retireInTable_rec, if_pos rfl]
  · rw [arbitrate_space, putWrite_space, issue_space, retireInTable_rec, if_neg hk]
  · rw [arbitrate_space, putWrite_space, issue_space, retireInTable_evacuation,
      Space.retire_evacuation]
  · rw [arbitrate_space, putWrite_space, issue_space]
    exact retireInTable_limit hready (by rwa [hcount])
  · rw [arbitrate_space, putWrite_space, issue_space, retireInTable_store (by rwa [hcount]), hready]
  · rw [opOf_arbitrate, opOf_putWrite, opOf_issue_self]
  · rw [arbitrate_engine, putWrite_engine, issue_engine, retireInTable_engine]
  · obtain ⟨b, hb⟩ := retireInTable_port j.place.sector u q
    rw [arbitrate_port, putWrite_port, issue_port, hb]
    exact ⟨congrArg (fun ps => (ps.get q).mailbox) hports,
      congrArg (fun ps => (ps.get q).txn) hports⟩

end Sys2Proof.Machine
end

section
/-! The Namespace Table: what NS_SET and NS_FREEZE do to it, and that besides them a power-on reset
alone changes it (R48, R49, R57, R61, R62). -/

namespace Sys2Proof.Machine

open Sys2Proof

/-! ### The entries -/

/-- An entry stands in what is steady. -/
theorem nsEntry_steady (s : State) (ns : Fin 8) : nsEntry s ns = (steady s).names.get ns := (rfl)

theorem nsEntry_putNs (ns m : Fin 8) (e : NsEntry) (s : State) :
    nsEntry (putNs ns e s) m = if m = ns then e else nsEntry s m := vset_get _ _ _ _

@[simp] theorem nsEntry_reply (p : Port) (r : Result) (fs : List Byte) (s : State) (ns : Fin 8) :
    nsEntry (reply p r fs s) ns = nsEntry s ns := by
  rw [nsEntry_steady, steady_reply, ← nsEntry_steady]

@[simp] theorem nsEntry_runLeases (f : Lease → LeaseFate) (s : State) (ns : Fin 8) :
    nsEntry (runLeases f s) ns = nsEntry s ns := by
  rw [nsEntry_steady, steady_runLeases, ← nsEntry_steady]

/-- NS_SET's change of the table is the entry's replacement (R57). -/
theorem nsEntry_setRights (ns m : Fin 8) (r w : PortSet) (q : Nat) (s : State) :
    nsEntry (setRights ns r w q s) m = if m = ns then ⟨.defined, r, w, q⟩ else nsEntry s m := by
  show nsEntry (runLeases _ (putNs ns ⟨.defined, r, w, q⟩ s)) m = _
  rw [nsEntry_runLeases, nsEntry_putNs]

/-! ### What a FROZEN entry outlasts -/

/-- A granted command keeps a FROZEN entry that its procedure keeps. -/
theorem nsEntry_grantCommand_frozen {c : Code} {p : Port} {procedure : Frame → State → State}
    {s : State} {ns : Fin 8} (h : (nsEntry s ns).state = .frozen)
    (hk : ∀ f u, (nsEntry u ns).state = .frozen → nsEntry (procedure f u) ns = nsEntry u ns) :
    nsEntry (grantCommand c p procedure s) ns = nsEntry s ns := by
  unfold grantCommand
  dsimp only
  repeat' split
  · rw [nsEntry_reply, nsEntry_toRunning]
  · rw [nsEntry_reply, nsEntry_toRunning]
  · rw [hk _ _ (by rwa [nsEntry_toRunning]), nsEntry_toRunning]
  · rfl
  · rfl

theorem nsEntry_nsSetProcedure_frozen {s : State} {ns : Fin 8}
    (h : (nsEntry s ns).state = .frozen) (p : Port) (f : Frame) :
    nsEntry (nsSetProcedure p f s) ns = nsEntry s ns := by
  unfold nsSetProcedure
  split
  · rw [nsEntry_reply]
  · split
    · rw [nsEntry_reply]
    · rename_i m _ _ _ _ hm
      have hne : ns ≠ m := fun e => hm (e ▸ h)
      rw [nsEntry_reply, nsEntry_setRights, if_neg hne]

theorem nsEntry_nsFreezeProcedure_frozen {s : State} {ns : Fin 8}
    (h : (nsEntry s ns).state = .frozen) (p : Port) (f : Frame) :
    nsEntry (nsFreezeProcedure p f s) ns = nsEntry s ns := by
  unfold nsFreezeProcedure
  split
  · rw [nsEntry_reply]
  · split
    · rw [nsEntry_reply]
    · rename_i m _ _ hm
      have hne : ns ≠ m := fun e => absurd ((e ▸ hm).symm.trans h) (by decide)
      rw [nsEntry_reply, nsEntry_putNs, if_neg hne]
    · rw [nsEntry_reply]

/-! ### The commands that keep the whole table -/

@[simp] theorem withLowWater_names (x : Steady) (n : Nat) : (x.withLowWater n).names = x.names :=
  rfl

@[simp] theorem steady_setWatches_names (s : State) (w : List WatchEntry) :
    (steady (s.setWatches w)).names = (steady s).names := (rfl)

@[simp] theorem steady_setArray_names (s : State) (x : ArrayContents) :
    (steady (s.setArray x)).names = (steady s).names := (rfl)

@[simp] theorem steady_setPort_names (s : State) (p : Port) (u : PortUnit) :
    (steady (s.setPort p u)).names = (steady s).names := (rfl)

theorem names_checked {p : Port} {cs : List (Option Result)} {go : State → State}
    (h : ∀ u, (steady (go u)).names = (steady u).names) (s : State) :
    (steady (checked p cs go s)).names = (steady s).names := by
  unfold checked
  split
  · rw [steady_reply]
  · exact h s

theorem names_grantCommand {c : Code} {p : Port} {procedure : Frame → State → State}
    (h : ∀ f u, (steady (procedure f u)).names = (steady u).names) (s : State) :
    (steady (grantCommand c p procedure s)).names = (steady s).names := by
  unfold grantCommand
  dsimp only
  repeat' split
  · simp
  · simp
  · rw [h, steady_toRunning]
  · rfl
  · rfl

theorem names_teardownProcedure (p : Port) (s : State) :
    (steady (teardownProcedure p s)).names = (steady s).names := by
  simp [teardownProcedure]

theorem names_hostWrite (p : Port) (f : PortUnit → PortUnit) (s : State) :
    (steady (hostWrite p f s)).names = (steady s).names := by
  unfold hostWrite
  split <;> rfl

theorem names_endProgram (met : ArrayContents) (ok : Bool) (left : SpanLeft) (first : Bool)
    (r : Requester) (op : ArrayOp) (s : State) :
    (steady (endProgram met ok left first r op s)).names = (steady s).names := by
  unfold endProgram
  rw [steady_afterOutcome (fun u => steady_programEnded r ok u)]
  simp

theorem names_endErase (ok : Bool) (left : SectorImage) (first : Bool) (e : EraseJob) (s : State) :
    (steady (endErase ok left first e s)).names = (steady s).names := by
  unfold endErase
  rw [steady_afterOutcome (fun u => steady_eraseEnded e.requester ok u)]
  simp

/-- The commands that replace an entry of the table, or all of them. -/
def setsNames : Instr → Bool
  | .nsSet _ | .nsFreeze _ | .powerOnReset _ _ => true
  | _ => false

theorem names_exec {c : Instr} {s t : State} (hc : setsNames c = false) (he : exec c s = .next t) :
    (steady t).names = (steady s).names := by
  cases c
  case nsSet | nsFreeze | powerOnReset => cases hc
  case relocate =>
    simp only [exec, execRelocate] at he
    split at he <;> cases he <;> simp
  case purge =>
    simp only [exec, execPurge] at he
    repeat' split at he
    all_goals cases he
    all_goals simp
  case allocationRequest =>
    simp only [exec, execAllocationRequest] at he
    split at he <;> cases he <;> simp
  case teardownRequest =>
    simp only [exec, execTeardownRequest] at he
    split at he <;> cases he
    · exact names_teardownProcedure _ _
    · rfl
  case resetNRise =>
    simp only [exec, execResetNRise] at he
    split at he <;> cases he <;> rfl
  case readComplete =>
    simp only [exec, execReadComplete] at he
    split at he <;> cases he
    · rw [steady_afterOutcome (fun u => steady_readEnded _ _ _ _ u)]
    · rfl
  case programComplete | programTimeout =>
    simp only [exec, execProgramComplete, execProgramTimeout] at he
    repeat' split at he
    all_goals cases he
    · exact names_endProgram _ _ _ _ _ _ _
    all_goals rfl
  case eraseComplete | eraseTimeout =>
    simp only [exec, execEraseComplete, execEraseTimeout] at he
    repeat' split at he
    all_goals cases he
    · exact names_endErase _ _ _ _ _
    all_goals rfl
  all_goals obtain rfl := Host.Outcome.next.inj he
  case fetch | probe | scan | putOpen | remove | leaseTake | leaseRenew | leaseDrop | watch |
      unwatch =>
    refine names_grantCommand (fun f u => ?_) s
    simp only [fetchProcedure, probeProcedure, scanProcedure, putOpenProcedure, removeProcedure,
      leaseTakeProcedure, leaseRenewProcedure, leaseDropProcedure, watchProcedure,
      unwatchProcedure]
    split
    · rw [steady_reply]
    · refine names_checked (fun v => ?_) u
      repeat' split
      all_goals simp
  case putCommit => exact names_grantCommand (fun _ u => names_checked (fun v => by simp) u) s
  case reclaim => exact names_grantCommand (fun _ u => names_checked (fun v => by simp) u) s
  case putCancel =>
    refine names_grantCommand (fun _ u => ?_) s
    unfold putCancelProcedure
    split <;> simp
  case storeTune =>
    refine names_grantCommand (fun _ u => ?_) s
    unfold storeTuneProcedure
    split <;> simp
  case storeQuery | format => exact names_grantCommand (fun _ u => by simp) s
  case timebaseStep | leaseExpiry => simp
  case cmd | param | submit | stage | flags | portReset | interruptPolarity | registerWrite =>
    exact names_hostWrite _ _ s
  case resp | notice | powerGoodFall | powerGoodRise | deviceReset => rfl

/-- A command that is no power-on reset keeps a FROZEN entry (R62). -/
theorem nsEntry_exec_frozen {c : Instr} {s t : State} {ns : Fin 8}
    (h : (nsEntry s ns).state = .frozen) (hc : ∀ span sector, c ≠ .powerOnReset span sector)
    (he : exec c s = .next t) : nsEntry t ns = nsEntry s ns := by
  cases hset : setsNames c with
  | false => rw [nsEntry_steady, names_exec hset he, ← nsEntry_steady]
  | true =>
    cases c
    case nsSet =>
      obtain rfl := Host.Outcome.next.inj he
      exact nsEntry_grantCommand_frozen h (fun f _ hu =>
        nsEntry_nsSetProcedure_frozen hu _ f)
    case nsFreeze =>
      obtain rfl := Host.Outcome.next.inj he
      exact nsEntry_grantCommand_frozen h (fun f _ hu =>
        nsEntry_nsFreezeProcedure_frozen hu _ f)
    case powerOnReset => exact absurd rfl (hc _ _)
    all_goals cases hset

/-! ### The power-on reset and NS_SET on a FROZEN entry -/

theorem namesAtPowerOn_get (ns : Fin 8) : namesAtPowerOn.get ns = ⟨.undefined, 0, 0, 0⟩ := by
  simp [namesAtPowerOn, Vector.get_eq_getElem]

theorem nsEntry_powerOnReset {span : SpanLeft} {sector : EraseCut} {s t : State}
    (he : exec (.powerOnReset span sector) s = .next t) (ns : Fin 8) :
    nsEntry t ns = ⟨.undefined, 0, 0, 0⟩ := by
  obtain rfl := Host.Outcome.next.inj he
  exact namesAtPowerOn_get ns

/-- A granted NS_SET frame in range comes to the test of its entry (R57). -/
theorem exec_nsSet {s : State} {ns : Fin 8} {r w : PortSet} {q : Nat} (hq : q ≤ 2048)
    (hg : FrameGranted s .A .nsSet ([byteOf ns.val, byteOf r.toNat, byteOf w.toNat] ++ le16 q)) :
    exec (.nsSet .A) s = .next (if (nsEntry s ns).state = .frozen then answered .A [0x33] s
      else reply .A .ok [] (setRights ns r w q (toRunning .A s))) := by
  show Host.Outcome.next (grantCommand .nsSet .A (nsSetProcedure .A) s) = _
  rw [grantCommand_eq _ hg rfl (fun _ => rfl)]
  simp only [nsSetProcedure, nsSetParams_frame ns r w q hq, nsEntry_toRunning, reply_toRunning]
  rfl

/-! ### A step -/

/-- A step passes time on an empty queue, or runs the command at the queue's front. -/
theorem step_cases {s t : State} (he : step s = .next t) :
    t = passTime s ∨
      ∃ c rest, s.pending = c :: rest ∧ exec c { s with pending := rest } = .next t := by
  unfold step at he
  split at he
  · exact .inl (Host.Outcome.next.inj he).symm
  · exact .inr ⟨_, _, ‹_›, he⟩

/-- Settles O6: a FROZEN entry and the whole table, command by command. -/
theorem frozenNamespaceKeepsItsRights : Obligations.FrozenNamespaceKeepsItsRights := by
  refine ⟨fun s t ns he hf hc => ?_, fun s t span sector ns he => nsEntry_powerOnReset he ns,
    fun s ns r w q hq hg hf => by rw [exec_nsSet hq hg, if_pos hf], fun s t he hc => ?_⟩
  · obtain rfl | ⟨c, rest, hp, he⟩ := step_cases he
    · rw [nsEntry_steady, steady_passTime, ← nsEntry_steady]
    · refine nsEntry_exec_frozen (s := { s with pending := rest }) hf ?_ he
      rintro span sector rfl
      exact hc ⟨_, rest, hp, rfl⟩
  · obtain rfl | ⟨c, rest, hp, he⟩ := step_cases he
    · exact congrArg Steady.names (steady_passTime s)
    · refine names_exec (s := { s with pending := rest }) (Bool.eq_false_iff.2 fun hset => ?_) he
      refine hc ⟨c, rest, hp, ?_⟩
      cases c
      case nsSet | nsFreeze | powerOnReset => rfl
      all_goals cases hset

end Sys2Proof.Machine
end

section
/-! The state after reset, and NS_FREEZE (R49, R61, R192, R193). -/

namespace Sys2Proof.Machine

open Sys2Proof

/-! ### The state after reset -/

/-- Every port is PRESENT with its window at reset values (R192, R193). -/
theorem reset_port (p : Port) : State.reset.port p = .atReset true := by cases p <;> rfl

theorem reset_nsEntry (ns : Fin 8) : nsEntry State.reset ns = ⟨.undefined, 0, 0, 0⟩ :=
  namesAtPowerOn_get ns

theorem queueLaw_empty : QueueLaw .empty := by
  simp [QueueLaw, NoticeQueue.empty, unopened]

theorem stagingLaw_reset : StagingLaw State.reset := by
  intro p
  rw [reset_port]
  simp [PortUnit.atReset, Txn.empty]

theorem queuesLaw_reset : QueuesLaw State.reset := by
  intro p
  rw [reset_port]
  exact queueLaw_empty

theorem leaseLaw_nil : LeaseLaw [] := by simp [LeaseLaw, holdCount_nil]

theorem watchLaw_nil : WatchLaw [] := by simp [WatchLaw, watchCount]

/-- Settles O4, law by law and value by value. -/
theorem resetStateMeetsTheLaws : Obligations.ResetStateMeetsTheLaws := by
  refine ⟨reset_array_wf, stagingLaw_reset, queuesLaw_reset, leaseLaw_nil, watchLaw_nil,
    List.Pairwise.nil, ?_, rfl, rfl, rfl, rfl, rfl, rfl, reset_nsEntry, fun p => ?_⟩
  · exact ⟨by decide, by decide, List.nodup_nil, by decide⟩
  · rw [reset_port]
    exact ⟨rfl, rfl, rfl, rfl⟩

/-! ### NS_FREEZE -/

/-- The grant and a change of an entry may be taken in either order. -/
theorem putNs_toRunning (ns : Fin 8) (e : NsEntry) (p : Port) (s : State) :
    putNs ns e (toRunning p s) = toRunning p (putNs ns e s) := rfl

/-- A granted NS_FREEZE frame is answered by its procedure. -/
theorem exec_nsFreeze {s : State} {b : Byte} (hg : FrameGranted s .A .nsFreeze [b]) :
    exec (.nsFreeze .A) s =
      .next (nsFreezeProcedure .A ⟨codeByte .nsFreeze, [b], false⟩ (toRunning .A s)) :=
  congrArg Host.Outcome.next (grantCommand_eq _ hg rfl (fun _ => rfl))

theorem nsFreezeParams_frame {b : Byte} {ns : Fin 8} (hb : b.toNat = ns.val) (c : Byte) (o : Bool) :
    nsFreezeParams ⟨c, [b], o⟩ = some ns := by
  simp [nsFreezeParams, param_byte, hb, nsIn]

/-- Settles O52: the range check, then the three states of the entry. -/
theorem nsFreezeByState : Obligations.NsFreezeByState := by
  refine fun s b hg => ⟨fun hb => ?_, fun ns hb => ?_⟩
  · exact parametersOutOfRangeAreRefused s .A .nsFreeze [b] hg rfl (fun _ => rfl) hb
  · rw [exec_nsFreeze hg]
    simp only [nsFreezeProcedure, nsFreezeParams_frame hb, nsEntry_toRunning]
    refine ⟨fun hu => ?_, fun hf => ?_, fun hd => ?_⟩
    · simp only [hu, reply_toRunning]
      rfl
    · simp only [hf, reply_toRunning]
      rfl
    · refine ⟨_, ?_, vset_get_self s.engine.names ns _, fun m hm => vset_get_ne _ _ hm⟩
      simp only [hd, putNs_toRunning, reply_toRunning]
      rfl

end Sys2Proof.Machine
end

section
/-! NS_SET: the entry's replacement and the revocation of what the dropped ports held (R56 to R60, R73). -/

namespace Sys2Proof.Machine

open Sys2Proof

/-! ### Notices and the engine -/

@[simp] theorem notify_setEngine (p : Port) (n : Notice) (s : State) (e : Engine) :
    notify p n (s.setEngine e) = (notify p n s).setEngine e := by
  unfold notify
  rw [State.setEngine_port]
  split <;> rfl

theorem notifyAll_setEngine (l : List (Port × Notice)) (s : State) (e : Engine) :
    notifyAll l (s.setEngine e) = (notifyAll l s).setEngine e := by
  induction l generalizing s with
  | nil => rfl
  | cons x xs ih => simp only [notifyAll, notify_setEngine, ih]

theorem notifyAll_setLeases (l : List (Port × Notice)) (s : State) (ls : List Lease) :
    notifyAll l (s.setLeases ls) = (notifyAll l s).setLeases ls := by
  induction l generalizing s with
  | nil => rfl
  | cons x xs ih => simp only [notifyAll, notify_setLeases, ih]

/-- The grant and a notice may be taken in either order. -/
theorem notify_toRunning (q p : Port) (n : Notice) (s : State) :
    notify q n (toRunning p s) = toRunning p (notify q n s) := by
  unfold notify
  rw [toRunning_link]
  split
  · cases p <;> cases q <;> rfl
  · rfl

theorem notifyAll_toRunning (l : List (Port × Notice)) (p : Port) (s : State) :
    notifyAll l (toRunning p s) = toRunning p (notifyAll l s) := by
  induction l generalizing s with
  | nil => rfl
  | cons x xs ih => simp only [notifyAll, notify_toRunning, ih]

theorem runLeases_toRunning (f : Lease → LeaseFate) (p : Port) (s : State) :
    runLeases f (toRunning p s) = toRunning p (runLeases f s) := by
  rw [runLeases_eq, runLeases_eq, ← notifyAll_toRunning]
  rfl

theorem setRights_toRunning (ns : Fin 8) (r w : PortSet) (q : Nat) (p : Port) (s : State) :
    setRights ns r w q (toRunning p s) = toRunning p (setRights ns r w q s) := by
  unfold setRights
  simp only [nsEntry_toRunning, putNs_toRunning, runLeases_toRunning]
  rfl

/-! ### The fate of a lease -/

/-- A port is dropped where the old set has it and the new one has not (R58). -/
theorem hasPort_droppedFrom (old new : PortSet) (p : Port) :
    hasPort (droppedFrom old new) p = (hasPort old p && !hasPort new p) := by
  cases p <;> simp [hasPort, droppedFrom, portNumber]

/-- The passing of a lease in the words of the statements (R73). -/
theorem passLease_eq (l : Lease) :
    (passLease l).1.toList = passedTo l.waiters l.key ∧
      (passLease l).2 = passNotices l.waiters l.key := by
  unfold passLease passedTo passNotices
  cases l.waiters <;> exact ⟨rfl, rfl⟩

section Revocation

variable {ns : Fin 8} {gone : PortSet} {dropped : Port → Bool}
  (hd : ∀ p, hasPort gone p = dropped p)
include hd

theorem revokeLease_table (l : Lease) :
    (revokeLease ns gone l).1.toList = leaseAfterRevoke ns dropped l := by
  unfold revokeLease leaseAfterRevoke
  simp only [hd]
  by_cases hns : l.key.ns = ns
  · cases dropped l.holder
    · simp [hns]
    · simp [hns, passLease_eq]
  · simp [hns]

theorem revokeLease_notices (l : Lease) :
    (revokeLease ns gone l).2 = revokeNotices ns dropped l := by
  unfold revokeLease revokeNotices
  simp only [hd]
  by_cases hns : l.key.ns = ns
  · cases dropped l.holder
    · simp [hns]
    · simp [hns, passLease_eq]
  · simp [hns]

/-- The Lease Unit's revocation: its notices, and the table after it (R59). -/
theorem runLeases_revokeLease (s : State) :
    runLeases (revokeLease ns gone) s =
      (notifyAll (s.leases.flatMap (revokeNotices ns dropped)) s).setLeases
        (s.leases.flatMap (leaseAfterRevoke ns dropped)) := by
  rw [runLeases_eq, notifyAll_setLeases, List.filterMap_eq_flatMap_toList]
  simp only [revokeLease_table hd, revokeLease_notices hd]

end Revocation

section Places

variable {ns : Fin 8} {dropped : Port → Bool} {l m : Lease}

/-- A lease of another namespace is kept as it is. -/
theorem leaseAfterRevoke_other (h : l.key.ns ≠ ns) : leaseAfterRevoke ns dropped l = [l] := if_pos h

theorem mem_passedTo {kept : List Waiter} {k : Key} (h : m ∈ passedTo kept k) :
    m.key = k ∧ ∀ p, m.holder = p ∨ p ∈ m.waiters.map Waiter.port → p ∈ kept.map Waiter.port := by
  cases kept with
  | nil => cases h
  | cons w ws =>
    obtain rfl := List.mem_singleton.1 h
    refine ⟨rfl, fun p hp => ?_⟩
    rcases hp with rfl | hp
    · exact List.mem_cons_self
    · exact List.mem_cons_of_mem _ hp

/-- What is left of a lease keeps its key; in the namespace no dropped port has a place in it (R59). -/
theorem mem_leaseAfterRevoke (h : m ∈ leaseAfterRevoke ns dropped l) :
    m.key = l.key ∧ (l.key.ns = ns → ∀ p, m.holder = p ∨ p ∈ m.waiters.map Waiter.port →
      dropped p = false) := by
  have hkept : ∀ p, p ∈ (l.waiters.filter (fun w => !dropped w.port)).map Waiter.port →
      dropped p = false := by
    intro p hp
    obtain ⟨w, hw, rfl⟩ := List.mem_map.1 hp
    simpa using (List.mem_filter.1 hw).2
  unfold leaseAfterRevoke at h
  dsimp only at h
  split at h
  · rename_i hns
    obtain rfl := List.mem_singleton.1 h
    exact ⟨rfl, fun e => absurd e hns⟩
  · split at h
    · obtain ⟨hkey, hplace⟩ := mem_passedTo h
      exact ⟨hkey, fun _ p hp => hkept p (hplace p hp)⟩
    · rename_i hholder
      obtain rfl := List.mem_singleton.1 h
      refine ⟨rfl, fun _ p hp => ?_⟩
      rcases hp with rfl | hp
      · exact Bool.eq_false_iff.2 hholder
      · exact hkept p hp

/-- Of another namespace exactly the leases of before are in the table. -/
theorem mem_flatMap_leaseAfterRevoke_other {ls : List Lease} (h : m.key.ns ≠ ns) :
    m ∈ ls.flatMap (leaseAfterRevoke ns dropped) ↔ m ∈ ls := by
  rw [List.mem_flatMap]
  constructor
  · rintro ⟨l, hl, hm⟩
    have hns : l.key.ns ≠ ns := (mem_leaseAfterRevoke hm).1 ▸ h
    rw [leaseAfterRevoke_other hns, List.mem_singleton] at hm
    exact hm ▸ hl
  · intro hm
    exact ⟨m, hm, by rw [leaseAfterRevoke_other h, List.mem_singleton]⟩

end Places

/-! ### The watches -/

theorem mem_revokeWatches (ns : Fin 8) (old new : PortSet) (ws : List WatchEntry) (x : WatchEntry) :
    x ∈ revokeWatches ns (droppedFrom old new) ws ↔
      x ∈ ws ∧ ¬ (x.ns = ns ∧ hasPort old x.port = true ∧ hasPort new x.port = false) := by
  rw [revokeWatches, List.mem_filter]
  refine and_congr_right fun _ => ?_
  rw [hasPort_droppedFrom]
  cases hasPort old x.port <;> cases hasPort new x.port <;> simp

/-! ### The command -/

/-- What NS_SET's change of rights does to the part. -/
theorem setRights_eq {ns : Fin 8} {r w : PortSet} {dropped : Port → Bool} {s : State} (q : Nat)
    (hd : ∀ p, dropped p = (hasPort (nsEntry s ns).writers p && !hasPort w p)) :
    setRights ns r w q s =
      { s with
        ports := (notifyAll (s.leases.flatMap (revokeNotices ns dropped)) s).ports
        engine := { s.engine with names := vset s.engine.names ns ⟨.defined, r, w, q⟩ }
        leases := s.leases.flatMap (leaseAfterRevoke ns dropped)
        watches := revokeWatches ns (droppedFrom (nsEntry s ns).readers r) s.watches } := by
  have hset : ∀ p, hasPort (droppedFrom (nsEntry s ns).writers w) p = dropped p := by
    intro p
    rw [hd, hasPort_droppedFrom]
  unfold setRights putNs
  dsimp only
  rw [runLeases_revokeLease hset, notifyAll_setEngine, notifyAll_rest]
  rfl

/-- An answer leaves every notice queue. -/
theorem answered_queue (p q : Port) (bytes : List Byte) (s : State) :
    ((answered p bytes s).port q).queue = (s.port q).queue := by
  cases p <;> cases q <;> rfl

theorem answered_mailbox (p : Port) (bytes : List Byte) (s : State) :
    ((answered p bytes s).port p).mailbox = ⟨.done, ⟨0, [], false⟩, bytes⟩ := by
  cases p <;> rfl

/-- Settles O51: the parts of `setRights_eq`, and who keeps a place in a lease. -/
theorem nsSetReplacesAndRevokes : Obligations.NsSetReplacesAndRevokes := by
  intro s ns r w q dropped hq hd hg
  refine ⟨fun hf => by rw [exec_nsSet hq hg, if_pos hf], fun hf => ?_⟩
  have hx : exec (.nsSet .A) s = .next (answered .A [0x00] (setRights ns r w q s)) := by
    rw [exec_nsSet hq hg, if_neg hf, setRights_toRunning, reply_toRunning]
    rfl
  have hentry (m : Fin 8) := nsEntry_setRights ns m r w q s
  rw [setRights_eq q hd] at hx hentry
  refine ⟨_, hx, ?_, ?_, rfl, ?_, ?_, ?_, ?_, ?_, ?_, rfl, rfl, rfl, rfl, rfl, rfl⟩
  · exact (hentry ns).trans (if_pos rfl)
  · exact fun m hm => (hentry m).trans (if_neg hm)
  · exact fun p => answered_queue _ _ _ _
  · intro l hl hns p hp hold
    obtain ⟨l', -, hl⟩ := List.mem_flatMap.1 hl
    obtain ⟨hkey, hkeep⟩ := mem_leaseAfterRevoke hl
    have hkept := hkeep (hkey ▸ hns) p hp
    rw [hd, hold] at hkept
    simpa using hkept
  · exact fun l hl => mem_flatMap_leaseAfterRevoke_other hl
  · exact mem_revokeWatches _ _ _ _
  · rw [answered_mailbox]
  · rw [answered_mailbox]

end Sys2Proof.Machine
end

section
/-! The access checks: a frame in range names its namespace, and the command is answered by the check of
R51 and R52 where that refuses. -/

namespace Sys2Proof.Machine

open Sys2Proof

section InRange

variable {f : Frame} {ns : Fin 8}

/-! ### Fields in range -/

theorem nsIn_eq_some {n : Nat} (h : n = ns.val) : nsIn n = some ns := by
  subst h
  exact dif_pos ns.isLt

theorem idIn_eq_some {n : Nat} (h : ¬ 4095 < n) : ∃ id, idIn n = some id :=
  ⟨⟨n, by omega⟩, dif_pos (by omega)⟩

/-- A key in range is of the namespace that its first byte names (R1). -/
theorem keyParam_eq_some (hn : param f 0 1 = ns.val) (hi : ¬ 4095 < param f 1 2) :
    ∃ k, keyParam f = some k ∧ k.ns = ns := by
  obtain ⟨id, hid⟩ := idIn_eq_some hi
  exact ⟨⟨ns, id⟩, by rw [keyParam, nsIn_eq_some hn, hid], rfl⟩

/-- A field of four bytes is 0 only where its two words are. -/
theorem param_long_ne_zero {a : Nat} (h : ¬ (param f a 2 = 0 ∧ param f (a + 2) 2 = 0)) :
    param f a 4 ≠ 0 := by
  have h3 : param f (a + 1) 3 = (f.params.getD (a + 1) 0).toNat + 256 * param f (a + 2) 2 :=
    param_succ f (a + 1) 2
  rw [param_word] at h
  rw [param_succ f a 3, h3]
  omega

/-- A condition in range; it is CREATE only where its byte is 1 (R24). -/
theorem conditionIn_eq_some {b v : Nat} (hb : ¬ 2 < b) (hv : b = 2 → v ≠ 0) :
    ∃ c, conditionIn b v = some c ∧ (c = .create → b = 1) := by
  obtain rfl | rfl | rfl : b = 0 ∨ b = 1 ∨ b = 2 := by omega
  · exact ⟨.none_, rfl, nofun⟩
  · exact ⟨.create, rfl, fun _ => rfl⟩
  · exact ⟨.matching (BitVec.ofNat 32 v), if_neg (hv rfl), nofun⟩

/-- The condition in a frame whose version field starts behind its condition byte. -/
theorem conditionIn_param_eq_some {a : Nat} (hb : ¬ 2 < param f a 1)
    (hv : ¬ (param f a 1 = 2 ∧ param f (a + 1) 2 = 0 ∧ param f (a + 3) 2 = 0)) :
    ∃ c, conditionIn (param f a 1) (param f (a + 1) 4) = some c ∧
      (c = .create → param f a 1 = 1) :=
  conditionIn_eq_some hb fun h2 => param_long_ne_zero fun hz => hv ⟨h2, hz⟩

/-! ### Frames in range -/

section Frames

variable (hn : (f.params.getD 0 0).toNat = ns.val)
include hn

theorem fetchParams_eq_some (h : ¬ OutOfRange .fetch f.params) :
    ∃ k off n, fetchParams f = some (k, off, n) ∧ k.ns = ns := by
  have h : ¬ ((7 < param f 0 1 ∨ 4095 < param f 1 2) ∨
      1024 < param f 3 2 ∨ param f 5 1 = 0 ∨ 240 < param f 5 1) := by
    simp only [param_byte, param_word]
    exact h
  obtain ⟨k, hk, hkns⟩ := keyParam_eq_some ((param_byte f 0).trans hn) (by omega)
  exact ⟨k, _, _, by rw [fetchParams, hk]; exact if_neg (by omega), hkns⟩

theorem scanParams_eq_some (h : ¬ OutOfRange .scan f.params) :
    ∃ start maximum, scanParams f = some (ns, start, maximum) := by
  have h : ¬ (7 < param f 0 1 ∨ 4095 < param f 1 2 ∨ param f 3 1 = 0 ∨ 40 < param f 3 1) := by
    simp only [param_byte, param_word]
    exact h
  exact ⟨_, _, by
    rw [scanParams, nsIn_eq_some ((param_byte f 0).trans hn)]
    exact if_neg (by omega)⟩

theorem putOpenParams_eq_some (h : ¬ OutOfRange .putOpen f.params) :
    ∃ k L c, putOpenParams f = some (k, L, c) ∧ k.ns = ns := by
  have h : ¬ ((7 < param f 0 1 ∨ 4095 < param f 1 2) ∨ 1024 < param f 3 2 ∨ 2 < param f 5 1 ∨
      param f 5 1 = 2 ∧ param f 6 2 = 0 ∧ param f 8 2 = 0) := by
    simp only [param_byte, param_word]
    exact h
  obtain ⟨k, hk, hkns⟩ := keyParam_eq_some ((param_byte f 0).trans hn) (by omega)
  obtain ⟨c, hc, -⟩ := conditionIn_param_eq_some (f := f) (a := 5) (by omega)
    (fun hv => h (.inr (.inr (.inr hv))))
  exact ⟨k, _, c, by rw [putOpenParams, hk, hc]; exact if_neg (by omega), hkns⟩

theorem removeParams_eq_some (h : ¬ OutOfRange .remove f.params) :
    ∃ k c, removeParams f = some (k, c) ∧ k.ns = ns := by
  have h : ¬ ((7 < param f 0 1 ∨ 4095 < param f 1 2) ∨ param f 3 1 = 1 ∨ 2 < param f 3 1 ∨
      param f 3 1 = 2 ∧ param f 4 2 = 0 ∧ param f 6 2 = 0) := by
    simp only [param_byte, param_word]
    exact h
  obtain ⟨k, hk, hkns⟩ := keyParam_eq_some ((param_byte f 0).trans hn) (by omega)
  obtain ⟨c, hc, hcreate⟩ := conditionIn_param_eq_some (f := f) (a := 3) (by omega)
    (fun hv => h (.inr (.inr (.inr hv))))
  refine ⟨k, c, ?_, hkns⟩
  rw [removeParams, hk, hc]
  cases c with
  | create => exact absurd (hcreate rfl) (by omega)
  | none_ | matching => rfl

theorem leaseTakeParams_eq_some (h : ¬ OutOfRange .leaseTake f.params) :
    ∃ k d w, leaseTakeParams f = some (k, d, w) ∧ k.ns = ns := by
  have h : ¬ ((7 < param f 0 1 ∨ 4095 < param f 1 2) ∨ param f 3 2 = 0 ∨ 1 < param f 5 1) := by
    simp only [param_byte, param_word]
    exact h
  obtain ⟨k, hk, hkns⟩ := keyParam_eq_some ((param_byte f 0).trans hn) (by omega)
  exact ⟨k, _, _, by rw [leaseTakeParams, hk]; exact if_neg (by omega), hkns⟩

theorem leaseRenewParams_eq_some (h : ¬ OutOfRange .leaseRenew f.params) :
    ∃ k d, leaseRenewParams f = some (k, d) ∧ k.ns = ns := by
  have h : ¬ ((7 < param f 0 1 ∨ 4095 < param f 1 2) ∨ param f 3 2 = 0) := by
    simp only [param_byte, param_word]
    exact h
  obtain ⟨k, hk, hkns⟩ := keyParam_eq_some ((param_byte f 0).trans hn) (by omega)
  exact ⟨k, _, by rw [leaseRenewParams, hk]; exact if_neg (by omega), hkns⟩

/-- PROBE and LEASE_DROP have a key alone. -/
theorem keyParam_eq_some_of_range (h : ¬ OutOfRange .probe f.params) :
    ∃ k, keyParam f = some k ∧ k.ns = ns := by
  have h : ¬ (7 < param f 0 1 ∨ 4095 < param f 1 2) := by
    simp only [param_byte, param_word]
    exact h
  exact keyParam_eq_some ((param_byte f 0).trans hn) (by omega)

/-- WATCH and UNWATCH have the same range. -/
theorem watchParams_eq_some (h : ¬ OutOfRange .watch f.params) :
    ∃ target, watchParams f = some (ns, target) := by
  have h : ¬ (7 < param f 0 1 ∨ 4095 < param f 1 2 ∧ param f 1 2 ≠ 0xFFFF) := by
    simp only [param_byte, param_word]
    exact h
  rw [watchParams, nsIn_eq_some ((param_byte f 0).trans hn)]
  dsimp only
  split
  · exact ⟨none, rfl⟩
  · obtain ⟨id, hid⟩ := idIn_eq_some (n := param f 1 2) (by omega)
    exact ⟨some id, by rw [hid]⟩

end Frames

end InRange

/-! ### The answer -/

/-- The right that a command needs in its namespace (R52). -/
def rightOf : Code → Right
  | .fetch | .probe | .scan | .watch => .read
  | .leaseTake | .putOpen | .putCommit | .remove => .write
  | _ => .none_

theorem rightOf_eq_read : ∀ c ∈ [Code.fetch, .probe, .scan, .watch], rightOf c = .read := by decide

theorem rightOf_eq_write :
    ∀ c ∈ [Code.leaseTake, .putOpen, .putCommit, .remove], rightOf c = .write := by decide

/-- A command comes to its access check in a namespace: the one its frame names, or its transaction's; the
three writes in a READY store, PUT_OPEN without a transaction and PUT_COMMIT with one open (R26, R29, R45). -/
def ChecksAccess (s : State) (p : Port) (ns : Fin 8) (c : Code) (params : List Byte) : Prop :=
  ((c ∈ [Code.fetch, .probe, .scan, .watch, .unwatch, .leaseTake, .leaseRenew, .leaseDrop] ∨
        (c = .remove ∧ s.space.store = .ready) ∨
        (c = .putOpen ∧ s.space.store = .ready ∧ (s.port p).txn.state = .none_)) ∧
      (params.getD 0 0).toNat = ns.val) ∨
    (c = .putCommit ∧ s.space.store = .ready ∧ (s.port p).txn.state = .open_ ∧
      (s.port p).txn.key.ns = ns)

@[simp] theorem accessRefusal_toRunning (right : Right) (ns : Fin 8) (p q : Port) (s : State) :
    accessRefusal right ns p (toRunning q s) = accessRefusal right ns p s := (rfl)

/-- A granted frame that the command's procedure refuses is answered with that refusal. -/
theorem answered_refusal {s : State} {p : Port} {c : Code} {params : List Byte}
    {procedure : Frame → State → State} {r : Result} (hg : FrameGranted s p c params)
    (hl : params.length = paramCount c) (hs : supervisorOnly c = false)
    (h : procedure ⟨codeByte c, params, false⟩ (toRunning p s) = reply p r [] (toRunning p s)) :
    Host.Outcome.next (grantCommand c p procedure s) =
      (.next (answered p [resultByte r] s) : Host.Outcome State Fault Refusal) := by
  rw [grantCommand_eq procedure hg hl (fun e => by rw [hs] at e; cases e), h, reply_toRunning]

section Refused

variable {s : State} {p : Port} {ns : Fin 8} {c : Code} {params : List Byte} {r : Result}
  (hg : FrameGranted s p c params) (hl : params.length = paramCount c)
  (ho : ¬ OutOfRange c params) (hr : accessRefusal (rightOf c) ns p s = some r)
include hg hl ho hr

/-- A command that comes to its access check is answered by it where it refuses. -/
theorem exec_access_refused (hc : ChecksAccess s p ns c params) :
    exec (grantOf c p) s = .next (answered p [resultByte r] s) := by
  have ho : ¬ OutOfRange c (Frame.params ⟨codeByte c, params, false⟩) := ho
  rcases hc with ⟨hc | ⟨rfl, hready⟩ | ⟨rfl, hready, hnone⟩, hn⟩ | ⟨rfl, hready, hopen, rfl⟩
  · cases c
    all_goals simp only [rightOf] at hr
    case fetch =>
      obtain ⟨k, _, _, hf, rfl⟩ := fetchParams_eq_some hn ho
      exact answered_refusal hg hl rfl (by
        simp only [fetchProcedure, hf, checked, firstRefusal, accessRefusal_toRunning, hr])
    case probe =>
      obtain ⟨k, hf, rfl⟩ := keyParam_eq_some_of_range hn ho
      exact answered_refusal hg hl rfl (by
        simp only [probeProcedure, hf, checked, firstRefusal, accessRefusal_toRunning, hr])
    case scan =>
      obtain ⟨_, _, hf⟩ := scanParams_eq_some hn ho
      exact answered_refusal hg hl rfl (by
        simp only [scanProcedure, hf, checked, firstRefusal, accessRefusal_toRunning, hr])
    case leaseTake =>
      obtain ⟨k, _, _, hf, rfl⟩ := leaseTakeParams_eq_some hn ho
      exact answered_refusal hg hl rfl (by
        simp only [leaseTakeProcedure, hf, checked, firstRefusal, accessRefusal_toRunning, hr])
    case leaseRenew =>
      obtain ⟨k, _, hf, rfl⟩ := leaseRenewParams_eq_some hn ho
      exact answered_refusal hg hl rfl (by
        simp only [leaseRenewProcedure, hf, checked, firstRefusal, accessRefusal_toRunning, hr])
    case leaseDrop =>
      obtain ⟨k, hf, rfl⟩ := keyParam_eq_some_of_range hn ho
      exact answered_refusal hg hl rfl (by
        simp only [leaseDropProcedure, hf, checked, firstRefusal, accessRefusal_toRunning, hr])
    case watch =>
      obtain ⟨_, hf⟩ := watchParams_eq_some hn ho
      exact answered_refusal hg hl rfl (by
        simp only [watchProcedure, hf, checked, firstRefusal, accessRefusal_toRunning, hr])
    case unwatch =>
      obtain ⟨_, hf⟩ := watchParams_eq_some hn ho
      exact answered_refusal hg hl rfl (by
        simp only [unwatchProcedure, hf, checked, firstRefusal, accessRefusal_toRunning, hr])
    all_goals simp at hc
  · have hgate : gateRefusal (toRunning p s) = none := gateRefusal_ready hready
    obtain ⟨k, _, hf, rfl⟩ := removeParams_eq_some hn ho
    simp only [rightOf] at hr
    exact answered_refusal hg hl rfl (by
      simp only [removeProcedure, hf, checked, firstRefusal, hgate, accessRefusal_toRunning, hr])
  · have hgate : gateRefusal (toRunning p s) = none := gateRefusal_ready hready
    obtain ⟨k, _, _, hf, rfl⟩ := putOpenParams_eq_some hn ho
    simp only [rightOf] at hr
    exact answered_refusal hg hl rfl (by
      simp only [putOpenProcedure, hf, checked, firstRefusal, toRunning_txn,
        txnOpenRefusal_none hnone, hgate, accessRefusal_toRunning, hr])
  · obtain rfl := List.length_eq_zero_iff.1 hl
    simp only [rightOf] at hr
    exact exec_putCommit_refused hg (by
      simp only [commitChecks, firstRefusal, noTxnRefusal_open hopen, gateRefusal_ready hready, hr])

end Refused

/-- Settles O20: NO_NAMESPACE and NO_ACCESS are the two refusals of the access check. -/
theorem namespaceChecksRefuse : Obligations.NamespaceChecksRefuse := by
  intro s p ns c params hg hl ho hc
  refine ⟨fun hu => ?_, fun hd => ⟨fun hr hread => ?_, fun hw hwrite => ?_⟩⟩
  · exact exec_access_refused (r := .noNamespace) hg hl ho (if_pos hu) hc
  · refine exec_access_refused (r := .noAccess) hg hl ho ?_ hc
    simp [accessRefusal, rightOf_eq_read c hread, hd, hr]
  · refine exec_access_refused (r := .noAccess) hg hl ho ?_ hc
    simp [accessRefusal, rightOf_eq_write c hwrite, hd, hw]

end Sys2Proof.Machine
end

section
/-! SUPPORT. The Lease Table: what a put does to it, and the law of one lease and of the whole table
through the fates of its leases (R59, R63 to R65, R67, R70 to R75, R77, R80, R83). -/

namespace Sys2Proof.Machine

open Sys2Proof

/-! ### Lookups -/

theorem leaseOn_eq_none {k : Key} {ls : List Lease} :
    leaseOn k ls = none ↔ ∀ l ∈ ls, l.key ≠ k := by simp [leaseOn]

theorem leaseOn_append (k : Key) (as bs : List Lease) :
    leaseOn k (as ++ bs) = (leaseOn k as).or (leaseOn k bs) := List.find?_append

/-- The key order of the Lease Table (R63). -/
def LeaseOrder (ls : List Lease) : Prop := (ls.map (fun l => keyCode l.key)).Pairwise (· < ·)

theorem leaseOrder_cons {l : Lease} {ls : List Lease} :
    LeaseOrder (l :: ls) ↔ (∀ m ∈ ls, keyCode l.key < keyCode m.key) ∧ LeaseOrder ls := by
  simp [LeaseOrder, List.pairwise_cons]

theorem leaseOrder_append {as bs : List Lease} :
    LeaseOrder (as ++ bs) ↔ LeaseOrder as ∧ LeaseOrder bs ∧
      ∀ l ∈ as, ∀ m ∈ bs, keyCode l.key < keyCode m.key := by
  simp [LeaseOrder, List.pairwise_append]

/-- A put keeps the leases before its key and those behind it, and stands in the place of its key's
lease. -/
theorem putLease_split (x : Lease) {ls : List Lease} (h : LeaseOrder ls) :
    ∃ before after, ls = before ++ (leaseOn x.key ls).toList ++ after ∧
      putLease x ls = before ++ x :: after ∧
      (∀ l ∈ before, keyCode l.key < keyCode x.key) ∧
      ∀ l ∈ after, keyCode x.key < keyCode l.key := by
  induction ls with
  | nil => exact ⟨[], [], rfl, rfl, by simp, by simp⟩
  | cons l ls ih =>
    obtain ⟨above, hls⟩ := leaseOrder_cons.1 h
    by_cases hlt : keyCode x.key < keyCode l.key
    · have hall : ∀ m ∈ l :: ls, keyCode x.key < keyCode m.key := by
        rintro m (_ | ⟨_, hm⟩)
        · exact hlt
        · exact hlt.trans (above m hm)
      have hnone : leaseOn x.key (l :: ls) = none :=
        leaseOn_eq_none.2 fun m hm e => absurd (hall m hm) (by simp [e])
      exact ⟨[], l :: ls, by simp [hnone], if_pos hlt, by simp, hall⟩
    · by_cases hkey : x.key = l.key
      · refine ⟨[], ls, by simp [leaseOn, hkey], ?_, by simp, fun m hm => hkey ▸ above m hm⟩
        simp [putLease, hkey]
      · obtain ⟨before, after, hsplit, hput, hb, ha⟩ := ih hls
        have hne : keyCode x.key ≠ keyCode l.key := fun e => hkey (keyCode_inj.1 e)
        have hon : leaseOn x.key (l :: ls) = leaseOn x.key ls :=
          List.find?_cons_of_neg (by simpa using Ne.symm hkey)
        refine ⟨l :: before, after, ?_, ?_, ?_, ha⟩
        · rw [hon, List.cons_append, List.cons_append, ← hsplit]
        · simp only [putLease, if_neg hlt, if_neg hkey, hput, List.cons_append]
        · rintro m (_ | ⟨_, hm⟩)
          · omega
          · exact hb m hm

/-! ### The law of one lease -/

/-- The law of one lease: at most 3 waiters, none of them the holder and none twice, times of 1 to
65,535 ms (R63, R64). -/
def Lease.Lawful (l : Lease) : Prop :=
  l.waiters.length ≤ 3 ∧ (l.holder :: l.waiters.map Waiter.port).Nodup ∧
    1 ≤ l.remaining ∧ l.remaining ≤ 65535 ∧ ∀ w ∈ l.waiters, 1 ≤ w.duration ∧ w.duration ≤ 65535

/-- The lease law in its parts. -/
theorem leaseLaw_iff {ls : List Lease} :
    LeaseLaw ls ↔ ls.length ≤ 32 ∧ LeaseOrder ls ∧ (∀ l ∈ ls, l.Lawful) ∧ ∀ p, holdCount p ls ≤ 8 :=
  Iff.rfl

/-- `m` is what is left of a lease: on its key, lawful, and no port has a place in it that it had not
before. -/
structure LeftOf (l m : Lease) : Prop where
  key : m.key = l.key
  lawful : m.Lawful
  places : ∀ p, placesIn p m ≤ placesIn p l

theorem leftOf_refl {l : Lease} (h : l.Lawful) : LeftOf l l := ⟨rfl, h, fun _ => Nat.le_refl _⟩

theorem LeftOf.trans {l m n : Lease} (h : LeftOf l m) (h' : LeftOf m n) : LeftOf l n :=
  ⟨h'.key.trans h.key, h'.lawful, fun p => (h'.places p).trans (h.places p)⟩

/-- A lease counted down by 1 (R67). -/
theorem leftOf_countDown {l : Lease} (h : l.Lawful) (hr : 1 < l.remaining) :
    LeftOf l { l with remaining := l.remaining - 1 } := by
  obtain ⟨hlen, hnodup, h1, h2, hw⟩ := h
  exact ⟨rfl, ⟨hlen, hnodup, Nat.le_sub_one_of_lt hr, (Nat.sub_le _ _).trans h2, hw⟩,
    fun _ => Nat.le_refl _⟩

/-- A lease from whose queue waiters are taken. -/
theorem leftOf_filter {l : Lease} (h : l.Lawful) (stays : Waiter → Bool) :
    LeftOf l { l with waiters := l.waiters.filter stays } := by
  obtain ⟨hlen, hnodup, h1, h2, hw⟩ := h
  have hsub : (l.waiters.filter stays).Sublist l.waiters := List.filter_sublist
  refine ⟨rfl, ⟨hsub.length_le.trans hlen, hnodup.sublist ((hsub.map _).cons_cons _), h1, h2,
    fun w hm => hw w (hsub.subset hm)⟩, fun p => ?_⟩
  exact Nat.add_le_add_left (hsub.filter _).length_le _

/-- A lease that passes to its head waiter (R73). -/
theorem leftOf_passLease {l m : Lease} (h : l.Lawful) (hm : (passLease l).1 = some m) :
    LeftOf l m := by
  refine ⟨passLease_key hm, ?_, fun p => ?_⟩
  · obtain ⟨hlen, hnodup, h1, h2, hw⟩ := h
    unfold passLease at hm
    split at hm
    · cases hm
    · rename_i w ws e
      cases hm
      rw [e] at hlen hnodup hw
      obtain ⟨hd, hd'⟩ := hw w List.mem_cons_self
      exact ⟨(Nat.le_succ _).trans hlen, hnodup.of_cons, hd, hd',
        fun v hv => hw v (List.mem_cons_of_mem _ hv)⟩
  · rw [placesIn_passLease p hm]
    exact Nat.le_add_left _ _

/-! ### The fates of the leases -/

/-- A treatment that removes a lawful lease, or leaves of it a lawful lease. -/
def LawfulFate (f : Lease → LeaseFate) : Prop :=
  ∀ l m, l.Lawful → (f l).1 = some m → LeftOf l m

theorem lawfulFate_dropLease : LawfulFate dropLease := fun _ _ _ hm => nomatch hm

theorem lawfulFate_stepLease : LawfulFate stepLease := by
  intro l m h hm
  unfold stepLease at hm
  split at hm
  · exact leftOf_passLease h hm
  · cases hm
    exact leftOf_countDown h (by omega)

theorem lawfulFate_expireOn (k : Key) : LawfulFate (expireOn k) := by
  intro l m h hm
  unfold expireOn at hm
  split at hm
  · exact leftOf_passLease h hm
  · cases hm
    exact leftOf_refl h

theorem lawfulFate_dropOwnPlace (p : Port) (k : Key) : LawfulFate (dropOwnPlace p k) := by
  intro l m h hm
  unfold dropOwnPlace at hm
  repeat' split at hm
  · exact leftOf_passLease h hm
  · cases hm
    exact leftOf_filter h _
  · cases hm
    exact leftOf_refl h

theorem lawfulFate_dropPortFromLease (p : Port) : LawfulFate (dropPortFromLease p) := by
  intro l m h hm
  have hf := leftOf_filter h (fun w => w.port != p)
  unfold dropPortFromLease at hm
  dsimp only at hm
  split at hm
  · exact hf.trans (leftOf_passLease hf.lawful hm)
  · cases hm
    exact hf

theorem lawfulFate_revokeLease (ns : Fin 8) (gone : PortSet) : LawfulFate (revokeLease ns gone) := by
  intro l m h hm
  have hf := leftOf_filter h (fun w => !hasPort gone w.port)
  unfold revokeLease at hm
  dsimp only at hm
  repeat' split at hm
  · exact hf.trans (leftOf_passLease hf.lawful hm)
  · cases hm
    exact hf
  · cases hm
    exact leftOf_refl h

/-! ### The law of the table -/

section Sweep

variable {f : Lease → LeaseFate} (hf : LawfulFate f) {ls : List Lease} (hls : ∀ l ∈ ls, l.Lawful)
include hf hls

theorem leaseOrder_sweep (h : LeaseOrder ls) : LeaseOrder (ls.filterMap (fun l => (f l).1)) := by
  unfold LeaseOrder at h ⊢
  rw [List.pairwise_map] at h ⊢
  refine List.pairwise_filterMap.2 (h.imp_of_mem fun ha hb hlt m hm n hn => ?_)
  rw [(hf _ m (hls _ ha) hm).key, (hf _ n (hls _ hb) hn).key]
  exact hlt

theorem holdCount_sweep (p : Port) :
    holdCount p (ls.filterMap (fun l => (f l).1)) ≤ holdCount p ls := by
  induction ls with
  | nil => exact Nat.le_refl _
  | cons l ls ih =>
    have ih := ih fun m hm => hls m (List.mem_cons_of_mem _ hm)
    rw [List.filterMap_cons, holdCount_cons]
    split
    · exact ih.trans (Nat.le_add_left _ _)
    · rename_i m hm
      rw [holdCount_cons]
      exact Nat.add_le_add ((hf l m (hls l List.mem_cons_self) hm).places p) ih

end Sweep

/-- A sweep of lawful fates keeps the lease law. -/
theorem leaseLaw_sweep {f : Lease → LeaseFate} (hf : LawfulFate f) {ls : List Lease}
    (h : LeaseLaw ls) : LeaseLaw (ls.filterMap (fun l => (f l).1)) := by
  obtain ⟨hlen, hord, hlaw, hcount⟩ := leaseLaw_iff.1 h
  refine leaseLaw_iff.2 ⟨(List.length_filterMap_le _ _).trans hlen, leaseOrder_sweep hf hlaw hord,
    fun m hm => ?_, fun p => (holdCount_sweep hf hlaw p).trans (hcount p)⟩
  obtain ⟨l, hl, hm⟩ := List.mem_filterMap.1 hm
  exact (hf l m (hlaw l hl) hm).lawful

/-- A put keeps the lease law where the table and each port have room for it. -/
theorem leaseLaw_putLease {x : Lease} {ls : List Lease} (h : LeaseLaw ls) (hx : x.Lawful)
    (hroom : leaseOn x.key ls = none → ls.length < 32)
    (hplaces : ∀ p, holdCount p ls + placesIn p x ≤ 8 + holdCount p (leaseOn x.key ls).toList) :
    LeaseLaw (putLease x ls) := by
  obtain ⟨hlen, hord, hlaw, -⟩ := leaseLaw_iff.1 h
  obtain ⟨before, after, hsplit, hput, hb, ha⟩ := putLease_split x hord
  generalize leaseOn x.key ls = o at hroom hplaces hsplit
  subst hsplit
  rw [List.append_assoc] at hord
  obtain ⟨hord1, hord2, hrel⟩ := leaseOrder_append.1 hord
  obtain ⟨-, hord3, -⟩ := leaseOrder_append.1 hord2
  rw [hput]
  refine leaseLaw_iff.2 ⟨?_, ?_, ?_, fun p => ?_⟩
  · cases o with
    | none =>
      have := hroom rfl
      simp at this ⊢
      omega
    | some l => simpa [Nat.add_assoc, Nat.add_comm] using hlen
  · refine leaseOrder_append.2 ⟨hord1, leaseOrder_cons.2 ⟨ha, hord3⟩, ?_⟩
    rintro l hl m (_ | ⟨_, hm⟩)
    · exact hb l hl
    · exact hrel l hl m (List.mem_append_right _ hm)
  · intro l hl
    rcases List.mem_append.1 hl with hl | hl
    · exact hlaw l (by simp [hl])
    · rcases List.mem_cons.1 hl with rfl | hl
      · exact hx
      · exact hlaw l (by simp [hl])
  · have := hplaces p
    simp only [holdCount_append, holdCount_cons] at this ⊢
    omega

/-- LEASE_TAKE keeps the lease law (R70, R71). -/
theorem leaseLaw_takeLease {p : Port} {k : Key} {d : Nat} (hd : 1 ≤ d ∧ d ≤ 65535) (wait : Bool)
    {ls : List Lease} (h : LeaseLaw ls) : LeaseLaw (takeLease p k d wait ls).2.2 := by
  obtain ⟨-, -, hlaw, hcount⟩ := leaseLaw_iff.1 h
  unfold takeLease
  split
  · rename_i hnone
    split
    · exact h
    · rename_i hroom
      refine leaseLaw_putLease h ⟨by simp, by simp, hd.1, hd.2, by simp⟩ (fun _ => by omega)
        fun q => ?_
      have := hcount q
      simp only [hnone, Option.toList_none, holdCount_nil, placesIn, List.filter_nil,
        List.length_nil]
      split
      · subst_vars
        omega
      · omega
  · rename_i l hl
    obtain ⟨rfl, hmem⟩ := leaseOn_key hl
    obtain ⟨hlen, hnodup, h1, h2, hw⟩ := hlaw l hmem
    repeat' split
    · exact h
    · exact h
    · exact h
    rename_i hplace _ hroom
    have hno : p ∉ l.holder :: l.waiters.map Waiter.port := by
      rw [waits_iff] at hplace
      simpa [eq_comm] using hplace
    refine leaseLaw_putLease h ⟨?_, ?_, h1, h2, ?_⟩ (fun e => nomatch hl.symm.trans e) fun q => ?_
    · simp
      omega
    · rw [List.map_append, ← List.cons_append]
      exact List.nodup_append'.2 ⟨hnodup, by simp, by simpa using hno⟩
    · intro w hm
      rcases List.mem_append.1 hm with hm | hm
      · exact hw w hm
      · obtain rfl := List.mem_singleton.1 hm
        exact hd
    · have := hcount q
      simp only [hl, Option.toList_some, holdCount_cons, holdCount_nil, placesIn,
        List.filter_append, List.length_append]
      by_cases hq : p = q
      · subst hq
        simp
        omega
      · simp [hq]
        omega

/-- LEASE_RENEW keeps the lease law (R72). -/
theorem leaseLaw_renew {p : Port} {k : Key} {d : Nat} (hd : 1 ≤ d ∧ d ≤ 65535) {l : Lease}
    {ls : List Lease} (hl : heldLease p k ls = some l) (h : LeaseLaw ls) :
    LeaseLaw (putLease { l with remaining := d } ls) := by
  obtain ⟨-, -, hlaw, hcount⟩ := leaseLaw_iff.1 h
  have hl : leaseOn k ls = some l := by
    unfold heldLease at hl
    repeat' split at hl
    all_goals cases hl
    assumption
  obtain ⟨rfl, hmem⟩ := leaseOn_key hl
  obtain ⟨hlen, hnodup, -, -, hw⟩ := hlaw l hmem
  refine leaseLaw_putLease h ⟨hlen, hnodup, hd.1, hd.2, hw⟩ (fun e => nomatch hl.symm.trans e)
    fun q => ?_
  have := hcount q
  rw [show leaseOn ({ l with remaining := d } : Lease).key ls = some l from hl, Option.toList_some,
    holdCount_cons]
  exact Nat.add_le_add this (Nat.le_refl _)

end Sys2Proof.Machine
end

section
/-! SUPPORT. The Lease Table and the Watch Table together. What the part's procedures do to the two
tables is said once, as a path of moves; what holds of every such path holds of every step. -/

namespace Sys2Proof.Machine

open Sys2Proof

/-- The Lease Table and the Watch Table. -/
structure Tables where
  leases : List Lease
  watches : List WatchEntry

/-- The two tables of a state. -/
def tables (s : State) : Tables := ⟨s.leases, s.watches⟩

/-- The two tables are reached from tables `a`: the Lease Unit sweeps its table with a lawful fate (R59,
R67, R73 to R75, R77, R80, R83), takes a LEASE_TAKE (R70, R71) or renews a lease (R72); the Watch Unit
enters a watch that R86 does not refuse, or drops entries (R60, R87, R88). -/
inductive TablesMove (a : Tables) : Tables → Prop
  | start : TablesMove a a
  | sweep {t : Tables} {f : Lease → LeaseFate} (hf : LawfulFate f) (h : TablesMove a t) :
      TablesMove a ⟨t.leases.filterMap (fun l => (f l).1), t.watches⟩
  | take {t : Tables} (p : Port) (k : Key) {d : Nat} (hd : 1 ≤ d ∧ d ≤ 65535) (wait : Bool)
      (h : TablesMove a t) : TablesMove a ⟨(takeLease p k d wait t.leases).2.2, t.watches⟩
  | renew {t : Tables} {p : Port} {k : Key} {l : Lease} {d : Nat} (hd : 1 ≤ d ∧ d ≤ 65535)
      (hl : heldLease p k t.leases = some l) (h : TablesMove a t) :
      TablesMove a ⟨putLease { l with remaining := d } t.leases, t.watches⟩
  | enter {t : Tables} {w : WatchEntry} (hw : watchRefusal w t.watches = none)
      (h : TablesMove a t) : TablesMove a ⟨t.leases, t.watches ++ [w]⟩
  | dropWatches {t : Tables} {ws : List WatchEntry} (hs : ws.Sublist t.watches)
      (h : TablesMove a t) : TablesMove a ⟨t.leases, ws⟩

/-! ### What holds of every path -/

/-- Every path keeps the lease law. -/
theorem TablesMove.leaseLaw {a t : Tables} (h : TablesMove a t) (ha : LeaseLaw a.leases) :
    LeaseLaw t.leases := by
  induction h with
  | start => exact ha
  | sweep hf _ ih => exact leaseLaw_sweep hf ih
  | take _ _ hd wait _ ih => exact leaseLaw_takeLease hd wait ih
  | renew hd hl _ ih => exact leaseLaw_renew hd hl ih
  | enter _ _ ih | dropWatches _ _ ih => exact ih

/-- Entries dropped keep the watch law. -/
theorem watchLaw_sublist {ws vs : List WatchEntry} (hs : vs.Sublist ws) (h : WatchLaw ws) :
    WatchLaw vs := by
  obtain ⟨hlen, hnodup, hcount⟩ := h
  exact ⟨hs.length_le.trans hlen, hnodup.sublist hs,
    fun p => ((hs.filter _).length_le).trans (hcount p)⟩

/-- A watch that is not refused finds itself absent and room for it (R86). -/
theorem watchRefusal_eq_none {w : WatchEntry} {ws : List WatchEntry} (h : watchRefusal w ws = none) :
    w ∉ ws ∧ watchCount w.port ws < 16 ∧ ws.length < 64 := by
  unfold watchRefusal at h
  split at h
  · cases h
  · split at h
    · cases h
    · rename_i hmem hroom
      exact ⟨by simpa using hmem, by omega, by omega⟩

/-- A watch entered where it is not refused keeps the watch law. -/
theorem watchLaw_enter {w : WatchEntry} {ws : List WatchEntry} (hw : watchRefusal w ws = none)
    (h : WatchLaw ws) : WatchLaw (ws ++ [w]) := by
  obtain ⟨-, hnodup, hcount⟩ := h
  obtain ⟨hmem, h16, h64⟩ := watchRefusal_eq_none hw
  refine ⟨by simpa using h64, List.nodup_append'.2 ⟨hnodup, by simp, by simpa using hmem⟩,
    fun p => ?_⟩
  have := hcount p
  unfold watchCount at this h16 ⊢
  by_cases hp : w.port = p
  · subst hp
    simpa using h16
  · simpa [hp] using this

/-- Every path keeps the watch law. -/
theorem TablesMove.watchLaw {a t : Tables} (h : TablesMove a t) (ha : WatchLaw a.watches) :
    WatchLaw t.watches := by
  induction h with
  | start => exact ha
  | sweep _ _ ih | take _ _ _ _ _ ih | renew _ _ _ ih => exact ih
  | enter hw _ ih => exact watchLaw_enter hw ih
  | dropWatches hs _ ih => exact watchLaw_sublist hs ih

/-! ### Operations that keep the tables -/

@[simp] theorem tables_setEngine (s : State) (e : Engine) :
    tables (s.setEngine e) = tables s := (rfl)
@[simp] theorem tables_setPort (s : State) (p : Port) (u : PortUnit) :
    tables (s.setPort p u) = tables s := (rfl)
@[simp] theorem tables_setJob (s : State) (j : EngineJob) : tables (s.setJob j) = tables s := (rfl)
@[simp] theorem tables_setSpace (s : State) (x : Space) : tables (s.setSpace x) = tables s := (rfl)
@[simp] theorem tables_setDrain (s : State) (d : Drain) : tables (s.setDrain d) = tables s := (rfl)
@[simp] theorem tables_setCtl (s : State) (c : Controller) : tables (s.setCtl c) = tables s := (rfl)
@[simp] theorem tables_setArray (s : State) (x : ArrayContents) :
    tables (s.setArray x) = tables s := (rfl)
@[simp] theorem tables_issue (r : Requester) (op : ArrayOp) (s : State) :
    tables (issue r op s) = tables s := (rfl)
@[simp] theorem tables_arbitrate (s : State) : tables (arbitrate s) = tables s := (rfl)
@[simp] theorem tables_pointEntry (e : IndexEntry) (s : State) :
    tables (pointEntry e s) = tables s := (rfl)
@[simp] theorem tables_drainPhase (ph : DrainPhase) (s : State) :
    tables (drainPhase ph s) = tables s := (rfl)
@[simp] theorem tables_putWrite (j : WriteJob) (s : State) :
    tables (putWrite j s) = tables s := (rfl)
@[simp] theorem tables_putMount (j : MountJob) (s : State) :
    tables (putMount j s) = tables s := (rfl)
@[simp] theorem tables_toRunning (p : Port) (s : State) : tables (toRunning p s) = tables s := (rfl)
@[simp] theorem tables_changeStore (st : StoreState) (c : Option Cause) (s : State) :
    tables (changeStore st c s) = tables s := (rfl)

@[simp] theorem tables_respond (p : Port) (g : Byte) (bs : List Byte) (s : State) :
    tables (respond p g bs s) = tables s := by
  rw [respond_rest]
  rfl

@[simp] theorem tables_reply (p : Port) (r : Result) (fs : List Byte) (s : State) :
    tables (reply p r fs s) = tables s := tables_respond _ _ _ _

@[simp] theorem tables_notifyAll (l : List (Port × Notice)) (s : State) :
    tables (notifyAll l s) = tables s := by
  rw [notifyAll_rest]
  rfl

@[simp] theorem tables_routeChange (o : Port) (k : Key) (n : Notice) (s : State) :
    tables (routeChange o k n s) = tables s := tables_notifyAll _ _

@[simp] theorem tables_reportCause (c : Cause) (s : State) :
    tables (reportCause c s) = tables s := by
  unfold reportCause
  split <;> simp

@[simp] theorem tables_consider (s : State) : tables (consider s) = tables s := by
  rw [consider_eq]
  rfl

@[simp] theorem tables_chooseWork (b : Bool) (s : State) :
    tables (chooseWork b s) = tables s := by
  unfold chooseWork startReclaim startEvacuation beginPass
  repeat' split
  all_goals simp

@[simp] theorem tables_leaveHold (st : StoreState) (c : Option Cause) (s : State) :
    tables (leaveHold st c s) = tables s := by
  unfold leaveHold
  dsimp only
  split <;> simp

@[simp] theorem tables_retireInTable (i : Sector) (s : State) :
    tables (retireInTable i s) = tables s := by
  rw [retireInTable_eq]
  rfl

@[simp] theorem tables_retireThen {r : Requester} {i : Sector} {wait go : State → State}
    (hw : ∀ u, tables (wait u) = tables u) (hg : ∀ u, tables (go u) = tables u) (s : State) :
    tables (retireThen r i wait go s) = tables s := by
  unfold retireThen
  split <;> simp [hw, hg]

@[simp] theorem tables_takeForActivation (a : ActivationFor) (i : Sector) (s : State) :
    tables (takeForActivation a i s) = tables s := by
  unfold takeForActivation
  rw [tables_issue, tables_consider]
  split <;> simp

theorem tables_checked {p : Port} {cs : List (Option Result)} {go : State → State}
    (h : ∀ u, tables (go u) = tables u) (s : State) : tables (checked p cs go s) = tables s := by
  unfold checked
  split <;> simp [h]

/-! ### FORMAT after its start -/

@[simp] theorem tables_formatPhase (ph : FormatPhase) (s : State) :
    tables (formatPhase ph s) = tables s := by
  unfold formatPhase
  split <;> simp

@[simp] theorem tables_formatEnd (s : State) : tables (formatEnd s) = tables s := by
  unfold formatEnd
  dsimp only
  split <;> simp

@[simp] theorem tables_formatActivate (s : State) : tables (formatActivate s) = tables s := by
  unfold formatActivate
  split <;> simp

@[simp] theorem tables_formatErase (k : Nat) (s : State) : tables (formatErase k s) = tables s := by
  unfold formatErase
  split <;> simp

@[simp] theorem tables_formatMark (k : Nat) (s : State) : tables (formatMark k s) = tables s := by
  unfold formatMark
  split <;> simp

@[simp] theorem tables_formatProgram (ph : FormatPhase) (ok : Bool) (s : State) :
    tables (formatProgram ph ok s) = tables s := by
  unfold formatProgram
  repeat' split
  all_goals simp

@[simp] theorem tables_formatErased (i : Sector) (ok : Bool) (s : State) :
    tables (formatErased i ok s) = tables s := by
  unfold formatErased
  split <;> simp

/-! ### The drain pass -/

@[simp] theorem tables_passEnd (s : State) : tables (passEnd s) = tables s := by simp [passEnd]

@[simp] theorem tables_walkEnd (i : Sector) (s : State) : tables (walkEnd i s) = tables s := by
  unfold walkEnd
  dsimp only
  repeat' split
  all_goals simp

@[simp] theorem tables_walkTo (n : Nat) (s : State) : tables (walkTo n s) = tables s := by
  unfold walkTo
  dsimp only
  repeat' split
  all_goals simp

@[simp] theorem tables_drainHeader (g : GranuleRead) (s : State) :
    tables (drainHeader g s) = tables s := by
  unfold drainHeader
  dsimp only
  repeat' split
  all_goals simp

@[simp] theorem tables_askRoom (c : Copy) (s : State) : tables (askRoom c s) = tables s := (rfl)

@[simp] theorem tables_drainRecord (bs : List Byte) (s : State) :
    tables (drainRecord bs s) = tables s := by
  unfold drainRecord
  split <;> simp

@[simp] theorem tables_drainRoom (q : Place) (s : State) : tables (drainRoom q s) = tables s := by
  unfold drainRoom
  split <;> simp

@[simp] theorem tables_copyNext (q : Place) (ps : List (Nat × List Byte)) (s : State) :
    tables (copyNext q ps s) = tables s := by
  unfold copyNext
  split <;> simp

@[simp] theorem tables_afterCopyFailure (s : State) : tables (afterCopyFailure s) = tables s := by
  unfold afterCopyFailure
  repeat' split
  all_goals simp

@[simp] theorem tables_drainRefused (s : State) : tables (drainRefused s) = tables s := by
  simp [drainRefused]

@[simp] theorem tables_walkPast (n : Nat) (s : State) : tables (walkPast n s) = tables s := by
  simp [walkPast]

@[simp] theorem tables_staleCopy (q : Place) (n : Nat) (s : State) :
    tables (staleCopy q n s) = tables s := (rfl)

@[simp] theorem tables_relocateProcedure (k : Key) (q c : Place) (n : Nat) (s : State) :
    tables (relocateProcedure k q c n s) = tables s := by
  unfold relocateProcedure
  repeat' split
  all_goals simp

@[simp] theorem tables_purgeEntry (k : Key) (q : Place) (s : State) :
    tables (purgeEntry k q s) = tables s := by
  unfold purgeEntry
  repeat' split
  all_goals rfl

/-! ### The write path before its end, and the reads -/

@[simp] theorem tables_writeRoom (j : WriteJob) (s : State) :
    tables (writeRoom j s) = tables s := (rfl)

@[simp] theorem tables_writeRoomGiven (j : WriteJob) (q : Place) (s : State) :
    tables (writeRoomGiven j q s) = tables s := by
  unfold writeRoomGiven
  rw [tables_issue, tables_putWrite]
  split <;> simp

@[simp] theorem tables_writeNext (j : WriteJob) (ps : List (Nat × List Byte)) (s : State) :
    tables (writeNext j ps s) = tables s := by
  unfold writeNext
  split <;> simp

@[simp] theorem tables_removeStart (p : Port) (k : Key) (s : State) :
    tables (removeStart p k s) = tables s := (rfl)

@[simp] theorem tables_fetchStart (p : Port) (e : IndexEntry) (o n : Nat) (s : State) :
    tables (fetchStart p e o n s) = tables s := (rfl)

@[simp] theorem tables_fetchDone (j : FetchJob) (g : GranuleRead) (bs : List Byte) (s : State) :
    tables (fetchDone j g bs s) = tables s := by
  rw [fetchDone_eq, tables_respond, tables_setJob]

@[simp] theorem tables_relocateDone (s : State) : tables (relocateDone s) = tables s := by
  unfold relocateDone
  dsimp only
  split <;> simp

/-! ### The mount -/

@[simp] theorem tables_walkRead (w : Walk) (s : State) : tables (walkRead w s) = tables s := (rfl)

@[simp] theorem tables_mountDrainWork (s : State) : tables (mountDrainWork s) = tables s := by
  simp [mountDrainWork, mountEnd]

@[simp] theorem tables_mountActivate (j : MountJob) (s : State) :
    tables (mountActivate j s) = tables s := by
  unfold mountActivate
  repeat' split
  all_goals simp

@[simp] theorem tables_mountSurplus (j : MountJob) (l : List Sector) (s : State) :
    tables (mountSurplus j l s) = tables s := by
  unfold mountSurplus
  split <;> simp

@[simp] theorem tables_mountCounters (j : MountJob) (s : State) :
    tables (mountCounters j s) = tables s := by
  unfold mountCounters mountActive
  dsimp only
  split <;> simp

@[simp] theorem tables_scanNext (j : MountJob) (l : List Sector) (s : State) :
    tables (scanNext j l s) = tables s := by
  unfold scanNext
  split <;> simp

@[simp] theorem tables_scanOn (j : MountJob) (w : Walk) (l : List Sector) (s : State) :
    tables (scanOn j w l s) = tables s := by
  unfold scanOn sectorScanned
  dsimp only
  repeat' split
  all_goals simp

@[simp] theorem tables_scanRead (j : MountJob) (w : Walk) (l : List Sector) (g : GranuleRead)
    (s : State) : tables (scanRead j w l g s) = tables s := by
  unfold scanRead offerRecord
  dsimp only
  repeat' split
  all_goals simp

@[simp] theorem tables_repairIdentity (j : MountJob) (i : Sector) (n : EraseCount) (s : State) :
    tables (repairIdentity j i n s) = tables s := (rfl)

@[simp] theorem tables_repairFrom (j : MountJob) (k : Nat) (s : State) :
    tables (repairFrom j k s) = tables s := by
  unfold repairFrom
  repeat' split
  all_goals simp

@[simp] theorem tables_repairFailed (j : MountJob) (i : Sector) (s : State) :
    tables (repairFailed j i s) = tables s := by simp [repairFailed]

@[simp] theorem tables_surveyNext (j : MountJob) (l : List Sector) (s : State) :
    tables (surveyNext j l s) = tables s := by
  unfold surveyNext surveyEnd
  split <;> simp

@[simp] theorem tables_surveyRead (j : MountJob) (w : Walk) (l : List Sector) (g : GranuleRead)
    (s : State) : tables (surveyRead j w l g s) = tables s := by
  unfold surveyRead
  dsimp only
  split <;> simp

@[simp] theorem tables_surveyHeader (j : MountJob) (i : Sector) (x : SectorHeader) (s : State) :
    tables (surveyHeader j i x s) = tables s := by
  unfold surveyHeader
  dsimp only
  split <;> simp

@[simp] theorem tables_mountRead (j : MountJob) (v : ArrayContents) (s : State) :
    tables (mountRead j v s) = tables s := by
  unfold mountRead
  split <;> simp

@[simp] theorem tables_mountProgram (j : MountJob) (ok : Bool) (s : State) :
    tables (mountProgram j ok s) = tables s := by
  unfold mountProgram
  repeat' split
  all_goals simp

@[simp] theorem tables_mountErased (j : MountJob) (ok : Bool) (s : State) :
    tables (mountErased j ok s) = tables s := by
  unfold mountErased repairErased
  repeat' split
  all_goals simp


/-! ### The write path at its end -/

@[simp] theorem tables_closeTxn (p : Port) (s : State) : tables (closeTxn p s) = tables s := (rfl)

@[simp] theorem tables_openTxn (p : Port) (k : Key) (L : Nat) (c : Condition) (s : State) :
    tables (openTxn p k L c s) = tables s := (rfl)

@[simp] theorem tables_commitStart (p : Port) (s : State) :
    tables (commitStart p s) = tables s := (rfl)

@[simp] theorem tables_writeEnd (j : WriteJob) (bs : List Byte) (s : State) :
    tables (writeEnd j bs s) = tables s := by
  unfold writeEnd
  dsimp only
  split <;> simp

@[simp] theorem tables_writeOk (j : WriteJob) (s : State) : tables (writeOk j s) = tables s := by
  simp [writeOk]

@[simp] theorem tables_writeStoreFull (j : WriteJob) (s : State) :
    tables (writeStoreFull j s) = tables s := by
  unfold writeStoreFull
  dsimp only
  split <;> simp

@[simp] theorem tables_writeAfterFailure (j : WriteJob) (s : State) :
    tables (writeAfterFailure j s) = tables s := by
  unfold writeAfterFailure writeMediaError
  split <;> simp

@[simp] theorem tables_writeRefused (j : WriteJob) (s : State) :
    tables (writeRefused j s) = tables s := by
  unfold writeRefused writeMediaError
  split <;> simp

@[simp] theorem tables_commitPoint (j : WriteJob) (s : State) :
    tables (commitPoint j s) = tables s := by
  unfold commitPoint
  dsimp only
  split <;> simp

@[simp] theorem tables_writeProgram (j : WriteJob) (ok : Bool) (s : State) :
    tables (writeProgram j ok s) = tables s := by
  unfold writeProgram
  dsimp only
  repeat' split
  all_goals simp

/-! ### Allocation -/

@[simp] theorem tables_answerRoom (r : Requester) (q : Place) (s : State) :
    tables (answerRoom r q s) = tables s := by
  unfold answerRoom
  dsimp only
  split <;> simp

@[simp] theorem tables_allocateFrom (r : Requester) (n : AllocRequest) (i : Sector) (s : State) :
    tables (allocateFrom r n i s) = tables s := by simp [allocateFrom]

@[simp] theorem tables_allocateByActivation (r : Requester) (n : AllocRequest) (s : State) :
    tables (allocateByActivation r n s) = tables s := by
  unfold allocateByActivation refuseRoom
  dsimp only
  repeat' split
  all_goals simp

@[simp] theorem tables_allocate (r : Requester) (n : AllocRequest) (s : State) :
    tables (allocate r n s) = tables s := by
  unfold allocate
  repeat' split
  all_goals simp

@[simp] theorem tables_activationDone (j : ActivationJob) (s : State) :
    tables (activationDone j s) = tables s := by
  unfold activationDone
  dsimp only
  repeat' split
  all_goals simp

@[simp] theorem tables_activationAgain (j : ActivationJob) (s : State) :
    tables (activationAgain j s) = tables s := by
  unfold activationAgain
  dsimp only
  repeat' split
  all_goals simp

end Sys2Proof.Machine
end

section
/-! SUPPORT. The procedures that move the two tables: the Lease Unit's sweeps, FORMAT's start, and what
goes on from it. -/

namespace Sys2Proof.Machine

open Sys2Proof

@[simp] theorem tables_runLeases (f : Lease → LeaseFate) (s : State) :
    tables (runLeases f s) = ⟨s.leases.filterMap (fun l => (f l).1), s.watches⟩ := by
  rw [runLeases_eq, tables_notifyAll]
  rfl

section Moves

variable {a : Tables}

theorem tablesMove_runLeases {f : Lease → LeaseFate} (hf : LawfulFate f) {s : State}
    (h : TablesMove a (tables s)) : TablesMove a (tables (runLeases f s)) := by
  rw [tables_runLeases]
  exact .sweep hf h

/-- FORMAT's start drops every lease (R83, R165). -/
@[simp] theorem tablesMove_takeAbandonment {s : State} (h : TablesMove a (tables s)) :
    TablesMove a (tables (takeAbandonment s)) := by
  unfold takeAbandonment formatStart
  dsimp only
  rw [tables_formatMark]
  exact tablesMove_runLeases lawfulFate_dropLease h

@[simp] theorem tablesMove_formatGrant (p : Port) {s : State} (h : TablesMove a (tables s)) :
    TablesMove a (tables (formatGrant p s)) := by
  unfold formatGrant
  dsimp only
  split
  · exact tablesMove_takeAbandonment h
  · exact h

/-! ### Continuations -/

@[simp] theorem tablesMove_drainGo {go : State → State} (hg : ∀ u, tables (go u) = tables u)
    {s : State} (h : TablesMove a (tables s)) : TablesMove a (tables (drainGo go s)) := by
  unfold drainGo
  split
  · exact tablesMove_takeAbandonment h
  · rwa [hg]

@[simp] theorem tablesMove_activationGo {j : ActivationJob} {go : State → State}
    (hg : ∀ u, tables (go u) = tables u) {s : State} (h : TablesMove a (tables s)) :
    TablesMove a (tables (activationGo j go s)) := by
  unfold activationGo
  split
  · exact tablesMove_drainGo hg h
  · rwa [hg]

@[simp] theorem tablesMove_retireThen {q : Requester} {i : Sector} {wait go : State → State}
    (hw : ∀ u, tables (wait u) = tables u)
    (hg : ∀ u, TablesMove a (tables u) → TablesMove a (tables (go u))) {s : State}
    (h : TablesMove a (tables s)) : TablesMove a (tables (retireThen q i wait go s)) := by
  unfold retireThen
  split
  · exact hg s h
  · rw [hw]
    simpa using h

/-- A failure in a pass: the failed sector is retired, and the pass goes on. -/
@[simp] theorem tablesMove_passFailure {i : Sector} {ph : DrainPhase} {go : State → State}
    (hg : ∀ u, tables (go u) = tables u) {s : State} (h : TablesMove a (tables s)) :
    TablesMove a (tables (retireThen .drain i (drainPhase ph) (drainGo go) s)) :=
  tablesMove_retireThen (fun _ => by simp) (fun _ hu => tablesMove_drainGo hg hu) h

/-- A requester goes on after the end of its operation. -/
theorem tablesMove_afterOutcome {q : Requester} {first : Bool} {go : State → State}
    (hg : ∀ u, TablesMove a (tables u) → TablesMove a (tables (go u))) {s : State}
    (h : TablesMove a (tables s)) : TablesMove a (tables (afterOutcome q first go s)) := by
  obtain ⟨c, -, e⟩ := afterOutcome_eq q first go s
  rw [e, tables_arbitrate]
  exact hg _ (by simpa using h)

/-! ### The ends of array operations -/

@[simp] theorem tablesMove_drainProgram (ok : Bool) {s : State} (h : TablesMove a (tables s)) :
    TablesMove a (tables (drainProgram ok s)) := by
  unfold drainProgram
  dsimp only
  repeat' split
  all_goals simp [h]

@[simp] theorem tablesMove_drainErased (ok : Bool) {s : State} (h : TablesMove a (tables s)) :
    TablesMove a (tables (drainErased ok s)) := by
  unfold drainErased
  repeat' split
  all_goals simp [h]

@[simp] theorem tablesMove_activationProgram (j : ActivationJob) (ok : Bool) {s : State}
    (h : TablesMove a (tables s)) : TablesMove a (tables (activationProgram j ok s)) := by
  unfold activationProgram
  dsimp only
  repeat' split
  all_goals simp +contextual [h]

theorem tablesMove_readEnded (q : Requester) (i : Sector) (g : Nat) (v : ArrayContents) {s : State}
    (h : TablesMove a (tables s)) : TablesMove a (tables (readEnded q i g v s)) := by
  unfold readEnded
  repeat' split
  all_goals simp [h]

theorem tablesMove_programEnded (q : Requester) (ok : Bool) {s : State}
    (h : TablesMove a (tables s)) : TablesMove a (tables (programEnded q ok s)) := by
  have job : TablesMove a (tables (jobProgram q ok s)) := by
    unfold jobProgram
    repeat' split
    all_goals simp [h]
  unfold programEnded
  repeat' split
  · simp [h]
  · exact job
  · exact job

theorem tablesMove_eraseEnded (q : Requester) (ok : Bool) {s : State}
    (h : TablesMove a (tables s)) : TablesMove a (tables (eraseEnded q ok s)) := by
  unfold eraseEnded
  repeat' split
  all_goals simp [h]

theorem tablesMove_endProgram (met : ArrayContents) (ok : Bool) (left : SpanLeft) (first : Bool)
    (q : Requester) (op : ArrayOp) {s : State} (h : TablesMove a (tables s)) :
    TablesMove a (tables (endProgram met ok left first q op s)) := by
  unfold endProgram
  exact tablesMove_afterOutcome (fun _ hu => tablesMove_programEnded q ok hu) h

theorem tablesMove_endErase (ok : Bool) (left : SectorImage) (first : Bool) (e : EraseJob)
    {s : State} (h : TablesMove a (tables s)) :
    TablesMove a (tables (endErase ok left first e s)) := by
  unfold endErase
  exact tablesMove_afterOutcome (fun _ hu => tablesMove_eraseEnded e.requester ok hu) h

end Moves

end Sys2Proof.Machine
end

section
/-! Every step keeps the lease law and the watch law: what every command and every step does to the
two tables. -/

namespace Sys2Proof.Machine

open Sys2Proof

/-! ### Granted commands -/

theorem firstRefusal_eq_none {cs : List (Option Result)} (h : firstRefusal cs = none) :
    ∀ c ∈ cs, c = none := by
  induction cs with
  | nil => simp
  | cons c cs ih =>
    cases c with
    | some r => cases h
    | none => simpa using ih h

/-- A LEASE_TAKE frame in range asks for a time of 1 to 65,535 ms (R69). -/
theorem leaseTakeParams_duration {f : Frame} {k : Key} {d : Nat} {w : Bool}
    (h : leaseTakeParams f = some (k, d, w)) : 1 ≤ d ∧ d ≤ 65535 := by
  have := param_lt f 3 2
  unfold leaseTakeParams at h
  repeat' split at h
  all_goals cases h
  omega

/-- A LEASE_RENEW frame in range asks for a time of 1 to 65,535 ms (R69). -/
theorem leaseRenewParams_duration {f : Frame} {k : Key} {d : Nat}
    (h : leaseRenewParams f = some (k, d)) : 1 ≤ d ∧ d ≤ 65535 := by
  have := param_lt f 3 2
  unfold leaseRenewParams at h
  repeat' split at h
  all_goals cases h
  omega

section Commands

variable {a : Tables} {s t : State}

theorem tablesMove_of_eq (e : tables t = tables s) (h : TablesMove a (tables s)) :
    TablesMove a (tables t) := e ▸ h

/-- Checks and what follows them: the checks that have passed are known there. -/
theorem tablesMove_checked {p : Port} {cs : List (Option Result)} {go : State → State}
    (hg : (∀ c ∈ cs, c = none) → TablesMove a (tables (go s))) (h : TablesMove a (tables s)) :
    TablesMove a (tables (checked p cs go s)) := by
  unfold checked
  split
  · simpa using h
  · exact hg (firstRefusal_eq_none ‹_›)

theorem tablesMove_grantCommand {c : Code} {p : Port} {procedure : Frame → State → State}
    (hg : ∀ f u, TablesMove a (tables u) → TablesMove a (tables (procedure f u)))
    (h : TablesMove a (tables s)) : TablesMove a (tables (grantCommand c p procedure s)) := by
  unfold grantCommand
  dsimp only
  repeat' split
  · simpa using h
  · simpa using h
  · exact hg _ _ h
  · exact h
  · exact h

theorem tables_grantCommand {c : Code} {p : Port} {procedure : Frame → State → State}
    (hg : ∀ f u, tables (procedure f u) = tables u) (s : State) :
    tables (grantCommand c p procedure s) = tables s := by
  unfold grantCommand
  dsimp only
  repeat' split
  all_goals simp [hg]

theorem tablesMove_leaseTakeProcedure (p : Port) (f : Frame) (h : TablesMove a (tables s)) :
    TablesMove a (tables (leaseTakeProcedure p f s)) := by
  unfold leaseTakeProcedure
  split
  · simpa using h
  · rename_i k d wait hf
    refine tablesMove_checked (fun _ => ?_) h
    dsimp only
    rw [tables_reply]
    exact .take p k (leaseTakeParams_duration hf) wait h

theorem tablesMove_leaseRenewProcedure (p : Port) (f : Frame) (h : TablesMove a (tables s)) :
    TablesMove a (tables (leaseRenewProcedure p f s)) := by
  unfold leaseRenewProcedure
  split
  · simpa using h
  · rename_i k d hf
    refine tablesMove_checked (fun _ => ?_) h
    split
    · rename_i l hl
      rw [tables_reply]
      exact .renew (leaseRenewParams_duration hf) hl h
    · simpa using h

theorem tablesMove_leaseDropProcedure (p : Port) (f : Frame) (h : TablesMove a (tables s)) :
    TablesMove a (tables (leaseDropProcedure p f s)) := by
  unfold leaseDropProcedure
  split
  · simpa using h
  · rename_i k hf
    refine tablesMove_checked (fun _ => ?_) h
    split
    · rw [tables_reply]
      exact tablesMove_runLeases (lawfulFate_dropOwnPlace p k) h
    · simpa using h

theorem tablesMove_watchProcedure (p : Port) (f : Frame) (h : TablesMove a (tables s)) :
    TablesMove a (tables (watchProcedure p f s)) := by
  unfold watchProcedure
  split
  · simpa using h
  · refine tablesMove_checked (fun hpass => ?_) h
    rw [tables_reply]
    exact .enter (hpass _ (.tail _ (.head _))) h

theorem tablesMove_unwatchProcedure (p : Port) (f : Frame) (h : TablesMove a (tables s)) :
    TablesMove a (tables (unwatchProcedure p f s)) := by
  unfold unwatchProcedure
  split
  · simpa using h
  · refine tablesMove_checked (fun _ => ?_) h
    rw [tables_reply]
    exact .dropWatches List.erase_sublist h

theorem tablesMove_nsSetProcedure (p : Port) (f : Frame) (h : TablesMove a (tables s)) :
    TablesMove a (tables (nsSetProcedure p f s)) := by
  unfold nsSetProcedure
  repeat' split
  · simpa using h
  · simpa using h
  · rw [tables_reply]
    unfold setRights putNs
    have hrun {ns : Fin 8} {gone : PortSet} {e : Engine} :
        TablesMove a (tables (runLeases (revokeLease ns gone) (s.setEngine e))) :=
      tablesMove_runLeases (lawfulFate_revokeLease ns gone) h
    exact .dropWatches List.filter_sublist hrun

theorem tables_nsFreezeProcedure (p : Port) (f : Frame) (s : State) :
    tables (nsFreezeProcedure p f s) = tables s := by
  unfold nsFreezeProcedure putNs
  repeat' split
  all_goals simp

/-! ### The other commands that move the tables -/

/-- A teardown drops the port's leases and its watches (R80, R88). -/
theorem tablesMove_teardownProcedure (p : Port) (h : TablesMove a (tables s)) :
    TablesMove a (tables (teardownProcedure p s)) :=
  .dropWatches List.filter_sublist (tablesMove_runLeases (lawfulFate_dropPortFromLease p) h)

/-- A reset empties both tables (R66, R85). -/
theorem tablesMove_resetPart (names : Vector NsEntry 8) (n : Nat) (low : Bool) (x : ArrayContents)
    (h : TablesMove a (tables s)) : TablesMove a (tables (resetPart names n low x s)) := by
  have hdrop := TablesMove.sweep lawfulFate_dropLease h
  rw [show (tables s).leases.filterMap (fun l => (dropLease l).1) = [] by simp [dropLease]] at hdrop
  exact .dropWatches (List.nil_sublist _) hdrop

theorem tables_hostWrite (p : Port) (f : PortUnit → PortUnit) (s : State) :
    tables (hostWrite p f s) = tables s := by
  unfold hostWrite
  split <;> rfl

/-! ### Every command -/

/-- What any command does to the two tables. -/
theorem tablesMove_exec {c : Instr} (h : TablesMove a (tables s)) (he : exec c s = .next t) :
    TablesMove a (tables t) := by
  cases c
  case teardownRequest =>
    simp only [exec, execTeardownRequest] at he
    split at he <;> cases he
    · exact tablesMove_teardownProcedure _ h
    · exact h
  case resetNRise =>
    simp only [exec, execResetNRise] at he
    split at he <;> cases he
    · exact tablesMove_resetPart _ _ _ _ h
    · exact h
  case relocate =>
    simp only [exec, execRelocate] at he
    split at he <;> cases he <;> simpa using h
  case purge =>
    simp only [exec, execPurge] at he
    repeat' split at he
    all_goals cases he
    all_goals simpa using h
  case allocationRequest =>
    simp only [exec, execAllocationRequest] at he
    split at he <;> cases he <;> simpa using h
  case readComplete =>
    simp only [exec, execReadComplete] at he
    split at he <;> cases he
    · exact tablesMove_afterOutcome (fun _ hu => tablesMove_readEnded _ _ _ _ hu) h
    · exact h
  case programComplete | programTimeout =>
    simp only [exec, execProgramComplete, execProgramTimeout] at he
    repeat' split at he
    all_goals cases he
    · exact tablesMove_endProgram _ _ _ _ _ _ h
    all_goals exact h
  case eraseComplete | eraseTimeout =>
    simp only [exec, execEraseComplete, execEraseTimeout] at he
    repeat' split at he
    all_goals cases he
    · exact tablesMove_endErase _ _ _ _ h
    all_goals exact h
  all_goals obtain rfl := Host.Outcome.next.inj he
  case leaseTake => exact tablesMove_grantCommand (fun f _ => tablesMove_leaseTakeProcedure _ f) h
  case leaseRenew => exact tablesMove_grantCommand (fun f _ => tablesMove_leaseRenewProcedure _ f) h
  case leaseDrop => exact tablesMove_grantCommand (fun f _ => tablesMove_leaseDropProcedure _ f) h
  case watch => exact tablesMove_grantCommand (fun f _ => tablesMove_watchProcedure _ f) h
  case unwatch => exact tablesMove_grantCommand (fun f _ => tablesMove_unwatchProcedure _ f) h
  case nsSet => exact tablesMove_grantCommand (fun f _ => tablesMove_nsSetProcedure _ f) h
  case format => exact tablesMove_grantCommand (fun _ _ hu => tablesMove_formatGrant _ hu) h
  case timebaseStep => exact tablesMove_runLeases lawfulFate_stepLease h
  case leaseExpiry k => exact tablesMove_runLeases (lawfulFate_expireOn k) h
  case powerOnReset | deviceReset => exact tablesMove_resetPart _ _ _ _ h
  case fetch | probe | scan | putOpen | remove =>
    refine tablesMove_of_eq (tables_grantCommand (fun f u => ?_) s) h
    simp only [fetchProcedure, probeProcedure, scanProcedure, putOpenProcedure, removeProcedure]
    split
    · rw [tables_reply]
    · refine tables_checked (fun v => ?_) u
      repeat' split
      all_goals simp
  case putCommit | reclaim =>
    exact tablesMove_of_eq (tables_grantCommand (fun _ => tables_checked fun v => by simp) s) h
  case putCancel | storeTune =>
    refine tablesMove_of_eq (tables_grantCommand (fun f u => ?_) s) h
    simp only [putCancelProcedure, storeTuneProcedure]
    split <;> simp
  case storeQuery => exact tablesMove_of_eq (tables_grantCommand (fun _ u => by simp) s) h
  case nsFreeze => exact tablesMove_of_eq (tables_grantCommand (tables_nsFreezeProcedure _) s) h
  case cmd | param | submit | stage | flags | portReset | interruptPolarity | registerWrite =>
    exact tablesMove_of_eq (tables_hostWrite _ _ s) h
  case resp | notice | powerGoodFall | powerGoodRise => exact h

/-- What a step does to the two tables. -/
theorem tablesMove_step (he : step s = .next t) : TablesMove (tables s) (tables t) := by
  obtain rfl | ⟨c, rest, -, he⟩ := step_cases he
  · unfold passTime
    repeat' split
    all_goals exact .start
  · exact tablesMove_exec (s := { s with pending := rest }) .start he

end Commands

/-- Settles O9: every step moves the two tables along a path, and every move keeps both laws. -/
theorem leaseAndWatchLawsAreKept : Obligations.LeaseAndWatchLawsAreKept :=
  ⟨fun _ _ h he => (tablesMove_step he).leaseLaw h, fun _ _ h he => (tablesMove_step he).watchLaw h⟩

end Sys2Proof.Machine
end

section
/-! The Lease Unit's events: a step of the timebase, the expiry of one lease, and the treatment of the one
lease on a key (R67, R73, R77). -/

namespace Sys2Proof.Machine

open Sys2Proof

/-! ### Expiry in the words of the statements -/

theorem expireLease_table (l : Lease) : (expireLease l).1.toList = passedTo l.waiters l.key :=
  (passLease_eq l).1

theorem expireLease_notices (l : Lease) : (expireLease l).2 = expiryNotices l := by
  unfold expireLease
  dsimp only
  rw [(passLease_eq l).2]
  rfl

theorem stepLease_table (l : Lease) : (stepLease l).1.toList = leaseAfterStep l := by
  unfold stepLease
  split
  · rw [leaseAfterStep, if_neg (by omega)]
    exact expireLease_table l
  · rw [leaseAfterStep, if_pos (by omega)]
    rfl

theorem stepLease_notices (l : Lease) : (stepLease l).2 = stepNotices l := by
  unfold stepLease
  split
  · rw [stepNotices, if_neg (by omega)]
    exact expireLease_notices l
  · rw [stepNotices, if_pos (by omega)]

/-! ### One lease treated, the others left -/

theorem sweep_untouched {f : Lease → LeaseFate} {ls : List Lease}
    (h : ∀ m ∈ ls, f m = (some m, [])) :
    ls.filterMap (fun l => (f l).1) = ls ∧ ls.flatMap (fun l => (f l).2) = [] := by
  induction ls with
  | nil => exact ⟨rfl, rfl⟩
  | cons l ls ih =>
    obtain ⟨htable, hnotices⟩ := ih fun m hm => h m (List.mem_cons_of_mem _ hm)
    have hl := h l List.mem_cons_self
    simp [hl, htable, hnotices]

/-- A run of the Lease Unit that treats one lease and leaves the others. -/
theorem runLeases_one {f : Lease → LeaseFate} {s : State} {before after : List Lease} {l : Lease}
    (hs : s.leases = before ++ l :: after) (h : ∀ m ∈ before ++ after, f m = (some m, [])) :
    runLeases f s =
      notifyAll (f l).2 (s.setLeases (before ++ (f l).1.toList ++ after)) := by
  obtain ⟨hb, hb'⟩ := sweep_untouched fun m hm => h m (List.mem_append_left after hm)
  obtain ⟨ha, ha'⟩ := sweep_untouched fun m hm => h m (List.mem_append_right before hm)
  have htable : s.leases.filterMap (fun l => (f l).1) = before ++ (f l).1.toList ++ after := by
    rw [hs, List.filterMap_append, List.filterMap_cons, hb, ha]
    cases (f l).1 <;> simp
  have hnotices : s.leases.flatMap (fun l => (f l).2) = (f l).2 := by
    rw [hs, List.flatMap_append, List.flatMap_cons, hb', ha', List.nil_append, List.append_nil]
  rw [runLeases_eq, htable, hnotices]

theorem expireOn_other {k : Key} {m : Lease} (h : m.key ≠ k) : expireOn k m = (some m, []) :=
  if_neg fun c => h c.1

/-- Settles O43: the sweep's table and notices lease by lease, and the sweep that treats one lease. -/
theorem timebaseCountsDownAndExpires : Obligations.TimebaseCountsDownAndExpires := by
  refine ⟨fun s => ?_, fun s before after l hs hr hkeys => ?_⟩
  · show Host.Outcome.next (runLeases stepLease s) = _
    rw [runLeases_eq, List.filterMap_eq_flatMap_toList]
    simp only [stepLease_table, stepLease_notices]
    rfl
  · have hl : expireOn l.key l = expireLease l := if_pos ⟨rfl, hr⟩
    have hlast : leaseAfterStep l = passedTo l.waiters l.key := if_neg (by omega)
    show Host.Outcome.next (runLeases (expireOn l.key) s) = _
    rw [runLeases_one hs fun m hm => expireOn_other (hkeys m hm), hl, expireLease_table,
      expireLease_notices, hlast]
    rfl

end Sys2Proof.Machine
end

section
/-! The lease commands in the step of their grant: LEASE_TAKE, LEASE_RENEW and LEASE_DROP (R69 to R75). -/

namespace Sys2Proof.Machine

open Sys2Proof

/-! ### The grant -/

/-- The grant and a change of the Lease Table may be taken in either order. -/
theorem setLeases_toRunning (p : Port) (s : State) (ls : List Lease) :
    (toRunning p s).setLeases ls = toRunning p (s.setLeases ls) := rfl

/-- LEASE_RENEW and LEASE_DROP ask no right of a namespace that is not UNDEFINED (R51, R52). -/
theorem accessRefusal_none {s : State} {p : Port} {ns : Fin 8}
    (h : (nsEntry s ns).state ≠ .undefined) : accessRefusal .none_ ns p s = none := if_neg h

theorem accessRefusal_undefined {s : State} {p : Port} {ns : Fin 8} (right : Right)
    (h : (nsEntry s ns).state = .undefined) : accessRefusal right ns p s = some .noNamespace :=
  if_pos h

/-! ### LEASE_TAKE -/

section Take

variable {s : State} {p : Port} {k : Key} {d w : Nat}
  (hg : FrameGranted s p .leaseTake (keyBytes k ++ le16 d ++ [byteOf w])) (h1 : 1 ≤ d)
  (h2 : d ≤ 65535) (hw : w ≤ 1) (hd : (nsEntry s k.ns).state ≠ .undefined)
  (hp : hasPort (nsEntry s k.ns).writers p = true)
include hg h1 h2 hw hd hp

/-- A granted LEASE_TAKE by a port of the write set is answered by the Lease Unit. -/
theorem exec_leaseTake {r : Result} {fields : List Byte} {ls : List Lease}
    (hr : takeLease p k d (w == 1) s.leases = (r, fields, ls)) :
    exec (.leaseTake p) s =
      .next (answered p (resultByte r :: fields) { s with leases := ls }) := by
  show Host.Outcome.next (grantCommand .leaseTake p (leaseTakeProcedure p) s) = _
  rw [grantCommand_eq _ hg rfl (fun h => by cases h)]
  simp only [leaseTakeProcedure, leaseTakeParams_frame k d w h1 h2 hw, accessRefusal_toRunning,
    accessRefusal_write hd hp]
  rw [checked_none rfl, toRunning_leases, hr, setLeases_toRunning, reply_toRunning]
  rfl

/-- A LEASE_TAKE that leaves the table as it is. -/
theorem exec_leaseTake_refused {r : Result}
    (hr : takeLease p k d (w == 1) s.leases = (r, [], s.leases)) :
    exec (.leaseTake p) s = .next (answered p [resultByte r] s) :=
  exec_leaseTake hg h1 h2 hw hd hp hr

end Take

section TakeRows

variable {p : Port} {k : Key} {d : Nat} {wait : Bool} {ls : List Lease} {l : Lease}

/-! R70: a key without a lease. -/

theorem takeLease_tableFull (hnone : leaseOn k ls = none)
    (h : 32 ≤ ls.length ∨ 8 ≤ holdCount p ls) :
    takeLease p k d wait ls = (.tableFull, [], ls) := by
  simp only [takeLease, hnone, if_pos h]

theorem takeLease_created (hnone : leaseOn k ls = none) (hlen : ls.length < 32)
    (hcount : holdCount p ls < 8) :
    takeLease p k d wait ls = (.ok, [], putLease ⟨k, p, d, []⟩ ls) := by
  simp only [takeLease, hnone]
  exact if_neg (by omega)

/-! R71: a key with a lease. -/

theorem takeLease_already (hl : leaseOn k ls = some l)
    (h : l.holder = p ∨ p ∈ l.waiters.map Waiter.port) :
    takeLease p k d wait ls = (.already, [], ls) := by
  simp only [takeLease, hl, waits_iff, if_pos h]

variable (hl : leaseOn k ls = some l) (hh : l.holder ≠ p) (hn : p ∉ l.waiters.map Waiter.port)
include hl hh hn

theorem takeLease_held : takeLease p k d false ls = (.held, [], ls) := by
  simp only [takeLease, hl, waits_iff, hh, hn, or_self, if_false, if_true]

theorem takeLease_noPlace (h : 8 ≤ holdCount p ls ∨ 3 ≤ l.waiters.length) :
    takeLease p k d true ls = (.tableFull, [], ls) := by
  simp only [takeLease, hl, waits_iff, hh, hn, or_self, if_false, Bool.true_eq_false, if_pos h]

theorem takeLease_queued (hcount : holdCount p ls < 8) (hlen : l.waiters.length < 3) :
    takeLease p k d true ls = (.queued, [byteOf (l.waiters.length + 1)],
      putLease { l with waiters := l.waiters ++ [⟨p, d⟩] } ls) := by
  simp only [takeLease, hl, waits_iff, hh, hn, or_self, if_false, Bool.true_eq_false]
  exact if_neg (by omega)

end TakeRows

/-- What a put changes is the lease on its key. -/
theorem leaseOn_putLease_only {k : Key} (x : Lease) (ls : List Lease) (hx : x.key = k) :
    leaseOn k (putLease x ls) = some x ∧
      ∀ k', k' ≠ k → leaseOn k' (putLease x ls) = leaseOn k' ls := by
  subst hx
  refine ⟨?_, fun k' hk => ?_⟩
  · rw [leaseOn_putLease, if_pos rfl]
  · rw [leaseOn_putLease, if_neg hk]

/-- Settles O44: the rows of R70 and R71, one equation of `takeLease` each. -/
theorem leaseTakeByHolderAndLimits : Obligations.LeaseTakeByHolderAndLimits := by
  intro s p k d w hg h1 h2 hw hd hp
  refine ⟨fun hnone => ⟨fun hfull => ?_, fun hlen hcount => ?_⟩,
    fun l hl => ⟨fun hplace => ?_, fun hh hn => ⟨?_, ?_, ?_⟩⟩⟩
  · exact exec_leaseTake_refused hg h1 h2 hw hd hp (takeLease_tableFull hnone hfull)
  · exact ⟨_, exec_leaseTake hg h1 h2 hw hd hp (takeLease_created hnone hlen hcount),
      leaseOn_putLease_only _ _ rfl⟩
  · exact exec_leaseTake_refused hg h1 h2 hw hd hp (takeLease_already hl hplace)
  · rintro rfl
    exact exec_leaseTake_refused hg h1 h2 hw hd hp (takeLease_held hl hh hn)
  · rintro rfl hfull
    exact exec_leaseTake_refused hg h1 h2 hw hd hp (takeLease_noPlace hl hh hn hfull)
  · rintro rfl hcount hlen
    exact ⟨_, exec_leaseTake hg h1 h2 hw hd hp (takeLease_queued hl hh hn hcount hlen),
      leaseOn_putLease_only _ _ (leaseOn_key hl).1⟩

/-! ### LEASE_RENEW -/

theorem heldLease_some {p : Port} {k : Key} {ls : List Lease} {l : Lease}
    (hl : leaseOn k ls = some l) (hh : l.holder = p) : heldLease p k ls = some l := by
  simp only [heldLease, hl, hh, if_true]

theorem heldLease_none {p : Port} {k : Key} {ls : List Lease}
    (h : ∀ l, leaseOn k ls = some l → l.holder ≠ p) : heldLease p k ls = none := by
  unfold heldLease
  split
  · rename_i l hl
    exact if_neg (h l hl)
  · rfl

section Renew

variable {s : State} {p : Port} {k : Key} {d : Nat}
  (hg : FrameGranted s p .leaseRenew (keyBytes k ++ le16 d))
include hg

/-- A granted LEASE_RENEW frame comes to its procedure. -/
theorem exec_leaseRenew : exec (.leaseRenew p) s = .next (leaseRenewProcedure p
    ⟨codeByte .leaseRenew, keyBytes k ++ le16 d, false⟩ (toRunning p s)) :=
  congrArg Host.Outcome.next (grantCommand_eq _ hg rfl (fun h => by cases h))

variable (h2 : d ≤ 65535)
include h2

theorem exec_leaseRenew_badParam (h0 : d = 0) :
    exec (.leaseRenew p) s = .next (answered p [0x52] s) := by
  rw [exec_leaseRenew hg]
  simp only [leaseRenewProcedure, leaseRenewParams_frame k d h2, if_pos h0, reply_toRunning]
  rfl

variable (h1 : 1 ≤ d)
include h1

theorem exec_leaseRenew_noNamespace (hu : (nsEntry s k.ns).state = .undefined) :
    exec (.leaseRenew p) s = .next (answered p [0x30] s) := by
  rw [exec_leaseRenew hg]
  simp only [leaseRenewProcedure, leaseRenewParams_frame k d h2, if_neg (Nat.ne_of_gt h1),
    accessRefusal_toRunning, accessRefusal_undefined _ hu]
  rw [checked_toRunning_refused rfl]
  rfl

variable (hd : (nsEntry s k.ns).state ≠ .undefined)
include hd

/-- The holder's lease takes the frame's duration (R72). -/
theorem exec_leaseRenew_held {l : Lease} (hl : heldLease p k s.leases = some l) :
    exec (.leaseRenew p) s = .next (answered p [0x00]
      { s with leases := putLease { l with remaining := d } s.leases }) := by
  rw [exec_leaseRenew hg]
  simp only [leaseRenewProcedure, leaseRenewParams_frame k d h2, if_neg (Nat.ne_of_gt h1),
    accessRefusal_toRunning, accessRefusal_none hd]
  rw [checked_none rfl]
  simp only [toRunning_leases, hl, setLeases_toRunning, reply_toRunning]
  rfl

theorem exec_leaseRenew_notHeld (hl : heldLease p k s.leases = none) :
    exec (.leaseRenew p) s = .next (answered p [0x21] s) := by
  rw [exec_leaseRenew hg]
  simp only [leaseRenewProcedure, leaseRenewParams_frame k d h2, if_neg (Nat.ne_of_gt h1),
    accessRefusal_toRunning, accessRefusal_none hd]
  rw [checked_none rfl]
  simp only [toRunning_leases, hl, reply_toRunning]
  rfl

end Renew

/-! ### LEASE_DROP -/

theorem hasPlace_iff {p : Port} {k : Key} {ls : List Lease} :
    hasPlace p k ls = true ↔
      ∃ l, leaseOn k ls = some l ∧ (l.holder = p ∨ p ∈ l.waiters.map Waiter.port) := by
  unfold hasPlace
  cases leaseOn k ls with
  | none => simp
  | some l => simp only [Bool.or_eq_true, beq_iff_eq, waits_iff, Option.some.injEq, exists_eq_left']

/-- A granted LEASE_DROP in a namespace that is not UNDEFINED comes to the port's place in the lease. -/
theorem exec_leaseDrop {s : State} {p : Port} {k : Key}
    (hg : FrameGranted s p .leaseDrop (keyBytes k)) (hd : (nsEntry s k.ns).state ≠ .undefined) :
    exec (.leaseDrop p) s = .next (if hasPlace p k s.leases = true
      then answered p [0x00] (runLeases (dropOwnPlace p k) s) else answered p [0x21] s) := by
  show Host.Outcome.next (grantCommand .leaseDrop p (leaseDropProcedure p) s) = _
  rw [grantCommand_eq _ hg rfl (fun h => by cases h)]
  simp only [leaseDropProcedure, keyParam_keyBytes_only, accessRefusal_toRunning,
    accessRefusal_none hd]
  rw [checked_none rfl]
  simp only [toRunning_leases, runLeases_toRunning, reply_toRunning]
  rfl

/-- The lease on a key stands alone among leases of other keys. -/
theorem leaseOn_split {k : Key} {ls : List Lease} {l : Lease} (h : LeaseOrder ls)
    (hl : leaseOn k ls = some l) :
    ∃ before after, ls = before ++ l :: after ∧ ∀ m ∈ before ++ after, m.key ≠ k := by
  obtain ⟨rfl, -⟩ := leaseOn_key hl
  obtain ⟨before, after, hsplit, -, hb, ha⟩ := putLease_split l h
  refine ⟨before, after, by simpa [hl] using hsplit, fun m hm e => ?_⟩
  rcases List.mem_append.1 hm with hm | hm
  · exact absurd (hb m hm) (by simp [e])
  · exact absurd (ha m hm) (by simp [e])

/-- What a lookup finds where the lease on one key has been treated. -/
theorem leaseOn_treated {k : Key} {before after : List Lease} {o : Option Lease}
    (hothers : ∀ m ∈ before ++ after, m.key ≠ k) (ho : ∀ m, o = some m → m.key = k) :
    leaseOn k (before ++ o.toList ++ after) = o ∧
      ∀ k', k' ≠ k → leaseOn k' (before ++ o.toList ++ after) = leaseOn k' (before ++ after) := by
  have hb : leaseOn k before = none :=
    leaseOn_eq_none.2 fun m hm => hothers m (List.mem_append_left _ hm)
  have ha : leaseOn k after = none :=
    leaseOn_eq_none.2 fun m hm => hothers m (List.mem_append_right _ hm)
  refine ⟨?_, fun k' hk => ?_⟩
  · rw [leaseOn_append, leaseOn_append, hb, ha, Option.or_none, Option.none_or]
    cases o with
    | none => rfl
    | some m => simp [leaseOn, ho m rfl]
  · have hnone : leaseOn k' o.toList = none := leaseOn_eq_none.2 fun m hm e =>
      hk (e.symm.trans (ho m (by simpa using hm)))
    rw [leaseOn_append, leaseOn_append, leaseOn_append, hnone, Option.or_none]

theorem dropOwnPlace_other {p : Port} {k : Key} {m : Lease} (h : m.key ≠ k) :
    dropOwnPlace p k m = (some m, []) := if_neg h

/-- A LEASE_DROP treats the lease on its key and no other. -/
theorem runLeases_dropOwnPlace {s : State} {p : Port} {k : Key} {l : Lease}
    (h : LeaseLaw s.leases) (hl : leaseOn k s.leases = some l) :
    ∃ ls, runLeases (dropOwnPlace p k) s =
        notifyAll (dropOwnPlace p k l).2 { s with leases := ls } ∧
      leaseOn k ls = (dropOwnPlace p k l).1 ∧
      ∀ k', k' ≠ k → leaseOn k' ls = leaseOn k' s.leases := by
  obtain ⟨-, hord, hlaw, -⟩ := leaseLaw_iff.1 h
  obtain ⟨hkey, hmem⟩ := leaseOn_key hl
  obtain ⟨before, after, hs, hothers⟩ := leaseOn_split hord hl
  have hkept : ∀ m, (dropOwnPlace p k l).1 = some m → m.key = k := fun m hm =>
    ((lawfulFate_dropOwnPlace p k l m (hlaw l hmem) hm).key).trans hkey
  obtain ⟨hon, hoff⟩ := leaseOn_treated hothers hkept
  refine ⟨_, runLeases_one hs fun m hm => dropOwnPlace_other (hothers m hm), hon, fun k' hk => ?_⟩
  have hwas := (leaseOn_treated (o := some l) hothers fun m e => by cases e; exact hkey).2 k' hk
  rw [hoff k' hk, ← hwas, hs]
  simp

/-- The holder's drop passes its lease (R74). -/
theorem dropOwnPlace_holder {p : Port} {k : Key} {l : Lease} (hkey : l.key = k)
    (hh : l.holder = p) : dropOwnPlace p k l = passLease l := by
  rw [dropOwnPlace, if_pos hkey, if_pos hh]

/-- A waiter's drop gives its place up (R75). -/
theorem dropOwnPlace_waiter {p : Port} {k : Key} {l : Lease} (hkey : l.key = k)
    (hh : l.holder ≠ p) : dropOwnPlace p k l =
      (some { l with waiters := l.waiters.filter (fun w => w.port != p) }, []) := by
  rw [dropOwnPlace, if_pos hkey, if_neg hh]

theorem passLease_nil {l : Lease} (h : l.waiters = []) : passLease l = (none, []) := by
  simp only [passLease, h]

theorem passLease_cons {l : Lease} {w : Waiter} {ws : List Waiter} (h : l.waiters = w :: ws) :
    passLease l = (some ⟨l.key, w.port, w.duration, ws⟩, [(w.port, .granted l.key)]) := by
  simp only [passLease, h]

/-- Settles O45: LEASE_RENEW by its checks and the holder's lease; LEASE_DROP by the port's place in
the lease. -/
theorem leaseRenewAndLeaseDropByPlace : Obligations.LeaseRenewAndLeaseDropByPlace := by
  refine ⟨fun s p k d hg h2 => ⟨exec_leaseRenew_badParam hg h2, exec_leaseRenew_noNamespace hg h2,
    fun h1 hd => ⟨fun l hl hh => ?_, fun hno => ?_⟩⟩, fun s p k hg hd hlaw => ⟨fun hno => ?_,
    fun l hl => ?_⟩⟩
  · exact ⟨_, exec_leaseRenew_held hg h2 h1 hd (heldLease_some hl hh),
      leaseOn_putLease_only _ _ (leaseOn_key hl).1⟩
  · exact exec_leaseRenew_notHeld hg h2 h1 hd (heldLease_none hno)
  · rw [exec_leaseDrop hg hd, if_neg]
    rw [hasPlace_iff]
    rintro ⟨l, hl, hplace⟩
    obtain ⟨hh, hn⟩ := hno l hl
    exact hplace.elim hh hn
  · obtain ⟨hkey, -⟩ := leaseOn_key hl
    obtain ⟨ls, hrun, hon, hoff⟩ := runLeases_dropOwnPlace (p := p) hlaw hl
    have hexec (hplace : l.holder = p ∨ p ∈ l.waiters.map Waiter.port) :
        exec (.leaseDrop p) s = .next (answered p [0x00]
          (notifyAll (dropOwnPlace p k l).2 { s with leases := ls })) := by
      rw [exec_leaseDrop hg hd, if_pos (hasPlace_iff.2 ⟨l, hl, hplace⟩), hrun]
    refine ⟨fun hh hnil => ?_, fun w ws hh hcons => ?_, fun hh hmem => ?_⟩
    · have hexec := hexec (.inl hh)
      rw [dropOwnPlace_holder hkey hh, passLease_nil hnil] at hexec hon
      exact ⟨ls, hexec, hon, hoff⟩
    · have hexec := hexec (.inl hh)
      rw [dropOwnPlace_holder hkey hh, passLease_cons hcons, hkey] at hexec hon
      exact ⟨ls, hexec, hon, hoff⟩
    · have hexec := hexec (.inr hmem)
      rw [dropOwnPlace_waiter hkey hh] at hexec hon
      exact ⟨ls, hexec, hon, hoff⟩

end Sys2Proof.Machine
end

section
/-! The notice queues: how a notice is placed (R93), and that no step leaves the queue law (R92, R95, R96). -/

namespace Sys2Proof.Machine

open Sys2Proof

/-! ### The cases of R93 -/

section Placing

variable {q : NoticeQueue} {n : Notice}

theorem coalesces_iff {k : Key} (hk : changeKey n = some k) :
    coalesces q n = true ↔ (unopened q).any (coalescesAt k) = true := by
  simp only [coalesces, hk]

/-- A lease notice never coalesces. -/
theorem coalesces_leaseNotice (h : changeKey n = none) : coalesces q n = false := by
  simp only [coalesces, h]

theorem placeNotice_coalesced {k : Key} (hk : changeKey n = some k)
    (h : (unopened q).any (coalescesAt k) = true) :
    placeNotice q n = { q with entries := opened q ++ replaceChange k n (unopened q) } := by
  simp only [placeNotice, (coalesces_iff hk).2 h, if_true, hk]

theorem placeNotice_counted {es : List NoticeEntry} {c : Nat} (h : coalesces q n = false)
    (hq : q.entries = es ++ [.overflow c]) :
    placeNotice q n = { q with entries := es ++ [.overflow (min 255 (c + 1))] } := by
  simp [placeNotice, h, hq]

theorem placeNotice_atEnd (h : coalesces q n = false)
    (hq : ∀ es c, q.entries ≠ es ++ [.overflow c]) :
    placeNotice q n =
      if q.entries.length < 15 then { q with entries := q.entries ++ [.notice n] }
      else if q.entries.length = 15 then { q with entries := q.entries ++ [.overflow 1] }
      else q := by
  unfold placeNotice
  rw [if_neg (by simp [h])]
  split
  · rename_i c hlast
    obtain ⟨es, hes⟩ := List.getLast?_eq_some_iff.1 hlast
    exact absurd hes (hq es c)
  · rfl

end Placing

/-- Settles O29: the four cases of R93, and the discard of R98. -/
theorem noticePlacementFollowsTheFourCases : Obligations.NoticePlacementFollowsTheFourCases := by
  refine ⟨fun q n => ⟨fun k => placeNotice_coalesced, fun h => ⟨fun es c => placeNotice_counted h,
    fun hq => ⟨fun hlt => ?_, fun heq => ?_⟩⟩⟩, fun q n => coalesces_leaseNotice,
    fun s p n => ⟨fun hl => if_pos hl, notify_discarded⟩⟩
  · rw [placeNotice_atEnd h hq, if_pos hlt]
  · rw [placeNotice_atEnd h hq, if_neg (by omega), if_pos heq]

/-! ### The queue law -/

theorem unopened_eq_drop (q : NoticeQueue) :
    unopened q = q.entries.drop (if q.taken = 0 then 0 else 1) := by
  unfold unopened
  split <;> rfl

theorem opened_append_unopened (q : NoticeQueue) : opened q ++ unopened q = q.entries := by
  unfold opened unopened
  split
  · rfl
  · exact List.take_append_drop 1 q.entries

theorem coalescesAt_iff {k : Key} {e : NoticeEntry} :
    coalescesAt k e = true ↔ entryChangeKey e = some k := by
  cases e <;> simp [coalescesAt, entryChangeKey]

/-- Where no OVERFLOW is last there is none in the queue. -/
theorem QueueLaw.noOverflow {q : NoticeQueue} (h : QueueLaw q)
    (hq : ∀ es c, q.entries ≠ es ++ [.overflow c]) : ∀ e ∈ q.entries, isOverflow e = false := by
  obtain ⟨-, hinner, -⟩ := h
  intro e he
  rcases List.eq_nil_or_concat' q.entries with hnil | ⟨es, x, hx⟩
  · simp [hnil] at he
  · rw [hx] at hinner he
    rcases List.mem_append.1 he with he | he
    · exact hinner e (by simpa using he)
    · obtain rfl := List.mem_singleton.1 he
      cases e with
      | notice _ => rfl
      | overflow c => exact absurd hx (hq es c)

/-- What the queue law asks of an entry besides its OVERFLOW count: whether it is an OVERFLOW, and the key of a
change notice. -/
def entryShape (e : NoticeEntry) : Bool × Option Key := (isOverflow e, entryChangeKey e)

/-- Entries replaced by entries of the same shapes, with counts in range, keep the queue law. -/
theorem QueueLaw.sameShapes {q : NoticeQueue} (h : QueueLaw q) {es : List NoticeEntry}
    (hshape : es.map entryShape = q.entries.map entryShape)
    (hcount : ∀ c, .overflow c ∈ es → 1 ≤ c ∧ c ≤ 255) : QueueLaw { q with entries := es } := by
  obtain ⟨hlen, hinner, -, hkeys, htaken, hnil⟩ := h
  have hlength : es.length = q.entries.length := by simpa using congrArg List.length hshape
  have hkeysOf (l : List NoticeEntry) :
      l.filterMap entryChangeKey = (l.map entryShape).filterMap Prod.snd := by
    rw [List.filterMap_map]
    rfl
  refine ⟨hlength.trans_le hlen, ?_, hcount, ?_, htaken, fun he => hnil ?_⟩
  · have hflags : ∀ x ∈ es.dropLast.map entryShape, x.1 = false := by
      rw [List.map_dropLast, hshape, ← List.map_dropLast]
      exact List.forall_mem_map.2 hinner
    exact List.forall_mem_map.1 hflags
  · rw [unopened_eq_drop, hkeysOf, List.map_drop] at hkeys ⊢
    rwa [hshape]
  · exact List.length_eq_zero_iff.1 (hlength.symm.trans (List.length_eq_zero_iff.2 he))

/-- An entry behind a queue of at most 15 entries without OVERFLOW keeps the queue law, if its key stands in no
unopened entry. -/
theorem QueueLaw.entryAppended {q : NoticeQueue} (h : QueueLaw q) {x : NoticeEntry}
    (hlen : q.entries.length ≤ 15) (hno : ∀ e ∈ q.entries, isOverflow e = false)
    (hcount : ∀ c, x = .overflow c → 1 ≤ c ∧ c ≤ 255)
    (hkey : ∀ k, entryChangeKey x = some k → (unopened q).any (coalescesAt k) = false) :
    QueueLaw { q with entries := q.entries ++ [x] } := by
  obtain ⟨-, -, hcounts, hkeys, htaken, hnil⟩ := h
  have hunopened : unopened { q with entries := q.entries ++ [x] } = unopened q ++ [x] := by
    unfold unopened
    split
    · rfl
    · rename_i ht
      exact List.drop_append_of_le_length
        (List.length_pos_iff.2 fun he => ht (hnil he))
  refine ⟨by simpa using Nat.succ_le_succ hlen, by simpa using hno, fun c hc => ?_, ?_, htaken,
    fun he => by simp at he⟩
  · rcases List.mem_append.1 hc with hc | hc
    · exact hcounts c hc
    · exact hcount c (List.mem_singleton.1 hc).symm
  · rw [hunopened, List.filterMap_append]
    refine List.nodup_append'.2 ⟨hkeys, ?_, fun k hk hx => ?_⟩
    · cases hx : entryChangeKey x <;> simp [hx]
    · have hx : entryChangeKey x = some k := by simpa using hx
      have hfresh := hkey k hx
      simp only [List.any_eq_false, coalescesAt_iff] at hfresh
      obtain ⟨e, he, hek⟩ := List.mem_filterMap.1 hk
      exact hfresh e he hek

/-- A coalescing notice takes the place of an entry of its own key. -/
theorem entryShape_replaced {k : Key} {n : Notice} (hk : changeKey n = some k) (e : NoticeEntry) :
    entryShape (if coalescesAt k e then .notice n else e) = entryShape e := by
  split
  · rename_i he
    have hek := coalescesAt_iff.1 he
    cases e with
    | notice m => simpa [entryShape, entryChangeKey, isOverflow, hk] using hek.symm
    | overflow c => cases hek
  · rfl

/-- A coalescing notice leaves the OVERFLOW entries. -/
theorem overflow_mem_replaceChange {k : Key} {n : Notice} {es : List NoticeEntry} {c : Nat}
    (h : .overflow c ∈ replaceChange k n es) : .overflow c ∈ es := by
  obtain ⟨e, he, heq⟩ := List.mem_map.1 h
  split at heq
  · cases heq
  · exact heq ▸ he

/-- A notice placed keeps the queue law, in every case of R93. -/
theorem QueueLaw.noticePlaced {q : NoticeQueue} (h : QueueLaw q) (n : Notice) :
    QueueLaw (placeNotice q n) := by
  have ⟨_, _, hcounts, _⟩ := h
  cases hc : coalesces q n with
  | true =>
    cases hk : changeKey n with
    | none => rw [coalesces_leaseNotice hk] at hc; cases hc
    | some k =>
      rw [placeNotice_coalesced hk ((coalesces_iff hk).1 hc)]
      refine h.sameShapes ?_ fun c hm => hcounts c ?_
      · conv_rhs => rw [← opened_append_unopened q]
        simp [replaceChange, Function.comp_def, entryShape_replaced hk]
      · rw [← opened_append_unopened q]
        exact List.mem_append.2 ((List.mem_append.1 hm).imp_right overflow_mem_replaceChange)
  | false =>
    by_cases hlast : ∃ es c, q.entries = es ++ [.overflow c]
    · obtain ⟨es, c, hq⟩ := hlast
      rw [hq] at hcounts
      rw [placeNotice_counted hc hq]
      refine h.sameShapes (by simp [hq, entryShape, isOverflow, entryChangeKey]) fun d hd => ?_
      rcases List.mem_append.1 hd with hd | hd
      · exact hcounts d (List.mem_append_left _ hd)
      · simp only [List.mem_singleton, NoticeEntry.overflow.injEq] at hd
        omega
    · have hq : ∀ es c, q.entries ≠ es ++ [.overflow c] := fun es c he => hlast ⟨es, c, he⟩
      rw [placeNotice_atEnd hc hq]
      split
      · refine h.entryAppended (by omega) (h.noOverflow hq) (fun c he => by cases he) fun k hk => ?_
        simpa [coalesces, show changeKey n = some k from hk] using hc
      · split
        · refine h.entryAppended (by omega) (h.noOverflow hq) (fun c he => ?_) fun k hk => by cases hk
          cases he
          decide
        · exact h

/-- A byte read from NOTICE keeps the queue law (R96). -/
theorem QueueLaw.byteTaken {q : NoticeQueue} (h : QueueLaw q) : QueueLaw (takeNoticeByte q) := by
  have ⟨hlen, hinner, hcounts, hkeys, _, _⟩ := h
  have hrest : ((q.entries.drop 1).filterMap entryChangeKey).Nodup := by
    refine hkeys.sublist (List.Sublist.filterMap _ ?_)
    rw [unopened_eq_drop]
    split
    · exact List.drop_sublist 1 _
    · exact List.Sublist.refl _
  unfold takeNoticeByte
  split
  · exact h
  · rename_i e es hq
    split
    · rename_i hlt
      exact ⟨hlen, hinner, hcounts, hrest, hlt, fun he => by simp [hq] at he⟩
    · rw [hq] at hlen hinner hcounts hrest
      exact ⟨Nat.le_of_succ_le hlen,
        fun x hx => hinner x (List.mem_of_mem_tail (by rwa [List.tail_dropLast])),
        fun c hc => hcounts c (List.mem_cons_of_mem _ hc), hrest, Nat.zero_le _, fun _ => rfl⟩

/-- Every move of a desk keeps its queue's law. -/
theorem DeskMoves.queueLaw {a d : Desk} (h : DeskMoves a d) (ha : QueueLaw a.queue) :
    QueueLaw d.queue := by
  induction h with
  | start => exact ha
  | place n _ ih => exact ih.noticePlaced n
  | take _ ih => exact ih.byteTaken
  | empty _ _ => exact queueLaw_empty
  | opened _ _ _ _ ih | staged _ _ ih | held _ _ ih | closed _ ih | reset _ ih => exact ih

/-- Settles O8: every step moves each desk along a path, and every move keeps the law. -/
theorem noticeQueueLawIsKept : Obligations.NoticeQueueLawIsKept :=
  fun _ _ h he p => (moves_step he p).queueLaw (h p)

end Sys2Proof.Machine
end

section
/-! The watch commands in the step of their grant: WATCH and UNWATCH (R84, R86, R87). -/

namespace Sys2Proof.Machine

open Sys2Proof

/-- The grant and a change of the Watch Table may be taken in either order. -/
theorem setWatches_toRunning (p : Port) (s : State) (ws : List WatchEntry) :
    (toRunning p s).setWatches ws = toRunning p (s.setWatches ws) := rfl

/-! ### The checks of the table -/

section Checks

variable {w : WatchEntry} {ws : List WatchEntry}

theorem watchRefusal_already (h : w ∈ ws) : watchRefusal w ws = some .already :=
  if_pos (by simpa using h)

theorem unwatchRefusal_present (h : w ∈ ws) : unwatchRefusal w ws = none :=
  if_pos (by simpa using h)

variable (hw : w ∉ ws)
include hw

theorem watchRefusal_tableFull (h : 16 ≤ watchCount w.port ws ∨ 64 ≤ ws.length) :
    watchRefusal w ws = some .tableFull := by
  rw [watchRefusal, if_neg (by simpa using hw), if_pos h]

theorem watchRefusal_none (hcount : watchCount w.port ws < 16) (hlen : ws.length < 64) :
    watchRefusal w ws = none := by
  rw [watchRefusal, if_neg (by simpa using hw), if_neg (by omega)]

theorem unwatchRefusal_absent : unwatchRefusal w ws = some .notFound :=
  if_neg (by simpa using hw)

end Checks

/-! ### The commands -/

section Entry

variable {s : State} {p : Port} {ns : Fin 8} {i : Nat} {target : Option (Fin 4096)}
  (ht : (i = 0xFFFF ∧ target = none) ∨ (∃ h : i < 4096, target = some ⟨i, h⟩))
  (hd : (nsEntry s ns).state ≠ .undefined)

section Watch

variable (hg : FrameGranted s p .watch (byteOf ns.val :: le16 i))
  (hr : hasPort (nsEntry s ns).readers p = true)
include ht hd hg hr

/-- A granted WATCH by a port of the read set comes to the checks of the table. -/
theorem exec_watch : exec (.watch p) s = .next (checked p
    [none, watchRefusal ⟨p, ns, target⟩ s.watches]
    (fun t => reply p .ok [] (t.setWatches (t.watches ++ [⟨p, ns, target⟩]))) (toRunning p s)) := by
  show Host.Outcome.next (grantCommand .watch p (watchProcedure p) s) = _
  rw [grantCommand_eq _ hg rfl (fun h => by cases h)]
  simp only [watchProcedure, watchParams_frame ns i target ht, accessRefusal_read hd hr,
    toRunning_watches]

theorem exec_watch_refused {r : Result} (hc : watchRefusal ⟨p, ns, target⟩ s.watches = some r) :
    exec (.watch p) s = .next (answered p [resultByte r] s) := by
  rw [exec_watch ht hd hg hr, hc, checked_toRunning_refused rfl]

theorem exec_watch_entered (hc : watchRefusal ⟨p, ns, target⟩ s.watches = none) :
    exec (.watch p) s = .next (answered p [0x00]
      { s with watches := s.watches ++ [⟨p, ns, target⟩] }) := by
  rw [exec_watch ht hd hg hr, hc, checked_none rfl, setWatches_toRunning, reply_toRunning]
  rfl

end Watch

section Unwatch

variable (hg : FrameGranted s p .unwatch (byteOf ns.val :: le16 i))
include ht hd hg

/-- A granted UNWATCH in a namespace that is not UNDEFINED comes to the check of the table. -/
theorem exec_unwatch : exec (.unwatch p) s = .next (checked p
    [none, unwatchRefusal ⟨p, ns, target⟩ s.watches]
    (fun t => reply p .ok [] (t.setWatches (t.watches.erase ⟨p, ns, target⟩)))
    (toRunning p s)) := by
  show Host.Outcome.next (grantCommand .unwatch p (unwatchProcedure p) s) = _
  rw [grantCommand_eq _ hg rfl (fun h => by cases h)]
  simp only [unwatchProcedure, watchParams_frame ns i target ht, accessRefusal_toRunning,
    accessRefusal_none hd, toRunning_watches]

theorem exec_unwatch_absent (hw : ⟨p, ns, target⟩ ∉ s.watches) :
    exec (.unwatch p) s = .next (answered p [0x10] s) := by
  rw [exec_unwatch ht hd hg, unwatchRefusal_absent hw, checked_toRunning_refused rfl]
  rfl

theorem exec_unwatch_present (hw : ⟨p, ns, target⟩ ∈ s.watches) :
    exec (.unwatch p) s = .next (answered p [0x00]
      { s with watches := s.watches.erase ⟨p, ns, target⟩ }) := by
  rw [exec_unwatch ht hd hg, unwatchRefusal_present hw, checked_none rfl, setWatches_toRunning,
    reply_toRunning]
  rfl

end Unwatch

end Entry

/-- Settles O46: each command by the checks of the table, and the table that it leaves. -/
theorem watchAndUnwatchOneEntry : Obligations.WatchAndUnwatchOneEntry := by
  rintro s p ns i target w ht rfl hd
  refine ⟨fun hg hr => ⟨fun hw => ?_, fun hw => ⟨fun hfull => ?_, fun hcount hlen => ?_⟩⟩,
    fun hg => ⟨exec_unwatch_absent ht hd hg, fun hw hnodup => ?_⟩⟩
  · exact exec_watch_refused ht hd hg hr (watchRefusal_already hw)
  · exact exec_watch_refused ht hd hg hr (watchRefusal_tableFull hw hfull)
  · exact ⟨_, exec_watch_entered ht hd hg hr (watchRefusal_none hw hcount hlen),
      fun x => by simp [or_comm]⟩
  · exact ⟨_, exec_unwatch_present ht hd hg hw, fun _ => hnodup.mem_erase_iff⟩

end Sys2Proof.Machine
end

section
/-! SUPPORT. The low-water mark and the Evacuation List (R116, R120): each of the part's procedures keeps
their limits. -/

namespace Sys2Proof.Machine

open Sys2Proof

/-- The Space Manager of a state is within its limits. -/
def Limited (s : State) : Prop := SpaceLimits s.space

/-! ### Changes of the Space Manager -/

section Tables

variable {x : Space} (h : SpaceLimits x)
include h

/-- Sectors leave the list, or nothing of it changes. -/
theorem SpaceLimits.fewer {y : Space} (hw : y.lowWater = x.lowWater)
    (hs : y.evacuation.Sublist x.evacuation) : SpaceLimits y := by
  obtain ⟨hlow, hhigh, hnodup, hlength⟩ := h
  exact ⟨hw ▸ hlow, hw ▸ hhigh, hnodup.sublist hs, hs.length_le.trans hlength⟩

/-- A RETIRED sector joins the list only where it is not on it and the list has room (R112, R120). -/
theorem SpaceLimits.listRetired (i : Sector) : SpaceLimits (x.listRetired i) := by
  unfold Space.listRetired
  split
  · rename_i hc
    obtain ⟨-, -, hnew, hroom⟩ := hc
    obtain ⟨hlow, hhigh, hnodup, -⟩ := h
    refine ⟨hlow, hhigh, hnodup.append (List.nodup_singleton i) ?_, ?_⟩
    · simpa [List.contains_iff_mem] using hnew
    · simpa using hroom
  · exact h

/-- The accounts follow a change of an entry, and its new sector may be listed (R11, R120). -/
theorem SpaceLimits.repoint (o : Option IndexEntry) (e : IndexEntry) : SpaceLimits (x.repoint o e) := by
  refine SpaceLimits.listRetired ?_ _
  cases o <;> exact h

/-- The list is made anew from the RETIRED sectors with live granules, up to 8 of them (R162). -/
theorem SpaceLimits.listed (P : Sector → Bool) :
    SpaceLimits { x with evacuation := ((x.sectorsIn .retired).filter P).take 8 } := by
  obtain ⟨hlow, hhigh, -, -⟩ := h
  refine ⟨hlow, hhigh, ?_, List.length_take_le _ _⟩
  have hall : (x.sectorsIn .retired).Nodup := (List.nodup_finRange 128).filter _
  exact (hall.filter _).sublist (List.take_sublist _ _)

end Tables

/-! Changes that leave both fields as they are. -/

/-- Fields but the mark and the list are replaced. -/
@[simp] theorem spaceLimits_update (x : Space) (t : Vector SectorRecord 128) (st : StoreState)
    (c : Option Cause) (n spent : Bool) (k base : Word32) (e d : Option AllocRequest)
    (a : Option ActivationJob) :
    SpaceLimits ⟨t, st, c, n, x.evacuation, k, spent, base, x.lowWater, e, d, a⟩ ↔ SpaceLimits x :=
  Iff.rfl

@[simp] theorem spaceLimits_setRec (x : Space) (i : Sector) (r : SectorRecord) :
    SpaceLimits (x.setRec i r) ↔ SpaceLimits x := Iff.rfl
@[simp] theorem spaceLimits_joinPool (x : Space) (i : Sector) (n : EraseCount) :
    SpaceLimits (joinPool i n x) ↔ SpaceLimits x := Iff.rfl
@[simp] theorem spaceLimits_dropSequence (x : Space) (i : Sector) :
    SpaceLimits (dropSequence i x) ↔ SpaceLimits x := Iff.rfl
@[simp] theorem spaceLimits_closeSector (x : Space) (i : Sector) :
    SpaceLimits (closeSector i x) ↔ SpaceLimits x := Iff.rfl
@[simp] theorem spaceLimits_deaden (x : Space) (i : Sector) (n : Nat) :
    SpaceLimits (x.deaden i n) ↔ SpaceLimits x := Iff.rfl
@[simp] theorem spaceLimits_allocateIn (x : Space) (i : Sector) (n : Nat) :
    SpaceLimits (allocateIn i n x).2 ↔ SpaceLimits x := Iff.rfl
@[simp] theorem spaceLimits_fillAccounts (x : Space) (l : List (Sector × Nat)) (ix : List IndexEntry) :
    SpaceLimits (fillAccounts l ix x) ↔ SpaceLimits x := by
  simp [fillAccounts]
@[simp] theorem spaceLimits_setAlloc (x : Space) (r : Requester) (q : Option AllocRequest) :
    SpaceLimits (x.setAlloc r q) ↔ SpaceLimits x := by cases r <;> rfl
@[simp] theorem spaceLimits_activated (x : Space) (a : ActivationJob) :
    SpaceLimits (activated a x) ↔ SpaceLimits x := by
  unfold activated
  cases x.activeSector <;> rfl

/-! ### Operations that leave the two as they are -/

@[simp] theorem spaceLimits_space (s : State) : SpaceLimits s.space ↔ Limited s := Iff.rfl
@[simp] theorem limited_setSpace (s : State) (x : Space) :
    Limited (s.setSpace x) ↔ SpaceLimits x := Iff.rfl
@[simp] theorem limited_setEngine (s : State) (e : Engine) :
    Limited (s.setEngine e) ↔ Limited s := Iff.rfl
@[simp] theorem limited_setPort (s : State) (p : Port) (u : PortUnit) :
    Limited (s.setPort p u) ↔ Limited s := Iff.rfl
@[simp] theorem limited_setJob (s : State) (j : EngineJob) :
    Limited (s.setJob j) ↔ Limited s := Iff.rfl
@[simp] theorem limited_setLeases (s : State) (l : List Lease) :
    Limited (s.setLeases l) ↔ Limited s := Iff.rfl
@[simp] theorem limited_setWatches (s : State) (w : List WatchEntry) :
    Limited (s.setWatches w) ↔ Limited s := Iff.rfl
@[simp] theorem limited_setDrain (s : State) (d : Drain) :
    Limited (s.setDrain d) ↔ Limited s := Iff.rfl
@[simp] theorem limited_setCtl (s : State) (c : Controller) :
    Limited (s.setCtl c) ↔ Limited s := Iff.rfl
@[simp] theorem limited_setArray (s : State) (a : ArrayContents) :
    Limited (s.setArray a) ↔ Limited s := Iff.rfl
@[simp] theorem limited_issue (r : Requester) (op : ArrayOp) (s : State) :
    Limited (issue r op s) ↔ Limited s := Iff.rfl
@[simp] theorem limited_arbitrate (s : State) : Limited (arbitrate s) ↔ Limited s := Iff.rfl
@[simp] theorem limited_toRunning (p : Port) (s : State) :
    Limited (toRunning p s) ↔ Limited s := Iff.rfl
@[simp] theorem limited_drainPhase (ph : DrainPhase) (s : State) :
    Limited (drainPhase ph s) ↔ Limited s := Iff.rfl
@[simp] theorem limited_putWrite (j : WriteJob) (s : State) :
    Limited (putWrite j s) ↔ Limited s := Iff.rfl
@[simp] theorem limited_putMount (j : MountJob) (s : State) :
    Limited (putMount j s) ↔ Limited s := Iff.rfl
@[simp] theorem limited_walkRead (w : Walk) (s : State) :
    Limited (walkRead w s) ↔ Limited s := Iff.rfl
@[simp] theorem limited_closeTxn (p : Port) (s : State) :
    Limited (closeTxn p s) ↔ Limited s := Iff.rfl
@[simp] theorem limited_changeStore (st : StoreState) (c : Option Cause) (s : State) :
    Limited (changeStore st c s) ↔ Limited s := Iff.rfl

@[simp] theorem limited_respond (p : Port) (g : Byte) (bs : List Byte) (s : State) :
    Limited (respond p g bs s) ↔ Limited s := by rw [respond_rest]; rfl

@[simp] theorem limited_reply (p : Port) (r : Result) (fs : List Byte) (s : State) :
    Limited (reply p r fs s) ↔ Limited s := limited_respond _ _ _ _

@[simp] theorem limited_runLeases (f : Lease → LeaseFate) (s : State) :
    Limited (runLeases f s) ↔ Limited s := by rw [runLeases_rest]; rfl

@[simp] theorem limited_routeChange (o : Port) (k : Key) (n : Notice) (s : State) :
    Limited (routeChange o k n s) ↔ Limited s := by rw [routeChange_rest]; rfl

@[simp] theorem limited_consider (s : State) : Limited (consider s) ↔ Limited s := by
  unfold Limited
  rw [consider_space]

@[simp] theorem limited_reportCause (c : Cause) (s : State) :
    Limited (reportCause c s) ↔ Limited s := by
  unfold reportCause
  split <;> simp

@[simp] theorem limited_chooseWork (b : Bool) (s : State) : Limited (chooseWork b s) ↔ Limited s := by
  unfold chooseWork startReclaim startEvacuation beginPass
  repeat' split
  all_goals simp

@[simp] theorem limited_leaveHold (st : StoreState) (c : Option Cause) (s : State) :
    Limited (leaveHold st c s) ↔ Limited s := by
  unfold leaveHold
  dsimp only
  split <;> simp

@[simp] theorem limited_formatPhase (ph : FormatPhase) (s : State) :
    Limited (formatPhase ph s) ↔ Limited s := by
  unfold formatPhase
  split <;> simp

@[simp] theorem limited_takeForActivation (a : ActivationFor) (i : Sector) (s : State) :
    Limited (takeForActivation a i s) ↔ Limited s := by
  unfold takeForActivation
  rw [limited_issue, limited_consider]
  split
  · rw [limited_reportCause]; rfl
  · rfl

@[simp] theorem limited_writeEnd (j : WriteJob) (bs : List Byte) (s : State) :
    Limited (writeEnd j bs s) ↔ Limited s := by rw [writeEnd_rest]; rfl

@[simp] theorem limited_passEnd (s : State) : Limited (passEnd s) ↔ Limited s := by simp [passEnd]

@[simp] theorem limited_writeRoom (j : WriteJob) (s : State) :
    Limited (writeRoom j s) ↔ Limited s := Iff.rfl

@[simp] theorem limited_askRoom (c : Copy) (s : State) :
    Limited (askRoom c s) ↔ Limited s := Iff.rfl

@[simp] theorem limited_staleCopy (q : Place) (n : Nat) (s : State) :
    Limited (staleCopy q n s) ↔ Limited s := Iff.rfl


end Sys2Proof.Machine
end

section
/-! SUPPORT. The part's procedures keep the low-water mark and the Evacuation List within their limits: the
list changes at a retirement, at a change of an index entry, at the end of an evacuation, at FORMAT's start
and at the mount's end. -/

namespace Sys2Proof.Machine

open Sys2Proof

section Procedures

variable {s : State} (h : Limited s)
include h

@[simp] theorem limited_pointEntry (e : IndexEntry) : Limited (pointEntry e s) :=
  SpaceLimits.repoint h _ e

@[simp] theorem limited_retireInTable (i : Sector) : Limited (retireInTable i s) := by
  have hlisted : SpaceLimits (s.space.retire i) := SpaceLimits.listRetired ((spaceLimits_setRec _ _ _).2 h) i
  unfold Limited
  rw [retireInTable_space]
  split <;> exact hlisted

@[simp] theorem limited_retireThen {r : Requester} {i : Sector} {wait go : State → State}
    (hw : ∀ u, Limited (wait u) ↔ Limited u) (hg : ∀ u, Limited u → Limited (go u)) :
    Limited (retireThen r i wait go s) := by
  unfold retireThen
  split
  · exact hg s h
  · simp [hw, h]

/-! ### FORMAT (R164 to R169) -/

@[simp] theorem limited_formatEnd : Limited (formatEnd s) := by
  unfold formatEnd
  dsimp only
  split
  · simp [h]
  · exact h

@[simp] theorem limited_formatActivate : Limited (formatActivate s) := by
  unfold formatActivate
  split <;> simp [h]

@[simp] theorem limited_formatErase (k : Nat) : Limited (formatErase k s) := by
  unfold formatErase
  split <;> simp [h]

@[simp] theorem limited_formatMark (k : Nat) : Limited (formatMark k s) := by
  unfold formatMark
  split <;> simp [h]

/-- FORMAT's start empties the list (R165). -/
@[simp] theorem limited_takeAbandonment : Limited (takeAbandonment s) := by
  unfold takeAbandonment formatStart
  dsimp only
  refine limited_formatMark ?_ _
  rw [limited_setSpace, runLeases_rest]
  exact SpaceLimits.fewer h rfl (List.nil_sublist _)

@[simp] theorem limited_formatGrant (p : Port) : Limited (formatGrant p s) := by
  unfold formatGrant
  dsimp only
  split
  · exact limited_takeAbandonment h
  · exact h

@[simp] theorem limited_formatProgram (ph : FormatPhase) (ok : Bool) :
    Limited (formatProgram ph ok s) := by
  unfold formatProgram
  repeat' split
  all_goals simp +contextual [h]

@[simp] theorem limited_formatErased (i : Sector) (ok : Bool) : Limited (formatErased i ok s) := by
  unfold formatErased
  split <;> simp +contextual [h]

/-! ### The drain pass (R125 to R135) -/

@[simp] theorem limited_drainGo {go : State → State} (hg : ∀ u, Limited u → Limited (go u)) :
    Limited (drainGo go s) := by
  unfold drainGo
  split
  · exact limited_takeAbandonment h
  · exact hg s h

/-- The end of an evacuation takes its sector off the list (R133). -/
@[simp] theorem limited_walkEnd (i : Sector) : Limited (walkEnd i s) := by
  unfold walkEnd
  split
  · split <;> simp +contextual [h]
  · rw [limited_passEnd]
    exact SpaceLimits.fewer h rfl List.erase_sublist
  · exact h

@[simp] theorem limited_walkTo (n : Nat) : Limited (walkTo n s) := by
  unfold walkTo
  dsimp only
  repeat' split
  all_goals simp [h]

@[simp] theorem limited_drainHeader (g : GranuleRead) : Limited (drainHeader g s) := by
  unfold drainHeader
  dsimp only
  repeat' split
  all_goals simp [h]

@[simp] theorem limited_drainRecord (bs : List Byte) : Limited (drainRecord bs s) := by
  unfold drainRecord
  split <;> simp [h]

@[simp] theorem limited_drainRoom (q : Place) : Limited (drainRoom q s) := by
  unfold drainRoom
  split <;> simp [h]

@[simp] theorem limited_copyNext (q : Place) (ps : List (Nat × List Byte)) :
    Limited (copyNext q ps s) := by
  unfold copyNext
  split <;> simp [h]

@[simp] theorem limited_afterCopyFailure : Limited (afterCopyFailure s) := by
  unfold afterCopyFailure
  repeat' split
  all_goals simp [h]

@[simp] theorem limited_drainRefused : Limited (drainRefused s) := by
  unfold drainRefused
  simp [h]

@[simp] theorem limited_walkPast (n : Nat) : Limited (walkPast n s) := by
  simp [walkPast, h]

/-- A failure in a pass: the failed sector is retired, and the pass goes on. -/
@[simp] theorem limited_passFailure {i : Sector} {ph : DrainPhase} {go : State → State}
    (hg : ∀ u, Limited u → Limited (go u)) :
    Limited (retireThen .drain i (drainPhase ph) (drainGo go) s) :=
  limited_retireThen h (fun _ => Iff.rfl) (fun _ hu => limited_drainGo hu hg)

@[simp] theorem limited_drainProgram (ok : Bool) : Limited (drainProgram ok s) := by
  unfold drainProgram
  dsimp only
  repeat' split
  all_goals simp +contextual [h]

@[simp] theorem limited_drainErased (ok : Bool) : Limited (drainErased ok s) := by
  unfold drainErased
  repeat' split
  all_goals simp +contextual [h]

/-! ### The write path, RELOCATE and PURGE (R31 to R39, R128, R131) -/

@[simp] theorem limited_writeRoomGiven (j : WriteJob) (q : Place) :
    Limited (writeRoomGiven j q s) := by
  unfold writeRoomGiven
  dsimp only
  split <;> simp [h]

@[simp] theorem limited_writeNext (j : WriteJob) (ps : List (Nat × List Byte)) :
    Limited (writeNext j ps s) := by
  unfold writeNext
  split <;> simp [h]

@[simp] theorem limited_writeStoreFull (j : WriteJob) : Limited (writeStoreFull j s) := by
  unfold writeStoreFull
  dsimp only
  split <;> simp [h]

@[simp] theorem limited_writeAfterFailure (j : WriteJob) : Limited (writeAfterFailure j s) := by
  unfold writeAfterFailure writeMediaError
  split <;> simp [h]

@[simp] theorem limited_writeRefused (j : WriteJob) : Limited (writeRefused j s) := by
  unfold writeRefused writeMediaError
  split <;> simp [h]

@[simp] theorem limited_commitPoint (j : WriteJob) : Limited (commitPoint j s) := by
  unfold commitPoint writeOk
  dsimp only
  split <;> simp [h]

@[simp] theorem limited_writeProgram (j : WriteJob) (ok : Bool) : Limited (writeProgram j ok s) := by
  unfold writeProgram writeOk
  dsimp only
  repeat' split
  all_goals simp +contextual [h]

@[simp] theorem limited_fetchDone (j : FetchJob) (g : GranuleRead) (bs : List Byte) :
    Limited (fetchDone j g bs s) := by
  unfold fetchDone
  dsimp only
  split <;> simp [h]

@[simp] theorem limited_relocateDone : Limited (relocateDone s) := by
  unfold relocateDone
  dsimp only
  split <;> simp [h]

@[simp] theorem limited_relocateProcedure (k : Key) (q c : Place) (n : Nat) :
    Limited (relocateProcedure k q c n s) := by
  unfold relocateProcedure
  repeat' split
  all_goals simp [h]

@[simp] theorem limited_purgeEntry (k : Key) (q : Place) : Limited (purgeEntry k q s) := by
  unfold purgeEntry
  repeat' split
  all_goals exact h

/-! ### The mount (R153 to R163) -/

@[simp] theorem limited_mountDrainWork : Limited (mountDrainWork s) := by
  unfold mountDrainWork mountEnd
  dsimp only
  rw [limited_leaveHold, limited_setJob]
  exact SpaceLimits.listed h _

@[simp] theorem limited_mountActivate (j : MountJob) : Limited (mountActivate j s) := by
  unfold mountActivate
  repeat' split
  all_goals simp [h]

@[simp] theorem limited_mountSurplus (j : MountJob) (l : List Sector) :
    Limited (mountSurplus j l s) := by
  unfold mountSurplus
  split <;> simp [h]

@[simp] theorem limited_mountCounters (j : MountJob) : Limited (mountCounters j s) := by
  unfold mountCounters mountActive
  dsimp only
  split <;> simp [h]

@[simp] theorem limited_scanNext (j : MountJob) (l : List Sector) : Limited (scanNext j l s) := by
  unfold scanNext
  split <;> simp [h]

@[simp] theorem limited_scanOn (j : MountJob) (w : Walk) (l : List Sector) :
    Limited (scanOn j w l s) := by
  unfold scanOn sectorScanned
  dsimp only
  repeat' split
  all_goals simp [h]

@[simp] theorem limited_scanRead (j : MountJob) (w : Walk) (l : List Sector) (g : GranuleRead) :
    Limited (scanRead j w l g s) := by
  unfold scanRead offerRecord
  dsimp only
  repeat' split
  all_goals simp [h]

@[simp] theorem limited_repairFrom (j : MountJob) (k : Nat) : Limited (repairFrom j k s) := by
  unfold repairFrom repairIdentity
  repeat' split
  all_goals simp [h]

@[simp] theorem limited_repairFailed (j : MountJob) (i : Sector) : Limited (repairFailed j i s) := by
  unfold repairFailed
  simp +contextual [h]

@[simp] theorem limited_surveyNext (j : MountJob) (l : List Sector) : Limited (surveyNext j l s) := by
  unfold surveyNext surveyEnd
  split <;> simp [h]

@[simp] theorem limited_surveyRead (j : MountJob) (w : Walk) (l : List Sector) (g : GranuleRead) :
    Limited (surveyRead j w l g s) := by
  unfold surveyRead
  dsimp only
  split <;> simp [h]

@[simp] theorem limited_surveyHeader (j : MountJob) (i : Sector) (x : SectorHeader) :
    Limited (surveyHeader j i x s) := by
  unfold surveyHeader
  dsimp only
  split <;> simp [h]

@[simp] theorem limited_mountRead (j : MountJob) (v : ArrayContents) : Limited (mountRead j v s) := by
  unfold mountRead
  split <;> simp [h]

@[simp] theorem limited_mountProgram (j : MountJob) (ok : Bool) : Limited (mountProgram j ok s) := by
  unfold mountProgram
  repeat' split
  all_goals simp [h]

@[simp] theorem limited_mountErased (j : MountJob) (ok : Bool) : Limited (mountErased j ok s) := by
  unfold mountErased repairErased repairIdentity
  repeat' split
  all_goals simp [h]

/-! ### Allocation and activation (R106 to R111) -/

@[simp] theorem limited_answerRoom (r : Requester) (q : Place) : Limited (answerRoom r q s) := by
  unfold answerRoom
  dsimp only
  split <;> simp [h]

@[simp] theorem limited_allocateByActivation (r : Requester) (q : AllocRequest) :
    Limited (allocateByActivation r q s) := by
  unfold allocateByActivation refuseRoom
  dsimp only
  repeat' split
  all_goals simp [h]

@[simp] theorem limited_allocateFrom (r : Requester) (q : AllocRequest) (i : Sector) :
    Limited (allocateFrom r q i s) := by
  simp [allocateFrom, h]

@[simp] theorem limited_allocate (r : Requester) (q : AllocRequest) : Limited (allocate r q s) := by
  unfold allocate
  repeat' split
  all_goals simp [h]

@[simp] theorem limited_activationDone (a : ActivationJob) : Limited (activationDone a s) := by
  unfold activationDone
  dsimp only
  repeat' split
  all_goals simp [h]

@[simp] theorem limited_activationAgain (a : ActivationJob) : Limited (activationAgain a s) := by
  unfold activationAgain
  dsimp only
  repeat' split
  all_goals simp [h]

@[simp] theorem limited_activationGo (a : ActivationJob) {go : State → State}
    (hg : ∀ u, Limited u → Limited (go u)) : Limited (activationGo a go s) := by
  unfold activationGo
  split
  · exact limited_drainGo h hg
  · exact hg s h

@[simp] theorem limited_activationProgram (a : ActivationJob) (ok : Bool) :
    Limited (activationProgram a ok s) := by
  have done : ∀ {u}, Limited u → Limited (activationGo a (activationDone a) u) :=
    fun hu => limited_activationGo hu a (fun _ hv => limited_activationDone hv a)
  have again : ∀ {u}, Limited u → Limited (activationGo a (activationAgain a) u) :=
    fun hu => limited_activationGo hu a (fun _ hv => limited_activationAgain hv a)
  unfold activationProgram
  dsimp only
  repeat' split
  · exact limited_activationGo (by simp [h]) a (fun _ hu => hu)
  · exact done (by simp [h])
  · exact limited_retireThen h (fun _ => Iff.rfl) (fun _ => again)
  · exact done h
  · exact again h

/-! ### The ends of array operations (R141 to R145) -/

theorem limited_readEnded (r : Requester) (i : Sector) (g : Nat) (v : ArrayContents) :
    Limited (readEnded r i g v s) := by
  unfold readEnded
  repeat' split
  all_goals simp +contextual [h]

theorem limited_programEnded (r : Requester) (ok : Bool) : Limited (programEnded r ok s) := by
  have job : Limited (jobProgram r ok s) := by
    unfold jobProgram
    repeat' split
    all_goals simp [h]
  unfold programEnded
  repeat' split
  · exact limited_activationProgram h _ ok
  · exact job
  · exact job

theorem limited_eraseEnded (r : Requester) (ok : Bool) : Limited (eraseEnded r ok s) := by
  unfold eraseEnded
  repeat' split
  all_goals simp [h]

theorem limited_afterOutcome {r : Requester} {first : Bool} {go : State → State}
    (hg : ∀ u, Limited u → Limited (go u)) : Limited (afterOutcome r first go s) := by
  obtain ⟨c, -, e⟩ := afterOutcome_eq r first go s
  rw [e, limited_arbitrate]
  exact hg _ (by simpa using h)

theorem limited_endProgram (met : ArrayContents) (ok : Bool) (left : SpanLeft) (first : Bool)
    (r : Requester) (op : ArrayOp) : Limited (endProgram met ok left first r op s) := by
  unfold endProgram
  exact limited_afterOutcome (by simpa using h) (fun _ hu => limited_programEnded hu r ok)

theorem limited_endErase (ok : Bool) (left : SectorImage) (first : Bool) (e : EraseJob) :
    Limited (endErase ok left first e s) := by
  unfold endErase
  exact limited_afterOutcome (by simpa using h) (fun _ hu => limited_eraseEnded hu e.requester ok)

end Procedures

end Sys2Proof.Machine
end

section
/-! Every step keeps the low-water mark within 3 to 16 and the Evacuation List short and without repeats. -/

namespace Sys2Proof.Machine

open Sys2Proof

section Commands

variable {s : State} (h : Limited s)
include h

/-! ### The granted commands -/

theorem limited_checked {p : Port} {cs : List (Option Result)} {go : State → State}
    (hg : ∀ u, Limited u → Limited (go u)) : Limited (checked p cs go s) := by
  unfold checked
  split
  · simp [h]
  · exact hg s h

theorem limited_grantCommand {c : Code} {p : Port} {procedure : Frame → State → State}
    (hg : ∀ f u, Limited u → Limited (procedure f u)) : Limited (grantCommand c p procedure s) := by
  unfold grantCommand
  dsimp only
  repeat' split
  · simp [h]
  · simp [h]
  · exact hg _ _ (by simpa using h)
  · exact h
  · exact h

/-- STORE_TUNE replaces the mark by one from 3 to 16 (R117). -/
theorem limited_storeTuneProcedure (p : Port) (f : Frame) : Limited (storeTuneProcedure p f s) := by
  unfold storeTuneProcedure
  split
  · simp [h]
  · rename_i n hn
    rw [limited_reply]
    unfold storeTuneParams at hn
    split at hn
    · cases hn
    · rename_i hrange
      obtain rfl := Option.some.inj hn
      obtain ⟨-, -, hlist⟩ := h
      exact ⟨Nat.le_of_not_lt fun hlt => hrange (.inl hlt),
        Nat.le_of_not_lt fun hlt => hrange (.inr hlt), hlist⟩

/-! ### Every command -/

theorem limited_teardownProcedure (p : Port) : Limited (teardownProcedure p s) := by
  simp [teardownProcedure, h]

theorem limited_hostWrite (p : Port) (f : PortUnit → PortUnit) : Limited (hostWrite p f s) := by
  unfold hostWrite
  split <;> simp [h]

/-- A device reset keeps the mark and empties the list (R116, R193). -/
theorem limited_resetPart (names : Vector NsEntry 8) (low : Bool) (x : ArrayContents) :
    Limited (resetPart names s.space.lowWater low x s) :=
  SpaceLimits.fewer h rfl (List.nil_sublist _)

end Commands

/-- After a power-on reset the mark is 4 and the list is empty (R116). -/
theorem limited_powerOnReset (names : Vector NsEntry 8) (low : Bool) (x : ArrayContents) (s : State) :
    Limited (resetPart names lowWaterAtPowerOn low x s) :=
  ⟨Nat.le_add_right 3 1, Nat.le_add_right 4 12, List.nodup_nil, Nat.zero_le 8⟩

/-- Every command keeps the limits. -/
theorem limited_exec {c : Instr} {s t : State} (h : Limited s) (he : exec c s = .next t) :
    Limited t := by
  cases c
  case teardownRequest =>
    simp only [exec, execTeardownRequest] at he
    split at he <;> cases he
    · exact limited_teardownProcedure h _
    · exact h
  case resetNRise =>
    simp only [exec, execResetNRise] at he
    split at he <;> cases he
    · exact limited_resetPart h _ _ _
    · exact h
  case relocate =>
    simp only [exec, execRelocate] at he
    split at he <;> cases he <;> simp [h]
  case purge =>
    simp only [exec, execPurge] at he
    repeat' split at he
    all_goals cases he
    all_goals simp [h]
  case allocationRequest =>
    simp only [exec, execAllocationRequest] at he
    split at he <;> cases he <;> simp [h]
  case readComplete =>
    simp only [exec, execReadComplete] at he
    split at he <;> cases he
    · exact limited_afterOutcome h (fun _ hu => limited_readEnded hu _ _ _ _)
    · exact h
  case programComplete | programTimeout =>
    simp only [exec, execProgramComplete, execProgramTimeout] at he
    repeat' split at he
    all_goals cases he
    · exact limited_endProgram h _ _ _ _ _ _
    all_goals exact h
  case eraseComplete | eraseTimeout =>
    simp only [exec, execEraseComplete, execEraseTimeout] at he
    repeat' split at he
    all_goals cases he
    · exact limited_endErase h _ _ _ _
    all_goals exact h
  all_goals obtain rfl := Host.Outcome.next.inj he
  case storeTune => exact limited_grantCommand h (fun f _ hu => limited_storeTuneProcedure hu _ f)
  case format => exact limited_grantCommand h (fun _ _ hu => limited_formatGrant hu _)
  case storeQuery => exact limited_grantCommand h (fun _ _ hu => by simp [hu])
  case putCommit | reclaim =>
    refine limited_grantCommand h (fun _ _ hu => limited_checked hu fun v hv => ?_)
    simp [commitStart, hv]
  case putCancel | nsSet | nsFreeze =>
    refine limited_grantCommand h (fun f u hu => ?_)
    simp only [putCancelProcedure, nsSetProcedure, nsFreezeProcedure, setRights, putNs]
    repeat' split
    all_goals simp [hu]
  case fetch | probe | scan | putOpen | remove | leaseTake | leaseRenew | leaseDrop | watch |
      unwatch =>
    refine limited_grantCommand h (fun f u hu => ?_)
    simp only [fetchProcedure, probeProcedure, scanProcedure, putOpenProcedure, removeProcedure,
      leaseTakeProcedure, leaseRenewProcedure, leaseDropProcedure, watchProcedure,
      unwatchProcedure]
    split
    · simp [hu]
    · refine limited_checked hu (fun v hv => ?_)
      repeat' split
      all_goals simp [hv, fetchStart, openTxn, removeStart]
  case timebaseStep | leaseExpiry => simp [h]
  case powerOnReset => exact limited_powerOnReset _ _ _ _
  case deviceReset => exact limited_resetPart h _ _ _
  case cmd | param | submit | stage | flags | portReset | interruptPolarity | registerWrite =>
    exact limited_hostWrite h _ _
  case resp | notice | powerGoodFall | powerGoodRise => exact h

/-- Settles O11: on an empty queue the Space Manager is left alone, and every command keeps the limits. -/
theorem spaceLimitsAreKept : Obligations.SpaceLimitsAreKept := by
  intro s t h he
  obtain rfl | ⟨c, rest, -, he⟩ := step_cases he
  · unfold passTime
    repeat' split
    all_goals exact h
  · exact limited_exec (s := { s with pending := rest }) h he

end Sys2Proof.Machine
end

section
/-! The store commands STORE_QUERY and STORE_TUNE in the step of their grant (R117, R118). -/

namespace Sys2Proof.Machine

open Sys2Proof

/-! ### STORE_QUERY -/

/-- An account's total is its sum over all 128 sectors. -/
theorem totalOf_eq_sum (account : SectorRecord → Nat) (x : Space) :
    totalOf account x = ∑ i : Fin 128, account (x.rec_ i) := (Fin.sum_univ_def _).symm

/-- The byte of a sector number, 0FFH for none (R118). -/
theorem byteOf_sectorCode (o : Option Sector) :
    byteOf (sectorCode o) = match o with
      | some i => byteOf i.val
      | none => 0xFF := by
  cases o <;> rfl

theorem byteOf_drainCode (d : DrainState) :
    byteOf (drainCode d) = match d with
      | .idle => 0
      | .reclaiming => 1
      | .evacuating => 2 := by
  cases d <;> rfl

/-- A grant changes no field of the answer. -/
theorem queryFields_toRunning (p : Port) (s : State) : queryFields (toRunning p s) = queryFields s :=
  rfl

/-- Settles O47: the answer is the fields of the state at the grant, each code and total by its lemma. -/
theorem storeQueryReportsTheMoment : Obligations.StoreQueryReportsTheMoment := by
  intro s p hg
  show Host.Outcome.next (grantCommand .storeQuery p _ s) = _
  rw [grantCommand_eq _ hg rfl (fun h => by cases h), queryFields_toRunning, reply_toRunning]
  simp only [queryFields, byteOf_sectorCode, byteOf_drainCode, totalOf_eq_sum]
  rfl

/-! ### STORE_TUNE -/

/-- A value from 3 to 16 is a mark (R117). -/
theorem storeTuneParams_frame {b : Byte} (h3 : 3 ≤ b.toNat) (h16 : b.toNat ≤ 16) (c : Byte)
    (o : Bool) : storeTuneParams ⟨c, [b], o⟩ = some b.toNat := by
  have hb : param ⟨c, [b], o⟩ 0 1 = b.toNat := param_byte _ _
  rw [storeTuneParams, hb, if_neg (by omega)]

/-- A command marked S from another port than A is answered NOT_SUPERVISOR (R173, check 3). -/
theorem grantCommand_notSupervisor {s : State} {p : Port} {c : Code} {params : List Byte}
    (procedure : Frame → State → State) (hg : FrameGranted s p c params)
    (hl : params.length = paramCount c) (hs : supervisorOnly c = true) (hp : p ≠ .A) :
    grantCommand c p procedure s = answered p [0x34] s := by
  obtain ⟨hgranted, hframe⟩ := hg
  have hrefusal : frameRefusal c p ⟨codeByte c, params, false⟩ = some .notSupervisor := by
    simp [frameRefusal, hl, hs, hp]
  unfold grantCommand
  simp only [hgranted, if_true, hframe, codeOf_codeByte, hrefusal, reply_toRunning]
  rfl

/-- Settles O48: the supervisor check, the range check, and the mark replaced. -/
theorem storeTuneReplacesTheMark : Obligations.StoreTuneReplacesTheMark := by
  refine fun s p b hg => ⟨fun hp => ?_, ?_⟩
  · exact congrArg Host.Outcome.next (grantCommand_notSupervisor _ hg rfl rfl hp)
  · rintro rfl
    refine ⟨fun hrange => ?_, fun h3 h16 => ?_⟩
    · exact parametersOutOfRangeAreRefused s .A .storeTune [b] hg rfl (fun _ => rfl) hrange
    · show Host.Outcome.next (grantCommand .storeTune .A (storeTuneProcedure .A) s) = _
      rw [grantCommand_eq _ hg rfl (fun _ => rfl)]
      simp only [storeTuneProcedure, storeTuneParams_frame h3 h16]
      exact congrArg Host.Outcome.next
        (reply_toRunning .A .ok [] (s.setSpace { s.space with lowWater := b.toNat }))

end Sys2Proof.Machine
end

section
/-! SUPPORT. The Space Manager's answers to a request, one lemma each: room given from a sector, a sector
taken from the pool, the refusal of a class, and the change of the table at an activation (R105 to R110). -/

namespace Sys2Proof.Machine

open Sys2Proof

/-! ### The last value of a counter -/

theorem advance_below {c : Word32} (h : c ≠ lastWord) : advance c = (c + 1, false) := if_neg h

theorem advance_last {c : Word32} (h : c = lastWord) : advance c = (c, true) := if_pos h

/-- COUNTER_LIMIT is reported where taking a counter's value exhausts it (R7, R110). -/
def reportSpent (c : Word32) (s : State) : State :=
  if (advance c).2 then reportCause .counterLimit s else s

/-- A reported cause changes the store state, its cause, and the ports. -/
theorem reportCause_rest (c : Cause) (s : State) :
    reportCause c s = { s with
      space := { s.space with
        store := (reportCause c s).space.store, cause := (reportCause c s).space.cause }
      ports := (reportCause c s).ports } := by
  unfold reportCause
  split <;> rfl

theorem reportSpent_rest (c : Word32) (s : State) :
    reportSpent c s = { s with
      space := { s.space with
        store := (reportSpent c s).space.store, cause := (reportSpent c s).space.cause }
      ports := (reportSpent c s).ports } := by
  unfold reportSpent
  split
  · exact reportCause_rest _ _
  · rfl

theorem reportSpent_below {c : Word32} (h : c ≠ lastWord) (s : State) : reportSpent c s = s := by
  simp [reportSpent, advance_below h]

/-- A cause reported of a READY store is recorded with READ_ONLY (R114). -/
theorem reportCause_store (c : Cause) {s : State} (h : s.space.store = .ready) :
    (reportCause c s).space.store = .readOnly ∧ (reportCause c s).space.cause = some c := by
  rw [reportCause_ready c h]
  exact ⟨rfl, rfl⟩

/-! ### Room in a sector -/

/-- The Space Manager after it has given a requester n granules of a sector: the accounts, and the request
answered (R103, R106). -/
def Space.giveRoom (r : Requester) (i : Sector) (n : Nat) (x : Space) : Space :=
  (allocateIn i n x).2.setAlloc r none

@[simp] theorem Space.setAlloc_rec (x : Space) (r : Requester) (q : Option AllocRequest) (k : Sector) :
    (x.setAlloc r q).rec_ k = x.rec_ k := by cases r <;> rfl

theorem Space.giveRoom_self (r : Requester) (i : Sector) (n : Nat) (x : Space) :
    (x.giveRoom r i n).rec_ i = { x.rec_ i with
      pointer := (x.rec_ i).pointer + n, dead := (x.rec_ i).dead + n } := by
  rw [giveRoom, setAlloc_rec]
  exact Space.setRec_rec_self _ _ _

theorem Space.giveRoom_other {i k : Sector} (h : k ≠ i) (r : Requester) (n : Nat) (x : Space) :
    (x.giveRoom r i n).rec_ k = x.rec_ k := by
  rw [giveRoom, setAlloc_rec]
  exact Space.setRec_rec_ne _ _ h

/-- A write in flight goes on with the granules above the pointer (R31, R46, R106). -/
theorem allocateFrom_write {s : State} {j : WriteJob} (hj : s.engine.job = .write j)
    (q : AllocRequest) (i : Sector) :
    allocateFrom .engine q i s = writeRoomGiven j ⟨i, (s.space.rec_ i).pointer + 1⟩
      (s.setSpace (s.space.giveRoom .engine i q.granules)) := by
  unfold allocateFrom answerRoom
  simp only [State.setSpace_engine, hj]
  rfl

/-- A drain copy goes on with them (R126). -/
theorem allocateFrom_drain (q : AllocRequest) (i : Sector) (s : State) :
    allocateFrom .drain q i s = drainRoom ⟨i, (s.space.rec_ i).pointer + 1⟩
      (s.setSpace (s.space.giveRoom .drain i q.granules)) := rfl

/-- A write with room takes the commit counter's value and asks for its header's program (R6, R7, R32). -/
theorem writeRoomGiven_eq (j : WriteJob) (at_ : Place) (s : State) :
    writeRoomGiven j at_ s =
      issue .engine (.programHeader at_ (writeHeader j s.engine.counter s))
        (putWrite { j with place := at_, version := s.engine.counter, phase := .header }
          (reportSpent s.engine.counter (s.setEngine { s.engine with
            counter := (advance s.engine.counter).1
            counterSpent := s.engine.counterSpent || (advance s.engine.counter).2 }))) := rfl

theorem writeRoomGiven_engine (j : WriteJob) (at_ : Place) (s : State) :
    (writeRoomGiven j at_ s).engine = { s.engine with
      counter := (advance s.engine.counter).1
      counterSpent := s.engine.counterSpent || (advance s.engine.counter).2
      job := .write { j with place := at_, version := s.engine.counter, phase := .header } } := by
  rw [writeRoomGiven_eq, issue_engine, putWrite_engine, reportSpent_rest]
  rfl

theorem writeRoomGiven_space (j : WriteJob) (at_ : Place) (s : State) :
    (writeRoomGiven j at_ s).space = { s.space with
      store := (writeRoomGiven j at_ s).space.store
      cause := (writeRoomGiven j at_ s).space.cause } := by
  rw [writeRoomGiven_eq, issue_space, putWrite_space, reportSpent_rest]
  rfl

theorem writeRoomGiven_array (j : WriteJob) (at_ : Place) (s : State) :
    (writeRoomGiven j at_ s).array = s.array := by
  rw [writeRoomGiven_eq, issue_array, putWrite_array, reportSpent_rest]
  rfl

/-- The commit counter at its last value is exhausted with COUNTER_LIMIT (R7). -/
theorem writeRoomGiven_store (j : WriteJob) (at_ : Place) (s : State) :
    (s.engine.counter ≠ lastWord → (writeRoomGiven j at_ s).space.store = s.space.store) ∧
      (s.engine.counter = lastWord → s.space.store = .ready →
        (writeRoomGiven j at_ s).space.store = .readOnly ∧
          (writeRoomGiven j at_ s).space.cause = some .counterLimit) := by
  rw [writeRoomGiven_eq, issue_space, putWrite_space]
  refine ⟨fun hc => by rw [reportSpent_below hc]; rfl, fun hc hr => ?_⟩
  rw [hc]
  exact reportCause_store .counterLimit hr

@[simp] theorem opOf_writeRoomGiven (j : WriteJob) (at_ : Place) (s : State) :
    opOf .engine (writeRoomGiven j at_ s) =
      some (.programHeader at_ (writeHeader j s.engine.counter s)) := by
  rw [writeRoomGiven_eq, opOf_issue_self]

/-- A copy with room asks for its header's program (R126, step 3). -/
theorem drainRoom_copy {s : State} {c : Copy} (hc : s.drain.copy = some c) (at_ : Place) :
    drainRoom at_ s = issue .drain
      (.programHeader at_ (checkedHeader c.key c.kind c.version c.length c.check .allocated))
      (s.setDrain { s.drain with copy := some { c with place := some at_ }, phase := .copyHeader }) := by
  simp only [drainRoom, hc]

/-! ### The request -/

/-- A request is taken while no activation is under way (R106). -/
theorem exec_allocationRequest {s : State} {r : Requester} {q : AllocRequest}
    (ha : s.space.activation = none) (hq : s.space.alloc r = some q) :
    exec (.allocationRequest r) s = .next (arbitrate (allocate r q s)) := by
  simp only [exec, execAllocationRequest, ha, hq]

/-- The ACTIVE sector answers where it has the granules free (R106). -/
theorem allocate_fits {s : State} {i : Sector} {q : AllocRequest}
    (hi : s.space.activeSector = some i) (hfit : (s.space.rec_ i).pointer + q.granules ≤ 511)
    (r : Requester) : allocate r q s = allocateFrom r q i s := by
  simp only [allocate, hi, if_pos hfit]

/-- Otherwise the pool is asked (R107). -/
theorem allocate_activates {s : State} {q : AllocRequest}
    (h : ∀ i, s.space.activeSector = some i → 511 < (s.space.rec_ i).pointer + q.granules)
    (r : Requester) : allocate r q s = allocateByActivation r q s := by
  unfold allocate
  split
  · rw [if_neg (Nat.not_le_of_lt (h _ ‹_›))]
  · rfl

end Sys2Proof.Machine
end

section
/-! A request that fits into the ACTIVE sector (R3, R6, R7, R32, R103, R106, R126). -/

namespace Sys2Proof.Machine

open Sys2Proof

/-- A write's request is answered by the ACTIVE sector, and the write goes on with the room. -/
theorem exec_request_write {s : State} {i : Sector} {q : AllocRequest} {j : WriteJob}
    (ha : s.space.activation = none) (hi : s.space.activeSector = some i)
    (hfit : (s.space.rec_ i).pointer + q.granules ≤ 511) (hq : s.space.allocEngine = some q)
    (hj : s.engine.job = .write j) :
    exec (.allocationRequest .engine) s =
      .next (arbitrate (writeRoomGiven j ⟨i, (s.space.rec_ i).pointer + 1⟩
        (s.setSpace (s.space.giveRoom .engine i q.granules)))) := by
  rw [exec_allocationRequest (r := .engine) ha hq, allocate_fits hi hfit, allocateFrom_write hj]

/-- The Drain Unit's request is answered by the ACTIVE sector, and its copy's header is asked for. -/
theorem exec_request_copy {s : State} {i : Sector} {q : AllocRequest} {c : Copy}
    (ha : s.space.activation = none) (hi : s.space.activeSector = some i)
    (hfit : (s.space.rec_ i).pointer + q.granules ≤ 511) (hq : s.space.allocDrain = some q)
    (hc : s.drain.copy = some c) :
    exec (.allocationRequest .drain) s = .next (arbitrate (issue .drain
      (.programHeader ⟨i, (s.space.rec_ i).pointer + 1⟩
        (checkedHeader c.key c.kind c.version c.length c.check .allocated))
      ((s.setSpace (s.space.giveRoom .drain i q.granules)).setDrain { s.drain with
        copy := some { c with place := some ⟨i, (s.space.rec_ i).pointer + 1⟩ }
        phase := .copyHeader }))) := by
  rw [exec_allocationRequest (r := .drain) ha hq, allocate_fits hi hfit, allocateFrom_drain,
    drainRoom_copy (s := s.setSpace (s.space.giveRoom .drain i q.granules)) hc]
  rfl

/-- Settles O37: each requester's answer is the room given in the table and the header program asked for. -/
theorem allocationGivesThePlaceAboveThePointer :
    Obligations.AllocationGivesThePlaceAboveThePointer := by
  refine fun s i n cls ha hi hfit => ⟨fun j hq hj => ?_, fun c hq hc => ?_⟩
  · have hx := exec_request_write (q := ⟨n, cls⟩) ha hi hfit hq hj
    generalize hp : (⟨i, (s.space.rec_ i).pointer + 1⟩ : Place) = p at hx ⊢
    generalize hu : s.setSpace (s.space.giveRoom .engine i n) = u at hx
    obtain ⟨hkept, hspent⟩ := writeRoomGiven_store j p u
    have hspace : (writeRoomGiven j p u).space.rec_ = (s.space.giveRoom .engine i n).rec_ := by
      rw [writeRoomGiven_space, ← hu]
      rfl
    have hengine := writeRoomGiven_engine j p u
    subst hu
    refine ⟨_, writeHeader j s.engine.counter s, hx, ?_, ?_, ?_, fun k hk => ?_, ?_, ?_,
      fun hc => ⟨?_, ?_⟩, fun hc => ⟨?_, ?_, ?_⟩, ?_, rfl, rfl, rfl, rfl, rfl, rfl, rfl, ?_, ?_⟩
    · rw [arbitrate_space, hspace, Space.giveRoom_self]
    · rw [arbitrate_space, hspace, Space.giveRoom_self]
    · rw [arbitrate_space, hspace, Space.giveRoom_self]
    · rw [arbitrate_space, hspace, Space.giveRoom_other hk]
    · rw [arbitrate_space, writeRoomGiven_space]
      rfl
    · rw [arbitrate_engine, hengine]
      rfl
    · rw [arbitrate_engine, hengine]
      exact congrArg Prod.fst (advance_below hc)
    · exact hkept hc
    · rw [arbitrate_engine, hengine]
      exact (congrArg Prod.fst (advance_last hc)).trans hc
    · rw [arbitrate_engine, hengine]
      exact Bool.or_eq_true_iff.2 (.inr (congrArg Prod.snd (advance_last hc)))
    · exact hspent hc
    · rw [opOf_arbitrate, opOf_writeRoomGiven]
      rfl
    · rw [arbitrate_engine, hengine]
      rfl
    · rw [arbitrate_array, writeRoomGiven_array]
      rfl
  · refine ⟨_, exec_request_copy (q := ⟨n, cls⟩) ha hi hfit hq hc, ?_, ?_, ?_, fun k hk => ?_, rfl,
      rfl, rfl, ?_, rfl, rfl, rfl⟩
    · exact congrArg SectorRecord.pointer (Space.giveRoom_self .drain i n s.space)
    · exact congrArg SectorRecord.dead (Space.giveRoom_self .drain i n s.space)
    · exact (congrArg SectorRecord.live (Space.giveRoom_self .drain i n s.space)).trans rfl
    · exact Space.giveRoom_other hk _ _ _
    · rw [opOf_arbitrate, opOf_issue_self]
      rfl

end Sys2Proof.Machine
end

section
/-! SUPPORT. A sector taken from the pool, and a request refused by its class (R105, R107, R108, R110, R114). -/

namespace Sys2Proof.Machine

open Sys2Proof

/-! ### The pool -/

/-- With no activation under way the pool is the ERASED sectors (R105). -/
theorem Space.pool_eq {x : Space} (h : x.activation = none) : x.pool = x.sectorsIn .erased := by
  unfold Space.pool Space.sectorsIn
  congr 1
  funext i
  simp [Space.inPool, h]

/-- Sector `i` stands before sector `k` in the pool's choice: lower erase count, then lower number (R105). -/
def ChosenBefore (x : Space) (i k : Sector) : Prop :=
  (x.rec_ i).eraseCount < (x.rec_ k).eraseCount ∨
    ((x.rec_ i).eraseCount = (x.rec_ k).eraseCount ∧ i ≤ k)

/-- Of sectors in ascending number the choice by erase count alone keeps the lowest number among equals. -/
theorem bestOf_chosenBefore (x : Space) {l : List Sector} (hl : l.Pairwise (· < ·)) {i : Sector}
    (h : bestOf (fun a b => decide ((x.rec_ a).eraseCount < (x.rec_ b).eraseCount)) l = some i) :
    ∀ k ∈ l, ChosenBefore x i k := by
  induction l generalizing i with
  | nil => cases h
  | cons a as ih =>
    obtain ⟨habove, has⟩ := List.pairwise_cons.1 hl
    simp only [bestOf] at h
    split at h
    · rename_i hnone
      cases h
      have hnil : as = [] := by
        by_contra hne
        obtain ⟨j, hj⟩ := bestOf_some hne
        exact absurd (hnone.symm.trans hj) (by simp)
      subst hnil
      simp [ChosenBefore]
    · rename_i j hj
      have hja : a < j := habove j (bestOf_mem hj)
      have hbest := ih has hj
      intro k hk
      split at h
      · rename_i hlt
        cases h
        rcases List.mem_cons.1 hk with rfl | hk
        · exact .inl (of_decide_eq_true hlt)
        · exact hbest k hk
      · rename_i hge
        cases h
        have hle := not_lt.1 (mt decide_eq_true hge)
        rcases List.mem_cons.1 hk with rfl | hk
        · exact .inr ⟨rfl, le_refl _⟩
        · rcases hbest k hk with hlt | ⟨heq, hjk⟩
          · exact .inl (lt_of_le_of_lt hle hlt)
          · rcases lt_or_eq_of_le hle with hlt | hsame
            · exact .inl (heq ▸ hlt)
            · exact .inr ⟨hsame.trans heq, hja.le.trans hjk⟩

/-- The pool's next sector is of the lowest erase count, and of those the lowest number (R105). -/
theorem poolNext_leastErased {x : Space} (ha : x.activation = none) {i : Sector}
    (h : poolNext x = some i) : LeastErased x i := by
  unfold poolNext at h
  rw [Space.pool_eq ha] at h
  refine ⟨mem_sectorsIn.1 (bestOf_mem h), fun m hm => ?_⟩
  have hsorted : (x.sectorsIn .erased).Pairwise (· < ·) :=
    (List.pairwise_lt_finRange 128).filter _
  exact bestOf_chosenBefore x hsorted h m (mem_sectorsIn.2 hm)

/-- The threshold of a request's class (R107). -/
theorem poolNeeded_of_class {cls : AllocClass} {needed : Nat}
    (h : (cls = .commit ∧ needed = 3) ∨ (cls = .remove ∧ needed = 2) ∨ (cls = .drain ∧ needed = 1)) :
    poolNeeded cls = needed ∧ 1 ≤ needed := by
  rcases h with ⟨rfl, rfl⟩ | ⟨rfl, rfl⟩ | ⟨rfl, rfl⟩ <;> exact ⟨rfl, by decide⟩

/-- A pool at its threshold gives its least erased sector (R105, R107). -/
theorem activatable_least {x : Space} {needed : Nat} (ha : x.activation = none)
    (hspent : x.actSpent = false) (h1 : 1 ≤ needed) (hpool : needed ≤ x.pool.length) :
    ∃ i, activatable needed x = some i ∧ LeastErased x i := by
  obtain ⟨i, hi⟩ : ∃ i, poolNext x = some i :=
    bestOf_some (List.ne_nil_of_length_pos (Nat.lt_of_lt_of_le h1 hpool))
  refine ⟨i, ?_, poolNext_leastErased ha hi⟩
  rw [activatable, hspent, if_neg (by decide), if_pos hpool, hi]

/-- A pool below its threshold, or an exhausted activation counter, gives none (R107, R110). -/
theorem activatable_none {x : Space} {needed : Nat}
    (h : x.actSpent = true ∨ x.pool.length < needed) : activatable needed x = none := by
  unfold activatable
  rcases h with h | h
  · rw [if_pos h]
  · rw [if_neg (Nat.not_le_of_lt h), ite_self]

/-! ### The sector taken -/

/-- The activation group of the next sector taken for a request (R108, R110). -/
def nextGroup (s : State) : Activation :=
  ⟨s.space.actCounter, s.engine.counter,
    if s.space.formatBase = 0 then s.space.actCounter else s.space.formatBase⟩

/-- The Space Manager with a sector taken for a request: its group, and the counter advanced (R110). -/
def takenSpace (r : Requester) (i : Sector) (s : State) : Space :=
  { s.space with
    actCounter := (advance s.space.actCounter).1
    actSpent := s.space.actSpent || (advance s.space.actCounter).2
    activation := some ⟨.request r, i, nextGroup s, .program⟩ }

theorem takeForActivation_request (r : Requester) (i : Sector) (s : State) :
    takeForActivation (.request r) i s = issue r (.programActivation i (nextGroup s))
      (consider (reportSpent s.space.actCounter (s.setSpace (takenSpace r i s)))) := by
  have hbase : (if ActivationFor.request r = .format ∨ s.space.formatBase = 0 then
      s.space.actCounter else s.space.formatBase) =
      if s.space.formatBase = 0 then s.space.actCounter else s.space.formatBase := by
    simp
  unfold takeForActivation
  dsimp only
  rw [hbase]
  rfl

/-- Of the Space Manager, COUNTER_LIMIT may change the store state and its cause besides. -/
theorem takeForActivation_space (r : Requester) (i : Sector) (s : State) :
    (takeForActivation (.request r) i s).space = { takenSpace r i s with
      store := (takeForActivation (.request r) i s).space.store
      cause := (takeForActivation (.request r) i s).space.cause } := by
  rw [takeForActivation_request, issue_space, consider_space, reportSpent_rest]
  rfl

theorem takeForActivation_engine (r : Requester) (i : Sector) (s : State) :
    (takeForActivation (.request r) i s).engine = s.engine := by
  rw [takeForActivation_request, issue_engine, consider_engine, reportSpent_rest]
  rfl

theorem takeForActivation_array (r : Requester) (i : Sector) (s : State) :
    (takeForActivation (.request r) i s).array = s.array := by
  rw [takeForActivation_request, issue_array, consider_array, reportSpent_rest]
  rfl

/-- The activation counter at its last value is exhausted with COUNTER_LIMIT (R110). -/
theorem takeForActivation_store (r : Requester) (i : Sector) (s : State) :
    (s.space.actCounter ≠ lastWord →
        (takeForActivation (.request r) i s).space.store = s.space.store) ∧
      (s.space.actCounter = lastWord → s.space.store = .ready →
        (takeForActivation (.request r) i s).space.store = .readOnly ∧
          (takeForActivation (.request r) i s).space.cause = some .counterLimit) := by
  rw [takeForActivation_request, issue_space, consider_space]
  refine ⟨fun hc => by rw [reportSpent_below hc]; rfl, fun hc hr => ?_⟩
  rw [hc]
  exact reportCause_store .counterLimit hr

@[simp] theorem opOf_takeForActivation (r : Requester) (i : Sector) (s : State) :
    opOf r (takeForActivation (.request r) i s) = some (.programActivation i (nextGroup s)) := by
  rw [takeForActivation_request, opOf_issue_self]

/-! ### The refusal of a write -/

theorem refuseRoom_write {s : State} {j : WriteJob} (hj : s.engine.job = .write j) :
    refuseRoom .engine s = writeRefused j (s.setSpace (s.space.setAlloc .engine none)) := by
  unfold refuseRoom
  simp only [State.setSpace_engine, hj]

/-- The refusal changes the ports and frees the engine (R31, R39). -/
theorem writeRefused_rest (j : WriteJob) (s : State) :
    writeRefused j s = { s with
      ports := (writeRefused j s).ports
      engine := { s.engine with job := .idle } } := by
  unfold writeRefused writeStoreFull writeMediaError
  dsimp only
  split
  · split
    · rw [respond_rest]
      rfl
    · exact writeEnd_rest _ _ _
  · exact writeEnd_rest _ _ _

section Refused

variable {j : WriteJob} {s : State} (hg : (s.port j.port).generation = j.gen)
include hg

/-- A first attempt is answered STORE_FULL, a retry MEDIA_ERROR (R31, R39, R46, R47). -/
theorem writeRefused_mailbox : ((writeRefused j s).port j.port).mailbox =
    ⟨.done, ⟨0, [], false⟩, [if j.attempt = 1 then 0x40 else 0x42]⟩ := by
  unfold writeRefused
  by_cases ha : j.attempt = 1
  · simp only [if_pos ha]
    unfold writeStoreFull
    dsimp only
    split
    · rw [respond_placed (by simpa using hg), State.setPort_port_self]
      rfl
    · exact writeEnd_mailbox hg _
  · simp only [if_neg ha]
    exact writeEnd_mailbox hg _

/-- A commit's transaction is OPEN again after the first, and closed after the retry (R31, R39). -/
theorem writeRefused_txn (ht : j.tombstone = false) :
    ((writeRefused j s).port j.port).txn.state = if j.attempt = 1 then .open_ else .none_ := by
  unfold writeRefused
  by_cases ha : j.attempt = 1
  · simp only [if_pos ha]
    unfold writeStoreFull
    dsimp only
    rw [if_pos ⟨ht, hg⟩, respond_txn, State.setJob_port, State.setPort_port_self]
  · simp only [if_neg ha]
    unfold writeMediaError
    rw [writeEnd_txn ht]

end Refused

/-! ### The refusal of the Drain Unit -/

theorem refuseRoom_drain (s : State) :
    refuseRoom .drain s = drainRefused (s.setSpace (s.space.setAlloc .drain none)) := rfl

/-- With NO_SPACE a consideration starts no pass; in MOUNTING and FORMATTING it is pending (R121). -/
theorem consider_noSpace {s : State} (h : s.space.noSpace = true) :
    ∃ b, consider s = s.setDrain { s.drain with pendingConsideration := b } := by
  unfold consider
  split
  · split
    · exact ⟨true, rfl⟩
    · exact ⟨true, rfl⟩
    · exact ⟨_, rfl⟩
    · exact ⟨_, rfl⟩
  · exact ⟨_, rfl⟩

/-- The Drain Unit's refusal: NO_SPACE is reported, and the pass ends with no other begun (R107, R135). -/
theorem drainRefused_eq (s : State) :
    ∃ b, drainRefused s =
      (reportCause .noSpace (s.setSpace { s.space with noSpace := true })).setDrain
        { s.drain with
          state := .idle, sector := none, pos := 1, copy := none, purgePermitted := false
          request := none, phase := .none_, pendingConsideration := b } := by
  generalize hu : reportCause .noSpace (s.setSpace { s.space with noSpace := true }) = u
  have hrest := reportCause_rest .noSpace (s.setSpace { s.space with noSpace := true })
  rw [hu] at hrest
  have hdrain : u.drain = s.drain := by rw [hrest]; rfl
  have hno : u.space.noSpace = true := by rw [hrest]; rfl
  unfold drainRefused passEnd
  rw [hu]
  obtain ⟨b, hb⟩ := consider_noSpace (s := u.setDrain { u.drain with
    state := .idle, sector := none, pos := 1, copy := none, purgePermitted := false,
    request := none, phase := .none_ }) hno
  exact ⟨b, by rw [hb, ← hdrain]; rfl⟩

/-- It changes the store state, the ports and the Drain Unit alone. -/
theorem drainRefused_rest (s : State) :
    ∃ b, drainRefused s = { s with
      space := { s.space with
        noSpace := true
        store := (drainRefused s).space.store
        cause := (drainRefused s).space.cause }
      ports := (drainRefused s).ports
      drain := { s.drain with
        state := .idle, sector := none, pos := 1, copy := none, purgePermitted := false
        request := none, phase := .none_, pendingConsideration := b } } := by
  obtain ⟨b, hb⟩ := drainRefused_eq s
  refine ⟨b, ?_⟩
  rw [hb, reportCause_rest]
  rfl

/-- NO_SPACE makes a READY store READ_ONLY (R114). -/
theorem drainRefused_store (s : State) :
    (s.space.store = .ready → (drainRefused s).space.store = .readOnly ∧
      (drainRefused s).space.cause = some .noSpace) ∧
    (s.space.store ≠ .ready → (drainRefused s).space.store = s.space.store) := by
  obtain ⟨b, hb⟩ := drainRefused_eq s
  rw [hb, State.setDrain_space]
  have ready := reportCause_store .noSpace (s := s.setSpace { s.space with noSpace := true })
  have held := reportCause_held .noSpace (s := s.setSpace { s.space with noSpace := true })
  exact ⟨fun h => ready h, fun h => congrArg (fun u => u.space.store) (held h)⟩

end Sys2Proof.Machine
end

section
/-! A request that the ACTIVE sector cannot answer (R31, R39, R105, R107, R108, R110, R114, R135). -/

namespace Sys2Proof.Machine

open Sys2Proof

/-- Settles O38: the threshold decides between a sector taken and the refusal of the request's class. -/
theorem activationTakesTheLeastErasedSector : Obligations.ActivationTakesTheLeastErasedSector := by
  intro s r n needed cls ha hq hfull hclass
  obtain ⟨hneeded, hpos⟩ := poolNeeded_of_class hclass
  have hx := exec_allocationRequest ha hq
  rw [allocate_activates hfull, allocateByActivation, hneeded] at hx
  refine ⟨fun hspent hpool => ?_, fun hnone => ?_⟩
  · obtain ⟨i, hi, hleast⟩ := activatable_least ha hspent hpos hpool
    simp only [hi] at hx
    have hspace := takeForActivation_space r i s
    obtain ⟨hkept, hlast⟩ := takeForActivation_store r i s
    refine ⟨_, i, nextGroup s, hx, hleast, rfl, ?_, ?_, fun hc => ⟨?_, ?_⟩, fun hc => ⟨?_, ?_, ?_⟩,
      ?_, ?_, ?_, ?_⟩
    · rw [arbitrate_space, hspace]
      rfl
    · rw [opOf_arbitrate, opOf_takeForActivation]
    · rw [arbitrate_space, hspace]
      exact congrArg Prod.fst (advance_below hc)
    · exact hkept hc
    · rw [arbitrate_space, hspace]
      exact (congrArg Prod.fst (advance_last hc)).trans hc
    · rw [arbitrate_space, hspace]
      exact Bool.or_eq_true_iff.2 (.inr (congrArg Prod.snd (advance_last hc)))
    · exact hlast hc
    · rw [arbitrate_space, hspace]
      rfl
    · rw [arbitrate_space, hspace, ← hq]
      cases r <;> rfl
    · rw [arbitrate_engine, takeForActivation_engine]
    · rw [arbitrate_array, takeForActivation_array]
  · simp only [activatable_none hnone] at hx
    refine ⟨?_, ?_⟩
    · rintro j rfl hj hg
      rw [refuseRoom_write hj] at hx
      generalize hu : s.setSpace (s.space.setAlloc .engine none) = u at hx
      have hgu : (u.port j.port).generation = j.gen := by rw [← hu]; exact hg
      refine ⟨_, hx, ?_, ?_, fun ht => ?_, ?_, ?_, ?_, ?_, ?_, ?_, ?_⟩
      · rw [arbitrate_port, writeRefused_mailbox hgu]
      · rw [arbitrate_port, writeRefused_mailbox hgu]
      · rw [arbitrate_port, writeRefused_txn hgu ht]
      all_goals
        rw [writeRefused_rest, ← hu]
        rfl
    · rintro rfl
      rw [refuseRoom_drain] at hx
      generalize hu : s.setSpace (s.space.setAlloc .drain none) = u at hx
      obtain ⟨b, hrest⟩ := drainRefused_rest u
      obtain ⟨hready, hheld⟩ := drainRefused_store u
      refine ⟨_, hx, ?_, fun hr => ?_, fun hr => ?_, ?_, ?_, ?_, ?_, ?_, ?_, ?_, ?_⟩
      · rw [arbitrate_space, hrest]
      · exact hready (by rw [← hu]; exact hr)
      · rw [arbitrate_space, hheld (by rw [← hu]; exact hr), ← hu]
        rfl
      all_goals
        rw [hrest, ← hu]
        rfl

end Sys2Proof.Machine
end

section
/-! The end of an activation's programs (R107 to R110, R112). -/

namespace Sys2Proof.Machine

open Sys2Proof

/-! ### The change of the table -/

theorem activeSector_state {x : Space} {i : Sector} (h : x.activeSector = some i) :
    (x.rec_ i).state = .active :=
  mem_sectorsIn.1 (List.mem_of_head? h)

/-- A sector's record once its activation program has passed (R108). -/
def emptyActive (q : Word32) (r : SectorRecord) : SectorRecord :=
  { r with state := .active, sequence := some q, pointer := 0, live := 0, dead := 0 }

theorem closeSector_rec (i k : Sector) (x : Space) :
    (closeSector i x).rec_ k = if i = k then closed (x.rec_ k) else x.rec_ k := by
  refine (Space.setRec_rec _ _ _ _).trans ?_
  by_cases h : k = i
  · rw [if_pos h, if_pos h.symm, h]
    rfl
  · rw [if_neg h, if_neg (Ne.symm h)]

/-- The step of an activation: the new sector ACTIVE and empty, the one ACTIVE before closed (R103, R108). -/
theorem activated_rec (a : ActivationJob) (x : Space) (h : x.activeSector ≠ some a.sector) (k : Sector) :
    (activated a x).rec_ k =
      if k = a.sector then emptyActive a.group.sequence (x.rec_ k)
      else if x.activeSector = some k then closed (x.rec_ k) else x.rec_ k := by
  unfold activated
  refine (Space.setRec_rec _ _ _ _).trans ?_
  cases hold : x.activeSector with
  | none =>
    by_cases hk : k = a.sector
    · rw [if_pos hk, if_pos hk, hk]
      rfl
    · rw [if_neg hk, if_neg hk, if_neg (by simp)]
  | some old =>
    have hne : old ≠ a.sector := fun e => h (by rw [hold, e])
    by_cases hk : k = a.sector
    · rw [if_pos hk, if_pos hk, hk]
      simp only [closeSector_rec, if_neg hne]
      rfl
    · rw [if_neg hk, if_neg hk]
      simp only [closeSector_rec, Option.some.injEq]

/-- Of what is no sector record, the step sets the format base where it was open (R110). -/
theorem activated_rest (a : ActivationJob) (x : Space) :
    activated a x = { x with
      sectors := (activated a x).sectors
      formatBase :=
        if a.purpose = .format ∨ x.formatBase = 0 then a.group.sequence else x.formatBase } := by
  unfold activated
  cases x.activeSector <;> rfl

/-! ### The end of a program -/

/-- A program of the activation under way comes to the activation. -/
theorem programEnded_activation {s : State} {a : ActivationJob} (ha : s.space.activation = some a)
    (ok : Bool) (x : ArrayContents) (cc : Controller) :
    programEnded (activationRequester a.purpose) ok ((s.setArray x).setCtl cc) =
      activationProgram a ok ((s.setArray x).setCtl cc) := by
  simp only [programEnded, State.setCtl_space, State.setArray_space, ha, if_true]

/-- The activation goes on unless the Drain Unit's is abandoned for a FORMAT (R137). -/
theorem activationGo_eq {a : ActivationJob} {s : State}
    (h : a.purpose = .request .drain → abandoning s = false) (go : State → State) :
    activationGo a go s = go s := by
  unfold activationGo drainGo
  split
  · rename_i hp
    rw [h hp, if_neg (by decide)]
  · rfl

/-- A state in which the program under way has ended: the array and the controller may have changed. -/
structure SameModules (u s : State) : Prop where
  space : u.space = s.space
  engine : u.engine = s.engine
  ports : u.ports = s.ports

theorem SameModules.abandoning {u s : State} (h : SameModules u s) :
    Machine.abandoning u = Machine.abandoning s := by
  unfold Machine.abandoning
  rw [h.engine]

theorem sameModules_ended (x : ArrayContents) (cc : Controller) (s : State) :
    SameModules ((s.setArray x).setCtl cc) s := ⟨rfl, rfl, rfl⟩

section Programs

variable {s : State} {a : ActivationJob} {op : ArrayOp} {c : Instr} {pass first : Bool}
  {left : SpanLeft} {under : UnderErase}
  (hs : s.ctl.serving = some (activationRequester a.purpose, op)) (hop : isProgram op = true)
  (ha : s.space.activation = some a)
include hs hop ha

theorem exec_activation_passed (hpass : programPasses (metBy s op under) pass left op = true) :
    ∃ u, SameModules u s ∧ u.array = programPassed (metBy s op under) op ∧
      exec (.programComplete pass ⟨left, under⟩ first) s =
        .next (arbitrate (activationProgram a true u)) := by
  obtain ⟨cc, -, hx⟩ := exec_programComplete pass first left under hs hop
  rw [hpass, programEnded_activation ha] at hx
  exact ⟨_, sameModules_ended _ cc s, rfl, hx⟩

theorem exec_activation_failed
    (hc : c = .programComplete pass ⟨left, under⟩ first ∨ c = .programTimeout ⟨left, under⟩ first)
    (hfail : c = .programTimeout ⟨left, under⟩ first ∨
      programPasses (metBy s op under) pass left op = false) :
    ∃ u, SameModules u s ∧ exec c s = .next (arbitrate (activationProgram a false u)) := by
  rcases hc with rfl | rfl
  · have hf := hfail.resolve_left (by simp)
    obtain ⟨cc, -, hx⟩ := exec_programComplete pass first left under hs hop
    rw [hf, programEnded_activation ha] at hx
    exact ⟨_, sameModules_ended _ cc s, hx⟩
  · obtain ⟨cc, -, hx⟩ := exec_programTimeout left first under hs hop
    rw [programEnded_activation ha] at hx
    exact ⟨_, sameModules_ended _ cc s, hx⟩

/-- However a program of the activation ends, the activation goes on. -/
theorem exec_activation_ended
    (hc : c = .programComplete pass ⟨left, under⟩ first ∨ c = .programTimeout ⟨left, under⟩ first) :
    ∃ ok u, SameModules u s ∧ exec c s = .next (arbitrate (activationProgram a ok u)) := by
  by_cases hfail : c = .programTimeout ⟨left, under⟩ first ∨
      programPasses (metBy s op under) pass left op = false
  · exact ⟨false, exec_activation_failed hs hop ha hc hfail⟩
  · obtain ⟨hnot, hpass⟩ := not_or.1 hfail
    obtain rfl := hc.resolve_right hnot
    obtain ⟨u, hu, -, hx⟩ := exec_activation_passed (first := first) hs hop ha (by simpa using hpass)
    exact ⟨true, u, hu, hx⟩

end Programs

/-! ### Where the activation goes on -/

/-- The activation comes to its next program. -/
def withPhase (a : ActivationJob) (ph : ActivationPhase) (s : State) : State :=
  s.setSpace { s.space with activation := some { a with phase := ph } }

/-- The activation is under way no more. -/
def withoutActivation (s : State) : State := s.setSpace { s.space with activation := none }

@[simp] theorem withPhase_rec (a : ActivationJob) (ph : ActivationPhase) (s : State) (k : Sector) :
    (withPhase a ph s).space.rec_ k = s.space.rec_ k := rfl

@[simp] theorem withPhase_array (a : ActivationJob) (ph : ActivationPhase) (s : State) :
    (withPhase a ph s).array = s.array := rfl

@[simp] theorem withPhase_activation (a : ActivationJob) (ph : ActivationPhase) (s : State) :
    (withPhase a ph s).space.activation = some { a with phase := ph } := rfl

@[simp] theorem withPhase_formatBase (a : ActivationJob) (ph : ActivationPhase) (s : State) :
    (withPhase a ph s).space.formatBase = s.space.formatBase := rfl

@[simp] theorem withPhase_actCounter (a : ActivationJob) (ph : ActivationPhase) (s : State) :
    (withPhase a ph s).space.actCounter = s.space.actCounter := rfl

/-- A retirement leaves the activation counter. -/
theorem retireInTable_actCounter (i : Sector) (s : State) :
    (retireInTable i s).space.actCounter = s.space.actCounter := by
  rw [retireInTable_space, Space.retire_eq]
  split <;> rfl

@[simp] theorem opOf_withPhase (a : ActivationJob) (ph : ActivationPhase) (s : State) (r : Requester) :
    opOf r (withPhase a ph s) = opOf r s := opOf_congr r rfl

/-- An activation's course changes no request. -/
theorem Space.alloc_putActivation (x : Space) (a : Option ActivationJob) (r : Requester) :
    ({ x with activation := a } : Space).alloc r = x.alloc r := by cases r <;> rfl

section Phases

variable {s : State} {a : ActivationJob}

theorem activationProgram_fails (hp : a.phase = .program)
    (hr : (s.space.rec_ a.sector).state ≠ .retired) :
    activationProgram a false s = withPhase a .retire
      (issue (activationRequester a.purpose) (.programMark a.sector .retired)
        (retireInTable a.sector s)) := by
  simp only [activationProgram, hp, Bool.false_eq_true, if_false]
  exact retireThen_retires hr _ _

/-- The write that asked goes on from the new sector (R108). -/
theorem activationDone_write {q : AllocRequest} {j : WriteJob} (hp : a.purpose = .request .engine)
    (hq : s.space.alloc .engine = some q) (hj : s.engine.job = .write j) :
    activationDone a s =
      writeRoomGiven j ⟨a.sector, (s.space.rec_ a.sector).pointer + 1⟩
        (s.setSpace ((withoutActivation s).space.giveRoom .engine a.sector q.granules)) := by
  simp only [activationDone, hp, State.setSpace_space, Space.alloc_putActivation, hq]
  exact allocateFrom_write (s := withoutActivation s) hj q a.sector

/-- The request is tested again against the pool (R109). -/
theorem activationAgain_request {q : AllocRequest} {r : Requester} (hp : a.purpose = .request r)
    (hq : s.space.alloc r = some q) :
    activationAgain a s = allocateByActivation r q (withoutActivation s) := by
  simp only [activationAgain, hp, State.setSpace_space, Space.alloc_putActivation, hq]
  rfl

variable (hgo : a.purpose = .request .drain → abandoning s = false)
include hgo

theorem activationProgram_closes {old : Sector} (hp : a.phase = .program)
    (hold : s.space.activeSector = some old) :
    activationProgram a true s = withPhase a .close
      (issue (activationRequester a.purpose) (.programMark old .full)
        (s.setSpace (activated a s.space))) := by
  simp only [activationProgram, hp, hold, if_true]
  exact activationGo_eq (s := s.setSpace (activated a s.space)) hgo _

theorem activationProgram_opens (hp : a.phase = .program) (hnone : s.space.activeSector = none) :
    activationProgram a true s = activationDone a (s.setSpace (activated a s.space)) := by
  simp only [activationProgram, hp, hnone, if_true]
  exact activationGo_eq (s := s.setSpace (activated a s.space)) hgo _

theorem activationProgram_closed (hp : a.phase = .close) (ok : Bool) :
    activationProgram a ok s = activationDone a s := by
  simp only [activationProgram, hp, activationGo_eq hgo]

theorem activationProgram_retired (hp : a.phase = .retire) (ok : Bool) :
    activationProgram a ok s = activationAgain a s := by
  simp only [activationProgram, hp, activationGo_eq hgo]

end Phases

/-- The request answered from the new sector: the activation is over, and so is the request. -/
theorem activationDone_space {a : ActivationJob} {q : AllocRequest} {j : WriteJob} {s : State}
    (hp : a.purpose = .request .engine) (hq : s.space.alloc .engine = some q)
    (hj : s.engine.job = .write j) :
    (activationDone a s).space.activation = none ∧ (activationDone a s).space.allocEngine = none ∧
      (activationDone a s).space.rec_ a.sector = { s.space.rec_ a.sector with
        pointer := (s.space.rec_ a.sector).pointer + q.granules
        dead := (s.space.rec_ a.sector).dead + q.granules } := by
  rw [activationDone_write hp hq hj, writeRoomGiven_space]
  exact ⟨rfl, rfl, Space.giveRoom_self .engine a.sector q.granules (withoutActivation s).space⟩

/-- The write's header is asked for above the pointer, with the commit counter's value (R106, R32). -/
theorem activationDone_header {a : ActivationJob} {q : AllocRequest} {j : WriteJob} {s : State}
    (hp : a.purpose = .request .engine) (hq : s.space.alloc .engine = some q)
    (hj : s.engine.job = .write j) {at_ : Place}
    (hat : at_ = ⟨a.sector, (s.space.rec_ a.sector).pointer + 1⟩) :
    (activationDone a s).engine.job = .write { j with
      place := at_, version := s.engine.counter, phase := .header } ∧
      ∃ h, opOf .engine (activationDone a s) = some (.programHeader at_ h) := by
  rw [activationDone_write hp hq hj, ← hat, writeRoomGiven_engine, opOf_writeRoomGiven]
  exact ⟨rfl, _, rfl⟩

/-! ### The statement -/

section Ends

variable {s : State} {a : ActivationJob} {op : ArrayOp} {c : Instr} {pass first : Bool}
  {left : SpanLeft} {under : UnderErase}
  (hs : s.ctl.serving = some (activationRequester a.purpose, op)) (hop : isProgram op = true)
  (ha : s.space.activation = some a)
  (hgo : a.purpose = .request .drain → abandoning s = false)
include hs hop ha hgo

/-- An activation is done at the end of its FULL program, or where it closes no sector at the end of its
activation program: the pointer is then that of the sector, which holds no record yet. -/
theorem exec_activation_done
    (hc : c = .programComplete pass ⟨left, under⟩ first ∨ c = .programTimeout ⟨left, under⟩ first)
    (hdone : a.phase = .close ∨ (a.phase = .program ∧ c = .programComplete pass ⟨left, under⟩ first ∧
      programPasses (metBy s op under) pass left op = true ∧ s.space.activeSector = none ∧
      (s.space.rec_ a.sector).pointer = 0)) :
    ∃ u, exec c s = .next (arbitrate (activationDone a u)) ∧ u.engine = s.engine ∧
      (∀ r, u.space.alloc r = s.space.alloc r) ∧
      (u.space.rec_ a.sector).pointer = (s.space.rec_ a.sector).pointer ∧
      (a.phase = .program →
        u.space.rec_ a.sector = emptyActive a.group.sequence (s.space.rec_ a.sector)) := by
  rcases hdone with hp | ⟨hp, rfl, hpass, hnone, hzero⟩
  · obtain ⟨ok, u, hu, hx⟩ := exec_activation_ended hs hop ha hc
    rw [activationProgram_closed (by rwa [hu.abandoning]) hp] at hx
    exact ⟨u, hx, hu.engine, fun r => by rw [hu.space], by rw [hu.space],
      fun h => absurd (hp.symm.trans h) (by decide)⟩
  · obtain ⟨u, hu, -, hx⟩ := exec_activation_passed (first := first) hs hop ha hpass
    rw [activationProgram_opens (by rwa [hu.abandoning]) hp (by rwa [hu.space]), hu.space] at hx
    have hrec : (activated a s.space).rec_ a.sector =
        emptyActive a.group.sequence (s.space.rec_ a.sector) := by
      rw [activated_rec a s.space (by rw [hnone]; simp), if_pos rfl]
    refine ⟨_, hx, hu.engine, fun r => ?_, ?_, fun _ => hrec⟩
    · rw [State.setSpace_space, activated_rest]
      cases r <;> rfl
    · rw [State.setSpace_space, hrec, hzero]
      rfl

/-- After the RETIRED program the request is tested again, with no activation under way (R109). -/
theorem exec_activation_again
    (hc : c = .programComplete pass ⟨left, under⟩ first ∨ c = .programTimeout ⟨left, under⟩ first)
    (hp : a.phase = .retire) {r : Requester} (hreq : a.purpose = .request r) {q : AllocRequest}
    (hq : s.space.alloc r = some q) :
    ∃ v, v.space = { s.space with activation := none } ∧ v.engine = s.engine ∧
      v.ports = s.ports ∧ exec c s = .next (arbitrate (allocateByActivation r q v)) := by
  obtain ⟨ok, u, hu, hx⟩ := exec_activation_ended hs hop ha hc
  rw [activationProgram_retired (by rwa [hu.abandoning]) hp,
    activationAgain_request hreq (by rwa [hu.space])] at hx
  refine ⟨withoutActivation u, ?_, hu.engine, hu.ports, hx⟩
  exact congrArg (fun x : Space => { x with activation := none }) hu.space

end Ends

/-- Settles O39: each end of an activation's program is a change of the table and the procedure's next step. -/
theorem activationProgramsEnd : Obligations.ActivationProgramsEnd := by
  rintro s a r op c pass first left under m rfl ha rfl hs hop hgo hc
  refine ⟨fun hp hact => ⟨?_, fun hfail hr => ?_⟩, fun n cls j hreq hq hj hdone => ?_,
    fun n cls needed hp hreq hq hclass => ?_⟩
  · rintro rfl hpass herased old hold
    have hne : a.sector ≠ old := by
      rintro rfl
      rw [activeSector_state hold] at herased
      cases herased
    have hrec := activated_rec a s.space (by rw [hold]; exact fun e => hne (Option.some.inj e).symm)
    obtain ⟨u, hu, harray, hx⟩ := exec_activation_passed (first := first) hs hop ha hpass
    rw [activationProgram_closes (by rwa [hu.abandoning]) hp (by rwa [hu.space]), hu.space] at hx
    have hafter := withPhase_rec a .close
      (issue (activationRequester a.purpose) (.programMark old .full) (u.setSpace (activated a s.space)))
    simp only [issue_space, State.setSpace_space, hrec, hold, Option.some.injEq] at hafter
    refine ⟨_, hx, ?_, ?_, fun k hk hko => ?_, ?_, ?_, ?_, ?_⟩
    · rw [arbitrate_space, hafter, if_pos rfl]
      rfl
    · rw [arbitrate_space, hafter, if_neg hne.symm, if_pos rfl]
      rfl
    · rw [arbitrate_space, hafter, if_neg hk, if_neg (Ne.symm hko)]
    · rw [arbitrate_space, withPhase_formatBase, issue_space, State.setSpace_space, activated_rest]
    · rw [arbitrate_space, withPhase_activation]
    · rw [opOf_arbitrate, opOf_withPhase, opOf_issue_self]
    · rw [arbitrate_array, withPhase_array, issue_array, State.setSpace_array, harray, hact]
      exact vset_get_self _ _ _
  · obtain ⟨u, hu, hx⟩ := exec_activation_failed hs hop ha hc hfail
    rw [activationProgram_fails hp (by rwa [hu.space])] at hx
    refine ⟨_, hx, ?_, fun k hk => ?_, ?_, ?_, ?_⟩
    · rw [arbitrate_space, withPhase_rec, issue_space, retireInTable_rec, if_pos rfl, hu.space]
    · rw [arbitrate_space, withPhase_rec, issue_space, retireInTable_rec, if_neg hk, hu.space]
    · rw [arbitrate_space, withPhase_activation]
    · rw [arbitrate_space, withPhase_actCounter, issue_space, retireInTable_actCounter, hu.space]
    · rw [opOf_arbitrate, opOf_withPhase, opOf_issue_self]
  · obtain ⟨u, hx, hengine, halloc, hpointer, hempty⟩ :=
      exec_activation_done hs hop ha hgo hc (hdone.imp_right fun ⟨hp, _, h⟩ => ⟨hp, h⟩)
    have hqu := (halloc .engine).trans hq
    have hju := (congrArg Engine.job hengine).trans hj
    obtain ⟨hact, hreq', hrec⟩ := activationDone_space hreq hqu hju
    obtain ⟨hjob, h, hheader⟩ := activationDone_header hreq hqu hju rfl
    rw [hpointer, hengine] at hjob
    rw [hpointer] at hheader
    refine ⟨_, h, hx, hact, hreq', ?_, fun hp => ⟨?_, ?_, ?_⟩, hjob, ?_⟩
    · rw [arbitrate_space, hrec, ← hpointer]
    · rw [arbitrate_space, hrec, hempty hp]
      rfl
    · rw [arbitrate_space, hrec, hempty hp]
      exact Nat.zero_add n
    · rw [arbitrate_space, hrec, hempty hp]
      rfl
    · rw [opOf_arbitrate, hheader]
  · obtain ⟨v, hspace, hengine, hports, hx⟩ := exec_activation_again hs hop ha hgo hc hp hreq hq
    obtain ⟨hneeded, hpos⟩ := poolNeeded_of_class hclass
    have hnone : v.space.activation = none := by rw [hspace]
    have hpool : v.space.pool = s.space.sectorsIn .erased := by
      rw [Space.pool_eq hnone, hspace]
      rfl
    have hsectors : v.space.sectors = s.space.sectors := by rw [hspace]
    have hspent : v.space.actSpent = s.space.actSpent := by rw [hspace]
    rw [allocateByActivation, hneeded] at hx
    refine ⟨fun hleft henough => ?_, fun j hno hr hj h1 hg => ?_⟩
    · obtain ⟨i, hi, hleast⟩ := activatable_least hnone (hspent.trans hleft) hpos (hpool ▸ henough)
      simp only [hi] at hx
      have htaken := takeForActivation_space (activationRequester a.purpose) i v
      rw [hspace] at hleast
      refine ⟨_, i, nextGroup v, hx, hleast, ?_, ?_, ?_, ?_⟩
      · rw [nextGroup, hspace]
      · rw [arbitrate_space, htaken]
        rfl
      · rw [opOf_arbitrate, opOf_takeForActivation]
      · rw [arbitrate_space, htaken]
        exact hsectors
    · simp only [activatable_none (hpool ▸ hspent ▸ hno)] at hx
      rw [hr, refuseRoom_write (by rwa [hengine])] at hx
      generalize hu : v.setSpace (v.space.setAlloc .engine none) = u at hx
      have hports : u.ports = s.ports := by rw [← hu, State.setSpace_ports, hports]
      have hgu : (u.port j.port).generation = j.gen := by rw [State.port, hports]; exact hg
      have huspace : u.space = ({ s.space with activation := none } : Space).setAlloc .engine none := by
        rw [← hu, State.setSpace_space, hspace]
      refine ⟨_, hx, ?_, ?_, ?_, ?_⟩
      · rw [arbitrate_space, writeRefused_rest, huspace]
        rfl
      · rw [arbitrate_port, writeRefused_mailbox hgu, if_pos h1]
      · rw [arbitrate_engine, writeRefused_rest]
      · rw [arbitrate_space, writeRefused_rest, huspace]
        rfl

end Sys2Proof.Machine
end

section
/-! RECLAIM in the step of its grant (R138): the refusals, and the pass that begins on the chosen sector (R121
to R124). -/

namespace Sys2Proof.Machine

open Sys2Proof

/-! ### The choice of work -/

/-- The Evacuation List's head comes before all other work (R122, case 1). -/
theorem chooseWork_listed {s : State} {i : Sector} {is : List Sector}
    (h : s.space.evacuation = i :: is) (always : Bool) :
    chooseWork always s = startEvacuation i s := by
  simp only [chooseWork, h]

section Unlisted

variable {s : State} {i : Sector} (he : s.space.evacuation = []) (hr : s.space.store = .ready)
include he hr

theorem chooseWork_draining (h : oldestDraining s.space = some i) (always : Bool) :
    chooseWork always s = startReclaim i s := by
  simp only [chooseWork, he, hr, if_true, h]

/-- On request the low-water mark is not asked (R138). -/
theorem chooseWork_full (hn : oldestDraining s.space = none) (h : victimOf s.space = some i) :
    chooseWork true s = startReclaim i s := by
  simp only [chooseWork, he, hr, if_true, hn, Bool.true_or, h]

end Unlisted

theorem startReclaim_draining {s : State} {i : Sector} (h : (s.space.rec_ i).state = .draining) :
    startReclaim i s = beginPass .reclaiming i .header (.read i 1 1) s := if_pos h

/-- A victim that is not DRAINING yet is marked first (R123). -/
theorem startReclaim_full {s : State} {i : Sector} (h : (s.space.rec_ i).state ≠ .draining) :
    startReclaim i s = beginPass .reclaiming i .mark (.programMark i .draining) s := if_neg h

/-- With DRAINING sectors one of lowest activation sequence is chosen (R122, case 2). -/
theorem oldestDraining_oldest {x : Space} (h : ∃ i, (x.rec_ i).state = .draining) :
    ∃ i, oldestDraining x = some i ∧ (x.rec_ i).state = .draining ∧
      ∀ k, (x.rec_ k).state = .draining → sequenceOf x i ≤ sequenceOf x k := by
  obtain ⟨m, hm⟩ := h
  obtain ⟨i, hi⟩ : ∃ i, oldestDraining x = some i :=
    bestOf_some (List.ne_nil_of_mem (mem_sectorsIn.2 hm))
  refine ⟨i, hi, mem_sectorsIn.1 (bestOf_mem hi), fun k hk => ?_⟩
  exact bestOf_best (fun a b => sequenceOf x a ≤ sequenceOf x b) (fun _ _ _ => BitVec.le_trans)
    (fun _ => BitVec.le_refl _) (fun _ _ hb => BitVec.le_of_lt (of_decide_eq_true hb))
    (fun _ _ hb => BitVec.not_lt.1 (of_decide_eq_false hb)) hi k (mem_sectorsIn.2 hk)

theorem oldestDraining_none {x : Space} (h : ∀ i, (x.rec_ i).state ≠ .draining) :
    oldestDraining x = none := by
  have hnone : x.sectorsIn .draining = [] :=
    List.eq_nil_iff_forall_not_mem.2 fun i hi => h i (mem_sectorsIn.1 hi)
  rw [oldestDraining, hnone]
  rfl

theorem mem_reclaimable {x : Space} {i : Sector} :
    i ∈ reclaimable x ↔ (x.rec_ i).state = .full ∧ 0 < (x.rec_ i).dead := by
  rw [reclaimable, List.mem_filter, mem_sectorsIn, decide_eq_true_iff]

/-- Sector `i` is at least as good a victim as sector `k`: more dead granules, or as many and a sequence that
is no higher (R122, case 3). -/
def VictimBefore (x : Space) (i k : Sector) : Prop :=
  (x.rec_ k).dead < (x.rec_ i).dead ∨
    ((x.rec_ k).dead = (x.rec_ i).dead ∧ sequenceOf x i ≤ sequenceOf x k)

theorem VictimBefore.trans {x : Space} {i j k : Sector} (h : VictimBefore x i j)
    (h' : VictimBefore x j k) : VictimBefore x i k := by
  rcases h with hij | ⟨hij, hseq⟩
  · rcases h' with hjk | ⟨hjk, -⟩
    · exact .inl (hjk.trans hij)
    · exact .inl (hjk ▸ hij)
  · rcases h' with hjk | ⟨hjk, hseq'⟩
    · exact .inl (hij ▸ hjk)
    · exact .inr ⟨hjk.trans hij, BitVec.le_trans hseq hseq'⟩

/-- Of FULL sectors with a dead granule a best victim is chosen, and it is none the worse for the FULL sectors
without one (R122, case 3). -/
theorem victimOf_best {x : Space} (h : ∃ i, (x.rec_ i).state = .full ∧ 0 < (x.rec_ i).dead) :
    ∃ i, victimOf x = some i ∧ (x.rec_ i).state = .full ∧
      ∀ k, (x.rec_ k).state = .full → VictimBefore x i k := by
  obtain ⟨m, hm⟩ := h
  obtain ⟨i, hi⟩ : ∃ i, victimOf x = some i :=
    bestOf_some (List.ne_nil_of_mem (mem_reclaimable.2 hm))
  obtain ⟨hfull, hdead⟩ := mem_reclaimable.1 (bestOf_mem hi)
  refine ⟨i, hi, hfull, fun k hk => ?_⟩
  rcases Nat.eq_zero_or_pos (x.rec_ k).dead with hzero | hpos
  · exact .inl (hzero ▸ hdead)
  · refine bestOf_best (VictimBefore x) (fun _ _ _ => VictimBefore.trans)
      (fun _ => .inr ⟨rfl, BitVec.le_refl _⟩) (fun a b hb => ?_) (fun a b hb => ?_) hi k
      (mem_reclaimable.2 ⟨hk, hpos⟩)
    · simp only [Bool.or_eq_true, Bool.and_eq_true, decide_eq_true_eq, beq_iff_eq] at hb
      exact hb.imp_right fun ⟨hsame, hlt⟩ => ⟨hsame.symm, BitVec.le_of_lt hlt⟩
    · simp only [Bool.or_eq_false_iff, Bool.and_eq_false_iff, decide_eq_false_iff_not,
        beq_eq_false_iff_ne] at hb
      obtain ⟨hge, hseq⟩ := hb
      rcases Nat.lt_or_eq_of_le (Nat.le_of_not_lt hge) with hlt | hsame
      · exact .inl hlt
      · exact .inr ⟨hsame, BitVec.not_lt.1 (hseq.resolve_left (not_not.2 hsame))⟩

/-! ### The answer -/

theorem reclaimRefusal_busy {s : State} (h : s.drain.state ≠ .idle) :
    reclaimRefusal s = some .busy := if_pos h

/-- With the Drain Unit IDLE the command is refused only where there is no work at all (R138). -/
theorem reclaimRefusal_idle {s : State} (h : s.drain.state = .idle) :
    reclaimRefusal s =
      if s.space.evacuation = [] ∧ s.space.sectorsIn .draining = [] ∧ reclaimable s.space = [] then
        some .notFound
      else none := by
  simp only [reclaimRefusal, h, ne_eq, not_true_eq_false, if_false, Bool.and_eq_true,
    List.isEmpty_iff, and_assoc]

section Granted

variable {s : State} (hg : FrameGranted s .A .reclaim []) (hr : s.space.store = .ready)
include hg hr

/-- A granted RECLAIM passes the gate of R175 and comes to its own check. -/
theorem exec_reclaim : exec (.reclaim .A) s = .next (checked .A [none, reclaimRefusal s]
    (fun t => reply .A .ok [] (arbitrate (chooseWork true t))) (toRunning .A s)) := by
  have hgate : gateRefusal (toRunning .A s) = none := gateRefusal_ready hr
  show Host.Outcome.next (grantCommand .reclaim .A (fun _ => reclaimProcedure .A) s) = _
  rw [grantCommand_eq _ hg rfl (fun _ => rfl), reclaimProcedure, hgate]
  rfl

theorem exec_reclaim_refused {r : Result} (h : reclaimRefusal s = some r) :
    exec (.reclaim .A) s = .next (answered .A [resultByte r] s) := by
  rw [exec_reclaim hg hr, h, checked_toRunning_refused rfl]

theorem exec_reclaim_taken (h : reclaimRefusal s = none) :
    exec (.reclaim .A) s = .next (reply .A .ok [] (arbitrate (chooseWork true (toRunning .A s)))) := by
  rw [exec_reclaim hg hr, h, checked_none rfl]

/-- The command's answer and the state after it, where its choice of work begins a pass (R123, R124, R138). -/
theorem exec_reclaim_begins {kind : DrainState} {i : Sector} {phase : DrainPhase} {op : ArrayOp}
    (h : reclaimRefusal s = none)
    (hwork : chooseWork true (toRunning .A s) = beginPass kind i phase op (toRunning .A s)) :
    ∃ t, exec (.reclaim .A) s = .next t ∧ t.drain.state = kind ∧ t.drain.sector = some i ∧
      opOf .drain t = some op ∧ t.space = s.space ∧ t.array = s.array ∧
      (t.port .A).mailbox.response = [0x00] := by
  generalize hu : arbitrate (beginPass kind i phase op (toRunning .A s)) = u
  have hx := exec_reclaim_taken hg hr h
  rw [hwork, hu] at hx
  have hop : opOf .drain u = some op := by
    rw [← hu, opOf_arbitrate, beginPass, opOf_issue_self]
  refine ⟨_, hx, ?_, ?_, ?_, ?_, ?_, ?_⟩
  · rw [reply, respond_rest, ← hu]
    rfl
  · rw [reply, respond_rest, ← hu]
    rfl
  · rw [reply, respond_rest]
    exact hop
  · rw [reply, respond_rest, ← hu]
    rfl
  · rw [reply, respond_rest, ← hu]
    rfl
  · rw [reply, respond_placed rfl, State.setPort_port_self]
    rfl

end Granted

/-- Settles O49: the two refusals, and the three cases of the choice of work, each beginning its pass. -/
theorem reclaimStartsAPass : Obligations.ReclaimStartsAPass := by
  intro s hg hr
  refine ⟨fun hbusy => exec_reclaim_refused hg hr (reclaimRefusal_busy hbusy), fun hidle =>
    ⟨fun he hnone => ?_, fun i is he => ?_, fun he hdraining => ?_, fun he hno hfull => ?_⟩⟩
  · have hd : s.space.sectorsIn .draining = [] :=
      List.eq_nil_iff_forall_not_mem.2 fun i hi => (hnone i).1 (mem_sectorsIn.1 hi)
    have hf : reclaimable s.space = [] := List.eq_nil_iff_forall_not_mem.2 fun i hi => by
      obtain ⟨hfull, hdead⟩ := mem_reclaimable.1 hi
      exact absurd ((hnone i).2 hfull) hdead.ne'
    exact exec_reclaim_refused hg hr
      ((reclaimRefusal_idle hidle).trans (if_pos ⟨he, hd, hf⟩))
  · have htaken : reclaimRefusal s = none :=
      (reclaimRefusal_idle hidle).trans (if_neg fun h => by simp [he] at h)
    exact exec_reclaim_begins hg hr htaken (chooseWork_listed (s := toRunning .A s) he true)
  · obtain ⟨i, hi, hstate, hleast⟩ := oldestDraining_oldest hdraining
    have htaken : reclaimRefusal s = none := (reclaimRefusal_idle hidle).trans
      (if_neg fun h => List.ne_nil_of_mem (mem_sectorsIn.2 hstate) h.2.1)
    obtain ⟨t, hx, hkind, hsector, hop, hspace, -, hresponse⟩ := exec_reclaim_begins hg hr htaken
      ((chooseWork_draining (s := toRunning .A s) he hr hi true).trans (startReclaim_draining hstate))
    exact ⟨t, i, hx, hkind, hsector, hstate, hleast, hop, hspace, hresponse⟩
  · obtain ⟨i, hi, hstate, hbest⟩ := victimOf_best hfull
    obtain ⟨m, hm⟩ := hfull
    have htaken : reclaimRefusal s = none := (reclaimRefusal_idle hidle).trans
      (if_neg fun h => List.ne_nil_of_mem (mem_reclaimable.2 hm) h.2.2)
    obtain ⟨t, hx, hkind, hsector, hop, hspace, -, hresponse⟩ := exec_reclaim_begins hg hr htaken
      ((chooseWork_full (s := toRunning .A s) he hr (oldestDraining_none hno) hi).trans
        (startReclaim_full (hno i)))
    exact ⟨t, i, hx, hkind, hsector, hstate, hbest, hop, hspace, hresponse⟩

end Sys2Proof.Machine
end

section
/-! The end of a reclaim victim's ERASE (R104, R132, R144): what the array shows of an erased sector, the
controller while no ERASE is under way, and the pass's next step. -/

namespace Sys2Proof.Machine

open Sys2Proof

/-! ### The array after an ERASE -/

theorem sectorHeader_eraseSector (a : ArrayContents) (i k : Sector) :
    sectorHeader (eraseSector a i) k = if k = i then SectorHeader.blank else sectorHeader a k :=
  vset_get _ _ _ _

theorem sectorHeader_installImage (a : ArrayContents) (i k : Sector) (img : SectorImage) :
    sectorHeader (installImage a i img) k = if k = i then img.header else sectorHeader a k := by
  refine (vset_get _ _ _ _).trans ?_
  by_cases h : k = i
  · rw [if_pos h, if_pos h]
  · rw [if_neg h, if_neg h]
    exact (sectorHeader_eraseSector a i k).trans (if_neg h)

/-- The granules of a sector stand at the sector's own numbers. -/
theorem granuleNumber_sector {k : Sector} {g : Nat} (hg : g < 512) : granuleNumber k g / 512 = k.val := by
  unfold granuleNumber
  omega

theorem readBytes_congr {a n : Nat} {m m' : List Host.Cell}
    (h : ∀ j, j < n → byteAt (a + j) m = byteAt (a + j) m') : readBytes a n m = readBytes a n m' :=
  List.map_congr_left fun j hj => h j (List.mem_range.1 hj)

/-- A byte of a granule is a byte of its sector. -/
theorem granuleAddress_sector {k : Sector} {g j : Nat} (hg : g < 512) (hj : j < 16) :
    (granuleAddress k g + j) / 8192 = k.val := by
  unfold granuleAddress
  omega

/-- Every granule of an erased sector reads erased (R144). -/
theorem readGranule_eraseSector_self (a : ArrayContents) (i : Sector) {g : Nat} (hg : g < 512) :
    readGranule (eraseSector a i) i g = .erased := by
  have hrec : cellAt (granuleNumber i g) (eraseSector a i).recs = none := by
    rw [recAt_eraseSector, if_pos (granuleNumber_sector hg)]
  have hbytes : ∀ b ∈ readBytes (granuleAddress i g) 16 (eraseSector a i).bytes, b = erasedByte := by
    intro b hb
    obtain ⟨j, hj, rfl⟩ := List.mem_map.1 hb
    rw [byteAt_eraseSector, if_pos (granuleAddress_sector hg (List.mem_range.1 hj))]
  unfold readGranule
  simp only [hrec]
  exact if_pos (List.all_eq_true.2 fun b hb => beq_iff_eq.2 (hbytes b hb))

/-- An ERASE changes no granule of another sector. -/
theorem readGranule_eraseSector_ne (a : ArrayContents) {i k : Sector} (hk : k ≠ i) {g : Nat}
    (hg : g < 512) : readGranule (eraseSector a i) k g = readGranule a k g := by
  have hne : k.val ≠ i.val := fun h => hk (Fin.ext h)
  have hrec : cellAt (granuleNumber k g) (eraseSector a i).recs =
      cellAt (granuleNumber k g) a.recs := by
    rw [recAt_eraseSector, if_neg (by rwa [granuleNumber_sector hg])]
  have hbytes : readBytes (granuleAddress k g) 16 (eraseSector a i).bytes =
      readBytes (granuleAddress k g) 16 a.bytes := by
    refine readBytes_congr fun j hj => ?_
    rw [byteAt_eraseSector, if_neg (by rwa [granuleAddress_sector hg hj])]
  unfold readGranule
  rw [hrec, hbytes]

/-- A blank image leaves the sector as a good ERASE does. -/
theorem installImage_blank (a : ArrayContents) (i : Sector) :
    installImage a i ⟨.blank, [], []⟩ = eraseSector a i := by
  unfold installImage eraseSector
  simp [vset, installRecs, installBytes]

theorem sectorErased_eraseSector (a : ArrayContents) (i : Sector) :
    sectorErased (eraseSector a i) i = true := by
  unfold sectorErased
  rw [sectorHeader_eraseSector, if_pos rfl]
  simp [eraseSector]

/-- A sector whose header is not blank is not erased, and an ERASE that leaves it so fails (R144). -/
theorem erasePasses_header {a : ArrayContents} {i : Sector} {left : SectorImage}
    (h : left.header ≠ SectorHeader.blank) : erasePasses a false left i = false := by
  have hheader : sectorHeader (installImage a i left) i ≠ SectorHeader.blank := by
    rwa [sectorHeader_installImage, if_pos rfl]
  simp [erasePasses, sectorErased, hheader]

/-! ### The controller while no ERASE is under way -/

/-- No ERASE is under way, and none waits. -/
structure Controller.NoEraseDue (c : Controller) : Prop where
  erase : c.erase = none
  waiting : ∀ r k, c.place r ≠ some ⟨.erase k, false⟩

theorem Controller.NoEraseDue.setPlace {c : Controller} (h : c.NoEraseDue) (r : Requester)
    {x : Option ArrayRequest} (hx : ∀ k, x ≠ some ⟨.erase k, false⟩) : (c.setPlace r x).NoEraseDue := by
  refine ⟨(Controller.setPlace_erase c r x).trans h.erase, fun q k => ?_⟩
  by_cases hq : q = r
  · rw [hq, Controller.place_setPlace_self]
    exact hx k
  · rw [Controller.place_setPlace_ne c x hq]
    exact h.waiting q k

/-- The request that is next waits in its place. -/
theorem Controller.nextWaiting_waits {c : Controller} {short : Bool} {r : Requester}
    (h : c.nextWaiting short = some r) : ∃ op, c.place r = some ⟨op, false⟩ := by
  have waits : ∀ x : Option ArrayRequest, waitsIn short x = true → ∃ op, x = some ⟨op, false⟩ := by
    rintro (- | ⟨op, - | -⟩) hx
    · cases hx
    · exact ⟨op, rfl⟩
    · cases hx
  unfold Controller.nextWaiting at h
  split at h
  · rename_i hw
    cases h
    exact waits _ hw
  · split at h
    · rename_i hw
      cases h
      exact waits _ hw
    · cases h

/-- A request that is no ERASE is started in its place alone. -/
theorem Controller.start_short {c : Controller} {r : Requester} {op : ArrayOp} {b : Bool}
    (h : c.place r = some ⟨op, b⟩) (hop : ∀ k, op ≠ .erase k) :
    c.start r = c.setPlace r (some ⟨op, true⟩) := by
  unfold Controller.start
  rw [h]
  dsimp only
  split
  · rename_i k
    exact absurd rfl (hop k)
  · rfl

/-- The array's next request begins no ERASE where none waits. -/
theorem Controller.NoEraseDue.run {c : Controller} (h : c.NoEraseDue) : c.run.NoEraseDue := by
  unfold Controller.run
  split
  · exact h
  · rw [h.erase]
    dsimp only
    split
    · rename_i r hr
      obtain ⟨op, hop⟩ := Controller.nextWaiting_waits hr
      have hshort : ∀ k, op ≠ .erase k := fun k e => h.waiting r k (e ▸ hop)
      rw [Controller.start_short hop hshort]
      exact h.setPlace r fun k => by simp
    · exact h

/-! ### The pass after the ERASE -/

section Pass

variable {s : State} {i : Sector} (hp : s.drain.phase = .erase) (hi : s.drain.sector = some i)
include hp hi

/-- After a good ERASE the identity group is programmed with the count raised (R104, R132). -/
theorem drainErased_passed (ha : abandoning s = false) :
    drainErased true s = drainPhase .identity
      (issue .drain (.programIdentity i (nextCount (s.space.rec_ i).eraseCount))
        (s.setSpace (dropSequence i s.space))) := by
  have hgo : abandoning (s.setSpace (dropSequence i s.space)) = false := ha
  have hcount : ((dropSequence i s.space).rec_ i).eraseCount = (s.space.rec_ i).eraseCount := by
    rw [dropSequence, Space.setRec_rec_self]
  simp only [drainErased, hp, hi, if_true, drainGo, hgo, Bool.false_eq_true, if_false,
    State.setSpace_space, hcount]

/-- After a failed one the victim is retired (R112, R132). -/
theorem drainErased_failed (hr : (s.space.rec_ i).state ≠ .retired) :
    drainErased false s = drainPhase .retireVictim
      (issue .drain (.programMark i .retired) (retireInTable i s)) := by
  simp only [drainErased, hp, hi, Bool.false_eq_true, if_false]
  exact retireThen_retires hr _ _

end Pass

@[simp] theorem opOf_drainPhase (r : Requester) (ph : DrainPhase) (s : State) :
    opOf r (drainPhase ph s) = opOf r s := opOf_congr r rfl

/-- A retirement begins no ERASE and leaves the engine's place; the Drain Unit's is taken by the request. -/
theorem Controller.NoEraseDue.retired {s : State} (h : s.ctl.NoEraseDue) (i : Sector) (op : ArrayOp)
    (hop : ∀ k, op ≠ .erase k) : (issue .drain op (retireInTable i s)).ctl.NoEraseDue := by
  refine ⟨?_, fun r k => ?_⟩
  · rw [issue_ctl, Controller.setPlace_erase, retireInTable_ctl_erase, h.erase]
  · cases r
    · rw [issue_ctl, Controller.place_setPlace_ne _ _ (by decide)]
      show (retireInTable i s).ctl.engine ≠ _
      rw [retireInTable_ctl_engine]
      exact h.waiting .engine k
    · rw [issue_ctl, Controller.place_setPlace_self]
      simpa using hop k

/-- An operation ends with no ERASE due: its requester goes on from such a controller. -/
theorem afterOutcome_noEraseDue (r : Requester) (first : Bool) (go : State → State) (s : State) :
    ∃ c, ((s.ctl.setPlace r none).NoEraseDue → c.NoEraseDue) ∧
      afterOutcome r first go s = arbitrate (go (s.setCtl c)) := by
  cases first
  · exact ⟨(s.ctl.setPlace r none).run, fun h => h.run, rfl⟩
  · exact ⟨s.ctl.setPlace r none, id, rfl⟩

/-- The Drain Unit's ERASE has ended, the array and the controller changed alone; no ERASE is due unless the
engine's waits. -/
theorem endErase_drain (ok first : Bool) (left : SectorImage) {e : EraseJob} (s : State)
    (he : e.requester = .drain) :
    ∃ u : State, SameModules u s ∧ u.drain = s.drain ∧
      u.array = (if ok then eraseSector s.array e.sector else installImage s.array e.sector left) ∧
      ((∀ k, s.ctl.engine ≠ some ⟨.erase k, false⟩) → u.ctl.NoEraseDue) ∧
      endErase ok left first e s = arbitrate (drainErased ok u) := by
  unfold endErase
  dsimp only
  generalize (if ok then eraseSector s.array e.sector else installImage s.array e.sector left) = a
  obtain ⟨c, hc, hx⟩ := afterOutcome_noEraseDue .drain first (drainErased ok)
    ((s.setArray a).setCtl { s.ctl with erase := none })
  refine ⟨(s.setArray a).setCtl c, sameModules_ended a c s, rfl, rfl,
    fun hengine => hc ⟨rfl, fun r k => ?_⟩, by rw [he]; exact hx⟩
  cases r
  · exact hengine k
  · rw [Controller.place_setPlace_self]
    simp

/-- Below the limit of its active time an ERASE is not stopped (R144, log 15). -/
theorem exec_eraseTimeout_below {s : State} {e : EraseJob} (h : s.ctl.erase = some e)
    (ha : e.active < 120) (first : Bool) (left : SectorImage) :
    exec (.eraseTimeout left first) s = .next s := by
  show execEraseTimeout left first s = _
  simp only [execEraseTimeout, h]
  exact if_neg fun hlimit => absurd hlimit.2 (Nat.not_le_of_lt ha)

section Ends

variable {s : State} {e : EraseJob} (h : s.ctl.erase = some e) (hs : e.suspended = false)
include h hs

theorem exec_eraseComplete_below (ha : e.active < 120) (pass first : Bool) (left : SectorImage) :
    exec (.eraseComplete pass left first) s =
      .next (endErase (erasePasses s.array pass left e.sector) left first e s) := by
  show execEraseComplete pass left first s = _
  simp only [execEraseComplete, h, hs, ha, and_self, if_true]

theorem exec_eraseTimeout_stopped (ha : 120 ≤ e.active) (first : Bool) (left : SectorImage) :
    exec (.eraseTimeout left first) s = .next (endErase false left first e s) := by
  show execEraseTimeout left first s = _
  simp only [execEraseTimeout, h, hs, ha, and_self, if_true]

/-- Both failures of an ERASE end it alike (R144). -/
theorem exec_erase_failed {c : Instr} {pass first : Bool} {left : SectorImage}
    (hc : (c = .eraseTimeout left first ∧ 120 ≤ e.active) ∨
      (c = .eraseComplete pass left first ∧ e.active < 120 ∧
        erasePasses s.array pass left e.sector = false)) :
    exec c s = .next (endErase false left first e s) := by
  rcases hc with ⟨rfl, ha⟩ | ⟨rfl, ha, hfail⟩
  · exact exec_eraseTimeout_stopped h hs ha first left
  · rw [exec_eraseComplete_below h hs ha, hfail]

end Ends

/-- Settles O42: the outcome by the image, and each end of the ERASE as the array's change and the pass's next
step. -/
theorem victimEraseEnds : Obligations.VictimEraseEnds := by
  refine ⟨fun a i left => ⟨rfl, ?_, erasePasses_header⟩, ?_⟩
  · rw [erasePasses, installImage_blank, sectorErased_eraseSector, Bool.or_true]
  rintro s i e pass left first he hdrain rfl hrun hp hi ha
  refine ⟨fun hlimit hpass => ?_, fun hr c hc => ?_,
    fun hlimit => exec_eraseTimeout_below he hlimit first left⟩
  · obtain ⟨u, hu, hdr, harray, hctl, hx⟩ := endErase_drain true first left s hdrain
    have hexec := exec_eraseComplete_below he hrun hlimit pass first left
    rw [hpass, hx, drainErased_passed (by rwa [hdr]) (by rwa [hdr]) (by rwa [hu.abandoning]),
      hu.space] at hexec
    refine ⟨_, nextCount (s.space.rec_ e.sector).eraseCount, hexec,
      fun hengine => ?_, ?_, fun g hg => ?_, fun k hk => ⟨?_, fun g hg => ?_⟩, ?_, rfl, hu.engine,
      hu.ports⟩
    · exact ((hctl hengine).setPlace .drain (by simp)).run.erase
    · exact (congrArg (sectorHeader · e.sector) harray).trans
        ((sectorHeader_eraseSector _ _ _).trans (if_pos rfl))
    · exact (congrArg (readGranule · e.sector g) harray).trans (readGranule_eraseSector_self _ _ hg)
    · exact (congrArg (sectorHeader · k) harray).trans
        ((sectorHeader_eraseSector _ _ _).trans (if_neg hk))
    · exact (congrArg (readGranule · k g) harray).trans (readGranule_eraseSector_ne _ hk hg)
    · rw [opOf_arbitrate, opOf_drainPhase, opOf_issue_self]
  · obtain ⟨u, hu, hdr, harray, hctl, hx⟩ := endErase_drain false first left s hdrain
    have hexec := exec_erase_failed he hrun hc
    rw [hx, drainErased_failed (by rwa [hdr]) (by rwa [hdr]) (by rwa [hu.space])] at hexec
    refine ⟨_, hexec, fun hengine => ?_, ?_, ?_, rfl,
      fun k hk => ?_⟩
    · exact ((hctl hengine).retired e.sector (.programMark e.sector .retired) (by simp)).run.erase
    · rw [arbitrate_space, drainPhase_space, issue_space, retireInTable_rec, if_pos rfl, hu.space]
    · rw [opOf_arbitrate, opOf_drainPhase, opOf_issue_self]
    · rw [arbitrate_array, drainPhase_array, issue_array, retireInTable_array]
      exact (congrArg (sectorHeader · k) harray).trans
        ((sectorHeader_installImage _ _ _ _).trans (if_neg hk))

end Sys2Proof.Machine
end

section
/-! RELOCATE and PURGE in the step of their grant (R127 to R131): decided by the place the entry points at, and
what the walk that goes on after a PURGE leaves as it is. -/

namespace Sys2Proof.Machine

open Sys2Proof

theorem entryOf_key {k : Key} {ix : List IndexEntry} {e : IndexEntry} (h : entryOf k ix = some e) :
    e.key = k := by
  simpa using List.find?_some h

/-! ### RELOCATE -/

/-- The Drain Unit's request is withdrawn: it is being answered. -/
abbrev State.withoutRequest (s : State) : State := s.setDrain { s.drain with request := none }

theorem exec_relocate {s : State} {k : Key} {src cp : Place} {size : Nat}
    (hg : granted s = some .drain) (hr : s.drain.request = some (.relocate k src cp size)) :
    exec .relocate s = .next (arbitrate (relocateProcedure k src cp size s.withoutRequest)) := by
  show execRelocate s = _
  simp only [execRelocate, hg, hr]

/-- APPLIED: the entry moves to the copy, and the source is to be superseded (R128). -/
theorem relocateProcedure_applied {s : State} {k : Key} {e : IndexEntry}
    (he : entryOf k s.engine.index = some e) (cp : Place) (size : Nat) :
    relocateProcedure k e.place cp size s = issue .engine (.programState e.place .superseded)
      ((pointEntry { e with place := cp } s).setJob .relocate) := by
  simp only [relocateProcedure, he, if_true]

/-- STALE: the entry has moved on or is gone, and the copy is to be superseded (R128, R129). -/
theorem relocateProcedure_stale {s : State} {k : Key} {src : Place}
    (h : ∀ e, entryOf k s.engine.index = some e → e.place ≠ src) (cp : Place) (size : Nat) :
    relocateProcedure k src cp size s = staleCopy cp size s := by
  unfold relocateProcedure
  split
  · rename_i e he
    exact if_neg (h e he)
  · rfl

/-- The accounts follow an entry that moves to another place (R11, R103). -/
theorem pointEntry_moved_space {s : State} {k : Key} {e : IndexEntry}
    (he : entryOf k s.engine.index = some e) (cp : Place) :
    (pointEntry { e with place := cp } s).space =
      s.space.repoint (some e) { e with place := cp } := by
  have hkey : entryOf e.key s.engine.index = some e := by rw [entryOf_key he, he]
  simp only [pointEntry, hkey]

/-- Of a move within a sector the dead granules are as before. -/
theorem Space.repoint_within (x : Space) {o e : IndexEntry} (h : o.place.sector = e.place.sector)
    (hsize : entrySize o = entrySize e) :
    (x.repoint (some o) e).rec_ e.place.sector = { x.rec_ e.place.sector with
      live := (x.rec_ e.place.sector).live - entrySize e + entrySize e } := by
  rw [Space.repoint_same x h, hsize, Nat.add_sub_cancel]

/-! ### PURGE -/

/-- A DELETED entry that points at the tombstone goes, and its granule becomes dead (R131). -/
theorem purgeEntry_removes {s : State} {k : Key} {at_ : Place} {e : IndexEntry}
    (he : entryOf k s.engine.index = some e) (hd : e.presence = .deleted) (hp : e.place = at_) :
    purgeEntry k at_ s = { s with
      engine := { s.engine with index := dropEntry k s.engine.index }
      space := s.space.deaden at_.sector (entrySize e) } := by
  simp only [purgeEntry, he, hd, hp, and_self, if_true]

/-- Any other entry stays (R131). -/
theorem purgeEntry_keeps {s : State} {k : Key} {at_ : Place}
    (h : ∀ e, entryOf k s.engine.index = some e → e.presence = .present ∨ e.place ≠ at_) :
    purgeEntry k at_ s = s := by
  unfold purgeEntry
  split
  · rename_i e he
    refine if_neg fun hc => ?_
    rcases h e he with hpresent | hplace
    · rw [hc.1] at hpresent
      cases hpresent
    · exact hplace hc.2
  · rfl

/-- A tombstone's entry is there to be purged, or it is not. -/
theorem purgeEntry_cases (s : State) (k : Key) (at_ : Place) :
    (∃ e, entryOf k s.engine.index = some e ∧ e.presence = .deleted ∧ e.place = at_) ∨
      ∀ e, entryOf k s.engine.index = some e → e.presence = .present ∨ e.place ≠ at_ := by
  by_contra hc
  obtain ⟨hno, hall⟩ := not_or.1 hc
  refine hall fun e he => ?_
  cases hp : e.presence with
  | present => exact .inl rfl
  | deleted => exact .inr fun hplace => hno ⟨e, he, hp, hplace⟩

/-! ### The walk goes on -/

/-- The live and the dead granules of every sector. -/
def accounts (s : State) (i : Sector) : Nat × Nat := ((s.space.rec_ i).live, (s.space.rec_ i).dead)

theorem accounts_congr {s t : State} (h : t.space = s.space) : accounts t = accounts s := by
  unfold accounts
  rw [h]

/-- A retirement changes the state of its sector alone. -/
theorem accounts_retireInTable (i : Sector) (s : State) :
    accounts (retireInTable i s) = accounts s := by
  funext k
  unfold accounts
  rw [retireInTable_rec]
  split
  · rename_i h
    rw [h]
  · rfl

theorem accounts_passEnd (s : State) : accounts (passEnd s) = accounts s :=
  accounts_congr (consider_space _)

theorem accounts_walkEnd (i : Sector) (s : State) : accounts (walkEnd i s) = accounts s := by
  unfold walkEnd
  split
  · split
    · rfl
    · unfold retireThen
      split
      · exact accounts_passEnd s
      · refine Eq.trans (accounts_congr ?_) (accounts_retireInTable i s)
        rw [drainPhase_space, issue_space]
  · exact accounts_passEnd _
  · rfl

theorem accounts_walkTo (n : Nat) (s : State) : accounts (walkTo n s) = accounts s := by
  unfold walkTo
  split
  · rfl
  · split
    · exact accounts_walkEnd _ s
    · rfl

/-- A consideration makes no request of the engine. -/
theorem consider_request {s : State} (h : s.drain.request = none) :
    (consider s).drain.request = none := by
  unfold consider chooseWork startReclaim startEvacuation beginPass
  repeat' split
  all_goals first
    | exact h
    | rfl

theorem passEnd_request (s : State) : (passEnd s).drain.request = none := consider_request rfl

theorem retireInTable_request {i : Sector} {s : State} (h : s.drain.request = none) :
    (retireInTable i s).drain.request = none := by
  rw [retireInTable_def]
  refine consider_request ?_
  split
  · rw [reportCause_rest]
    exact h
  · exact h

theorem walkEnd_request {i : Sector} {s : State} (h : s.drain.request = none) :
    (walkEnd i s).drain.request = none := by
  unfold walkEnd
  split
  · split
    · exact h
    · unfold retireThen
      split
      · exact passEnd_request s
      · simp only [drainPhase_phase, issue_drain, retireInTable_request h]
  · exact passEnd_request _
  · exact h

theorem walkTo_request {n : Nat} {s : State} (h : s.drain.request = none) :
    (walkTo n s).drain.request = none := by
  unfold walkTo
  split
  · exact h
  · split
    · exact walkEnd_request h
    · exact h

/-- What the answer to a PURGE and the walk after it keep of the state in which the entry has been dealt with. -/
structure WalkKeeps (u t : State) : Prop where
  request : t.drain.request = none
  ledger : Machine.ledger t = Machine.ledger u
  accounts : Machine.accounts t = Machine.accounts u
  desks : Machine.desks t = Machine.desks u

namespace WalkKeeps

variable {u t : State} (h : WalkKeeps u t)
include h

theorem index : t.engine.index = u.engine.index := congrArg Ledger.index h.ledger

theorem counter : t.engine.counter = u.engine.counter := congrArg Ledger.counter h.ledger

theorem live (i : Sector) : (t.space.rec_ i).live = (u.space.rec_ i).live :=
  congrArg Prod.fst (congrFun h.accounts i)

theorem dead (i : Sector) : (t.space.rec_ i).dead = (u.space.rec_ i).dead :=
  congrArg Prod.snd (congrFun h.accounts i)

theorem queue (q : Port) : (t.port q).queue = (u.port q).queue :=
  congrArg Desk.queue (congrFun h.desks q)

end WalkKeeps

theorem WalkKeeps.walkPast (n : Nat) (u : State) : WalkKeeps u (arbitrate (walkPast n u)) where
  request := walkTo_request rfl
  ledger := by simp
  accounts := accounts_walkTo _ _
  desks := by simp

/-- A PURGE is answered in its step, and the walk goes on (R131). -/
theorem exec_purge {s : State} {k : Key} {at_ : Place} (hg : granted s = some .drain)
    (hr : s.drain.request = some (.purge k at_)) :
    ∃ t, exec .purge s = .next t ∧ WalkKeeps (purgeEntry k at_ s.withoutRequest) t := by
  have hrequest : (purgeEntry k at_ s.withoutRequest).drain.request = none := by
    rcases purgeEntry_cases s.withoutRequest k at_ with ⟨e, he, hd, hp⟩ | hkeeps
    · rw [purgeEntry_removes he hd hp]
      rfl
    · rw [purgeEntry_keeps hkeeps]
      rfl
  generalize hu : purgeEntry k at_ s.withoutRequest = u at hrequest
  show ∃ t, execPurge s = .next t ∧ _
  simp only [execPurge, hg, hr, hu]
  split
  · exact ⟨_, rfl, WalkKeeps.walkPast _ u⟩
  · exact ⟨_, rfl, hrequest, rfl, rfl, rfl⟩

/-- Settles O54: RELOCATE by its two answers, and PURGE by whether its entry is there. -/
theorem relocateAndPurgeByPlace : Obligations.RelocateAndPurgeByPlace := by
  refine fun s hg => ⟨fun k src cp size hr => ⟨?_, fun hstale => ?_⟩, fun k at_ hr => ?_⟩
  · rintro e he rfl
    have hx := exec_relocate hg hr
    rw [relocateProcedure_applied (s := s.withoutRequest) he] at hx
    have hkey := entryOf_key he
    have hrec : ∀ i, (pointEntry { e with place := cp } s.withoutRequest).space.rec_ i =
        (s.space.repoint (some e) { e with place := cp }).rec_ i := fun i =>
      congrArg (Space.rec_ · i) (pointEntry_moved_space (s := s.withoutRequest) he cp)
    refine ⟨_, hx, ?_, fun k' hk => ?_, fun hne => ⟨?_, ?_⟩, fun hsame => ?_, fun i hsrc hcp => ?_,
      ?_, rfl, rfl, rfl, rfl⟩
    · exact (entryOf_putEntry _ _ _).trans (if_pos hkey.symm)
    · exact (entryOf_putEntry _ _ _).trans (if_neg fun h => hk (h.trans hkey))
    · exact (hrec _).trans (Space.repoint_old _ hne)
    · exact (hrec _).trans (Space.repoint_new _ hne)
    · rw [hsame]
      exact (hrec _).trans (Space.repoint_within _ hsame rfl)
    · exact (hrec _).trans (Space.repoint_other _ hcp hsrc)
    · rw [opOf_arbitrate, opOf_issue_self]
  · have hx := exec_relocate hg hr
    rw [relocateProcedure_stale (s := s.withoutRequest) hstale] at hx
    refine ⟨_, hx, rfl, rfl, ?_, rfl, rfl⟩
    rw [opOf_arbitrate, staleCopy, opOf_issue_self]
  · obtain ⟨t, hx, hkeeps⟩ := exec_purge hg hr
    rcases purgeEntry_cases s.withoutRequest k at_ with ⟨e, he, hd, rfl⟩ | hstays
    · rw [purgeEntry_removes he hd rfl] at hkeeps
      have hindex : t.engine.index = dropEntry k s.engine.index := hkeeps.index
      have hlive : ∀ i, (t.space.rec_ i).live =
          ((s.space.deaden e.place.sector (entrySize e)).rec_ i).live := hkeeps.live
      have hdead : ∀ i, (t.space.rec_ i).dead =
          ((s.space.deaden e.place.sector (entrySize e)).rec_ i).dead := hkeeps.dead
      refine ⟨t, hx, hkeeps.request, fun k' hk => ?_, fun i hi => ?_, fun e' he' _ _ => ?_,
        fun hstays => ?_, hkeeps.counter, hkeeps.queue⟩
      · rw [hindex, entryOf_dropEntry, if_neg hk]
      · rw [hlive, hdead, Space.deaden_rec, if_neg hi]
        exact ⟨rfl, rfl⟩
      · obtain rfl : e = e' := Option.some.inj (he.symm.trans he')
        rw [hindex, hlive, hdead, entryOf_dropEntry, if_pos rfl, Space.deaden_rec, if_pos rfl]
        exact ⟨rfl, rfl, rfl⟩
      · rcases hstays e he with hpresent | hplace
        · exact absurd (hd.symm.trans hpresent) (by decide)
        · exact absurd rfl hplace
    · rw [purgeEntry_keeps hstays] at hkeeps
      refine ⟨t, hx, hkeeps.request, fun k' _ => ?_, fun i _ => ⟨hkeeps.live i, hkeeps.dead i⟩,
        fun e he hd hp => ?_, fun _ => ⟨hkeeps.index, hkeeps.live _, hkeeps.dead _⟩, hkeeps.counter,
        hkeeps.queue⟩
      · rw [hkeeps.index]
        rfl
      · rcases hstays e he with hpresent | hplace
        · exact absurd (hd.symm.trans hpresent) (by decide)
        · exact absurd hp hplace

end Sys2Proof.Machine
end

section
/-! Time on an empty queue (R144, R148). -/

namespace Sys2Proof.Machine

open Sys2Proof

/-- On an empty queue a step is the passing of time. -/
theorem step_empty {s : State} (h : s.pending = []) : step s = .next (passTime s) := by
  simp only [step, h]

/-- A running ERASE below its limit ages by a millisecond. -/
theorem passTime_running {s : State} {e : EraseJob} (he : s.ctl.erase = some e)
    (hs : e.suspended = false) (ha : e.active < 120) :
    passTime s = { s with ctl := { s.ctl with erase := some { e with active := e.active + 1 } } } := by
  simp only [passTime, he]
  exact if_pos ⟨hs, ha⟩

/-- A suspended ERASE, and one at its limit, do not age. -/
theorem passTime_still {s : State} {e : EraseJob} (he : s.ctl.erase = some e)
    (h : e.suspended = true ∨ 120 ≤ e.active) : passTime s = s := by
  simp only [passTime, he]
  refine if_neg fun ⟨hs, ha⟩ => ?_
  rcases h with hsuspended | hlimit
  · exact absurd (hs.symm.trans hsuspended) (by decide)
  · exact absurd ha (Nat.not_lt_of_le hlimit)

theorem passTime_idle {s : State} (he : s.ctl.erase = none) : passTime s = s := by
  simp only [passTime, he]

/-- Settles O2: the passing of time by the ERASE that it finds. -/
theorem emptyQueueStepAgesARunningErase : Obligations.EmptyQueueStepAgesARunningErase := by
  intro s hp
  rw [step_empty hp]
  exact ⟨fun e he hs ha => congrArg _ (passTime_running he hs ha),
    fun e he h => congrArg _ (passTime_still he h), fun he => congrArg _ (passTime_idle he)⟩

end Sys2Proof.Machine
end

section
/-! SUPPORT. What every command and every step does to the array: nothing, but at the end of a PROGRAM or an
ERASE and at a reset that cuts one off (R139, R140 to R144, R152). -/

namespace Sys2Proof.Machine

open Sys2Proof

/-- The array after a command: as it was, or what the command's own operation makes of it. -/
inductive ArrayEffect (s : State) : Instr → ArrayContents → Prop where
  | kept (c : Instr) : ArrayEffect s c s.array
  | programmed {r : Requester} {op : ArrayOp} (hs : s.ctl.serving = some (r, op))
      (hp : isProgram op = true) (pass : Bool) (left : ProgramLeft) (first : Bool) :
      ArrayEffect s (.programComplete pass left first)
        (if programPasses (metBy s op left.under) pass left.span op
          then programPassed (metBy s op left.under) op
          else programFailed (metBy s op left.under) left.span op)
  | stopped {r : Requester} {op : ArrayOp} (hs : s.ctl.serving = some (r, op))
      (hp : isProgram op = true) (left : ProgramLeft) (first : Bool) :
      ArrayEffect s (.programTimeout left first) (programFailed (metBy s op left.under) left.span op)
  | erased {e : EraseJob} (he : s.ctl.erase = some e) (pass : Bool) (left : SectorImage)
      (first : Bool) :
      ArrayEffect s (.eraseComplete pass left first)
        (if erasePasses s.array pass left e.sector then eraseSector s.array e.sector
          else installImage s.array e.sector left)
  | eraseStopped {e : EraseJob} (he : s.ctl.erase = some e) (left : SectorImage) (first : Bool) :
      ArrayEffect s (.eraseTimeout left first) (installImage s.array e.sector left)
  | cut (span : SpanLeft) (sector : EraseCut) :
      ArrayEffect s (.powerOnReset span sector) (arrayCut s span sector)
  | cutByDevice (held : Bool) (span : SpanLeft) (sector : EraseCut) :
      ArrayEffect s (.deviceReset held span sector) (arrayCut s span sector)

/-! ### The commands that leave the array alone -/

theorem array_of_steady {s t : State} (h : steady t = steady s) : t.array = s.array :=
  congrArg Steady.array h

theorem checked_array {p : Port} {cs : List (Option Result)} {go : State → State}
    (h : ∀ u, (go u).array = u.array) (s : State) : (checked p cs go s).array = s.array := by
  unfold checked
  split
  · exact array_of_steady (steady_reply _ _ _ _)
  · exact h s

theorem grantCommand_array {c : Code} {p : Port} {procedure : Frame → State → State}
    (h : ∀ f u, (procedure f u).array = u.array) (s : State) :
    (grantCommand c p procedure s).array = s.array := by
  unfold grantCommand
  dsimp only
  repeat' split
  · exact array_of_steady (by simp)
  · exact array_of_steady (by simp)
  · exact (h _ _).trans (toRunning_array p s)
  · rfl
  · rfl

@[simp] theorem reply_array (p : Port) (r : Result) (fs : List Byte) (s : State) :
    (reply p r fs s).array = s.array := array_of_steady (steady_reply _ _ _ _)

@[simp] theorem runLeases_array (f : Lease → LeaseFate) (s : State) :
    (runLeases f s).array = s.array := array_of_steady (steady_runLeases _ _)

@[simp] theorem putNs_array (ns : Fin 8) (e : NsEntry) (s : State) :
    (putNs ns e s).array = s.array := rfl

@[simp] theorem setRights_array (ns : Fin 8) (r w : PortSet) (q : Nat) (s : State) :
    (setRights ns r w q s).array = s.array := runLeases_array _ _

@[simp] theorem hostWrite_array (p : Port) (f : PortUnit → PortUnit) (s : State) :
    (hostWrite p f s).array = s.array := by
  unfold hostWrite
  split <;> rfl

/-- A command that is no end of a PROGRAM or ERASE and no reset that cuts one off leaves the array. -/
theorem exec_array_kept {c : Instr} {s t : State} (hc : touchesArray c = false)
    (he : exec c s = .next t) : t.array = s.array := by
  cases c
  case programComplete | programTimeout | eraseComplete | eraseTimeout | powerOnReset | deviceReset =>
    cases hc
  case relocate =>
    simp only [exec, execRelocate] at he
    split at he <;> cases he
    · exact array_of_steady (by simp)
    · rfl
  case purge =>
    simp only [exec, execPurge] at he
    repeat' split at he
    all_goals cases he
    all_goals exact array_of_steady (by simp)
  case allocationRequest =>
    simp only [exec, execAllocationRequest] at he
    split at he <;> cases he
    all_goals exact array_of_steady (by simp)
  case teardownRequest =>
    simp only [exec, execTeardownRequest] at he
    split at he <;> cases he
    · simp [teardownProcedure]
    · rfl
  case resetNRise =>
    simp only [exec, execResetNRise] at he
    split at he <;> cases he <;> rfl
  case readComplete =>
    simp only [exec, execReadComplete] at he
    split at he <;> cases he
    · exact array_of_steady (steady_afterOutcome (fun u => steady_readEnded _ _ _ _ u) _)
    · rfl
  all_goals obtain rfl := Host.Outcome.next.inj he
  case watch | unwatch =>
    refine grantCommand_array (fun f u => ?_) s
    simp only [watchProcedure, unwatchProcedure]
    split
    · simp
    · exact checked_array (fun v => by simp) u
  case fetch | probe | scan | putOpen | remove | leaseTake | leaseRenew | leaseDrop =>
    refine grantCommand_array (fun f u => ?_) s
    simp only [fetchProcedure, probeProcedure, scanProcedure, putOpenProcedure, removeProcedure,
      leaseTakeProcedure, leaseRenewProcedure, leaseDropProcedure]
    split
    · simp
    · refine checked_array (fun v => ?_) u
      repeat' split
      all_goals exact array_of_steady (by simp)
  case putCommit | reclaim =>
    exact grantCommand_array (fun _ u => checked_array (fun v => array_of_steady (by simp)) u) s
  case putCancel | storeTune | nsSet | nsFreeze =>
    refine grantCommand_array (fun f u => ?_) s
    simp only [putCancelProcedure, storeTuneProcedure, nsSetProcedure, nsFreezeProcedure, closeTxn]
    repeat' split
    all_goals simp
  case storeQuery | format => exact grantCommand_array (fun _ u => array_of_steady (by simp)) s
  case timebaseStep | leaseExpiry => exact runLeases_array _ s
  case cmd | param | submit | stage | flags | portReset | interruptPolarity | registerWrite =>
    exact hostWrite_array _ _ s
  case resp | notice | powerGoodFall | powerGoodRise => rfl

/-! ### Every command and every step -/

theorem endProgram_array (met : ArrayContents) (ok : Bool) (left : SpanLeft) (first : Bool)
    (r : Requester) (op : ArrayOp) (s : State) :
    (endProgram met ok left first r op s).array =
      if ok then programPassed met op else programFailed met left op :=
  array_of_steady (steady_afterOutcome (fun u => steady_programEnded r ok u) _)

theorem endErase_array (ok : Bool) (left : SectorImage) (first : Bool) (e : EraseJob) (s : State) :
    (endErase ok left first e s).array =
      if ok then eraseSector s.array e.sector else installImage s.array e.sector left :=
  array_of_steady (steady_afterOutcome (fun u => steady_eraseEnded e.requester ok u) _)

theorem exec_arrayEffect {c : Instr} {s t : State} (he : exec c s = .next t) :
    ArrayEffect s c t.array := by
  cases hc : touchesArray c with
  | false => exact exec_array_kept hc he ▸ .kept c
  | true =>
    cases c
    case programComplete pass left first =>
      simp only [exec, execProgramComplete] at he
      repeat' split at he
      all_goals cases he
      · rename_i hs hp
        exact endProgram_array _ _ _ _ _ _ s ▸ .programmed hs hp pass left first
      all_goals exact .kept _
    case programTimeout left first =>
      simp only [exec, execProgramTimeout] at he
      repeat' split at he
      all_goals cases he
      · rename_i hs hp
        exact endProgram_array _ _ _ _ _ _ s ▸ .stopped hs hp left first
      all_goals exact .kept _
    case eraseComplete pass left first =>
      simp only [exec, execEraseComplete] at he
      repeat' split at he
      all_goals cases he
      · rename_i hrun _
        exact endErase_array _ _ _ _ s ▸ .erased hrun pass left first
      all_goals exact .kept _
    case eraseTimeout left first =>
      simp only [exec, execEraseTimeout] at he
      repeat' split at he
      all_goals cases he
      · rename_i hrun _
        exact endErase_array _ _ _ _ s ▸ .eraseStopped hrun left first
      all_goals exact .kept _
    case powerOnReset span sector =>
      obtain rfl := Host.Outcome.next.inj he
      exact .cut span sector
    case deviceReset held span sector =>
      obtain rfl := Host.Outcome.next.inj he
      exact .cutByDevice held span sector
    all_goals cases hc

/-- A step leaves the array, or has the effect of the command at the queue's front. -/
theorem step_arrayEffect {s t : State} (he : step s = .next t) :
    t.array = s.array ∨
      ∃ c rest, s.pending = c :: rest ∧ ArrayEffect { s with pending := rest } c t.array := by
  obtain rfl | ⟨c, rest, hp, he⟩ := step_cases he
  · exact .inl (array_of_steady (steady_passTime s))
  · exact .inr ⟨c, rest, hp, exec_arrayEffect he⟩

/-! ### What a reset cuts off -/

/-- The sector of unknown contents is the one under erase. -/
theorem erase_of_unseen {c : Controller} {i : Sector} (h : c.unseen = some i) :
    ∃ e, c.erase = some e ∧ e.sector = i := by
  unfold Controller.unseen at h
  split at h
  · rename_i e he
    split at h
    · cases h
    · exact ⟨e, he, Option.some.inj h⟩
  · cases h

/-- What a FORMAT's program leaves at a reset: nothing of it, what any program may leave, or that and one
sector header replaced (R171). -/
theorem formatCut_cases (s : State) (a c : ArrayContents) (op : ArrayOp) :
    formatCut s a c op = a ∨ formatCut s a c op = c ∨ ∃ i x, formatCut s a c op = putHeader c i x := by
  unfold formatCut
  repeat' split
  · exact .inl rfl
  · exact .inr (.inl rfl)
  · exact .inr (.inl rfl)
  · exact .inr (.inr ⟨_, _, rfl⟩)
  · exact .inr (.inl rfl)

/-- What a reset leaves of the PROGRAM in service, over the contents `a`. -/
def cutServing (s : State) (span : SpanLeft) (a : ArrayContents) : ArrayContents :=
  match s.ctl.serving with
  | some (.engine, op) => formatCut s a (programCut a span op) op
  | some (.drain, op) => programCut a span op
  | none => a

theorem cutServing_cases (s : State) (span : SpanLeft) (a : ArrayContents) :
    cutServing s span a = a ∨ ∃ op, cutServing s span a = programCut a span op ∨
      ∃ i x, cutServing s span a = putHeader (programCut a span op) i x := by
  unfold cutServing
  split
  · rename_i op _
    obtain h | h := formatCut_cases s a (programCut a span op) op
    · exact .inl h
    · exact .inr ⟨op, h⟩
  · exact .inr ⟨_, .inl rfl⟩
  · exact .inl rfl

/-- A reset cuts off the ERASE in progress, and over what that leaves the PROGRAM in service (R152). -/
theorem arrayCut_cases (s : State) (span : SpanLeft) (sector : EraseCut) :
    arrayCut s span sector = cutServing s span s.array ∨ ∃ e, s.ctl.erase = some e ∧
      arrayCut s span sector = cutServing s span (cutErase s.array e.sector sector) := by
  cases hu : s.ctl.unseen with
  | none =>
    left
    unfold arrayCut
    rw [hu]
    rfl
  | some i =>
    obtain ⟨e, he, rfl⟩ := erase_of_unseen hu
    refine .inr ⟨e, he, ?_⟩
    unfold arrayCut
    rw [hu]
    rfl

/-! ### The canonical form -/

theorem wf_cutServing {a : ArrayContents} (h : a.wf) (s : State) (span : SpanLeft) :
    (cutServing s span a).wf := by
  obtain hcut | ⟨op, hcut | ⟨i, x, hcut⟩⟩ := cutServing_cases s span a
  all_goals rw [hcut]
  · exact h
  · exact ArrayContents.wf_programCut _ _ h
  · exact ArrayContents.wf_putHeader _ _ (ArrayContents.wf_programCut _ _ h)

theorem wf_arrayCut {s : State} (h : s.array.wf) (span : SpanLeft) (sector : EraseCut) :
    (arrayCut s span sector).wf := by
  obtain hcut | ⟨e, -, hcut⟩ := arrayCut_cases s span sector
  all_goals rw [hcut]
  · exact wf_cutServing h _ _
  · exact wf_cutServing (ArrayContents.wf_cutErase _ _ h) _ _

theorem ArrayEffect.wf {s : State} {c : Instr} {a : ArrayContents} (he : ArrayEffect s c a)
    (h : s.array.wf) : a.wf := by
  cases he with
  | kept => exact h
  | programmed =>
    split
    · exact ArrayContents.wf_programPassed _ (wf_metBy _ _ h)
    · exact ArrayContents.wf_programFailed _ _ (wf_metBy _ _ h)
  | stopped => exact ArrayContents.wf_programFailed _ _ (wf_metBy _ _ h)
  | erased =>
    split
    · exact ArrayContents.wf_eraseSector _ h
    · exact ArrayContents.wf_installImage _ _ h
  | eraseStopped => exact ArrayContents.wf_installImage _ _ h
  | cut | cutByDevice => exact wf_arrayCut h _ _

/-- Settles O5: whatever a step makes of the array's contents stays canonical. -/
theorem arrayStaysCanonical : Obligations.ArrayStaysCanonical := by
  intro s t h he
  obtain hkept | ⟨c, rest, -, heffect⟩ := step_arrayEffect he
  · rwa [hkept]
  · exact heffect.wf h

end Sys2Proof.Machine
end

section
/-! SUPPORT. A programmed byte is not 0FFH again but by an ERASE: what the PROGRAMs and the partial contents of a
sector under erase do to the bytes that the array shows (R139, R140, R150). -/

namespace Sys2Proof.Machine

open Sys2Proof

/-- A byte that `a` shows as other than 0FFH is other than 0FFH in `b`, unless its granule holds a header there. -/
def StaysProgrammed (a b : ArrayContents) (addr : Nat) : Prop :=
  cellAt (addr / 16) b.recs = none → shownByte a addr ≠ 0xFF → shownByte b addr ≠ 0xFF

theorem StaysProgrammed.refl (a : ArrayContents) (addr : Nat) : StaysProgrammed a a addr :=
  fun _ h => h

theorem shownByte_putHeader (a : ArrayContents) (i : Sector) (x : SectorHeader) (addr : Nat) :
    shownByte (putHeader a i x) addr = shownByte a addr := rfl

/-! ### A PROGRAM -/

/-- A header's program leaves every byte but those of its own granule. -/
theorem staysProgrammed_putRec (a : ArrayContents) (p : Place) (c : RecCell) (addr : Nat) :
    StaysProgrammed a (putRec a p c) addr := by
  intro hnone h
  have hcell := cellAt_putCell (granuleNumber p.sector p.granule) (addr / 16) c a.recs
  by_cases hg : addr / 16 = granuleNumber p.sector p.granule
  · rw [if_pos hg] at hcell
    cases hcell.symm.trans hnone
  · rw [if_neg hg] at hcell
    unfold shownByte at h ⊢
    rwa [show cellAt (addr / 16) (putRec a p c).recs = cellAt (addr / 16) a.recs from hcell]

theorem staysProgrammed_putRecState (a : ArrayContents) (p : Place) (st : Option RecState)
    (addr : Nat) : StaysProgrammed a (putRecState a p st) addr := staysProgrammed_putRec _ _ _ _

theorem staysProgrammed_stateLeft (a : ArrayContents) (p : Place) (st : RecState) (l : FieldLeft)
    (addr : Nat) : StaysProgrammed a (stateLeft a p st l) addr := by
  unfold stateLeft
  repeat' split
  · exact .refl a addr
  · exact staysProgrammed_putRecState _ _ _ _
  · exact .refl a addr
  · exact .refl a addr
  · exact staysProgrammed_putRecState _ _ _ _

theorem staysProgrammed_programFailed (a : ArrayContents) (left : SpanLeft) (op : ArrayOp)
    (addr : Nat) : StaysProgrammed a (programFailed a left op) addr := by
  unfold programFailed
  split
  · exact staysProgrammed_putRec _ _ _ _
  · exact .refl a addr
  · exact staysProgrammed_stateLeft _ _ _ _ _
  · exact fun _ => bytesLeft_keeps _ _ _ _ _
  all_goals exact .refl a addr

theorem staysProgrammed_programCut (a : ArrayContents) (left : SpanLeft) (op : ArrayOp) (addr : Nat) :
    StaysProgrammed a (programCut a left op) addr := by
  unfold programCut
  split
  · split
    · exact .refl a addr
    · exact staysProgrammed_putRec _ _ _ _
  · exact staysProgrammed_stateLeft _ _ _ _ _
  · exact fun _ => bytesLeft_keeps _ _ _ _ _
  all_goals exact .refl a addr

/-- A payload program that is within reach asks no programmed byte for 0FFH (R140). -/
theorem programReachable_bytes {a : ArrayContents} {addr : Nat} {bs : List Byte}
    (h : programReachable a (.programBytes addr bs) = true) {k : Nat} (hk : k < bs.length)
    (hold : shownByte a (addr + k) ≠ 0xFF) : bs[k] ≠ 0xFF := by
  have hmem : (shownByte a (addr + k), bs[k]) ∈ List.zip (shownBytes a addr bs.length) bs := by
    refine List.mem_iff_getElem.2 ⟨k, by simpa using hk, ?_⟩
    rw [List.getElem_zip, shownBytes_getElem]
  have hreach : byteReaches (shownByte a (addr + k)) bs[k] = true := List.all_eq_true.1 h _ hmem
  intro hnew
  simp only [byteReaches, hnew, Bool.or_eq_true, beq_iff_eq, bne_self_eq_false, Bool.false_eq_true,
    or_false, or_self] at hreach
  exact hold hreach

/-- A payload program's read-back finds each byte requested. -/
theorem programReads_bytes {a : ArrayContents} {addr : Nat} {bs : List Byte}
    (h : programReads a (.programBytes addr bs) = true) {k : Nat} (hk : k < bs.length) :
    shownByte a (addr + k) = bs[k] := by
  have hread : shownBytes a addr bs.length = bs := beq_iff_eq.1 h
  rw [← shownBytes_getElem a addr bs.length k (by simpa using hk)]
  exact List.getElem_of_eq hread _

/-- A payload program that passes asks no programmed byte for 0FFH (R139, R143). -/
theorem programPasses_bytes {a : ArrayContents} {pass : Bool} {left : SpanLeft} {addr : Nat}
    {bs : List Byte} (h : programPasses a pass left (.programBytes addr bs) = true) {k : Nat}
    (hk : k < bs.length) (hold : shownByte a (addr + k) ≠ 0xFF) : bs[k] ≠ 0xFF := by
  simp only [programPasses, Bool.or_eq_true, Bool.and_eq_true] at h
  rcases h with (hread | ⟨-, hreach⟩) | hleft
  · rwa [← programReads_bytes hread hk]
  · exact programReachable_bytes hreach hk hold
  · rw [← programReads_bytes hleft hk]
    exact bytesLeft_keeps _ _ _ _ _ hold

theorem staysProgrammed_programPassed {a : ArrayContents} {pass : Bool} {left : SpanLeft}
    {op : ArrayOp} (h : programPasses a pass left op = true) (addr : Nat) :
    StaysProgrammed a (programPassed a op) addr := by
  cases op with
  | programHeader p x => exact staysProgrammed_putRec _ _ _ _
  | programState p st => exact staysProgrammed_putRecState _ _ _ _
  | programBytes n bs =>
    intro _ hold
    show shownByte (putBytes a n bs) addr ≠ 0xFF
    rw [shownByte_putBytes]
    split
    · exact programPasses_bytes h (by omega) (by rwa [show n + (addr - n) = addr by omega])
    · exact hold
  | programIdentity | programActivation | programMark | read | erase => exact .refl a addr

/-! ### A sector under erase -/

/-- What a cut-off ERASE leaves of a record header, by where it stands (R152). -/
def cutAt (i : Sector) (cuts : List (Nat × RecCut)) (n : Nat) (c : RecCell) : Option RecCell :=
  if n / 512 = i.val then (cellAt (n % 512) cuts).elim (some c) (cutCell · c) else some c

/-- Whether a cut-off ERASE erases a record header is decided by where it stands alone. -/
theorem cutAt_none {i : Sector} {cuts : List (Nat × RecCut)} {n : Nat} {c : RecCell}
    (h : cutAt i cuts n c = none) (d : RecCell) : cutAt i cuts n d = none := by
  by_cases hi : n / 512 = i.val
  · rw [cutAt, if_pos hi] at h ⊢
    cases hk : cellAt (n % 512) cuts with
    | none => rw [hk] at h; cases h
    | some k =>
      rw [hk] at h
      cases k with
      | erased => rfl
      | broken | torn => cases h
  · rw [cutAt, if_neg hi] at h
    cases h

theorem cutRecs_eq (i : Sector) (cuts : List (Nat × RecCut)) (m : List (Nat × RecCell)) :
    cutRecs i cuts m = m.filterMap (fun c => (cutAt i cuts c.1 c.2).map (Prod.mk c.1)) := by
  unfold cutRecs
  congr 1
  funext c
  by_cases hi : c.1 / 512 = i.val
  · rw [if_pos hi, cutAt, if_pos hi]
    cases cellAt (c.1 % 512) cuts <;> rfl
  · rw [if_neg hi, cutAt, if_neg hi]
    rfl

theorem cellAt_cutRecs (i : Sector) (cuts : List (Nat × RecCut)) (m : List (Nat × RecCell))
    (n : Nat) : cellAt n (cutRecs i cuts m) = (cellAt n m).bind (cutAt i cuts n) := by
  rw [cutRecs_eq]
  induction m with
  | nil => rfl
  | cons c cs ih =>
    rw [List.filterMap_cons]
    by_cases hn : c.1 = n
    · subst hn
      cases hcut : cutAt i cuts c.1 c.2 with
      | none =>
        have hgone : (cellAt c.1 cs).bind (cutAt i cuts c.1) = none := by
          cases cellAt c.1 cs with
          | none => rfl
          | some d => exact cutAt_none hcut d
        simp [cellAt, hcut, ih, hgone]
      | some x => simp [cellAt, hcut]
    · cases hcut : cutAt i cuts c.1 c.2 with
      | none => simp [cellAt, hn, ih]
      | some x => simp [cellAt, hn, ih]

/-- Bytes of an image lie in its sector. -/
theorem byteAt_installBytes_ne (i : Sector) (cs : List (Nat × Byte)) (m : List Host.Cell) {b : Nat}
    (hb : b / 8192 ≠ i.val) : byteAt b (installBytes i cs m) = byteAt b m := by
  induction cs generalizing m with
  | nil => rfl
  | cons c cs ih =>
    rw [installBytes, ih]
    split
    · rw [byteAt_writeByte, if_neg (by omega)]
    · rfl

theorem cellAt_cutErase_ne (a : ArrayContents) (i : Sector) (c : EraseCut) {n : Nat}
    (hn : n / 512 ≠ i.val) : cellAt n (cutErase a i c).recs = cellAt n a.recs := by
  have hkept : cutAt i c.recs n = some := funext fun _ => if_neg hn
  rw [show (cutErase a i c).recs = cutRecs i c.recs a.recs from rfl, cellAt_cutRecs, hkept,
    Option.bind_fun_some]

theorem byteAt_cutErase_ne (a : ArrayContents) (i : Sector) (c : EraseCut) {b : Nat}
    (hb : b / 8192 ≠ i.val) : byteAt b (cutErase a i c).bytes = byteAt b a.bytes := by
  unfold byteAt
  refine congrArg (·.getD erasedByte) ((cellAt_filter (fun n => !(n / 8192 == i.val &&
    (c.bytes.contains (n % 8192) || (cellAt (n / 16) a.recs).isSome))) b a.bytes).trans (if_pos ?_))
  simp [hb]

/-- A granule shows the same where neither its header nor its bytes have changed. -/
theorem shownByte_congr {a b : ArrayContents} {addr : Nat}
    (hcell : cellAt (addr / 16) b.recs = cellAt (addr / 16) a.recs)
    (hbyte : byteAt addr b.bytes = byteAt addr a.bytes) : shownByte b addr = shownByte a addr := by
  unfold shownByte
  rw [hcell, hbyte]

/-- Outside the sector under erase a cut-off ERASE changes no byte. -/
theorem shownByte_cutErase_ne (a : ArrayContents) (i : Sector) (c : EraseCut) {addr : Nat}
    (h : addr / 8192 ≠ i.val) : shownByte (cutErase a i c) addr = shownByte a addr :=
  shownByte_congr (cellAt_cutErase_ne a i c (by omega)) (byteAt_cutErase_ne a i c h)

theorem shownByte_partlyErased_ne (a : ArrayContents) (i : Sector) (u : UnderErase) {addr : Nat}
    (h : addr / 8192 ≠ i.val) : shownByte (partlyErased a i u) addr = shownByte a addr :=
  shownByte_congr (cellAt_cutErase_ne a i u.cut (by omega))
    ((byteAt_installBytes_ne i u.others _ h).trans (byteAt_cutErase_ne a i u.cut h))

/-- An address outside the sector under erase, if there is one. -/
def OutsideErase (s : State) (addr : Nat) : Prop :=
  ∀ e, s.ctl.erase = some e → addr / 8192 ≠ e.sector.val

theorem shownByte_metBy {s : State} {addr : Nat} (h : OutsideErase s addr) (op : ArrayOp)
    (under : UnderErase) : shownByte (metBy s op under) addr = shownByte s.array addr := by
  obtain hmet | ⟨e, he, -, -, hmet⟩ := metBy_cases s op under
  · rw [hmet]
  · rw [hmet, shownByte_partlyErased_ne _ _ _ (h e he)]

/-! ### A reset, and every command -/

theorem staysProgrammed_cutServing (s : State) (span : SpanLeft) (a : ArrayContents) (addr : Nat) :
    StaysProgrammed a (cutServing s span a) addr := by
  obtain hcut | ⟨op, hcut | ⟨i, x, hcut⟩⟩ := cutServing_cases s span a
  all_goals rw [hcut]
  · exact .refl a addr
  · exact staysProgrammed_programCut _ _ _ _
  · exact staysProgrammed_programCut a span op addr

theorem staysProgrammed_arrayCut {s : State} {addr : Nat} (h : OutsideErase s addr) (span : SpanLeft)
    (sector : EraseCut) : StaysProgrammed s.array (arrayCut s span sector) addr := by
  obtain hcut | ⟨e, he, hcut⟩ := arrayCut_cases s span sector
  all_goals rw [hcut]
  · exact staysProgrammed_cutServing _ _ _ _
  · unfold StaysProgrammed
    rw [← shownByte_cutErase_ne s.array e.sector sector (h e he)]
    exact staysProgrammed_cutServing _ _ _ _

/-- Outside a sector under erase no command but an ERASE's end returns a byte to 0FFH (R139). -/
theorem ArrayEffect.staysProgrammed {s : State} {c : Instr} {a : ArrayContents}
    (he : ArrayEffect s c a) (hc : endsErase c = false) {addr : Nat} (h : OutsideErase s addr) :
    StaysProgrammed s.array a addr := by
  cases he with
  | kept => exact .refl _ _
  | @programmed _ op _ _ _ left =>
    unfold StaysProgrammed
    rw [← shownByte_metBy h op left.under]
    split
    · rename_i hpass
      exact staysProgrammed_programPassed hpass addr
    · exact staysProgrammed_programFailed _ _ _ _
  | @stopped _ op _ _ left =>
    unfold StaysProgrammed
    rw [← shownByte_metBy h op left.under]
    exact staysProgrammed_programFailed _ _ _ _
  | erased | eraseStopped => cases hc
  | cut | cutByDevice => exact staysProgrammed_arrayCut h _ _

end Sys2Proof.Machine
end

section
/-! SUPPORT. No stopped PROGRAM and no ERASE makes a record VALID that was not (R8, R142, R144). -/

namespace Sys2Proof.Machine

open Sys2Proof

/-- Every record header of `new` that is VALID stands VALID in `old`. -/
def NoNewValid (old new : List (Nat × RecCell)) : Prop :=
  ∀ n, (cellAt n new).bind cellState = some .valid → (cellAt n old).bind cellState = some .valid

theorem NoNewValid.refl (m : List (Nat × RecCell)) : NoNewValid m m := fun _ h => h

theorem NoNewValid.trans {a b c : List (Nat × RecCell)} (hab : NoNewValid a b) (hbc : NoNewValid b c) :
    NoNewValid a c := fun n h => hab n (hbc n h)

/-- A header put over a list makes no record VALID where it is not VALID itself, or was so before. -/
theorem NoNewValid.putCell {old m : List (Nat × RecCell)} (h : NoNewValid old m) {n : Nat} {c : RecCell}
    (hc : cellState c = some .valid → (cellAt n old).bind cellState = some .valid) :
    NoNewValid old (putCell n c m) := by
  intro k hk
  rw [cellAt_putCell] at hk
  split at hk
  · rename_i e
    exact e ▸ hc hk
  · exact h k hk

/-- A list that shows at each place what another shows, or nothing, has no new VALID record. -/
theorem noNewValid_of_dropped {old new : List (Nat × RecCell)}
    (h : ∀ n, cellAt n new = none ∨ cellAt n new = cellAt n old) : NoNewValid old new := by
  intro n hn
  obtain hnone | hsame := h n
  · rw [hnone] at hn
    cases hn
  · rwa [hsame] at hn

/-! ### A failed PROGRAM -/

theorem noNewValid_putBytes (a : ArrayContents) (addr : Nat) (bs : List Byte) :
    NoNewValid a.recs (putBytes a addr bs).recs := by
  refine noNewValid_of_dropped fun n => ?_
  rw [cellAt_putBytes]
  split
  · exact .inl rfl
  · exact .inr rfl

theorem noNewValid_putRecState_none (a : ArrayContents) (p : Place) :
    NoNewValid a.recs (putRecState a p none).recs := by
  refine (NoNewValid.refl a.recs).putCell fun hvalid => ?_
  cases hcell : cellAt (granuleNumber p.sector p.granule) a.recs with
  | none =>
    rw [hcell] at hvalid
    cases hvalid
  | some c =>
    rw [hcell, Option.map_some, Option.getD_some, cellState_cellWithState] at hvalid
    cases hvalid

theorem noNewValid_headerLeft (a : ArrayContents) (p : Place) (l : FieldLeft) :
    NoNewValid a.recs (headerLeft a p l).recs := by
  refine (NoNewValid.refl a.recs).putCell fun hvalid => ?_
  simp only [cellState] at hvalid
  split at hvalid
  · cases hvalid
  · exact hvalid

/-- A state program that falls short leaves the array, or a field that reads as none of its values. -/
theorem stateLeft_short (a : ArrayContents) (p : Place) (st : RecState) (l : FieldLeft) :
    stateLeft a p st l.short = a ∨ stateLeft a p st l.short = putRecState a p none := by
  cases l
  case old | new => exact .inl rfl
  case neither =>
    simp only [FieldLeft.short, stateLeft]
    split
    · exact .inl rfl
    · exact .inr rfl

theorem noNewValid_programFailed (a : ArrayContents) (left : SpanLeft) (op : ArrayOp) :
    NoNewValid a.recs (programFailed a left op).recs := by
  unfold programFailed
  split
  · exact noNewValid_headerLeft _ _ _
  · exact .refl _
  · rename_i p st _
    obtain h | h := stateLeft_short a p st left.field
    all_goals rw [h]
    · exact .refl _
    · exact noNewValid_putRecState_none _ _
  · unfold bytesLeft
    split
    · exact noNewValid_putBytes _ _ _
    · exact noNewValid_putBytes _ _ _
    · exact .refl _
  all_goals exact .refl _

/-! ### An ERASE -/

/-- A cut-off ERASE leaves a record's state field, or a header without one of its values. -/
theorem cellState_cutAt {i : Sector} {cuts : List (Nat × RecCut)} {n : Nat} {c d : RecCell}
    (h : cutAt i cuts n c = some d) : cellState d = cellState c ∨ cellState d = none := by
  unfold cutAt at h
  split at h
  · cases hk : cellAt (n % 512) cuts with
    | none =>
      rw [hk] at h
      cases h
      exact .inl rfl
    | some k =>
      rw [hk] at h
      cases k with
      | erased => cases h
      | broken kept =>
        cases h
        cases kept
        · exact .inr rfl
        · exact .inl rfl
      | torn =>
        cases h
        exact .inr (cellState_cellWithState _ _)
  · cases h
    exact .inl rfl

theorem noNewValid_cutErase (a : ArrayContents) (i : Sector) (c : EraseCut) :
    NoNewValid a.recs (cutErase a i c).recs := by
  intro n hvalid
  rw [show (cutErase a i c).recs = cutRecs i c.recs a.recs from rfl, cellAt_cutRecs] at hvalid
  cases hcell : cellAt n a.recs with
  | none =>
    rw [hcell] at hvalid
    cases hvalid
  | some x =>
    rw [hcell, Option.bind_some] at hvalid
    cases hcut : cutAt i c.recs n x with
    | none =>
      rw [hcut] at hvalid
      cases hvalid
    | some d =>
      rw [hcut, Option.bind_some] at hvalid
      obtain hsame | hnone := cellState_cutAt hcut
      · exact hsame.symm.trans hvalid
      · cases hnone.symm.trans hvalid

/-- What a PROGRAM meets holds no VALID record that the array does not (R150). -/
theorem noNewValid_metBy (s : State) (op : ArrayOp) (under : UnderErase) :
    NoNewValid s.array.recs (metBy s op under).recs := by
  obtain hmet | ⟨e, -, -, -, hmet⟩ := metBy_cases s op under
  all_goals rw [hmet]
  · exact .refl _
  · exact noNewValid_cutErase s.array e.sector under.cut

theorem noNewValid_eraseSector (a : ArrayContents) (i : Sector) :
    NoNewValid a.recs (eraseSector a i).recs := by
  refine noNewValid_of_dropped fun n => ?_
  rw [recAt_eraseSector]
  split
  · exact .inl rfl
  · exact .inr rfl

/-- A header of an image is VALID only where the same header stood (log 43). -/
theorem imageCell_valid {old : Option RecCell} {c : RecCell}
    (h : cellState (imageCell old c) = some .valid) : old.bind cellState = some .valid := by
  unfold imageCell at h
  split at h
  · rw [cellState_cellWithState] at h
    cases h
  · rename_i hc
    have hold : old = some c := by_contra fun hne => hc ⟨h, hne⟩
    rwa [hold]

theorem noNewValid_installRecs {i : Sector} {old cs m : List (Nat × RecCell)} (h : NoNewValid old m) :
    NoNewValid old (installRecs i old cs m) := by
  induction cs generalizing m with
  | nil => exact h
  | cons c cs ih =>
    rw [installRecs]
    split
    · exact ih (h.putCell imageCell_valid)
    · exact ih h

theorem noNewValid_installImage (a : ArrayContents) (i : Sector) (img : SectorImage) :
    NoNewValid a.recs (installImage a i img).recs :=
  noNewValid_installRecs (noNewValid_eraseSector a i)

/-! ### Every command -/

/-- The end of a PROGRAM that is not stopped at its timeout. -/
def completesProgram : Instr → Bool
  | .programComplete _ _ _ => true
  | _ => false

/-- Only a PROGRAM's completion, or a reset that cuts one off, makes a record VALID. -/
theorem ArrayEffect.noNewValid {s : State} {c : Instr} {a : ArrayContents} (he : ArrayEffect s c a)
    (hreset : isReset c = false) (hprogram : completesProgram c = false) :
    NoNewValid s.array.recs a.recs := by
  cases he with
  | kept => exact .refl _
  | programmed => cases hprogram
  | stopped => exact (noNewValid_metBy _ _ _).trans (noNewValid_programFailed _ _ _)
  | erased =>
    split
    · exact noNewValid_eraseSector _ _
    · exact noNewValid_installImage _ _ _
  | eraseStopped => exact noNewValid_installImage _ _ _
  | cut | cutByDevice => cases hreset

end Sys2Proof.Machine
end

section
/-! The array changes only by its own operations (R139 to R144, R150, R152, R8). -/

namespace Sys2Proof.Machine

open Sys2Proof

/-! ### An erased granule by its bytes -/

theorem granuleAddress_eq (i : Sector) (g : Nat) : granuleAddress i g = granuleNumber i g * 16 := by
  unfold granuleAddress granuleNumber
  omega

/-- A granule is erased where it holds no header and each of its bytes is 0FFH (R154). -/
theorem readGranule_erased_iff (a : ArrayContents) (i : Sector) (g : Nat) :
    readGranule a i g = .erased ↔ cellAt (granuleNumber i g) a.recs = none ∧
      ∀ k, k < 16 → byteAt (granuleNumber i g * 16 + k) a.bytes = 0xFF := by
  unfold readGranule
  rw [granuleAddress_eq]
  split
  · rename_i hcell
    split <;> simp [hcell]
  · rename_i hcell
    simp [hcell]
  · rename_i hcell
    simp [hcell, readBytes]

/-- Where no header stands, the array shows what is listed. -/
theorem shownByte_unheaded {a : ArrayContents} {addr : Nat} (h : cellAt (addr / 16) a.recs = none) :
    shownByte a addr = byteAt addr a.bytes := by
  unfold shownByte
  rw [h]

/-- A granule that is not erased shows a byte other than 0FFH (R3, log 5). -/
theorem exists_shownByte_of_not_erased {a : ArrayContents} {i : Sector} {g : Nat}
    (h : readGranule a i g ≠ .erased) :
    ∃ k, k < 16 ∧ shownByte a (granuleNumber i g * 16 + k) ≠ 0xFF := by
  cases hcell : cellAt (granuleNumber i g) a.recs with
  | none =>
    by_contra hall
    refine h ((readGranule_erased_iff a i g).2 ⟨hcell, fun k hk => ?_⟩)
    rw [← shownByte_unheaded (by rwa [show (granuleNumber i g * 16 + k) / 16 = granuleNumber i g by omega])]
    exact by_contra fun hb => hall ⟨k, hk, hb⟩
  | some c =>
    refine ⟨_, (Config.cellMark c (granuleNumber i g)).1.isLt, ?_⟩
    unfold shownByte
    rw [show (granuleNumber i g * 16 + (Config.cellMark c (granuleNumber i g)).1.val) / 16 =
      granuleNumber i g by omega, hcell]
    exact headerByte_mark c _

/-- A granule whose programmed bytes stay programmed does not become erased. -/
theorem not_erased_of_staysProgrammed {a b : ArrayContents} {i : Sector} {g : Nat}
    (h : ∀ k, k < 16 → StaysProgrammed a b (granuleNumber i g * 16 + k))
    (ha : readGranule a i g ≠ .erased) : readGranule b i g ≠ .erased := by
  intro hb
  obtain ⟨hcell, hbytes⟩ := (readGranule_erased_iff b i g).1 hb
  obtain ⟨k, hk, hshown⟩ := exists_shownByte_of_not_erased ha
  have hnone : cellAt ((granuleNumber i g * 16 + k) / 16) b.recs = none := by
    rwa [show (granuleNumber i g * 16 + k) / 16 = granuleNumber i g by omega]
  exact h k hk hnone hshown ((shownByte_unheaded hnone).trans (hbytes k hk))

/-! ### A step -/

theorem front_false {f : Instr → Bool} {s : State} {c : Instr} {rest : List Instr}
    (h : ¬ frontIs f s) (hp : s.pending = c :: rest) : f c = false :=
  Bool.eq_false_iff.2 fun hc => h ⟨c, rest, hp, hc⟩

theorem ArrayEffect.eq_of_untouched {s : State} {c : Instr} {a : ArrayContents}
    (he : ArrayEffect s c a) (hc : touchesArray c = false) : a = s.array := by
  cases he
  case kept => rfl
  all_goals cases hc

theorem step_staysProgrammed {s t : State} (he : step s = .next t) (hf : ¬ frontIs endsErase s)
    {addr : Nat} (h : OutsideErase s addr) : StaysProgrammed s.array t.array addr := by
  obtain hkept | ⟨c, rest, hp, heffect⟩ := step_arrayEffect he
  · rw [hkept]
    exact .refl _ _
  · exact heffect.staysProgrammed (front_false hf hp) h

/-- Settles O13: each clause by the effect of the command at the queue's front. -/
theorem arrayChangesOnlyByItsOperations : Obligations.ArrayChangesOnlyByItsOperations := by
  refine ⟨fun s t he hf => ?_, fun s t he hf =>
    ⟨fun addr h => step_staysProgrammed he hf h, fun i g h => ?_⟩, fun s t p he hreset hprogram => ?_⟩
  · obtain hkept | ⟨c, rest, hp, heffect⟩ := step_arrayEffect he
    · exact hkept
    · exact heffect.eq_of_untouched (front_false hf hp)
  · refine not_erased_of_staysProgrammed fun k hk => step_staysProgrammed he hf fun e herase => ?_
    have hsector := h e herase
    omega
  · obtain hkept | ⟨c, rest, hp, heffect⟩ := step_arrayEffect he
    · rw [hkept]
      exact id
    · exact heffect.noNewValid (front_false hreset hp) (front_false hprogram hp) _

end Sys2Proof.Machine
end

section
/-! The outcome of a PROGRAM by its read-back, kind by kind (R140, R142, R143, R150, R4, R8). -/

namespace Sys2Proof.Machine

open Sys2Proof

/-! ### The contents a PROGRAM meets, and the array after it -/

/-- An erase elsewhere, and one in whose suspension a PROGRAM of its sector has ended, show the array's contents. -/
theorem metBy_array {s : State} {e : EraseJob} {op : ArrayOp} (he : s.ctl.erase = some e)
    (h : opSector op ≠ e.sector.val ∨ (e.suspended = true ∧ e.shown = true)) (under : UnderErase) :
    metBy s op under = s.array := by
  obtain hmet | ⟨e', he', hunseen, hsector, -⟩ := metBy_cases s op under
  · exact hmet
  · cases he.symm.trans he'
    rcases h with hother | ⟨hsuspended, hshown⟩
    · exact absurd hsector hother
    · rw [hsuspended, hshown] at hunseen
      cases hunseen

theorem metBy_partlyErased {s : State} {e : EraseJob} {op : ArrayOp} (he : s.ctl.erase = some e)
    (hsector : opSector op = e.sector.val) (h : ¬ (e.suspended = true ∧ e.shown = true))
    (under : UnderErase) : metBy s op under = partlyErased s.array e.sector under := by
  have hunseen : s.ctl.unseen = some e.sector := by
    simp only [Controller.unseen, he]
    exact if_neg (by simpa using h)
  simp only [metBy, hunseen]
  exact if_pos hsector

theorem programEnded_array (r : Requester) (ok : Bool) (s : State) :
    (programEnded r ok s).array = s.array := array_of_steady (steady_programEnded r ok s)

/-! ### What decides the outcome -/

/-- What a program that does not pass leaves reads otherwise than was requested (R143). -/
theorem programReads_left {a : ArrayContents} {pass : Bool} {left : SpanLeft} {op : ArrayOp}
    (h : programPasses a pass left op = false) : programReads (programFailed a left op) op = false := by
  simp only [programPasses, Bool.or_eq_false_iff] at h
  exact h.2

theorem programPasses_of_reads {a : ArrayContents} {op : ArrayOp} (h : programReads a op = true)
    (pass : Bool) (left : SpanLeft) : programPasses a pass left op = true := by
  simp only [programPasses, h, Bool.true_or]

theorem programPasses_of_reachable {a : ArrayContents} {op : ArrayOp}
    (h : programReachable a op = true) (left : SpanLeft) : programPasses a true left op = true := by
  simp only [programPasses, h, Bool.true_or, Bool.and_self, Bool.or_true]

/-- A program fails whose request is not read before it, is out of reach, and is not what is left. -/
theorem programPasses_false {a : ArrayContents} {left : SpanLeft} {op : ArrayOp}
    (hread : programReads a op = false) (hreach : programReachable a op = false)
    (hleft : programReads (programFailed a left op) op = false) (pass : Bool) :
    programPasses a pass left op = false := by
  simp only [programPasses, hread, hreach, hleft, Bool.and_false, Bool.or_self]

/-! ### A payload program -/

theorem programPasses_iff_shownBytes (a : ArrayContents) (pass : Bool) (left : SpanLeft) (addr : Nat)
    (bs : List Byte) : programPasses a pass left (.programBytes addr bs) = true ↔
      shownBytes (if programPasses a pass left (.programBytes addr bs)
        then programPassed a (.programBytes addr bs)
        else programFailed a left (.programBytes addr bs)) addr bs.length = bs := by
  cases h : programPasses a pass left (.programBytes addr bs) with
  | true => simp [programPassed, shownBytes_putBytes]
  | false => simpa [programReads] using programReads_left h

theorem mem_spanGranules_of_span {addr len n : Nat} (hlo : addr / 16 ≤ n) (hhi : n * 16 < addr + len)
    (hlen : 0 < len) : n ∈ spanGranules addr len := by
  have hmem := mem_spanGranules (addr := addr) (n := len) (b := max addr (n * 16)) (by omega)
  rwa [show max addr (n * 16) / 16 = n by omega] at hmem

/-- A header granule asked for 0FFH throughout fails: one of its bytes is programmed (log 5). -/
theorem programPasses_blank_header {a : ArrayContents} {n : Nat} {c : RecCell}
    (h : cellAt n a.recs = some c) (pass : Bool) (left : SpanLeft) :
    programPasses a pass left (.programBytes (n * 16) (List.replicate 16 0xFF)) = false := by
  refine Bool.eq_false_iff.2 fun hpass => programPasses_bytes hpass
    (k := (Config.cellMark c n).1.val) (by simp) ?_ (List.getElem_replicate _)
  unfold shownByte
  rw [show (n * 16 + (Config.cellMark c n).1.val) / 16 = n by omega, h]
  exact headerByte_mark c n

/-! ### A record's state field -/

/-- A state program that fails leaves the field at its old value, or at none (R142, R8, log 6, log 43). -/
theorem recStateAt_programFailed (a : ArrayContents) (left : SpanLeft) (p : Place) (st : RecState) :
    recStateAt (programFailed a left (.programState p st)) p = recStateAt a p ∨
      recStateAt (programFailed a left (.programState p st)) p = none := by
  have hshort : recStateAt (stateLeft a p st left.field.short) p = recStateAt a p ∨
      recStateAt (stateLeft a p st left.field.short) p = none := by
    obtain h | h := stateLeft_short a p st left.field
    all_goals rw [h]
    · exact .inl rfl
    · exact .inr (recStateAt_putRecState_self a p none)
  cases st with
  | superseded => exact .inl rfl
  | allocated | valid => exact hshort

section RecordState

variable {a : ArrayContents} {p : Place} {st old : RecState} (hold : recStateAt a p = some old)
include hold

theorem programPasses_state_backward (h : recRank st < recRank old) (pass : Bool) (left : SpanLeft) :
    programPasses a pass left (.programState p st) = false := by
  have hne : old ≠ st := by
    rintro rfl
    exact Nat.lt_irrefl _ h
  refine programPasses_false ?_ ?_ ?_ pass
  · simpa [programReads, hold] using hne
  · simpa [programReachable, hold, recReaches] using h
  · obtain hleft | hleft := recStateAt_programFailed a left p st
    · simpa [programReads, hleft, hold] using hne
    · simp [programReads, hleft]

theorem programPasses_state_forward (h : recRank old ≤ recRank st) (left : SpanLeft) :
    programPasses a true left (.programState p st) = true :=
  programPasses_of_reachable (by simpa [programReachable, hold, recReaches] using h) left

end RecordState

theorem programPasses_state_none {a : ArrayContents} {p : Place} (h : recStateAt a p = none)
    (st : RecState) (left : SpanLeft) : programPasses a true left (.programState p st) = true :=
  programPasses_of_reachable (by simp [programReachable, h]) left

/-! ### A record header -/

section Header

variable {a : ArrayContents} {p : Place} {h : RecHeader} (hst : h.state = some .allocated)
include hst

/-- A header's program asks for ALLOCATED, which a VALID or SUPERSEDED record does not go back to (R140). -/
theorem programPasses_header_over {old : RecState} (hold : recStateAt a p = some old)
    (hne : old ≠ .allocated) (pass : Bool) (left : SpanLeft) :
    programPasses a pass left (.programHeader p h) = false := by
  refine programPasses_false ?_ ?_ ?_ pass
  · refine beq_eq_false_iff_ne.2 fun hcell => hne ?_
    rw [recStateAt, hcell, Option.bind_some, cellState, hst] at hold
    exact (Option.some.inj hold).symm
  · cases old with
    | allocated => exact absurd rfl hne
    | valid | superseded => simp [programReachable, hold, hst, recReaches, recRank]
  · simp [programReads, programFailed, headerLeft, putRec, cellAt_putCell]

theorem programPasses_header_fresh (hold : recStateAt a p = none ∨ recStateAt a p = some .allocated)
    (left : SpanLeft) : programPasses a true left (.programHeader p h) = true := by
  refine programPasses_of_reachable ?_ left
  rcases hold with hold | hold
  · simp [programReachable, hold]
  · simp [programReachable, hold, hst, recReaches]

end Header

/-! ### A sector's state field -/

theorem sectorHeader_putHeader_self (a : ArrayContents) (i : Sector) (x : SectorHeader) :
    sectorHeader (putHeader a i x) i = x := vset_get_self _ _ _

/-- A mark's program that fails leaves the field as it was, or at none, where the mark is out of reach. -/
theorem mark_programFailed {a : ArrayContents} {i : Sector} {m old : SectorMark} {left : SpanLeft}
    (hold : (sectorHeader a i).mark = some old) (hne : m ≠ old) (h : markReaches old m = false) :
    (sectorHeader (programFailed a left (.programMark i m)) i).mark ∈ [some old, none] := by
  have hmark : (sectorHeader (programFailed a left (.programMark i m)) i).mark =
      markLeft (some old) m left.field := by
    rw [programFailed, sectorHeader_putHeader_self, hold]
  rw [hmark]
  cases left.field <;> simp [markLeft, settle, h, Ne.symm hne]

theorem markReaches_iff {old m : SectorMark} : markReaches old m = true ↔
    old = m ∨ m ∈ [SectorMark.discarded, .retired] ∨ markRank old < markRank m := by
  cases m <;> simp [markReaches]

section Mark

variable {a : ArrayContents} {i : Sector} {m old : SectorMark}
  (hold : (sectorHeader a i).mark = some old)
include hold

theorem programPasses_mark_unreached (hne : m ≠ old) (h : markReaches old m = false) (pass : Bool)
    (left : SpanLeft) : programPasses a pass left (.programMark i m) = false := by
  refine programPasses_false ?_ ?_ ?_ pass
  · simpa [programReads, hold] using Ne.symm hne
  · simp [programReachable, hold, h]
  · have hleft := mark_programFailed (left := left) hold hne h
    refine beq_eq_false_iff_ne.2 fun hm => ?_
    rw [hm] at hleft
    simp [hne] at hleft

theorem programPasses_mark_reached (h : markReaches old m = true) (left : SpanLeft) :
    programPasses a true left (.programMark i m) = true :=
  programPasses_of_reachable (by simpa [programReachable, hold] using h) left

end Mark

/-- Settles O14: the array after a PROGRAM's two ends, and the outcome for each kind of program. -/
theorem programOutcomesFollowTheReadBack : Obligations.ProgramOutcomesFollowTheReadBack := by
  refine ⟨?_, ?_, ?_, ?_, ?_, ?_⟩
  · rintro s r op pass first left under m hs hp rfl
    refine ⟨?_, ?_, fun hno => metBy_of_no_erase hno op under, fun e he =>
      ⟨fun h => metBy_array he h under, fun hsector h => metBy_partlyErased he hsector h under⟩⟩
    · obtain ⟨cc, -, hx⟩ := exec_programComplete pass first left under hs hp
      exact ⟨_, hx, programEnded_array _ _ _⟩
    · obtain ⟨cc, -, hx⟩ := exec_programTimeout left first under hs hp
      exact ⟨_, hx, programEnded_array _ _ _⟩
  · rintro a pass left addr bs op rfl
    refine ⟨programPasses_iff_shownBytes a pass left addr bs, fun n hlo hhi hbs => ?_, ?_⟩
    · exact (cellAt_putBytes a addr bs n).trans
        (if_pos (mem_spanGranules_of_span hlo hhi (List.length_pos_iff.2 hbs)))
    · rintro n c hcell rfl rfl
      exact programPasses_blank_header hcell pass left
  · rintro a pass left p st old op rfl hold
    have hleft := recStateAt_programFailed a left p st
    rw [hold] at hleft
    refine ⟨fun h => ⟨programPasses_state_backward hold h pass left, hleft⟩, ?_, ?_,
      fun h => programPasses_state_forward hold h.le left⟩
    · rintro rfl
      exact ⟨programPasses_of_reads (op := .programState p st) (beq_iff_eq.2 hold) pass left,
        recStateAt_putRecState_self a p _⟩
    · rintro - hne hvalid
      rcases hleft with hleft | hleft
      · exact hne (Option.some.inj (hleft.symm.trans hvalid))
      · cases hleft.symm.trans hvalid
  · rintro a left p st op rfl
    exact ⟨recStateAt_putRecState_self a p _, fun h => programPasses_state_none h st left⟩
  · rintro a pass left p h op rfl hst
    exact ⟨fun old hold hne => programPasses_header_over hst hold hne pass left,
      fun hold => programPasses_header_fresh hst hold left⟩
  · rintro a pass left i m old op rfl hold
    refine ⟨?_, fun hne hm hrank => ?_, fun h =>
      programPasses_mark_reached hold (markReaches_iff.2 (.inr h)) left⟩
    · rintro rfl
      exact ⟨programPasses_of_reads (op := .programMark i m) (beq_iff_eq.2 hold) pass left,
        congrArg SectorHeader.mark (sectorHeader_putHeader_self a i _)⟩
    · have hreach : markReaches old m = false := Bool.eq_false_iff.2 fun h => by
        obtain hsame | hany | hlt := markReaches_iff.1 h
        · exact hne hsame.symm
        · exact hm hany
        · exact absurd hlt (Nat.not_lt_of_le hrank)
      exact ⟨programPasses_mark_unreached hold hne hreach pass left,
        mark_programFailed hold hne hreach⟩

end Sys2Proof.Machine
end

section
/-! SUPPORT. The ends of the mount's READs and PROGRAMs, and what the mount's procedures ask of the array. -/

namespace Sys2Proof.Machine

open Sys2Proof

@[simp] theorem opOf_putMount (r : Requester) (j : MountJob) (s : State) :
    opOf r (putMount j s) = opOf r s := opOf_congr r (by rw [putMount_ctl])

@[simp] theorem opOf_walkRead (w : Walk) (s : State) :
    opOf .engine (walkRead w s) = some (.read w.sector w.pos 1) := opOf_issue_self _ _ _

/-- A READ of the mount ends with no ERASE in progress: the mount goes on with what the array holds. -/
theorem exec_mount_read {s : State} {j : MountJob} {i : Sector} {g n : Nat} (first : Bool)
    (seen : SectorImage) (hs : s.ctl.serving = some (.engine, .read i g n)) (he : s.ctl.erase = none)
    (hj : s.engine.job = .mount j) :
    ∃ cc : Controller, exec (.readComplete first seen) s =
      .next (arbitrate (mountRead j s.array (s.setCtl cc))) := by
  obtain ⟨cc, -, hx⟩ := exec_readComplete first seen hs
  rw [viewOf_of_no_erase he] at hx
  refine ⟨cc, hx.trans ?_⟩
  simp only [readEnded, State.setCtl_engine, hj]

/-- The end of an engine program comes to the mount where no activation programs for the engine. -/
theorem programEnded_mount {s : State} {j : MountJob} (hn : NoActivationFor .engine s)
    (hj : s.engine.job = .mount j) (ok : Bool) (x : ArrayContents) (cc : Controller) :
    programEnded .engine ok ((s.setArray x).setCtl cc) =
      mountProgram j ok ((s.setArray x).setCtl cc) := by
  rw [programEnded_job (s := (s.setArray x).setCtl cc) hn]
  simp only [jobProgram, State.setCtl_engine, State.setArray_engine, hj]

/-- The array that a PROGRAM leaves, by its outcome. -/
def arrayAfter (s : State) (op : ArrayOp) (left : SpanLeft) (under : UnderErase) (ok : Bool) :
    ArrayContents :=
  if ok then programPassed (metBy s op under) op else programFailed (metBy s op under) left op

/-- A PROGRAM of the mount ends: the mount goes on by the outcome, which is PASS only of a PROGRAM that was
not stopped. -/
theorem exec_mount_program {s : State} {j : MountJob} {op : ArrayOp} {c : Instr} {pass first : Bool}
    {left : SpanLeft} {under : UnderErase}
    (hc : c = .programComplete pass ⟨left, under⟩ first ∨ c = .programTimeout ⟨left, under⟩ first)
    (hs : s.ctl.serving = some (.engine, op)) (hop : isProgram op = true)
    (hn : NoActivationFor .engine s) (hj : s.engine.job = .mount j) :
    ∃ (ok : Bool) (cc : Controller),
      (ok = true ↔ c = .programComplete pass ⟨left, under⟩ first ∧
        programPasses (metBy s op under) pass left op = true) ∧
      exec c s = .next (arbitrate (mountProgram j ok
        ((s.setArray (arrayAfter s op left under ok)).setCtl cc))) := by
  rcases hc with rfl | rfl
  · obtain ⟨cc, -, hx⟩ := exec_programComplete pass first left under hs hop
    rw [programEnded_mount hn hj] at hx
    exact ⟨_, cc, by simp, hx⟩
  · obtain ⟨cc, -, hx⟩ := exec_programTimeout left first under hs hop
    rw [programEnded_mount hn hj] at hx
    exact ⟨false, cc, by simp, hx⟩

end Sys2Proof.Machine
end

section
/-! The survey's headers: the class of a sector by its header, and the survey's quantities after it (R100, R101,
R155). -/

namespace Sys2Proof.Machine

open Sys2Proof

theorem maxWord_toNat (a b : Word32) : (maxWord a b).toNat = max a.toNat b.toNat := by
  unfold maxWord
  split
  · rename_i h
    exact (max_eq_right (Nat.le_of_lt h)).symm
  · rename_i h
    exact (max_eq_left (Nat.le_of_not_lt h)).symm

/-! ### The class of a header -/

theorem activationOf_written {h : SectorHeader} {g : Activation} (ha : h.activation = .written g) :
    activationOf h =
      if g.sequence = 0 ∨ g.floor = 0 ∨ g.base = 0 then none else some g := by
  simp only [activationOf, ha]

/-- An erased group and one that fails its check are none (R101). -/
theorem activationOf_unwritten {h : SectorHeader} (ha : h.activation = .erased ∨ h.activation = .bad) :
    activationOf h = none := by
  rcases ha with ha | ha <;> simp only [activationOf, ha]

theorem classify_blank : classify SectorHeader.blank = .blank := if_pos rfl

/-- Without an identity group that passes its check a sector is UNINTELLIGIBLE (R101). -/
theorem classify_noIdentity {h : SectorHeader} (hb : h ≠ SectorHeader.blank)
    (hi : ∀ n, h.identity ≠ .written n) : classify h = .unintelligible := by
  rw [classify, if_neg hb]
  split
  · rfl
  · rfl
  · rename_i n hn
    exact absurd hn (hi n)

/-- With one, the state field decides, and for the states of an activated sector the activation group (R101). -/
theorem classify_identity {h : SectorHeader} {n : EraseCount} (hi : h.identity = .written n) :
    classify h = match h.mark with
      | none => if activationOf h = none then .unintelligible else .full
      | some .active => if activationOf h = none then .unintelligible else .active
      | some .full => if activationOf h = none then .unintelligible else .full
      | some .draining => if activationOf h = none then .unintelligible else .draining
      | some .erased => if h.activation = .erased then .erased else .unintelligible
      | some .discarded => .discarded
      | some .retired => .retired := by
  have hb : h ≠ SectorHeader.blank := fun e => by
    rw [e] at hi
    cases hi
  rw [classify, if_neg hb, hi]
  cases activationOf h <;> rfl

/-! ### The quantities of the survey -/

theorem surveyTake_count_written {h : SectorHeader} {n : EraseCount} (hi : h.identity = .written n)
    (v : Survey) : (surveyTake v h).count = max v.count n := by
  unfold surveyTake
  cases activationOf h <;> simp only [hi]

theorem surveyTake_count_kept {h : SectorHeader} (hi : ∀ n, h.identity ≠ .written n) (v : Survey) :
    (surveyTake v h).count = v.count := by
  unfold surveyTake
  cases hh : h.identity with
  | written n => exact absurd hh (hi n)
  | erased => cases activationOf h <;> rfl
  | bad => cases activationOf h <;> rfl

/-- The classes whose activation group gives a format base (R155). -/
abbrev basedStates : List SectorState := [.active, .full, .draining, .discarded, .retired]

/-- A group that passes its check raises the survey's sequence and floor, and of a based class its base. -/
theorem surveyTake_group {h : SectorHeader} {g : Activation} (hg : activationOf h = some g) (v : Survey) :
    surveyTake v h =
      { v with
        base := if classify h ∈ basedStates then maxWord v.base g.base else v.base
        count := (surveyTake v h).count
        sequence := maxWord v.sequence g.sequence
        floor := maxWord v.floor g.floor } := by
  unfold surveyTake
  simp only [hg, basedStates, List.mem_cons, List.not_mem_nil, or_false, Bool.or_eq_true, beq_iff_eq,
    or_assoc]

theorem surveyTake_noGroup {h : SectorHeader} (hg : activationOf h = none) (v : Survey) :
    surveyTake v h = { v with count := (surveyTake v h).count } := by
  unfold surveyTake
  simp only [hg]

theorem surveyRecord_eraseCount {h : SectorHeader} {n : EraseCount} (hi : h.identity = .written n) :
    (surveyRecord h).eraseCount = n := by
  simp only [surveyRecord, hi]

/-! ### The step -/

/-- Below sector 127 the next header is read (R155). -/
theorem surveyHeader_next {i : Sector} (hi : i.val + 1 < 128) (j : MountJob) (h : SectorHeader)
    (s : State) :
    surveyHeader j i h s =
      putMount { j with survey := surveyTake j.survey h, phase := .surveyHeader ⟨i.val + 1, hi⟩ }
        (issue .engine (.read ⟨i.val + 1, hi⟩ 0 1)
          (s.setSpace (s.space.setRec i (surveyRecord h)))) := dif_pos hi

/-- Settles O55: the class by the header's fields, and the survey's step as one record and one survey
replaced. -/
theorem mountSurveyEntersTheHeader : Obligations.MountSurveyEntersTheHeader := by
  refine ⟨?_, ?_⟩
  · rintro h g rfl
    exact ⟨fun hb => hb ▸ classify_blank, classify_noIdentity, fun n => classify_identity,
      activationOf_unwritten, fun x => activationOf_written⟩
  rintro s j i hi first seen h rfl hs he hj hp
  generalize hh : sectorHeader s.array i = h
  obtain ⟨cc, hx⟩ := exec_mount_read first seen hs he hj
  simp only [mountRead, hp, hh, surveyHeader_next hi] at hx
  have hrec (k : Sector) := Space.setRec_rec s.space i k (surveyRecord h)
  refine ⟨_, _, hx, ?_, ?_, fun n hn => ⟨?_, surveyTake_count_written hn _⟩,
    fun hn => surveyTake_count_kept hn _, fun g hg => ?_, fun hg => ?_, fun k hk => ?_, rfl, rfl, ?_,
    rfl, rfl, rfl⟩
  · exact congrArg SectorRecord.state ((hrec i).trans (if_pos rfl))
  · exact congrArg SectorRecord.sequence ((hrec i).trans (if_pos rfl))
  · exact (congrArg SectorRecord.eraseCount ((hrec i).trans (if_pos rfl))).trans
      (surveyRecord_eraseCount hn)
  · have hv := surveyTake_group hg j.survey
    generalize surveyTake j.survey h = v at hv
    rw [hv]
    refine ⟨maxWord_toNat _ _, maxWord_toNat _ _, fun hb => ?_, fun hb => if_neg hb⟩
    rw [← maxWord_toNat]
    exact congrArg BitVec.toNat (if_pos hb)
  · have hv := surveyTake_noGroup hg j.survey
    generalize surveyTake j.survey h = v at hv
    rw [hv]
    exact ⟨rfl, rfl, rfl⟩
  · exact (hrec k).trans (if_neg hk)
  · rw [opOf_arbitrate, opOf_putMount, opOf_issue_self]

end Sys2Proof.Machine
end

section
/-! The walks of the mount: how a walk moves, and the survey's walks after its last header (R2, R3, R154, R155). -/

namespace Sys2Proof.Machine

open Sys2Proof

/-! ### The walk of R154 -/

theorem Walk.move_header (w : Walk) (h : RecHeader) :
    w.move (.header h) = ⟨w.sector, w.pos + recordSize h.length, .normal⟩ := rfl

/-- An erased granule begins a gap where a header was expected, and changes nothing of a walk that is in a gap or
a broken header's run. -/
theorem Walk.move_erased {w : Walk} (h : w.mode ≠ .normal) :
    w.move .erased = { w with pos := w.pos + 1 } := by
  obtain ⟨i, pos, m⟩ := w
  cases m with
  | normal => exact absurd rfl h
  | gap _ => rfl
  | broken _ => rfl

/-- A broken header begins a run unless the walk is in one. -/
theorem Walk.move_broken {w : Walk} (h : ∀ b, w.mode ≠ .broken b) :
    w.move .broken = ⟨w.sector, w.pos + 1, .broken w.pos⟩ := by
  obtain ⟨i, pos, m⟩ := w
  cases m with
  | normal => rfl
  | gap _ => rfl
  | broken b => exact absurd rfl (h b)

@[simp] theorem Walk.move_sector (w : Walk) (g : GranuleRead) : (w.move g).sector = w.sector := by
  cases g <;> rfl

theorem Walk.over_false {w : Walk} (h : w.pos ≤ 511) : w.over_ = false :=
  decide_eq_false (Nat.not_lt_of_le h)

theorem Walk.over_true {w : Walk} (h : 511 < w.pos) : w.over_ = true := decide_eq_true h

/-! ### The survey's walks -/

/-- The largest version of the survey after a granule: an intact header's counts (R155). -/
def versionAfter (v : Word32) : GranuleRead → Word32
  | .header h => maxWord v h.version
  | .erased => v
  | .broken => v

/-- The mount's survey with another largest version. -/
def MountJob.withVersion (j : MountJob) (v : Word32) : MountJob :=
  { j with survey := { j.survey with version := v } }

section SurveyRead

variable {j : MountJob} {w : Walk} {g : GranuleRead} {v : Word32}
  (hv : versionAfter j.survey.version g = v)
include hv

/-- A survey walk that has not passed granule 511 reads on. -/
theorem surveyRead_on (h : (w.move g).pos ≤ 511) (rest : List Sector) (s : State) :
    surveyRead j w rest g s =
      putMount { j.withVersion v with phase := .surveyWalk (w.move g) rest } (walkRead (w.move g) s) := by
  subst hv
  unfold surveyRead
  simp only [Walk.over_false h, Bool.false_eq_true, if_false]
  cases g <;> rfl

/-- Past it the next sector is walked. -/
theorem surveyRead_over (h : 511 < (w.move g).pos) (rest : List Sector) (s : State) :
    surveyRead j w rest g s = surveyNext (j.withVersion v) rest s := by
  subst hv
  unfold surveyRead
  simp only [Walk.over_true h, if_true]
  cases g <;> rfl

end SurveyRead

/-! ### The sectors that the survey walks -/

theorem mem_surveyed {x : Space} {i : Sector} :
    i ∈ surveyed x ↔ (x.rec_ i).state ∉ [SectorState.blank, .erased] := by
  simp [surveyed, allSectors]

theorem surveyed_ascending (x : Space) : (surveyed x).Pairwise (· < ·) :=
  (List.pairwise_lt_finRange 128).filter _

/-- A list in ascending order begins with its least member, and its rest are the members above. -/
theorem ascending_eq_cons {l : List Sector} (hl : l.Pairwise (· < ·)) {k : Sector} (hk : k ∈ l)
    (hleast : ∀ m, m < k → m ∉ l) :
    ∃ rest, l = k :: rest ∧ (∀ m, m ∈ rest ↔ k < m ∧ m ∈ l) ∧ rest.Pairwise (· < ·) := by
  cases l with
  | nil => cases hk
  | cons a as =>
    obtain ⟨habove, has⟩ := List.pairwise_cons.1 hl
    have hak : a = k := by
      rcases List.mem_cons.1 hk with rfl | hk
      · rfl
      · exact absurd List.mem_cons_self (hleast a (habove k hk))
    subst hak
    refine ⟨as, rfl, fun m => ⟨fun hm => ⟨habove m hm, List.mem_cons_of_mem _ hm⟩, ?_⟩, has⟩
    rintro ⟨hlt, hm⟩
    exact (List.mem_cons.1 hm).resolve_left hlt.ne'

/-- After the last header the survey's walks begin (R155). -/
theorem surveyHeader_last (j : MountJob) (h : SectorHeader) (s : State) :
    surveyHeader j 127 h s =
      surveyNext { j with survey := surveyTake j.survey h }
        (surveyed (s.space.setRec 127 (surveyRecord h)))
        (s.setSpace (s.space.setRec 127 (surveyRecord h))) := by
  unfold surveyHeader
  exact dif_neg (by decide)

/-- Settles O56: the moves by the granule, the order of the walks, and the survey's walk on and over. -/
theorem mountWalksEachSector : Obligations.MountWalksEachSector := by
  refine ⟨fun i pos m => ⟨fun h => rfl, rfl, fun h => Walk.move_erased h, fun b => rfl,
    fun h => Walk.move_broken h⟩, ?_, ?_⟩
  · intro s j first seen k hs he hj hp hk hstate hbelow
    obtain ⟨cc, hx⟩ := exec_mount_read first seen hs he hj
    simp only [mountRead, hp, surveyHeader_last] at hx
    generalize surveyRecord (sectorHeader s.array 127) = r at hx
    have hrec (m : Sector) (hm : m ≠ 127) := Space.setRec_rec_ne s.space r hm
    have hmem : k ∈ surveyed (s.space.setRec 127 r) := by
      rw [mem_surveyed, hrec k hk]
      exact hstate
    obtain ⟨rest, hl, hrest, hsorted⟩ := ascending_eq_cons (surveyed_ascending _) hmem fun m hm => by
      rw [mem_surveyed, hrec m (ne_of_lt (lt_of_lt_of_le hm (Fin.le_last k)))]
      exact not_not.2 (hbelow m hm)
    rw [State.setCtl_space, hl] at hx
    refine ⟨_, _, rest, hx, rfl, rfl, ?_, fun m => ?_, hsorted, rfl⟩
    · exact (opOf_arbitrate _ _).trans ((opOf_putMount _ _ _).trans (opOf_walkRead _ _))
    · rw [hrest, mem_surveyed]
      rfl
  · rintro s j w w' rest g first seen v hs he hj hp rfl rfl hheader hnone
    generalize hg : readGranule s.array w.sector w.pos = g at hheader hnone ⊢
    have hv : versionAfter j.survey.version g = v := by
      cases g with
      | header h => exact BitVec.eq_of_toNat_eq ((maxWord_toNat _ _).trans (hheader h rfl).symm)
      | erased => exact (hnone (.inl rfl)).symm
      | broken => exact (hnone (.inr rfl)).symm
    obtain ⟨cc, hx⟩ := exec_mount_read first seen hs he hj
    simp only [mountRead, hp, hg] at hx
    refine ⟨fun hon => ?_, ?_⟩
    · rw [surveyRead_on hv hon] at hx
      exact ⟨_, hx, rfl, (opOf_arbitrate _ _).trans ((opOf_putMount _ _ _).trans (opOf_walkRead _ _)),
        rfl, rfl, rfl, rfl⟩
    · rintro i is hover rfl
      rw [surveyRead_over hv hover] at hx
      exact ⟨_, hx, rfl, (opOf_arbitrate _ _).trans ((opOf_putMount _ _ _).trans (opOf_walkRead _ _)),
        rfl, rfl, rfl, rfl⟩

end Sys2Proof.Machine
end

section
/-! Header repair: what it does to each class, the next sector it treats, and the ends of its ERASE and its
identity program (R104, R112, R156). -/

namespace Sys2Proof.Machine

open Sys2Proof

/-! ### What is done to each class -/

section Classes

variable {v : Survey} {x : Space} {i : Sector}

theorem repairOf_blank (h : (x.rec_ i).state = .blank) : repairOf v x i = some (false, v.count) := by
  simp only [repairOf, h]

theorem repairOf_discarded (h : (x.rec_ i).state = .discarded) :
    repairOf v x i = some (true, nextCount (x.rec_ i).eraseCount) := by
  simp only [repairOf, h]

theorem repairOf_unintelligible (h : (x.rec_ i).state = .unintelligible) :
    repairOf v x i = some (true, nextCount v.count) := by
  simp only [repairOf, h]

/-- An activated sector is erased where a later FORMAT has made it stale. -/
theorem repairOf_activated {q : Word32}
    (h : (x.rec_ i).state ∈ [SectorState.active, .full, .draining])
    (hq : (x.rec_ i).sequence = some q) :
    repairOf v x i = if q < v.base then some (true, nextCount (x.rec_ i).eraseCount) else none := by
  simp only [List.mem_cons, List.not_mem_nil, or_false] at h
  rcases h with h | h | h <;> simp only [repairOf, h, hq, decide_eq_true_eq]

theorem repairOf_kept (h : (x.rec_ i).state = .erased ∨ (x.rec_ i).state = .retired) :
    repairOf v x i = none := by
  rcases h with h | h <;> simp only [repairOf, h]

theorem repairOf_congr {y : Space} (h : y.rec_ i = x.rec_ i) : repairOf v y i = repairOf v x i := by
  unfold repairOf
  rw [h]

end Classes

/-! ### The next sector -/

section Next

variable {j : MountJob} {s : State} {i k : Sector}

/-- The next sector to repair is the first above the present one that has something done to it. -/
theorem repair_find? (hik : i < k) (hk : (repairOf j.survey s.space k).isSome = true)
    (hnone : ∀ l, i < l → l < k → repairOf j.survey s.space l = none) :
    allSectors.find? (fun l => decide (i.val + 1 ≤ l.val) && (repairOf j.survey s.space l).isSome) =
      some k := by
  refine allSectors_find? _ k ?_ fun l hl => ?_
  · rw [hk, Bool.and_true]
    exact decide_eq_true hik
  · by_cases hil : i < l
    · rw [hnone l hil hl, Option.isSome_none, Bool.and_false]
    · rw [decide_eq_false (show ¬ i.val + 1 ≤ l.val from hil), Bool.false_and]

theorem repairFrom_erases {n : EraseCount} (hik : i < k)
    (hk : repairOf j.survey s.space k = some (true, n))
    (hnone : ∀ l, i < l → l < k → repairOf j.survey s.space l = none) :
    repairFrom j (i.val + 1) s =
      putMount { j with phase := .repairErase k } (issue .engine (.erase k) s) := by
  simp only [repairFrom, repair_find? hik (by rw [hk]; rfl) hnone, hk]

theorem repairFrom_identifies {n : EraseCount} (hik : i < k)
    (hk : repairOf j.survey s.space k = some (false, n))
    (hnone : ∀ l, i < l → l < k → repairOf j.survey s.space l = none) :
    repairFrom j (i.val + 1) s = repairIdentity j k n s := by
  simp only [repairFrom, repair_find? hik (by rw [hk]; rfl) hnone, hk]

/-- After the last sector to repair the record scan begins (R157). -/
theorem repairFrom_done (hnone : ∀ l, i < l → repairOf j.survey s.space l = none) :
    repairFrom j (i.val + 1) s = scanNext j j.scans s := by
  have hfind : allSectors.find?
      (fun l => decide (i.val + 1 ≤ l.val) && (repairOf j.survey s.space l).isSome) = none :=
    List.find?_eq_none.2 fun l _ h => by
      obtain ⟨hl, hsome⟩ := Bool.and_eq_true_iff.1 h
      rw [hnone l (of_decide_eq_true hl)] at hsome
      cases hsome
  simp only [repairFrom, hfind]

end Next

/-! ### The ends of its operations -/

@[simp] theorem opOf_repairIdentity (j : MountJob) (i : Sector) (n : EraseCount) (s : State) :
    opOf .engine (repairIdentity j i n s) = some (.programIdentity i n) := by
  rw [repairIdentity, opOf_putMount, opOf_issue_self]

/-- The end of an engine ERASE comes to the mount. -/
theorem eraseEnded_mount {s : State} {j : MountJob} (hj : s.engine.job = .mount j) (ok : Bool)
    (x : ArrayContents) (cc : Controller) :
    eraseEnded .engine ok ((s.setArray x).setCtl cc) =
      mountErased j ok ((s.setArray x).setCtl cc) := by
  simp only [eraseEnded, State.setCtl_engine, State.setArray_engine, hj]

theorem programPasses_identity (a : ArrayContents) (i : Sector) (n : EraseCount) (left : SpanLeft) :
    programPasses a true left (.programIdentity i n) = true := programPasses_of_reachable rfl left

/-- A repair's identity program passes: the array has the count, and the repair goes on from the sector (R156). -/
theorem exec_repair_identified {s : State} {j : MountJob} {i : Sector} {n : EraseCount} (first : Bool)
    (left : SpanLeft) (under : UnderErase)
    (hs : s.ctl.serving = some (.engine, .programIdentity i n)) (hn : NoActivationFor .engine s)
    (hj : s.engine.job = .mount j) (hp : j.phase = .repairIdentity i n) :
    ∃ u : State, SameModules u s ∧ u.drain = s.drain ∧
      (sectorHeader u.array i).identity = .written n ∧
      exec (.programComplete true ⟨left, under⟩ first) s =
        .next (arbitrate (repairFrom j (i.val + 1) (u.setSpace (joinPool i n s.space)))) := by
  obtain ⟨ok, cc, hok, hx⟩ := exec_mount_program (pass := true) (first := first) (left := left)
    (under := under) (.inl rfl) hs rfl hn hj
  obtain rfl : ok = true := hok.2 ⟨rfl, programPasses_identity _ _ _ _⟩
  simp only [mountProgram, hp, if_true, State.setCtl_space, State.setArray_space] at hx
  refine ⟨_, sameModules_ended (arrayAfter _ _ _ _ _) cc s, rfl, ?_, hx⟩
  exact congrArg SectorHeader.identity (sectorHeader_putHeader_self _ _ _)

/-- Where the repair of a sector fails, by its ERASE or by its identity program, it is retired (R112, R156). -/
theorem exec_repair_failed {s : State} {j : MountJob} {i : Sector} {c : Instr} {pass first : Bool}
    {image : SectorImage} {left : SpanLeft} {under : UnderErase}
    (hj : s.engine.job = .mount j) (hn : NoActivationFor .engine s)
    (hc : (∃ e, s.ctl.erase = some e ∧ e.requester = .engine ∧ e.sector = i ∧ e.suspended = false ∧
        j.phase = .repairErase i ∧
        ((c = .eraseTimeout image first ∧ 120 ≤ e.active) ∨
          (c = .eraseComplete pass image first ∧ e.active < 120 ∧
            erasePasses s.array pass image i = false))) ∨
      (∃ n, s.ctl.serving = some (.engine, .programIdentity i n) ∧ j.phase = .repairIdentity i n ∧
        (c = .programTimeout ⟨left, under⟩ first ∨
          (c = .programComplete pass ⟨left, under⟩ first ∧
            programPasses (metBy s (.programIdentity i n) under) pass left
              (.programIdentity i n) = false)))) :
    ∃ u, SameModules u s ∧ exec c s = .next (arbitrate (repairFailed j i u)) := by
  rcases hc with ⟨e, he, hr, rfl, hrun, hp, ⟨rfl, ha⟩ | ⟨rfl, ha, hfail⟩⟩ | ⟨n, hs, hp, hc⟩
  · obtain ⟨cc, -, hx⟩ := exec_eraseTimeout first image he hrun ha
    rw [hr, eraseEnded_mount hj] at hx
    simp only [mountErased, hp, repairErased, Bool.false_eq_true, if_false] at hx
    exact ⟨_, sameModules_ended _ cc s, hx⟩
  · obtain ⟨cc, -, hx⟩ := exec_eraseComplete pass first image he hrun ha
    rw [hr, eraseEnded_mount hj, hfail] at hx
    simp only [mountErased, hp, repairErased, Bool.false_eq_true, if_false] at hx
    exact ⟨_, sameModules_ended _ cc s, hx⟩
  · obtain ⟨ok, cc, hok, hx⟩ := exec_mount_program (pass := pass) (hc.symm.imp_left And.left) hs rfl
      hn hj
    have hfailed : ok = false := Bool.eq_false_iff.2 fun h => by
      obtain ⟨hcomplete, hpass⟩ := hok.1 h
      rcases hc with rfl | ⟨-, hfail⟩
      · cases hcomplete
      · exact absurd (hpass.symm.trans hfail) (by decide)
    subst hfailed
    simp only [mountProgram, hp, Bool.false_eq_true, if_false] at hx
    exact ⟨_, sameModules_ended _ cc s, hx⟩

theorem repairFailed_retires {s : State} {i : Sector} (h : (s.space.rec_ i).state ≠ .retired)
    (j : MountJob) : repairFailed j i s = putMount { j with phase := .repairRetire i }
      (issue .engine (.programMark i .retired) (retireInTable i s)) := retireThen_retires h _ _

/-- Settles O57: the repair by class, and the ends of its ERASE and its identity program. -/
theorem headerRepairByClass : Obligations.HeaderRepairByClass := by
  refine ⟨?_, fun _ => rfl, ?_, ?_, ?_⟩
  · rintro v x i r rfl
    exact ⟨repairOf_blank, repairOf_discarded, repairOf_unintelligible, fun q => repairOf_activated,
      repairOf_kept⟩
  · rintro s j i n b first left e hr rfl hrun he ha hj hp hrepair
    obtain ⟨cc, -, hx⟩ := exec_eraseComplete true first left he hrun ha
    have hpass : erasePasses s.array true left e.sector = true := rfl
    rw [hr, eraseEnded_mount hj, hpass] at hx
    simp only [mountErased, hp, repairErased, if_true, State.setCtl_space, State.setArray_space,
      hrepair] at hx
    refine ⟨_, hx, (opOf_arbitrate _ _).trans (opOf_repairIdentity _ _ _ _), rfl, ?_⟩
    exact (sectorHeader_eraseSector _ _ _).trans (if_pos rfl)
  · intro s j i n first left under hs hn hj hp
    obtain ⟨u, hu, -, hidentity, hx⟩ := exec_repair_identified first left under hs hn hj hp
    have hrec (m : Sector) := Space.setRec_rec s.space i m ⟨.erased, n, none, 0, 0, 0⟩
    have habove (l : Sector) (h : i < l) : repairOf j.survey (joinPool i n s.space) l =
        repairOf j.survey s.space l := repairOf_congr ((hrec l).trans (if_neg h.ne'))
    refine ⟨?_, ?_⟩
    · rintro k hik ⟨⟨erases, m⟩, hk⟩ hnone
      have hk' := (habove k hik).trans hk
      have hnone' := fun l (hil : i < l) hlk => (habove l hil).trans (hnone l hil hlk)
      cases erases with
      | true =>
        rw [repairFrom_erases hik hk' hnone'] at hx
        refine ⟨_, hx, hidentity, (hrec i).trans (if_pos rfl), fun l hl => (hrec l).trans (if_neg hl),
          fun m' _ => ⟨?_, rfl⟩, fun m' hm' => ?_⟩
        · rw [opOf_arbitrate, opOf_putMount, opOf_issue_self]
        · cases hk.symm.trans hm'
      | false =>
        rw [repairFrom_identifies hik hk' hnone'] at hx
        refine ⟨_, hx, hidentity, (hrec i).trans (if_pos rfl), fun l hl => (hrec l).trans (if_neg hl),
          fun m' hm' => ?_, fun m' hm' => ?_⟩
        · cases hk.symm.trans hm'
        · cases hk.symm.trans hm'
          exact ⟨(opOf_arbitrate _ _).trans (opOf_repairIdentity _ _ _ _), rfl⟩
    · intro k ks hnone hscans
      rw [repairFrom_done fun l hil => (habove l hil).trans (hnone l hil), hscans] at hx
      exact ⟨_, hx, (hrec i).trans (if_pos rfl),
        (opOf_arbitrate _ _).trans ((opOf_putMount _ _ _).trans (opOf_walkRead _ _)), rfl⟩
  · intro s j i c pass first image left under hj hn hr hlive hc
    obtain ⟨u, hu, hx⟩ := exec_repair_failed hj hn hc
    rw [repairFailed_retires (by rwa [hu.space])] at hx
    refine ⟨_, hx, ?_, fun m hm => ?_, ?_, ?_, rfl⟩
    · rw [arbitrate_space, putMount_space, issue_space, retireInTable_rec, if_pos rfl, hu.space]
    · rw [arbitrate_space, putMount_space, issue_space, retireInTable_rec, if_neg hm, hu.space]
    · rw [arbitrate_space, putMount_space, issue_space, retireInTable_evacuation, hu.space,
        Space.retire_evacuation, if_neg fun h => h.1.ne' hlive]
    · rw [opOf_arbitrate, opOf_putMount, opOf_issue_self]

end Sys2Proof.Machine
end

section
/-! SUPPORT. The record scan: the order of the sectors, what becomes of a granule that was read, and how a sector's
walk goes on and ends (R5, R157 to R159). -/

namespace Sys2Proof.Machine

open Sys2Proof

/-! ### The order of the sectors -/

theorem isScanned_iff {v : Survey} {r : SectorRecord} :
    isScanned v r = true ↔ r.state ∈ [SectorState.active, .full, .draining, .retired] ∧
      ∃ q, r.sequence = some q ∧ v.base ≤ q := by
  have hstale : (!isStale v r) = true ↔ ∃ q, r.sequence = some q ∧ v.base ≤ q := by
    unfold isStale
    cases r.sequence <;> simp [BitVec.not_lt]
  rw [isScanned, Bool.and_eq_true, hstale]
  simp [or_assoc]

theorem insertBySequence_perm (x : Space) (i : Sector) (l : List Sector) :
    (insertBySequence x i l).Perm (i :: l) := by
  induction l with
  | nil => exact .refl _
  | cons k ks ih =>
    unfold insertBySequence
    split
    · exact .refl _
    · exact (ih.cons k).trans (.swap i k ks)

/-- Sectors in ascending activation sequence. -/
abbrev BySequence (x : Space) (l : List Sector) : Prop :=
  l.Pairwise (fun a b => sequenceOf x a ≤ sequenceOf x b)

theorem insertBySequence_ascending {x : Space} {l : List Sector} (hl : BySequence x l) (i : Sector) :
    BySequence x (insertBySequence x i l) := by
  induction l with
  | nil => exact List.pairwise_singleton _ i
  | cons k ks ih =>
    obtain ⟨habove, hks⟩ := List.pairwise_cons.1 hl
    unfold insertBySequence
    split
    · rename_i hlt
      have hik : sequenceOf x i ≤ sequenceOf x k := BitVec.le_of_lt hlt
      refine List.pairwise_cons.2 ⟨fun m hm => ?_, hl⟩
      rcases List.mem_cons.1 hm with rfl | hm
      · exact hik
      · exact BitVec.le_trans hik (habove m hm)
    · rename_i hge
      refine List.pairwise_cons.2 ⟨fun m hm => ?_, ih hks⟩
      rcases List.mem_cons.1 ((insertBySequence_perm x i ks).mem_iff.1 hm) with rfl | hm
      · exact BitVec.not_lt.1 hge
      · exact habove m hm

/-- Sectors inserted one after another: all of them, in ascending sequence. -/
theorem insertAll_spec (x : Space) (l acc : List Sector) (hacc : BySequence x acc) :
    (l.foldl (fun acc i => insertBySequence x i acc) acc).Perm (l ++ acc) ∧
      BySequence x (l.foldl (fun acc i => insertBySequence x i acc) acc) := by
  induction l generalizing acc with
  | nil => exact ⟨.refl _, hacc⟩
  | cons i is ih =>
    obtain ⟨hperm, hsorted⟩ := ih _ (insertBySequence_ascending hacc i)
    refine ⟨hperm.trans ?_, hsorted⟩
    exact ((insertBySequence_perm x i acc).append_left is).trans List.perm_middle

theorem scanOrder_perm (v : Survey) (x : Space) :
    (scanOrder v x).Perm (allSectors.filter (fun i => isScanned v (x.rec_ i))) := by
  have h := (insertAll_spec x (allSectors.filter (fun i => isScanned v (x.rec_ i))) [] .nil).1
  rwa [List.append_nil] at h

theorem mem_scanOrder {v : Survey} {x : Space} {i : Sector} :
    i ∈ scanOrder v x ↔ isScanned v (x.rec_ i) = true := by
  rw [(scanOrder_perm v x).mem_iff, List.mem_filter]
  exact and_iff_right (List.mem_finRange i)

theorem scanOrder_nodup (v : Survey) (x : Space) : (scanOrder v x).Nodup :=
  (scanOrder_perm v x).nodup_iff.2 ((List.nodup_finRange 128).filter _)

theorem scanOrder_ascending (v : Survey) (x : Space) : BySequence x (scanOrder v x) :=
  (insertAll_spec x _ [] .nil).2

/-! ### The scan goes on with the index it has -/

theorem mountCounters_index (j : MountJob) (s : State) :
    (mountCounters j s).engine.index = s.engine.index :=
  congrArg Ledger.index (ledger_mountActive j _)

/-- With no sector left to scan the accounts are filled in and the counters set (R159, R160). -/
theorem scanNext_nil (j : MountJob) (s : State) : scanNext j [] s =
    mountCounters j (s.setSpace (fillAccounts j.ends s.engine.index s.space)) := rfl

theorem scanNext_index (j : MountJob) (rest : List Sector) (s : State) :
    (scanNext j rest s).engine.index = s.engine.index := by
  cases rest with
  | nil => rw [scanNext_nil, mountCounters_index, State.setSpace_engine]
  | cons i is => rfl

theorem sectorScanned_index (j : MountJob) (w : Walk) (rest : List Sector) (s : State) :
    (sectorScanned j w rest s).engine.index = s.engine.index := by
  unfold sectorScanned
  dsimp only
  split
  · rfl
  · exact scanNext_index _ _ _

theorem scanOn_index (j : MountJob) (w : Walk) (rest : List Sector) (s : State) :
    (scanOn j w rest s).engine.index = s.engine.index := by
  unfold scanOn
  split
  · exact sectorScanned_index _ _ _ _
  · rfl

/-! ### A walk goes on, or ends -/

section Walks

variable {w : Walk}

/-- A walk that has not passed granule 511 reads on, and nothing else changes. -/
theorem arbitrate_scanOn (h : w.pos ≤ 511) (j : MountJob) (rest : List Sector) (s : State) :
    (arbitrate (scanOn j w rest s)).engine =
        { s.engine with job := .mount { j with phase := .scan w rest } } ∧
      opOf .engine (arbitrate (scanOn j w rest s)) = some (.read w.sector w.pos 1) ∧
      (arbitrate (scanOn j w rest s)).space = s.space ∧
      (arbitrate (scanOn j w rest s)).drain = s.drain := by
  have hon : scanOn j w rest s = putMount { j with phase := .scan w rest } (walkRead w s) := by
    rw [scanOn, Walk.over_false h]
    rfl
  rw [hon, opOf_arbitrate, opOf_putMount, opOf_walkRead]
  exact ⟨rfl, rfl, rfl, rfl⟩

theorem scanOn_over (h : 511 < w.pos) (j : MountJob) (rest : List Sector) (s : State) :
    scanOn j w rest s = sectorScanned j w rest s := by
  rw [scanOn, Walk.over_true h, if_pos rfl]

/-- An ACTIVE sector whose walk ended at a broken header is closed (R159). -/
theorem sectorScanned_closes {s : State} {b : Nat} (hr : (s.space.rec_ w.sector).state = .active)
    (hm : w.mode = .broken b) (j : MountJob) (rest : List Sector) :
    sectorScanned j w rest s =
      putMount { j with phase := .scanClose rest, ends := (w.sector, 511) :: j.ends }
        (issue .engine (.programMark w.sector .full)
          (s.setSpace (s.space.setRec w.sector { s.space.rec_ w.sector with state := .full }))) := by
  simp only [sectorScanned, hr, Walk.endedBroken, Walk.recordsEnd, hm, and_self, if_true]

/-- Of every other sector the end of its records is noted, and the next is walked (R157, R159). -/
theorem sectorScanned_goesOn {s : State}
    (h : (s.space.rec_ w.sector).state ≠ .active ∨ ∀ b, w.mode ≠ .broken b) (j : MountJob)
    (rest : List Sector) :
    sectorScanned j w rest s =
      scanNext { j with
        ends := (w.sector, endOfRecords (s.space.rec_ w.sector).state w.mode) :: j.ends } rest s := by
  have hopen : ¬ ((s.space.rec_ w.sector).state = .active ∧ w.endedBroken = true) := by
    rintro ⟨hr, hb⟩
    unfold Walk.endedBroken at hb
    split at hb
    · rename_i b hm
      exact h.elim (absurd hr) (fun hno => hno b hm)
    · cases hb
  rw [sectorScanned, if_neg hopen]
  rfl

end Walks

/-! ### A granule that was read -/

/-- The index with a scanned record entered (R158). -/
def enterRecord (e : IndexEntry) (s : State) : State :=
  s.setEngine { s.engine with index := putEntry e s.engine.index }

section Offered

variable {j : MountJob} {h : RecHeader} {at_ : Place} {w : Walk} {rest : List Sector} {s : State}

theorem offerRecord_full (hn : entryOf h.key s.engine.index = none)
    (hl : 2048 ≤ s.engine.index.length) :
    offerRecord j h at_ w rest s = scanOn j w rest s := by
  simp only [offerRecord, hn, entriesUsed, Nat.not_lt_of_le hl, if_false]

theorem offerRecord_new (hn : entryOf h.key s.engine.index = none)
    (hl : s.engine.index.length < 2048) :
    offerRecord j h at_ w rest s = scanOn j w rest (enterRecord (scannedEntry h at_) s) := by
  simp only [offerRecord, hn, entriesUsed, hl, if_true, enterRecord]

/-- A record of a lower version than its key's entry is superseded itself (R158). -/
theorem offerRecord_lower {e : IndexEntry} (he : entryOf h.key s.engine.index = some e)
    (hv : h.version < e.version) :
    offerRecord j h at_ w rest s = putMount { j with phase := .scanSupersede w rest true }
      (issue .engine (.programState at_ .superseded) s) := by
  simp only [offerRecord, he, hv, if_true]

/-- Any other takes the entry over, and the entry's old record is superseded (R158). -/
theorem offerRecord_takesOver {e : IndexEntry} (he : entryOf h.key s.engine.index = some e)
    (hv : e.version ≤ h.version) :
    offerRecord j h at_ w rest s = putMount { j with phase := .scanSupersede w rest false }
      (issue .engine (.programState e.place .superseded) (enterRecord (scannedEntry h at_) s)) := by
  simp only [offerRecord, he, BitVec.not_lt.2 hv, if_false, enterRecord]

end Offered

/-- A granule without a VALID record is passed over (R157). -/
theorem scanRead_passed {g : GranuleRead} (h : ∀ r, g = .header r → r.state ≠ some .valid)
    (j : MountJob) (w : Walk) (rest : List Sector) (s : State) :
    scanRead j w rest g s = scanOn j (w.move g) rest s := by
  cases g with
  | header r => simp only [scanRead, h r rfl, if_false]
  | erased => rfl
  | broken => rfl

theorem scanRead_valid {h : RecHeader} (hv : h.state = some .valid) (j : MountJob) (w : Walk)
    (rest : List Sector) (s : State) :
    scanRead j w rest (.header h) s =
      offerRecord j h ⟨w.sector, w.pos⟩ (w.move (.header h)) rest s := by
  simp only [scanRead, hv, if_true]

end Sys2Proof.Machine
end

section
/-! The record scan's steps (R157 to R159, R119, R5). -/

namespace Sys2Proof.Machine

open Sys2Proof

theorem scannedEntry_eq (h : RecHeader) (at_ : Place) :
    scannedEntry h at_ = ⟨h.key, if h.kind = .tombstone then .deleted else .present, at_, h.length,
      h.version⟩ := rfl

/-- The index after a record has been entered: the key's entry replaced, every other kept. -/
theorem entryOf_enterRecord (e : IndexEntry) (k : Key) (s : State) :
    entryOf k (enterRecord e s).engine.index = if k = e.key then some e else entryOf k s.engine.index :=
  entryOf_putEntry _ _ _

/-- A header is passed over that is not VALID, or that has no entry where the index is full (R158). -/
theorem scanRead_passes {h : RecHeader} {s : State}
    (hpassed : h.state ≠ some .valid ∨ (entryOf h.key s.engine.index = none ∧ 2048 ≤ s.engine.index.length))
    (j : MountJob) (w : Walk) (rest : List Sector) :
    scanRead j w rest (.header h) s = scanOn j (w.move (.header h)) rest s := by
  by_cases hv : h.state = some .valid
  · obtain ⟨hn, hfull⟩ := hpassed.resolve_left (not_not_intro hv)
    rw [scanRead_valid hv, offerRecord_full hn hfull]
  · exact scanRead_passed (fun r hr => by cases hr; exact hv) _ _ _ _

/-- Settles O58: the order of the scan, the offer of a record by the index's entry, the SUPERSEDED program's end,
and the end of a walk. -/
theorem recordScanOffersRecords : Obligations.RecordScanOffersRecords := by
  refine ⟨fun v x => ⟨fun i => mem_scanOrder.trans isScanned_iff, scanOrder_nodup v x,
    scanOrder_ascending v x⟩, ?_, ?_, ?_⟩
  · rintro s j w rest h first seen next hs he hj hp hg rfl
    obtain ⟨cc, hx⟩ := exec_mount_read first seen hs he hj
    simp only [mountRead, hp, hg] at hx
    refine ⟨_, hx, array_of_steady (steady_scanRead j w rest _ (s.setCtl cc)), fun hpassed => ?_,
      fun hv hn hl => ?_, fun e hv he => ⟨fun hlower => ?_, fun hhigher => ?_⟩⟩
    · rw [scanRead_passes (s := s.setCtl cc) hpassed]
      refine ⟨scanOn_index _ _ _ _, fun hon => ?_⟩
      obtain ⟨hengine, hop, hspace, -⟩ := arbitrate_scanOn (w := w.move (.header h)) hon j rest
        (s.setCtl cc)
      exact ⟨congrArg Engine.job hengine, hop, hspace⟩
    · rw [scanRead_valid hv, offerRecord_new (s := s.setCtl cc) hn hl, arbitrate_engine, scanOn_index,
        scannedEntry_eq]
      refine ⟨(entryOf_enterRecord _ _ _).trans (if_pos rfl),
        fun k hk => (entryOf_enterRecord _ _ _).trans (if_neg hk), fun hon => ?_⟩
      obtain ⟨hengine, hop, hspace, -⟩ := arbitrate_scanOn (w := w.move (.header h)) hon j rest
        (enterRecord (scannedEntry h ⟨w.sector, w.pos⟩) (s.setCtl cc))
      exact ⟨congrArg Engine.job hengine, hop, hspace⟩
    · rw [scanRead_valid hv, offerRecord_lower (s := s.setCtl cc) he hlower, opOf_arbitrate, opOf_putMount,
        opOf_issue_self]
      exact ⟨rfl, rfl, rfl, rfl⟩
    · rw [scanRead_valid hv, offerRecord_takesOver (s := s.setCtl cc) he hhigher, opOf_arbitrate,
        opOf_putMount, opOf_issue_self, scannedEntry_eq]
      exact ⟨(entryOf_enterRecord _ _ _).trans (if_pos rfl),
        fun k hk => (entryOf_enterRecord _ _ _).trans (if_neg hk), rfl, rfl, rfl⟩
  · rintro s j w rest hold pass first left under p op c rfl hs hn hj hp hon hc
    obtain ⟨ok, cc, hok, hx⟩ := exec_mount_program hc hs rfl hn hj
    simp only [mountProgram, hp] at hx
    obtain ⟨hengine, hop, hspace, hdrain⟩ := arbitrate_scanOn hon j rest
      (if (hold && !ok) = true then
        ((s.setArray (arrayAfter s (.programState p .superseded) left under ok)).setCtl cc).setDrain
          { s.drain with purgeHold := true }
      else (s.setArray (arrayAfter s (.programState p .superseded) left under ok)).setCtl cc)
    refine ⟨_, hx, ?_, hop, ?_, ?_, ?_⟩
    · refine hengine.trans ?_
      split <;> rfl
    · refine hspace.trans ?_
      split <;> rfl
    · intro hhold hfail
      have hno : ok = false := Bool.eq_false_iff.2 fun h => by
        obtain ⟨hcomplete, hpass⟩ := hok.1 h
        rcases hfail with hstop | hfail
        · cases hcomplete.symm.trans hstop
        · exact absurd (hpass.symm.trans hfail) (by decide)
      refine hdrain.trans ?_
      rw [hhold, hno]
      rfl
    · intro hgood
      have hkeep : (hold && !ok) = false := by
        rcases hgood with hhold | hpass
        · rw [hhold, Bool.false_and]
        · rw [hok.2 hpass, Bool.not_true, Bool.and_false]
      refine hdrain.trans ?_
      rw [hkeep]
      rfl
  · rintro s j w w' rest g r first seen hs he hj hp rfl rfl rfl hpassed
    obtain ⟨cc, hx⟩ := exec_mount_read first seen hs he hj
    simp only [mountRead, hp] at hx
    rw [scanRead_passed hpassed] at hx
    generalize readGranule s.array w.sector w.pos = g at hx
    refine ⟨fun hon => ?_, fun hover => ?_⟩
    · obtain ⟨hengine, hop, hspace, -⟩ := arbitrate_scanOn hon j rest (s.setCtl cc)
      exact ⟨_, hx, hengine, hop, hspace⟩
    rw [scanOn_over hover] at hx
    refine ⟨fun b hr hm => ?_, ?_⟩
    · rw [sectorScanned_closes (by rwa [Walk.move_sector]) hm, Walk.move_sector] at hx
      have hrec (k : Sector) := Space.setRec_rec s.space w.sector k
        { s.space.rec_ w.sector with state := .full }
      refine ⟨_, hx, (hrec _).trans (if_pos rfl), fun k hk => (hrec k).trans (if_neg hk), rfl, ?_⟩
      rw [opOf_arbitrate, opOf_putMount, opOf_issue_self]
    · rintro i is rfl hopen
      rw [sectorScanned_goesOn (by rwa [Walk.move_sector]), Walk.move_sector] at hx
      exact ⟨_, hx, rfl, rfl,
        (opOf_arbitrate _ _).trans ((opOf_putMount _ _ _).trans (opOf_walkRead _ _))⟩

end Sys2Proof.Machine
end

section
/-! FORMAT in the step of its grant: the wait for the Drain Unit's abandonment, or the whole start phase with the
first mark (R83, R115, R137, R164 to R166). -/

namespace Sys2Proof.Machine

open Sys2Proof

/-! ### The grant -/

/-- The part at a FORMAT's grant, before the Drain Unit's abandonment: FORMATTING, and NO_SPACE ended (R164). -/
def formatting (s : State) : State :=
  let t := changeStore .formatting none
    ((toRunning .A s).setJob (.format .A (s.port .A).generation .abandon))
  t.setSpace { t.space with noSpace := false }

@[simp] theorem steady_formatting (s : State) : steady (formatting s) = steady s :=
  (steady_changeStore .formatting none _).trans ((steady_setJob _ _).trans (steady_toRunning .A s))

theorem formatting_port (s : State) (p : Port) :
    (formatting s).port p = if (s.port p).link = .present then
      { (toRunning .A s).port p with
        latched := { ((toRunning .A s).port p).latched with storeChange := true } }
      else (toRunning .A s).port p := by
  rw [formatting, State.setSpace_port, changeStore_port, State.setJob_port, toRunning_link]

theorem formatting_link (s : State) (p : Port) :
    ((formatting s).port p).link = (s.port p).link := by
  rw [formatting_port, ← toRunning_link .A p s]
  split <;> rfl

theorem formatting_queue (s : State) (p : Port) :
    ((formatting s).port p).queue = (s.port p).queue := by
  rw [formatting_port, toRunning_port]
  split <;> split <;> rfl

theorem formatting_txn (s : State) (p : Port) : ((formatting s).port p).txn = (s.port p).txn := by
  rw [formatting_port, ← toRunning_txn .A p s]
  split <;> rfl

theorem formatting_mailbox (s : State) : ((formatting s).port .A).mailbox.state = .running := by
  rw [formatting_port, toRunning_port, if_pos rfl]
  split <;> rfl

theorem formatting_latched {s : State} {p : Port} (h : (s.port p).link = .present) :
    ((formatting s).port p).latched.storeChange = true := by
  rw [formatting_port, if_pos h]

theorem exec_format {s : State} (hg : FrameGranted s .A .format []) :
    exec (.format .A) s = .next (arbitrate (formatGrant .A (toRunning .A s))) := by
  show Host.Outcome.next (grantCommand .format .A (fun _ t => arbitrate (formatGrant .A t)) s) = _
  rw [grantCommand_eq _ hg rfl (fun _ => rfl)]

/-- With a Drain Unit operation outstanding the FORMAT waits for the abandonment (R137). -/
theorem formatGrant_waits {s : State} (h : s.ctl.drain ≠ none) :
    formatGrant .A (toRunning .A s) = formatting s := by
  unfold formatGrant
  dsimp only
  split
  · rename_i hnone
    exact absurd hnone h
  · rfl

/-- With none the abandonment is taken at once. -/
theorem formatGrant_starts {s : State} (h : s.ctl.drain = none) :
    formatGrant .A (toRunning .A s) = takeAbandonment (formatting s) := by
  unfold formatGrant
  dsimp only
  split
  · rfl
  · rename_i q hq
    exact absurd (hq.symm.trans h) (by simp)

/-! ### The start phase -/

/-- Notices read and write the ports alone. -/
theorem notifyAll_ports (l : List (Port × Notice)) {s t : State} (h : t.ports = s.ports) :
    (notifyAll l t).ports = (notifyAll l s).ports := by
  induction l generalizing s t with
  | nil => exact h
  | cons x xs ih =>
    refine ih ?_
    have hport : t.port x.1 = s.port x.1 := congrArg (Ports.get · x.1) h
    unfold notify
    rw [hport]
    split
    · exact congrArg (Ports.set · x.1 _) h
    · exact h

theorem dropLease_notices (l : Lease) : (dropLease l).2 = formatNotices l := by
  simp [dropLease, formatNotices, Function.comp_def]

theorem runLeases_dropLease (s : State) : runLeases dropLease s = { s with
    ports := (notifyAll (s.leases.flatMap formatNotices) s).ports, leases := [] } := by
  have hnone : s.leases.filterMap (fun l => (dropLease l).1) = [] :=
    List.filterMap_eq_nil_iff.2 fun _ _ => rfl
  rw [runLeases_eq, hnone, funext dropLease_notices, notifyAll_rest, notifyAll_ports _ (s := s) (by rfl)]
  rfl

/-- The part once the Drain Unit has taken its abandonment (R137). -/
def abandoned (s : State) : State :=
  { s with
    space := { s.space with evacuation := [], allocDrain := none, activation := none }
    drain := ⟨.idle, none, 1, none, false, false,
      s.drain.pendingConsideration || s.drain.state != .idle, none, .none_⟩ }

/-- The part after a FORMAT's start phase, before its first mark (R165). -/
def cleared (s : State) : State :=
  { s with
    ports := (notifyAll (s.leases.flatMap formatNotices) s).ports.each closeOpenTxn
    engine := { s.engine with index := [] }
    leases := []
    space := { s.space with sectors := s.space.sectors.map allDead, evacuation := [] } }

theorem formatStart_eq (s : State) : formatStart s = formatMark 0 (cleared s) := by
  unfold formatStart
  rw [runLeases_dropLease]
  rfl

theorem takeAbandonment_eq (s : State) : takeAbandonment s = formatMark 0 (cleared (abandoned s)) :=
  formatStart_eq (abandoned s)

theorem cleared_port (s : State) (p : Port) :
    (cleared s).port p = closeOpenTxn ((notifyAll (s.leases.flatMap formatNotices) s).port p) :=
  Ports.get_each _ _ _

theorem cleared_rec (s : State) (k : Sector) : (cleared s).space.rec_ k = allDead (s.space.rec_ k) := by
  simp [cleared, Space.rec_, Vector.get_eq_getElem]

/-- Of a port's unit the start phase changes the notice queue and an OPEN transaction (R21, R83). -/
theorem cleared_port_eq (s : State) (p : Port) : (cleared s).port p = { s.port p with
    queue := ((notifyAll (s.leases.flatMap formatNotices) s).port p).queue
    txn := if (s.port p).txn.state = .open_ then
      { (s.port p).txn with state := .none_, staged := 0 } else (s.port p).txn } := by
  rw [cleared_port, notifyAll_port, closeOpenTxn]
  split <;> rfl

theorem marked_iff {st : SectorState} :
    marked st = true ↔ st ∈ [SectorState.active, .full, .draining, .discarded] := by
  simp [marked, or_assoc]

/-- The mark phase begins with the first sector to be marked (R166). -/
theorem formatMark_first {s : State} {i : Sector} {p : Port} {gen : Byte} {ph : FormatPhase}
    (hj : s.engine.job = .format p gen ph) (hi : marked (s.space.rec_ i).state = true)
    (hbelow : ∀ k : Sector, k.val < i.val → marked (s.space.rec_ k).state = false) :
    formatMark 0 s =
      (issue .engine (.programMark i .discarded) s).setJob (.format p gen (.mark i)) := by
  have hfind : allSectors.find? (fun l => decide (0 ≤ l.val) && marked (s.space.rec_ l).state) =
      some i :=
    allSectors_find? _ i (by rw [hi]; rfl) fun k hk => by rw [hbelow k hk, Bool.and_false]
  unfold formatMark
  rw [hfind]
  simp only [formatPhase, issue_engine, hj]

/-- Settles O50: the grant with an operation outstanding, and without one the start phase's fields. -/
theorem formatEmptiesTheStore : Obligations.FormatEmptiesTheStore := by
  intro s hg
  have hx := exec_format hg
  refine ⟨fun hd => ?_, fun i hd hi hbelow => ?_⟩
  · rw [formatGrant_waits hd] at hx
    exact ⟨_, hx, rfl, rfl, rfl, rfl, rfl, rfl⟩
  rw [formatGrant_starts hd] at hx
  generalize hu : abandoned (formatting s) = u
  have hrec (k : Sector) : (cleared u).space.rec_ k = allDead (s.space.rec_ k) := by
    rw [cleared_rec, ← hu]
    rfl
  have hmarked (k : Sector) : marked ((cleared u).space.rec_ k).state = true ↔
      (s.space.rec_ k).state ∈ [SectorState.active, .full, .draining, .discarded] := by
    rw [hrec]
    exact marked_iff
  have hkept (p : Port) : u.port p = (formatting s).port p := by rw [← hu]; rfl
  have hend : takeAbandonment (formatting s) = (issue .engine (.programMark i .discarded)
      (cleared u)).setJob (.format .A (s.port .A).generation (.mark i)) := by
    rw [takeAbandonment_eq, hu]
    exact formatMark_first (by rw [← hu]; rfl) ((hmarked i).2 hi)
      (fun k hk => Bool.eq_false_iff.2 (mt (hmarked k).1 (hbelow k hk)))
  have hsteady := (steady_takeAbandonment (formatting s)).trans (steady_formatting s)
  rw [hend] at hx hsteady
  obtain ⟨-, -, harray, hnames, hwatches, hlowWater, -⟩ := steady_parts hsteady
  subst hu
  refine ⟨_, hx, rfl, rfl, rfl, rfl, rfl, rfl, rfl, rfl, rfl, hrec, fun p => ?_, fun p => ?_,
    fun p hp => ?_, hwatches, hnames, rfl, rfl, hlowWater, harray, ?_, ?_⟩
  · rw [arbitrate_port, State.setJob_port, issue_port, cleared_port_eq, hkept, formatting_txn]
  · rw [arbitrate_port, State.setJob_port, issue_port, cleared_port_eq]
    exact notifyAll_queue _ (abandoned (formatting s)) s
      (fun q => ⟨formatting_link s q, formatting_queue s q⟩) p
  · rw [arbitrate_port, State.setJob_port, issue_port, cleared_port_eq, hkept]
    exact formatting_latched hp
  · rw [arbitrate_port, State.setJob_port, issue_port, cleared_port_eq, hkept]
    exact formatting_mailbox s
  · exact (opOf_arbitrate _ _).trans (opOf_issue_self .engine (.programMark i .discarded) _)

end Sys2Proof.Machine
end

section
/-! SUPPORT. The end of the mount: the drain work listed, the store state by its causes, and the Drain Unit's
consideration (R114, R115, R121, R122, R162, R163). -/

namespace Sys2Proof.Machine

open Sys2Proof

/-! ### The consideration -/

theorem chooseWork_pending (always : Bool) (s : State) :
    (chooseWork always s).drain.pendingConsideration = s.drain.pendingConsideration := by
  unfold chooseWork startReclaim startEvacuation beginPass
  repeat' split
  all_goals rfl

/-- In READY and READ_ONLY a consideration is not kept pending (R121). -/
theorem consider_pending {s : State} (h : s.space.store = .ready ∨ s.space.store = .readOnly) :
    (consider s).drain.pendingConsideration = s.drain.pendingConsideration := by
  unfold consider
  split
  · rcases h with h | h <;>
    · rw [h]
      dsimp only
      split
      · rfl
      · exact chooseWork_pending _ _
  · rfl

/-- It is taken at once where the Drain Unit is IDLE and NO_SPACE does not stand (R121). -/
theorem consider_chooses {s : State} (hidle : s.drain.state = .idle)
    (h : s.space.store = .ready ∨ s.space.store = .readOnly) (hno : s.space.noSpace = false) :
    consider s = chooseWork false s := by
  rcases h with h | h <;> simp [consider, hidle, h, hno]

/-- In MOUNTING it is kept pending (R121). -/
theorem consider_mounting {s : State} (hidle : s.drain.state = .idle)
    (h : s.space.store = .mounting) :
    consider s = s.setDrain { s.drain with pendingConsideration := true } := by
  simp only [consider, hidle, h, if_true]

/-- The pass that begins, and its first operation (R123, R124). -/
theorem beginPass_drain (kind : DrainState) (i : Sector) (ph : DrainPhase) (op : ArrayOp) (s : State) :
    (beginPass kind i ph op s).drain.state = kind ∧ (beginPass kind i ph op s).drain.sector = some i ∧
      opOf .drain (beginPass kind i ph op s) = some op :=
  ⟨rfl, rfl, opOf_issue_self _ _ _⟩

/-! ### The store leaves MOUNTING -/

/-- The part with the store state settled, before its consideration. -/
def leftHold (st : StoreState) (c : Option Cause) (s : State) : State :=
  (changeStore st c s).setDrain { s.drain with pendingConsideration := false }

theorem leaveHold_eq (st : StoreState) (c : Option Cause) (s : State) :
    leaveHold st c s = if (s.drain.pendingConsideration || st == .ready) = true then
      consider (leftHold st c s) else leftHold st c s := rfl

theorem leaveHold_space (st : StoreState) (c : Option Cause) (s : State) :
    (leaveHold st c s).space = { s.space with store := st, cause := c } := by
  rw [leaveHold_eq]
  split
  · exact consider_space _
  · rfl

theorem leaveHold_engine (st : StoreState) (c : Option Cause) (s : State) :
    (leaveHold st c s).engine = s.engine := by
  rw [leaveHold_eq]
  split
  · exact consider_engine _
  · rfl

/-- STORE_CHANGE is latched in every PRESENT port (R115). -/
theorem leaveHold_latched {s : State} {p : Port} (h : (s.port p).link = .present) (st : StoreState)
    (c : Option Cause) : ((leaveHold st c s).port p).latched.storeChange = true := by
  have hport : (leaveHold st c s).port p = (changeStore st c s).port p := by
    rw [leaveHold_eq]
    split
    · exact consider_port _ _
    · rfl
  rw [hport, changeStore_port, if_pos h]

theorem leaveHold_pending {st : StoreState} (h : st = .ready ∨ st = .readOnly) (c : Option Cause)
    (s : State) : (leaveHold st c s).drain.pendingConsideration = false := by
  rw [leaveHold_eq]
  split
  · exact consider_pending (s := leftHold st c s) h
  · rfl

/-- The consideration that was pending, or that READY brings, is taken (R121, R163). -/
theorem leaveHold_chooses {s : State} {st : StoreState} (hidle : s.drain.state = .idle)
    (hst : st = .ready ∨ st = .readOnly) (hno : s.space.noSpace = false)
    (hdue : st = .ready ∨ s.drain.pendingConsideration = true) (c : Option Cause) :
    leaveHold st c s = chooseWork false (leftHold st c s) := by
  have hdue : (s.drain.pendingConsideration || st == .ready) = true := by
    rcases hdue with h | h <;> simp [h]
  rw [leaveHold_eq, if_pos hdue]
  exact consider_chooses (s := leftHold st c s) hidle hst hno

/-! ### The mount's last step -/

/-- The cause that the mount ends with, the first that applies (R163). -/
def endCause (retired : Nat) (noSpace spent : Bool) : Option Cause :=
  if 8 ≤ retired then some .retireLimit
  else if noSpace then some .noSpace
  else if spent then some .counterLimit
  else none

/-- The store state that goes with a cause (R163). -/
def endState (c : Option Cause) : StoreState := if c = none then .ready else .readOnly

theorem endState_open (c : Option Cause) : endState c = .ready ∨ endState c = .readOnly := by
  unfold endState
  split
  · exact .inl rfl
  · exact .inr rfl

/-- READY is without a cause. -/
theorem endState_ready {retired : Nat} {noSpace spent : Bool}
    (h : endState (endCause retired noSpace spent) = .ready) : noSpace = false := by
  cases noSpace with
  | false => rfl
  | true =>
    unfold endState endCause at h
    by_cases h8 : 8 ≤ retired <;> simp [h8] at h

/-- The RETIRED sectors with live granules, up to 8 (R162). -/
def retiredWork (acct : Sector → SectorRecord) : List Sector :=
  (allSectors.filter (fun i => (acct i).state == .retired && decide (0 < (acct i).live))).take 8

/-- The part with its drain work listed and its engine free, the store still MOUNTING (R162). -/
def workListed (s : State) : State :=
  (s.setSpace { s.space with evacuation := retiredWork s.space.rec_ }).setJob .idle

/-- The cause by the accounts and the counters of a state. -/
def causeOf (s : State) : Option Cause :=
  endCause s.space.retiredCount s.space.noSpace (s.engine.counterSpent || s.space.actSpent)

theorem mountDrainWork_eq (s : State) :
    mountDrainWork s = leaveHold (endState (causeOf s)) (causeOf s) (workListed s) := by
  have hwork : ((s.space.sectorsIn .retired).filter
      (fun i => decide (0 < (s.space.rec_ i).live))).take 8 = retiredWork s.space.rec_ := by
    rw [retiredWork, Space.sectorsIn, List.filter_filter]
    simp only [Bool.and_comm]
  unfold mountDrainWork
  dsimp only
  rw [hwork]
  rfl

/-- The mount ends: the drain work, the store state, and the consideration taken (R162, R163). -/
theorem mountEnded_drainWork {s u : State} {acct : Sector → SectorRecord} {spent noSpace : Bool}
    (hacct : u.space.rec_ = acct) (hspent : (u.engine.counterSpent || u.space.actSpent) = spent)
    (hno : u.space.noSpace = noSpace) (hports : u.ports = s.ports) (hdrain : u.drain = s.drain)
    (hidle : s.drain.state = .idle) :
    MountEnded acct spent noSpace s (arbitrate (mountDrainWork u)) := by
  subst hacct hspent hno
  have hspace : (mountDrainWork u).space = { (workListed u).space with
      store := endState (causeOf u), cause := causeOf u } := by
    rw [mountDrainWork_eq, leaveHold_space]
  have hstore : (arbitrate (mountDrainWork u)).space.store = endState (causeOf u) :=
    congrArg Space.store hspace
  have hcause : (arbitrate (mountDrainWork u)).space.cause = causeOf u := congrArg Space.cause hspace
  have hworkIdle : (workListed u).drain.state = .idle := by rw [← hidle, ← hdrain]; rfl
  refine ⟨?_, fun k => ?_, congrArg Space.evacuation hspace,
    fun h8 => ?_, fun h8 hn => ?_, fun h8 hn hs => ?_, fun h8 hn hs => ?_, fun p hp => ?_, ?_,
    fun i is hwork hn hdue => ?_, fun hwork hready hdraining => ?_⟩
  · rw [arbitrate_engine, mountDrainWork_eq, leaveHold_engine]
    rfl
  · rw [arbitrate_space, hspace]
    rfl
  · have hc : causeOf u = some .retireLimit := if_pos h8
    rw [hstore, hcause, hc]
    exact ⟨rfl, rfl⟩
  · have hc : causeOf u = some .noSpace := (if_neg (Nat.not_le_of_lt h8)).trans (if_pos hn)
    rw [hstore, hcause, hc]
    exact ⟨rfl, rfl⟩
  · have hc : causeOf u = some .counterLimit := (if_neg (Nat.not_le_of_lt h8)).trans
      ((if_neg (by rw [hn]; decide)).trans (if_pos hs))
    rw [hstore, hcause, hc]
    exact ⟨rfl, rfl⟩
  · have hc : causeOf u = none := (if_neg (Nat.not_le_of_lt h8)).trans
      ((if_neg (by rw [hn]; decide)).trans (if_neg (by rw [hs]; decide)))
    rw [hstore, hc]
    rfl
  · rw [arbitrate_port, mountDrainWork_eq]
    refine leaveHold_latched ?_ _ _
    show (u.ports.get p).link = .present
    rw [hports]
    exact hp
  · rw [arbitrate_drain, mountDrainWork_eq]
    exact leaveHold_pending (endState_open _) _ _
  · rw [hstore] at hdue
    have hchoice := leaveHold_chooses hworkIdle (endState_open _) hn
      (hdue.imp_right fun h => by rw [← h, ← hdrain]; rfl) (causeOf u)
    rw [mountDrainWork_eq, hchoice, chooseWork_listed (i := i) (is := is) hwork, opOf_arbitrate]
    exact beginPass_drain .evacuating i .header (.read i 1 1) _
  · rw [hstore] at hready
    have hchoice := leaveHold_chooses hworkIdle (endState_open _) (endState_ready hready)
      (.inl hready) (causeOf u)
    obtain ⟨i, hi, hstate, -⟩ := oldestDraining_oldest
      (x := (leftHold (endState (causeOf u)) (causeOf u) (workListed u)).space) hdraining
    rw [mountDrainWork_eq, hchoice, chooseWork_draining hwork hready hi, startReclaim_draining hstate]
    obtain ⟨hkind, hsector, hop⟩ := beginPass_drain .reclaiming i .header (.read i 1 1)
      (leftHold (endState (causeOf u)) (causeOf u) (workListed u))
    exact ⟨hkind, i, hsector, hstate, (opOf_arbitrate _ _).trans hop⟩

end Sys2Proof.Machine
end

section
/-! SUPPORT. From the end of the record scan to the end of the mount: the accounts and counters set, and what is
done with no, one or several ACTIVE sectors (R105, R108, R159 to R161). -/

namespace Sys2Proof.Machine

open Sys2Proof

/-! ### The accounts and the counters -/

theorem advance_fst (c : Word32) : (advance c).1 = if c = lastWord then lastWord else c + 1 := by
  unfold advance
  split
  · assumption
  · rfl

theorem advance_snd (c : Word32) : (advance c).2 = (c == lastWord) := by
  unfold advance
  split
  · rename_i h
    exact (beq_iff_eq.2 h).symm
  · rename_i h
    exact (beq_eq_false_iff_ne.2 h).symm

/-- The part with its counters and the format base set (R160). -/
def counted (j : MountJob) (s : State) : State :=
  let c := counterAbove (maxWord j.survey.version j.survey.floor)
  let t := s.setEngine { s.engine with counter := c.1, counterSpent := c.2 }
  t.setSpace { t.space with
    actCounter := (counterAbove j.survey.sequence).1
    actSpent := (counterAbove j.survey.sequence).2
    formatBase := j.survey.base }

theorem mountCounters_eq (j : MountJob) (s : State) :
    mountCounters j s = mountActive j (counted j s) := rfl

theorem counted_rec (j : MountJob) (s : State) : (counted j s).space.rec_ = s.space.rec_ := rfl

theorem counted_space (j : MountJob) (s : State) : (counted j s).space = { s.space with
    actCounter := (counterAbove j.survey.sequence).1
    actSpent := (counterAbove j.survey.sequence).2
    formatBase := j.survey.base } := rfl

theorem counted_engine (j : MountJob) (s : State) : (counted j s).engine = { s.engine with
    counter := (counterAbove (maxWord j.survey.version j.survey.floor)).1
    counterSpent := (counterAbove (maxWord j.survey.version j.survey.floor)).2 } := rfl

theorem counted_drain (j : MountJob) (s : State) : (counted j s).drain = s.drain := rfl

theorem counted_ports (j : MountJob) (s : State) : (counted j s).ports = s.ports := rfl

/-- The part at the end of the record scan, its accounts filled in too (R159). -/
def settled (j : MountJob) (s : State) : State :=
  counted j (s.setSpace (fillAccounts j.ends s.engine.index s.space))

theorem scanNext_settles (j : MountJob) (s : State) :
    scanNext j [] s = mountActive j (settled j s) := by
  rw [scanNext_nil, mountCounters_eq, settled]

theorem settled_rec (j : MountJob) (s : State) :
    (settled j s).space.rec_ = accountsFilled j.ends s.engine.index s.space := by
  rw [settled, counted_rec, State.setSpace_space]
  funext i
  have hpointer : pointerFound j.ends i =
      ((j.ends.find? (fun e => e.1 == i)).map Prod.snd).getD 0 := by
    unfold pointerFound
    cases j.ends.find? (fun e => e.1 == i) <;> rfl
  have hrec : (fillAccounts j.ends s.engine.index s.space).rec_ i = { s.space.rec_ i with
      pointer := pointerFound j.ends i
      live := liveIn s.engine.index i
      dead := pointerFound j.ends i - liveIn s.engine.index i } := by
    simp [fillAccounts, Space.rec_, Vector.get_eq_getElem]
  rw [hrec, hpointer]
  rfl

/-- What the end of the record scan leaves: the accounts of a Sector Table, the counters and the format base
set from the survey, and the rest of a state kept (R159, R160). -/
structure ScanSettled (s : State) (v : Survey) (ends : List (Sector × Nat)) (x : Space) (w : State) :
    Prop where
  rec_ : w.space.rec_ = accountsFilled ends s.engine.index x
  engine : w.engine = { s.engine with
    counter := (advance (maxWord v.version v.floor)).1
    counterSpent := (advance (maxWord v.version v.floor)).2 }
  actCounter : w.space.actCounter = (advance v.sequence).1
  actSpent : w.space.actSpent = (v.sequence == lastWord)
  formatBase : w.space.formatBase = v.base
  noSpace : w.space.noSpace = s.space.noSpace
  activation : w.space.activation = s.space.activation
  store : w.space.store = s.space.store
  ports : w.ports = s.ports
  drain : w.drain = s.drain

theorem settled_scanSettled {j : MountJob} {s u : State} {x : Space}
    (hx : x = { s.space with sectors := x.sectors }) (hspace : u.space = x) (hengine : u.engine = s.engine)
    (hports : u.ports = s.ports) (hdrain : u.drain = s.drain) :
    ScanSettled s j.survey j.ends x (settled j u) where
  rec_ := by rw [settled_rec, hengine, hspace]
  engine := by rw [settled, counted_engine, State.setSpace_engine, hengine, counterAbove]
  actCounter := by rw [settled, counted_space, counterAbove]
  actSpent := by rw [settled, counted_space, counterAbove, advance_snd]
  formatBase := by rw [settled, counted_space]
  noSpace := by rw [settled, counted_space, State.setSpace_space, fillAccounts, hspace, hx]
  activation := by rw [settled, counted_space, State.setSpace_space, fillAccounts, hspace, hx]
  store := by rw [settled, counted_space, State.setSpace_space, fillAccounts, hspace, hx]
  ports := by rw [settled, counted_ports, State.setSpace_ports, hports]
  drain := by rw [settled, counted_drain, State.setSpace_drain, hdrain]

namespace ScanSettled

variable {s w : State} {v : Survey} {ends : List (Sector × Nat)} {x : Space}
  (h : ScanSettled s v ends x w)
include h

/-! The accounts change no sector's state, erase count or sequence. -/

theorem state (i : Sector) : (w.space.rec_ i).state = (x.rec_ i).state := by rw [h.rec_]; rfl

theorem sequenceOf (i : Sector) : Machine.sequenceOf w.space i = Machine.sequenceOf x i := by
  rw [Machine.sequenceOf, h.rec_]
  rfl

theorem sectorsIn (st : SectorState) : w.space.sectorsIn st = x.sectorsIn st := by
  unfold Space.sectorsIn
  simp only [h.state]

theorem leastErased {i : Sector} (hi : LeastErased w.space i) : LeastErased x i := by
  rw [LeastErased, h.rec_] at hi
  exact hi

/-- One of the two counters is exhausted (R160). -/
theorem spent : (w.engine.counterSpent || w.space.actSpent) =
    (maxWord v.version v.floor == lastWord || v.sequence == lastWord) := by
  rw [h.engine, h.actSpent, ← advance_snd (maxWord v.version v.floor)]

end ScanSettled

/-! ### One ACTIVE sector, or several -/

section Active

variable {s : State}

theorem mountActive_one {i : Sector} (h : s.space.sectorsIn .active = [i]) (j : MountJob) :
    mountActive j s = mountDrainWork s := by
  simp [mountActive, h, bestOf, mountSurplus]

theorem mountActive_none (h : s.space.sectorsIn .active = []) (j : MountJob) :
    mountActive j s = mountActivate j s := by
  simp only [mountActive, h, bestOf]

/-- The first of the surplus sectors is closed, the others wait. -/
def surplusClosed (j : MountJob) (i : Sector) (rest : List Sector) (s : State) : State :=
  putMount { j with phase := .surplus rest }
    (issue .engine (.programMark i .full) (s.setSpace (closeSector i s.space)))

/-- Of several one of highest sequence stays (R161). -/
theorem mountActive_surplus {i k : Sector} {ks : List Sector}
    (h : s.space.sectorsIn .active = i :: k :: ks) (j : MountJob) :
    ∃ top l ls, top ∈ i :: k :: ks ∧
      (∀ m ∈ i :: k :: ks, sequenceOf s.space m ≤ sequenceOf s.space top) ∧
      l :: ls = (i :: k :: ks).filter (fun m => m != top) ∧
      mountActive j s = surplusClosed j l ls s := by
  obtain ⟨top, htop⟩ : ∃ top, bestOf
      (fun a b => decide (sequenceOf s.space b < sequenceOf s.space a)) (i :: k :: ks) = some top :=
    bestOf_some (by simp)
  have hbest := bestOf_best (fun a b => sequenceOf s.space b ≤ sequenceOf s.space a)
    (fun _ _ _ hxy hyz => BitVec.le_trans hyz hxy) (fun _ => BitVec.le_refl _)
    (fun _ _ hb => BitVec.le_of_lt (of_decide_eq_true hb))
    (fun _ _ hb => BitVec.not_lt.1 (of_decide_eq_false hb)) htop
  have hik : i ≠ k := by
    have hnodup : (s.space.sectorsIn .active).Nodup := (List.nodup_finRange 128).filter _
    rw [h] at hnodup
    exact fun e => (List.nodup_cons.1 hnodup).1 (e ▸ List.mem_cons_self)
  have hother : ∃ m ∈ i :: k :: ks, m ≠ top := by
    by_cases hi : i = top
    · exact ⟨k, by simp, fun hk => hik (hi.trans hk.symm)⟩
    · exact ⟨i, by simp, hi⟩
  obtain ⟨m, hm, hmt⟩ := hother
  obtain ⟨l, ls, hl⟩ := List.exists_cons_of_ne_nil
    (List.ne_nil_of_mem (List.mem_filter (p := fun m => m != top) |>.2 ⟨hm, bne_iff_ne.2 hmt⟩))
  refine ⟨top, l, ls, bestOf_mem htop, hbest, hl.symm, ?_⟩
  simp only [mountActive, h, htop]
  rw [hl]
  rfl

theorem surplusClosed_rec (j : MountJob) (i k : Sector) (rest : List Sector) :
    (surplusClosed j i rest s).space.rec_ k =
      if k = i then closed (s.space.rec_ i) else s.space.rec_ k := Space.setRec_rec _ _ _ _

@[simp] theorem opOf_surplusClosed (j : MountJob) (i : Sector) (rest : List Sector) :
    opOf .engine (surplusClosed j i rest s) = some (.programMark i .full) := by
  rw [surplusClosed, opOf_putMount, opOf_issue_self]

end Active

/-! ### No ACTIVE sector -/

section Activate

variable {s : State} (ha : s.space.activation = none)
include ha

/-- With an ERASED sector and a counter that is not exhausted the least erased one is taken (R105, R161). -/
theorem mountActivate_takes (hspent : s.space.actSpent = false)
    (he : ∃ i, (s.space.rec_ i).state = .erased) (j : MountJob) :
    ∃ i, LeastErased s.space i ∧
      mountActivate j s = putMount { j with phase := .activate } (takeForActivation .mount i s) := by
  obtain ⟨m, hm⟩ := he
  have hpool : 1 ≤ s.space.pool.length := by
    rw [Space.pool_eq ha]
    exact List.length_pos_of_mem (mem_sectorsIn.2 hm)
  obtain ⟨i, hi, hleast⟩ := activatable_least ha hspent (le_refl 1) hpool
  refine ⟨i, hleast, ?_⟩
  simp only [mountActivate, hi]

/-- With an exhausted one the mount ends (R110, R161). -/
theorem mountActivate_spent (hspent : s.space.actSpent = true)
    (he : ∃ i, (s.space.rec_ i).state = .erased) (j : MountJob) :
    mountActivate j s = mountDrainWork s := by
  obtain ⟨m, hm⟩ := he
  have hpool : s.space.pool ≠ [] := by
    rw [Space.pool_eq ha]
    exact List.ne_nil_of_mem (mem_sectorsIn.2 hm)
  simp only [mountActivate, activatable_none (.inl hspent), List.isEmpty_iff, hpool, if_false]

/-- Without an ERASED sector it ends with NO_SPACE (R161). -/
theorem mountActivate_noSpace (he : ∀ i, (s.space.rec_ i).state ≠ .erased) (j : MountJob) :
    mountActivate j s = mountDrainWork (s.setSpace { s.space with noSpace := true }) := by
  have hpool : s.space.pool = [] := by
    rw [Space.pool_eq ha]
    exact List.eq_nil_iff_forall_not_mem.2 fun i hi => he i (mem_sectorsIn.1 hi)
  have hnone : activatable 1 s.space = none := activatable_none (.inr (by rw [hpool]; decide))
  simp only [mountActivate, hnone, hpool, List.isEmpty_nil, if_true]

end Activate

/-- The Space Manager with a sector taken for the mount. -/
def mountTakenSpace (i : Sector) (s : State) : Space :=
  { s.space with
    actCounter := (advance s.space.actCounter).1
    actSpent := s.space.actSpent || (advance s.space.actCounter).2
    activation := some ⟨.mount, i, nextGroup s, .program⟩ }

theorem takeForActivation_mount (i : Sector) (s : State) :
    takeForActivation .mount i s = issue .engine (.programActivation i (nextGroup s))
      (consider (reportSpent s.space.actCounter (s.setSpace (mountTakenSpace i s)))) := by
  have hbase : (if ActivationFor.mount = .format ∨ s.space.formatBase = 0 then
      s.space.actCounter else s.space.formatBase) =
      if s.space.formatBase = 0 then s.space.actCounter else s.space.formatBase := by
    simp
  unfold takeForActivation
  dsimp only
  rw [hbase]
  rfl

/-- In MOUNTING it reports no cause, and the consideration of the sector's leaving the pool is pending (R105,
R114, R121). -/
theorem takeForActivation_mounting {s : State} (hm : s.space.store = .mounting)
    (hidle : s.drain.state = .idle) (i : Sector) :
    takeForActivation .mount i s = issue .engine (.programActivation i (nextGroup s))
      ((s.setSpace (mountTakenSpace i s)).setDrain { s.drain with pendingConsideration := true }) := by
  have hreport : reportSpent s.space.actCounter (s.setSpace (mountTakenSpace i s)) =
      s.setSpace (mountTakenSpace i s) := by
    unfold reportSpent
    split
    · exact reportCause_held _ (by rw [State.setSpace_space, mountTakenSpace, hm]; decide)
    · rfl
  rw [takeForActivation_mount, hreport, consider_mounting (s := s.setSpace (mountTakenSpace i s)) hidle hm]
  rfl

/-! ### The format base stays -/

theorem mountDrainWork_formatBase (s : State) :
    (mountDrainWork s).space.formatBase = s.space.formatBase := by
  rw [mountDrainWork_eq, leaveHold_space]
  rfl

theorem mountActive_formatBase (j : MountJob) (s : State) :
    (mountActive j s).space.formatBase = s.space.formatBase := by
  unfold mountActive
  dsimp only
  split
  · unfold mountActivate
    split
    · rw [putMount_space, takeForActivation_mount, issue_space, consider_space, reportSpent_rest]
      rfl
    · split
      · exact mountDrainWork_formatBase _
      · exact mountDrainWork_formatBase _
  · unfold mountSurplus
    split
    · exact mountDrainWork_formatBase _
    · rfl

end Sys2Proof.Machine
end

section
/-! The mount from the end of its record scan on (R159 to R163). -/

namespace Sys2Proof.Machine

open Sys2Proof

/-- The record scan's table differs from the state's in its sectors alone. -/
theorem ScanEnds.table {s : State} {c : Instr} {j : MountJob} {x : Space} {ends : List (Sector × Nat)}
    (h : ScanEnds s c j x ends) : x = { s.space with sectors := x.sectors } := by
  obtain ⟨-, -, ⟨_, _, _, _, _, _, _, _, _, rfl, _⟩ | ⟨_, _, _, _, _, _, _, _, rfl, _⟩ |
    ⟨_, _, _, _, _, _, _, _, _, _, _, rfl⟩⟩ := h
  all_goals rfl

/-- Each of the three commands that end the record scan comes to its end (R159). -/
theorem exec_scanEnds {s : State} {c : Instr} {j : MountJob} {x : Space} {ends : List (Sector × Nat)}
    (h : ScanEnds s c j x ends) (ha : s.space.activation = none) :
    ∃ v : State, v.space = x ∧ v.engine = s.engine ∧ v.drain = s.drain ∧ v.ports = s.ports ∧
      exec c s = .next (arbitrate (scanNext { j with ends := ends } [] v)) := by
  have hn : NoActivationFor .engine s := fun a e => absurd (ha.symm.trans e) (by simp)
  obtain ⟨hj, he, ⟨w, first, seen, hp, hs, rfl, hover, hpassed, hopen, rfl, rfl⟩ |
    ⟨i, pass, first, left, under, hp, hs, hc, rfl, rfl⟩ |
    ⟨i, n, first, left, under, hp, hscans, hnone, hs, rfl, rfl, rfl⟩⟩ := h
  · obtain ⟨cc, hx⟩ := exec_mount_read first seen hs he hj
    simp only [mountRead, hp] at hx
    rw [scanRead_passed hpassed, scanOn_over hover,
      sectorScanned_goesOn (by rwa [Walk.move_sector]), Walk.move_sector] at hx
    exact ⟨s.setCtl cc, rfl, rfl, rfl, rfl, hx⟩
  · obtain ⟨ok, cc, -, hx⟩ := exec_mount_program hc hs rfl hn hj
    simp only [mountProgram, hp] at hx
    exact ⟨(s.setArray (arrayAfter s (.programMark i .full) left under ok)).setCtl cc, rfl, rfl, rfl,
      rfl, hx⟩
  · obtain ⟨u, hu, hdrain, -, hx⟩ := exec_repair_identified first left under hs hn hj hp
    rw [repairFrom_done, hscans] at hx
    · exact ⟨u.setSpace (joinPool i n s.space), rfl, hu.engine, hdrain, hu.ports, hx⟩
    · intro l hil
      exact (repairOf_congr ((Space.setRec_rec _ _ _ _).trans (if_neg hil.ne'))).trans (hnone l hil)

/-- They leave the accounts and the counters settled, and the mount goes on to its active sector (R159 to
R161). -/
theorem exec_scanEnds_settled {s : State} {c : Instr} {j : MountJob} {x : Space}
    {ends : List (Sector × Nat)} (h : ScanEnds s c j x ends) (ha : s.space.activation = none) :
    ∃ j' w, ScanSettled s j.survey ends x w ∧ exec c s = .next (arbitrate (mountActive j' w)) := by
  obtain ⟨u, hspace, hengine, hdrain, hports, hx⟩ := exec_scanEnds h ha
  rw [scanNext_settles] at hx
  exact ⟨_, _, settled_scanSettled (j := { j with ends := ends }) h.table hspace hengine hports hdrain,
    hx⟩

/-- A mount that ends without space (R161, R163). -/
theorem mountEnded_noSpace {s w : State} (hports : w.ports = s.ports) (hdrain : w.drain = s.drain)
    (hidle : s.drain.state = .idle) :
    MountEnded w.space.rec_ (w.engine.counterSpent || w.space.actSpent) true s
      (arbitrate (mountDrainWork (w.setSpace { w.space with noSpace := true }))) :=
  mountEnded_drainWork rfl rfl rfl hports hdrain hidle

theorem mountDrainWork_actCounter (s : State) :
    (mountDrainWork s).space.actCounter = s.space.actCounter := by
  rw [mountDrainWork_eq, leaveHold_space]
  rfl

/-- The sector taken for the mount, the accounts and MOUNTING kept (R105, R108, R161). -/
theorem mountTaken_step {w : State} (hstore : w.space.store = .mounting)
    (hidle : w.drain.state = .idle) (j : MountJob) (i : Sector) :
    let t := putMount j (takeForActivation .mount i w)
    opOf .engine t = some (.programActivation i (nextGroup w)) ∧ t.space.rec_ = w.space.rec_ ∧
      t.space.store = .mounting ∧ t.drain.pendingConsideration = true ∧
      t.engine.counter = w.engine.counter := by
  intro t
  have ht : t = putMount j (issue .engine (.programActivation i (nextGroup w))
      ((w.setSpace (mountTakenSpace i w)).setDrain { w.drain with pendingConsideration := true })) := by
    rw [← takeForActivation_mounting hstore hidle]
  rw [ht]
  exact ⟨(opOf_putMount _ _ _).trans (opOf_issue_self _ _ _), rfl, hstore, rfl, rfl⟩

namespace ScanSettled

variable {s w : State} {v : Survey} {ends : List (Sector × Nat)} {x : Space}
  (h : ScanSettled s v ends x w)
include h

theorem mountActive_index (j : MountJob) : (mountActive j w).engine.index = s.engine.index :=
  (congrArg Ledger.index (ledger_mountActive j w)).trans (by rw [ledger, h.engine])

theorem mountActive_counter (j : MountJob) :
    (mountActive j w).engine.counter = (advance (maxWord v.version v.floor)).1 :=
  (congrArg Ledger.counter (ledger_mountActive j w)).trans (by rw [ledger, h.engine])

/-- With one ACTIVE sector the mount ends (R161 to R163). -/
theorem ends_one {i : Sector} (hone : x.sectorsIn .active = [i]) (hidle : s.drain.state = .idle)
    (j : MountJob) :
    MountEnded (accountsFilled ends s.engine.index x)
        (maxWord v.version v.floor == lastWord || v.sequence == lastWord) s.space.noSpace s
        (arbitrate (mountActive j w)) ∧
      (mountActive j w).space.actCounter = (advance v.sequence).1 := by
  rw [mountActive_one ((h.sectorsIn _).trans hone)]
  exact ⟨mountEnded_drainWork h.rec_ h.spent h.noSpace h.ports h.drain hidle,
    (mountDrainWork_actCounter w).trans h.actCounter⟩

/-- With no ACTIVE sector the pool's first is activated with the next sequence (R105, R108, R161). -/
theorem activates (hzero : x.sectorsIn .active = []) (ha : s.space.activation = none)
    (hm : s.space.store = .mounting) (hidle : s.drain.state = .idle) (hlast : v.sequence ≠ lastWord)
    (he : ∃ i, (x.rec_ i).state = .erased) (j : MountJob) :
    ∃ i, LeastErased x i ∧
      opOf .engine (mountActive j w) = some (.programActivation i ⟨v.sequence + 1,
        (mountActive j w).engine.counter, if v.base = 0 then v.sequence + 1 else v.base⟩) ∧
      (mountActive j w).space.rec_ = accountsFilled ends s.engine.index x ∧
      (mountActive j w).space.store = .mounting ∧
      (mountActive j w).drain.pendingConsideration = true := by
  have hspent : w.space.actSpent = false := h.actSpent.trans (beq_eq_false_iff_ne.2 hlast)
  have hseq : w.space.actCounter = v.sequence + 1 := by rw [h.actCounter, advance_fst, if_neg hlast]
  simp only [← h.state] at he
  rw [mountActive_none ((h.sectorsIn _).trans hzero)]
  obtain ⟨i, hi, ht⟩ := mountActivate_takes (h.activation.trans ha) hspent he j
  obtain ⟨hop, hrec, hmounting, hpending, hcounter⟩ := mountTaken_step (h.store.trans hm)
    (h.drain ▸ hidle) { j with phase := .activate } i
  rw [ht]
  refine ⟨i, h.leastErased hi, ?_, hrec.trans h.rec_, hmounting, hpending⟩
  rw [hop, hcounter, nextGroup, hseq, h.formatBase]

/-- Or the mount ends with NO_SPACE, where no sector is ERASED (R161, R163). -/
theorem ends_noSpace (hzero : x.sectorsIn .active = []) (ha : s.space.activation = none)
    (hidle : s.drain.state = .idle) (he : ∀ i, (x.rec_ i).state ≠ .erased) (j : MountJob) :
    MountEnded (accountsFilled ends s.engine.index x)
      (maxWord v.version v.floor == lastWord || v.sequence == lastWord) true s
      (arbitrate (mountActive j w)) := by
  simp only [← h.state] at he
  rw [mountActive_none ((h.sectorsIn _).trans hzero),
    mountActivate_noSpace (h.activation.trans ha) he, ← h.rec_, ← h.spent]
  exact mountEnded_noSpace h.ports h.drain hidle

/-- Or with COUNTER_LIMIT, where no sequence is left (R110, R161, R163). -/
theorem ends_spent (hzero : x.sectorsIn .active = []) (ha : s.space.activation = none)
    (hidle : s.drain.state = .idle) (hlast : v.sequence = lastWord)
    (he : ∃ i, (x.rec_ i).state = .erased) (j : MountJob) :
    MountEnded (accountsFilled ends s.engine.index x) true s.space.noSpace s
      (arbitrate (mountActive j w)) := by
  have hspent : w.space.actSpent = true := h.actSpent.trans (beq_iff_eq.2 hlast)
  simp only [← h.state] at he
  rw [mountActive_none ((h.sectorsIn _).trans hzero),
    mountActivate_spent (h.activation.trans ha) hspent he]
  exact mountEnded_drainWork h.rec_ (by rw [hspent, Bool.or_true]) h.noSpace h.ports h.drain hidle

/-- Of several ACTIVE sectors one of highest sequence stays, and the first of the others is closed (R161). -/
theorem closes_surplus {i k : Sector} {ks : List Sector}
    (hmany : x.sectorsIn .active = i :: k :: ks) (j : MountJob) :
    ∃ top l ls, top ∈ i :: k :: ks ∧
      (∀ m ∈ i :: k :: ks, Machine.sequenceOf x m ≤ Machine.sequenceOf x top) ∧
      l :: ls = (i :: k :: ks).filter (fun m => m != top) ∧
      mountActive j w = surplusClosed j l ls w := by
  have hsurplus := mountActive_surplus ((h.sectorsIn _).trans hmany) j
  simpa only [h.sequenceOf] using hsurplus

end ScanSettled

/-- Settles O59: the record scan's end, and the end of a surplus sector's FULL program. -/
theorem mountSettlesTheStore : Obligations.MountSettlesTheStore := by
  refine ⟨?_, ?_⟩
  · rintro s j c x ends largest hends ha hidle rfl
    obtain ⟨j', w, h, hx⟩ := exec_scanEnds_settled hends ha
    refine ⟨_, hx, h.mountActive_index j', (h.mountActive_counter j').trans (advance_fst _),
      (mountActive_formatBase j' w).trans h.formatBase, fun i hone => ?_,
      fun hzero hm => ⟨fun hlast he => ?_, fun he => h.ends_noSpace hzero ha hidle he j',
        fun hlast he => h.ends_spent hzero ha hidle hlast he j'⟩, fun i k ks hmany => ?_⟩
    · obtain ⟨hended, hcounter⟩ := h.ends_one hone hidle j'
      exact ⟨hended, hcounter.trans (advance_fst _)⟩
    · obtain ⟨i, hleast, hop, hrec, hstore, hpending⟩ := h.activates hzero ha hm hidle hlast he j'
      exact ⟨i, hleast, (opOf_arbitrate _ _).trans hop, fun k => congrFun hrec k, hstore, hpending⟩
    · obtain ⟨top, l, ls, htop, hmax, hl, ht⟩ := h.closes_surplus hmany j'
      refine ⟨top, l, ls, htop, hmax, hl, ?_⟩
      rw [ht, ← h.rec_]
      exact ⟨⟨_, rfl, rfl⟩, (opOf_arbitrate _ _).trans (opOf_surplusClosed j' l ls),
        (surplusClosed_rec j' l l ls).trans (if_pos rfl),
        fun m hm => (surplusClosed_rec j' l m ls).trans (if_neg hm)⟩
  · rintro s j l i c pass first left under hs ha hidle hj hp hc
    have hn : NoActivationFor .engine s := fun a e => absurd (ha.symm.trans e) (by simp)
    obtain ⟨ok, cc, -, hx⟩ := exec_mount_program hc hs rfl hn hj
    simp only [mountProgram, hp] at hx
    refine ⟨_, hx, fun k ks hl => ?_, fun hl => ?_⟩
    · subst hl
      refine ⟨(opOf_arbitrate _ _).trans (opOf_surplusClosed j k ks), ?_, ?_, fun m hm => ?_⟩
      · rfl
      · exact (surplusClosed_rec j k k ks).trans (if_pos rfl)
      · exact (surplusClosed_rec j k m ks).trans (if_neg hm)
    · subst hl
      exact mountEnded_drainWork rfl rfl rfl rfl rfl hidle

end Sys2Proof.Machine
end

section
/-! The grants of the port commands: the engine held (R175, R177, R194), and checks 1 to 3 of a granted frame
(R172, R173, R179, R180). -/

namespace Sys2Proof.Machine

open Sys2Proof

/-! ### The eighteen rows as one -/

/-- The procedure that follows a command's grant. -/
def procedureOf : Code → Port → Frame → State → State
  | .fetch => fetchProcedure
  | .probe => probeProcedure
  | .scan => scanProcedure
  | .putOpen => putOpenProcedure
  | .putCommit => fun p _ => putCommitProcedure p
  | .putCancel => fun p _ => putCancelProcedure p
  | .remove => removeProcedure
  | .leaseTake => leaseTakeProcedure
  | .leaseRenew => leaseRenewProcedure
  | .leaseDrop => leaseDropProcedure
  | .watch => watchProcedure
  | .unwatch => unwatchProcedure
  | .storeQuery => fun p _ t => reply p .ok (queryFields t) t
  | .storeTune => storeTuneProcedure
  | .reclaim => fun p _ => reclaimProcedure p
  | .format => fun p _ t => arbitrate (formatGrant p t)
  | .nsSet => nsSetProcedure
  | .nsFreeze => nsFreezeProcedure

/-- Every grant row grants its command and runs the command's procedure. -/
theorem exec_grantOf (c : Code) (p : Port) (s : State) :
    exec (grantOf c p) s = .next (grantCommand c p (procedureOf c p) s) := by
  cases c <;> rfl

/-! ### Nothing granted -/

/-- The engine is held by a request RUNNING, by the mount or a FORMAT, or by RESET_N (R175, R177, R194). -/
theorem engineFree_held {s : State} (h : s.engine.job ≠ .idle ∨ s.space.store = .mounting ∨
    s.space.store = .formatting ∨ s.resetLow = true) : engineFree s = false := by
  rcases h with h | h | h | h <;> simp [engineFree, h]

theorem exec_relocate_none {s : State} (h : granted s = none) : exec .relocate s = .next s := by
  simp only [exec, execRelocate, h]

theorem exec_purge_none {s : State} (h : granted s = none) : exec .purge s = .next s := by
  simp only [exec, execPurge, h]

theorem exec_teardownRequest_none {s : State} (h : granted s = none) (p : Port) :
    exec (.teardownRequest p) s = .next s :=
  if_neg (by simp [h])

/-- Settles O15: a held engine makes the arbiter grant nothing, and each grant row asks the arbiter. -/
theorem nothingIsGrantedWhileTheEngineIsHeld : Obligations.NothingIsGrantedWhileTheEngineIsHeld := by
  intro s hheld
  have hnone : granted s = none := granted_held (engineFree_held hheld)
  refine ⟨fun c p => ?_, exec_teardownRequest_none hnone, exec_relocate_none hnone,
    exec_purge_none hnone⟩
  rw [exec_grantOf, grantCommand_none c _ (by simp [hnone])]

/-! ### The first three checks -/

section Checks

variable {s : State} {p : Port} (hg : granted s = some (.command p))
include hg

/-- A granted frame of no command's code is answered by check 1, whichever row takes it (log 2). -/
theorem exec_grantOf_unknown (h : codeOf (s.port p).mailbox.frame.code = none) (c : Code) :
    exec (grantOf c p) s =
      .next (answered p [resultByte (unknownCode (s.port p).mailbox.frame)] s) := by
  rw [exec_grantOf]
  simp only [grantCommand, hg, if_true, h, reply_toRunning]

/-- A granted frame of a known code that checks 2 and 3 refuse is answered with that refusal. -/
theorem exec_grantOf_refused {c : Code} {r : Result}
    (h : codeOf (s.port p).mailbox.frame.code = some c)
    (hr : frameRefusal c p (s.port p).mailbox.frame = some r) :
    exec (grantOf c p) s = .next (answered p [resultByte r] s) := by
  rw [exec_grantOf]
  simp only [grantCommand, hg, if_true, h, hr, reply_toRunning]

end Checks

/-- Check 2 refuses an over-long frame and one of another length than the command's. -/
theorem frameRefusal_length {c : Code} {f : Frame} (p : Port)
    (h : f.overLong = true ∨ f.params.length ≠ paramCount c) :
    frameRefusal c p f = some .badLength :=
  if_pos (by simpa using h)

/-- Check 3 refuses a supervisor command from another port than A. -/
theorem frameRefusal_supervisor {c : Code} {f : Frame} {p : Port} (ho : f.overLong = false)
    (hl : f.params.length = paramCount c) (hs : supervisorOnly c = true) (hp : p ≠ .A) :
    frameRefusal c p f = some .notSupervisor := by
  simp [frameRefusal, ho, hl, hs, hp]

/-- Settles O17: check 1 by the code, and checks 2 and 3 by `frameRefusal`. -/
theorem firstThreeFrameChecks : Obligations.FirstThreeFrameChecks := by
  refine fun s p hg => ⟨fun hcode ho c => ?_, fun c hcode => ⟨fun hl => ?_, fun ho hl hs hp => ?_⟩⟩
  · have hresult : unknownCode (s.port p).mailbox.frame = .badCommand := by simp [unknownCode, ho]
    rw [exec_grantOf_unknown hg hcode, hresult]
    rfl
  · exact exec_grantOf_refused hg hcode (frameRefusal_length p hl)
  · exact exec_grantOf_refused hg hcode (frameRefusal_supervisor ho hl hs hp)

end Sys2Proof.Machine
end

section
/-! In READ_ONLY the three writes and RECLAIM are refused at the gate of R175. -/

namespace Sys2Proof.Machine

open Sys2Proof

theorem gateRefusal_readOnly {s : State} (h : s.space.store = .readOnly) :
    gateRefusal s = some .readOnly := if_pos h

/-- RECLAIM's first check is the gate (R138, R175). -/
theorem exec_reclaim_readOnly {s : State} (hg : FrameGranted s .A .reclaim [])
    (h : s.space.store = .readOnly) : exec (.reclaim .A) s = .next (answered .A [0x41] s) := by
  have hgate : gateRefusal (toRunning .A s) = some .readOnly := gateRefusal_readOnly h
  show Host.Outcome.next (grantCommand .reclaim .A (fun _ => reclaimProcedure .A) s) = _
  rw [grantCommand_eq _ hg rfl (fun _ => rfl), reclaimProcedure, hgate,
    checked_toRunning_refused rfl]
  rfl

/-- Settles O19: the gate follows PUT_OPEN's and PUT_COMMIT's look at the transaction, and is the first check of
REMOVE and RECLAIM. -/
theorem readOnlyStoreRefusesWrites : Obligations.ReadOnlyStoreRefusesWrites := by
  intro s p k cb v hro
  have hgate := gateRefusal_readOnly hro
  refine ⟨fun L hL hcb hnone hg => ?_, fun hopen hg => ?_, fun hcb hg => ?_,
    fun hg => exec_reclaim_readOnly hg hro⟩
  · obtain ⟨c, hc⟩ : ∃ c, (cb = 0 ∧ c = .none_) ∨ (cb = 1 ∧ c = .create) ∨
        (cb = 2 ∧ v ≠ 0 ∧ c = Condition.matching v) := by
      rcases hcb with h0 | h1 | ⟨h2, hv⟩
      · exact ⟨_, .inl ⟨h0, rfl⟩⟩
      · exact ⟨_, .inr (.inl ⟨h1, rfl⟩)⟩
      · exact ⟨_, .inr (.inr ⟨h2, hv, rfl⟩)⟩
    exact exec_putOpen_refused hg hL hc (r := .readOnly) (by
      simp only [openChecks, txnOpenRefusal_none hnone, hgate, firstRefusal])
  · exact exec_putCommit_refused hg (r := .readOnly) (by
      simp only [commitChecks, noTxnRefusal_open hopen, hgate, firstRefusal])
  · obtain ⟨c, hc⟩ : ∃ c, cb = 0 ∧ c = .none_ ∨ cb = 2 ∧ v ≠ 0 ∧ c = Condition.matching v := by
      rcases hcb with h0 | ⟨h2, hv⟩
      · exact ⟨_, .inl ⟨h0, rfl⟩⟩
      · exact ⟨_, .inr ⟨h2, hv, rfl⟩⟩
    exact exec_remove_refused hg hc (r := .readOnly) (by
      simp only [removeChecks, hgate, firstRefusal])

end Sys2Proof.Machine
end

section
/-! The two arbiters: what the engine arbiter grants (R177, R178), and what the array arbiter takes next (R144, R146
to R149). -/

namespace Sys2Proof.Machine

open Sys2Proof

/-! ### The engine arbiter -/

/-- In a list of rising rank the first that meets a test is the one of lowest rank. -/
theorem find?_eq_some_of_rank {α : Type} {l : List α} {f : α → Bool} {rank : α → Nat} {a : α}
    (hl : l.Pairwise (rank · < rank ·)) (ha : a ∈ l) (hf : f a = true)
    (hlow : ∀ b, rank b < rank a → f b = false) : l.find? f = some a := by
  obtain ⟨pre, post, rfl⟩ := List.append_of_mem ha
  obtain ⟨-, -, hpre⟩ := List.pairwise_append.1 hl
  refine List.find?_eq_some_iff_append.2 ⟨hf, pre, post, rfl, fun b hb => ?_⟩
  simp [hlow b (hpre b hb a List.mem_cons_self)]

/-- How far a port is behind another in the order that begins at it (R178). -/
def distanceFrom (pointer p : Port) : Nat := (portNumber p + 4 - portNumber pointer) % 4

theorem allPorts_rising : allPorts.Pairwise (portNumber · < portNumber ·) := by decide

theorem portsFrom_rising (pointer : Port) :
    (portsFrom pointer).Pairwise (distanceFrom pointer · < distanceFrom pointer ·) := by
  cases pointer <;> decide

theorem mem_portsFrom (pointer p : Port) : p ∈ portsFrom pointer := by
  cases pointer <;> cases p <;> decide

theorem find?_teardown_none {s : State} (hno : ∀ q, (s.port q).link ≠ .teardown) :
    allPorts.find? (fun q => (s.port q).link == .teardown) = none :=
  List.find?_eq_none.2 (fun q _ => by simp [hno q])

section Free

variable {s : State} (hf : engineFree s = true)
include hf

/-- Teardowns come first, by lowest port. -/
theorem granted_teardown {p : Port} (hp : (s.port p).link = .teardown)
    (hlow : ∀ q, portNumber q < portNumber p → (s.port q).link ≠ .teardown) :
    granted s = some (.teardown p) := by
  have hfind : allPorts.find? (fun q => (s.port q).link == .teardown) = some p :=
    find?_eq_some_of_rank allPorts_rising (mem_allPorts p) (by simp [hp])
      (fun q hq => by simp [hlow q hq])
  simp only [granted, hf, if_true, hfind]

section NoTeardown

variable (hno : ∀ q, (s.port q).link ≠ .teardown)
include hno

/-- Then comes the Drain Unit's request. -/
theorem granted_drain (hd : s.drain.request ≠ none) : granted s = some .drain := by
  obtain ⟨r, hr⟩ := Option.ne_none_iff_exists'.1 hd
  simp only [granted, hf, if_true, find?_teardown_none hno, hr]

/-- Then the port commands, in the order that begins at the pointer. -/
theorem granted_command (hd : s.drain.request = none) :
    granted s = ((portsFrom s.engine.pointer).find?
      (fun p => (s.port p).mailbox.state == .waiting)).map Grant.command := by
  simp only [granted, hf, if_true, find?_teardown_none hno, hd]
  cases (portsFrom s.engine.pointer).find? (fun p => (s.port p).mailbox.state == .waiting) <;> rfl

end NoTeardown

end Free

/-! ### The array arbiter -/

namespace Controller

variable {c : Controller}

theorem nextWaiting_engine {op : ArrayOp} {short : Bool} (he : c.engine = some ⟨op, false⟩)
    (h : (short && isErase op) = false) : c.nextWaiting short = some .engine := by
  simp [nextWaiting, he, waitsIn, h]

theorem nextWaiting_none {short : Bool} (he : waitsIn short c.engine = false)
    (hd : waitsIn short c.drain = false) : c.nextWaiting short = none := by
  simp [nextWaiting, he, hd]

/-- The Drain Unit's request is next where the engine has none that waits. -/
theorem nextWaiting_drain {op : ArrayOp} (he : ∀ q, c.engine ≠ some ⟨q, false⟩)
    (hd : c.drain = some ⟨op, false⟩) : c.nextWaiting false = some .drain := by
  have hengine : waitsIn false c.engine = false := by
    unfold waitsIn
    split
    · rename_i q hq
      exact absurd hq (he q)
    · rfl
  have hdrain : waitsIn false c.drain = true := by rw [hd]; rfl
  simp only [nextWaiting, hengine, hdrain, Bool.false_eq_true, if_false, if_true]

section Idle

variable (hs : c.serving = none)
include hs

/-- A free array starts the request that is next (R147). -/
theorem run_free {r : Requester} (he : c.erase = none) (hn : c.nextWaiting false = some r) :
    c.run = c.start r := by
  simp only [run, hs, he, hn]

section Erase

variable {e : EraseJob} (he : c.erase = some e)
include he

/-- With no READ or PROGRAM waiting the erase runs, resumed if it was suspended (R149). -/
theorem run_resumed (hn : c.nextWaiting true = none) :
    c.run = { c with erase := some { e with suspended := false } } := by
  simp only [run, hs, he, hn]

/-- Within a suspension the request that is next starts (R149). -/
theorem run_within {r : Requester} (hsus : e.suspended = true) (hn : c.nextWaiting true = some r) :
    c.run = c.start r := by
  simp only [run, hs, he, hn, hsus, if_true]

/-- A running erase below its limits is suspended, and the request that is next starts (R148). -/
theorem run_suspended {r : Requester} (hsus : e.suspended = false)
    (hlimit : e.count < 64 ∧ e.active < 120) (hn : c.nextWaiting true = some r) :
    c.run = Controller.start { c with
      erase := some { e with suspended := true, count := e.count + 1, shown := false } } r := by
  simp only [run, hs, he, hn, hsus, if_pos hlimit, Bool.false_eq_true, if_false]

/-- A running erase at a limit is not suspended, whatever waits (R144, R148; log 15). -/
theorem run_limited (hsus : e.suspended = false) (hlimit : 64 ≤ e.count ∨ 120 ≤ e.active) :
    c.run = c := by
  cases hn : c.nextWaiting true with
  | none =>
    rw [run_resumed hs he hn, ← hsus]
    exact congrArg (Controller.mk c.engine c.drain) he.symm
  | some r =>
    have hnot : ¬ (e.count < 64 ∧ e.active < 120) := by omega
    simp only [run, hs, he, hn, hsus, if_neg hnot, Bool.false_eq_true, if_false]

end Erase

end Idle

/-- The engine's READ or PROGRAM is started in its place alone. -/
theorem start_engine_short {op : ArrayOp} (he : c.engine = some ⟨op, false⟩)
    (h : isErase op = false) : c.start .engine = { c with engine := some ⟨op, true⟩ } :=
  start_short (r := .engine) he (fun k hk => by simp [hk, isErase] at h)

end Controller

/-- Settles O16: the engine arbiter's three ranks, and the array arbiter by the erase and what waits. -/
theorem arbitersChooseInOrder : Obligations.ArbitersChooseInOrder := by
  refine ⟨fun s hf => ⟨fun p hp hlow => granted_teardown hf hp hlow, fun hno =>
    ⟨granted_drain hf hno, fun hd => ⟨fun p hp hnear => ?_, fun hidle => ?_⟩⟩⟩, fun c hs =>
    ⟨fun op he hop => ?_, fun op he hengine hdrain => ?_, fun op e he hsus hcount hactive hop hw => ?_,
      fun op e he hsus hlimit _ => ?_, fun op e he hsus hop hw => ?_, fun e he hengine hdrain => ?_⟩⟩
  · have hfind := find?_eq_some_of_rank (f := fun q => (s.port q).mailbox.state == .waiting)
      (portsFrom_rising s.engine.pointer) (mem_portsFrom _ p) (by simp [hp])
      (fun q hq => by simp [hnear q hq])
    rw [granted_command hf hno hd, hfind]
    rfl
  · rw [granted_command hf hno hd, List.find?_eq_none.2 (by simp [hidle])]
    rfl
  · exact Controller.run_free hs he (Controller.nextWaiting_engine hop rfl)
  · exact Controller.run_free hs he (Controller.nextWaiting_drain hengine hdrain)
  · rw [Controller.run_suspended hs he hsus ⟨hcount, hactive⟩
      (Controller.nextWaiting_engine hw hop)]
    exact Controller.start_engine_short (c := { c with erase := some { e with
      suspended := true, count := e.count + 1, shown := false } }) hw hop
  · exact Controller.run_limited hs he hsus hlimit
  · rw [Controller.run_within hs he hsus (Controller.nextWaiting_engine hw hop),
      Controller.start_engine_short hw hop]
  · exact Controller.run_resumed hs he (Controller.nextWaiting_none hengine hdrain)

end Sys2Proof.Machine
end

section
/-! The grant of a port's teardown (R80, R88, R182, R190, R191). -/

namespace Sys2Proof.Machine

open Sys2Proof

/-! ### The grant and the notices -/

/-- The arbiter grants the teardown of a port in TEARDOWN alone (R177). -/
theorem link_of_granted_teardown {s : State} {p : Port} (h : granted s = some (.teardown p)) :
    (s.port p).link = .teardown := by
  unfold granted at h
  split at h
  · split at h
    · rename_i q hq
      obtain rfl : q = p := by simpa using h
      simpa using List.find?_some hq
    · repeat' split at h
      all_goals cases h
  · cases h

/-- A port that is not PRESENT is left as it is by all notices (R98). -/
theorem notifyAll_port_discarded (l : List (Port × Notice)) {s : State} {q : Port}
    (h : (s.port q).link ≠ .present) : (notifyAll l s).port q = s.port q := by
  induction l generalizing s with
  | nil => rfl
  | cons x xs ih =>
    have hx : (notify x.1 x.2 s).port q = s.port q := by
      rw [notify_port]
      exact if_neg fun ⟨hq, hl⟩ => h (hq ▸ hl)
    exact (ih (by rwa [hx])).trans hx

/-! ### The fate of a lease -/

section Lease

variable (p : Port)

theorem dropPortFromLease_table (l : Lease) :
    (dropPortFromLease p l).1.toList = leaseAfterTeardown p l := by
  unfold dropPortFromLease leaseAfterTeardown
  by_cases hh : l.holder = p
  · simp [hh, passLease_eq]
  · simp [hh]

theorem dropPortFromLease_notices (l : Lease) :
    (dropPortFromLease p l).2 = teardownNotices p l := by
  unfold dropPortFromLease teardownNotices
  by_cases hh : l.holder = p
  · simp [hh, passLease_eq]
  · simp [hh]

/-- The Lease Unit's part in a teardown: its notices, and the table after it (R80). -/
theorem runLeases_dropPortFromLease (s : State) :
    runLeases (dropPortFromLease p) s =
      (notifyAll (s.leases.flatMap (teardownNotices p)) s).setLeases
        (s.leases.flatMap (leaseAfterTeardown p)) := by
  rw [runLeases_eq, notifyAll_setLeases, List.filterMap_eq_flatMap_toList]
  simp only [dropPortFromLease_table, dropPortFromLease_notices]

variable {p} {l m : Lease}

/-- In what is left of a lease the port has no place. -/
theorem place_of_mem_leaseAfterTeardown (h : m ∈ leaseAfterTeardown p l) :
    m.holder ≠ p ∧ p ∉ m.waiters.map Waiter.port := by
  have hkept : p ∉ (l.waiters.filter (fun w => w.port != p)).map Waiter.port := by simp
  unfold leaseAfterTeardown at h
  dsimp only at h
  split at h
  · obtain ⟨-, hplace⟩ := mem_passedTo h
    exact ⟨fun hp => hkept (hplace p (.inl hp)), fun hp => hkept (hplace p (.inr hp))⟩
  · rename_i hholder
    obtain rfl := List.mem_singleton.1 h
    exact ⟨hholder, hkept⟩

/-- A lease in which the port has no place is kept as it is. -/
theorem leaseAfterTeardown_other (hh : l.holder ≠ p) (hw : p ∉ l.waiters.map Waiter.port) :
    leaseAfterTeardown p l = [l] := by
  have hkept : l.waiters.filter (fun w => w.port != p) = l.waiters :=
    List.filter_eq_self.2 fun w hmem => bne_iff_ne.2 fun hp => hw (hp ▸ List.mem_map_of_mem hmem)
  simp only [leaseAfterTeardown, if_neg hh, hkept]

/-- A port without a place in any lease holds and awaits none (R65). -/
theorem holdCount_eq_zero {ls : List Lease}
    (h : ∀ m ∈ ls, m.holder ≠ p ∧ p ∉ m.waiters.map Waiter.port) : holdCount p ls = 0 := by
  induction ls with
  | nil => rfl
  | cons m ms ih =>
    obtain ⟨hh, hw⟩ := h m List.mem_cons_self
    have hplaces : placesIn p m = 0 := by
      simpa [placesIn, hh] using hw
    rw [holdCount_cons, hplaces, ih fun x hx => h x (List.mem_cons_of_mem m hx)]

end Lease

/-! ### The procedure -/

/-- What the procedure does to the part, for a port that is not PRESENT: its own queue takes no notice. -/
theorem teardownProcedure_eq {s : State} {p : Port} (h : (s.port p).link ≠ .present) :
    teardownProcedure p s =
      { s with
        ports := (notifyAll (s.leases.flatMap (teardownNotices p)) s).ports.set p
          (completeTeardown (s.port p))
        leases := s.leases.flatMap (leaseAfterTeardown p)
        watches := dropWatches p s.watches } := by
  have hport := notifyAll_port_discarded (s.leases.flatMap (teardownNotices p)) h
  unfold teardownProcedure
  simp only [runLeases_dropPortFromLease, State.setWatches_port, State.setLeases_port, hport]
  rw [notifyAll_rest]
  rfl

theorem mem_dropWatches {p : Port} {ws : List WatchEntry} {x : WatchEntry} :
    x ∈ dropWatches p ws ↔ x ∈ ws ∧ x.port ≠ p := by
  simp [dropWatches]

/-- A completed teardown changes the port's link state and TEARDOWN_DONE alone. -/
theorem completeTeardown_kept (u : PortUnit) :
    (completeTeardown u).mailbox = u.mailbox ∧ (completeTeardown u).queue = u.queue := by
  unfold completeTeardown
  split <;> exact ⟨rfl, rfl⟩

theorem completeTeardown_good {u : PortUnit} (h : u.powerGood = true) : completeTeardown u =
    { u with link := .present, latched := { u.latched with teardownDone := true } } := if_pos h

theorem completeTeardown_bad {u : PortUnit} (h : u.powerGood = false) :
    completeTeardown u = { u with link := .absent } := if_neg (by simp [h])

/-- Settles O53: the parts of `teardownProcedure_eq`; the port is in TEARDOWN, so no notice reaches it. -/
theorem teardownDropsThePort : Obligations.TeardownDropsThePort := by
  intro s p hg
  have habsent : (s.port p).link ≠ .present := by
    rw [link_of_granted_teardown hg]
    decide
  have hx : exec (.teardownRequest p) s = .next (teardownProcedure p s) := if_pos hg
  have hnotified := notifyAll_port_discarded (s.leases.flatMap (teardownNotices p)) habsent
  generalize ht : teardownProcedure p s = t at hx
  rw [teardownProcedure_eq habsent] at ht
  have hself : t.port p = completeTeardown (s.port p) := by
    rw [← ht]
    exact Ports.get_set_self _ _ _
  have hother {q : Port} (hq : q ≠ p) :
      t.port q = (notifyAll (s.leases.flatMap (teardownNotices p)) s).port q := by
    rw [← ht]
    exact Ports.get_set_ne _ _ hq
  obtain ⟨hmailbox, hqueue⟩ := completeTeardown_kept (s.port p)
  rw [← hself] at hmailbox hqueue
  have hleases : t.leases = s.leases.flatMap (leaseAfterTeardown p) := by rw [← ht]
  refine ⟨t, hx, hleases, fun q => ?_, ?_, fun l hh hw hl => ?_, fun x => ?_, fun hgood => ?_,
    fun hbad => ?_, hmailbox, hqueue, fun q hq => ?_, ?_, ?_, ?_, ?_, ?_⟩
  · by_cases hq : q = p
    · rw [hq, hqueue, hnotified]
    · rw [hother hq]
  · rw [hleases]
    refine holdCount_eq_zero fun m hm => ?_
    obtain ⟨l, -, hml⟩ := List.mem_flatMap.1 hm
    exact place_of_mem_leaseAfterTeardown hml
  · rw [hleases]
    exact List.mem_flatMap.2 ⟨l, hl, by simp [leaseAfterTeardown_other hh hw]⟩
  · rw [← ht]
    exact mem_dropWatches
  · rw [hself, completeTeardown_good hgood]
    exact ⟨rfl, rfl⟩
  · rw [hself, completeTeardown_bad hbad]
    exact ⟨rfl, rfl⟩
  · rw [hother hq]
    exact notifyAll_port _ _ _
  all_goals rw [← ht]

end Sys2Proof.Machine
end

section
/-! Every command answers a next state with the queue's rest as it was. -/

namespace Sys2Proof.Machine

open Sys2Proof

/-- A next state whose queue is the one of a state before it. -/
def AnswersNext (s : State) (o : Host.Outcome State Fault Refusal) : Prop :=
  ∃ t, o = .next t ∧ t.pending = s.pending

/-! ### The queue through the procedures -/

theorem pending_of_steady {s t : State} (h : steady t = steady s) : t.pending = s.pending :=
  congrArg Steady.pending h

theorem checked_pending {p : Port} {cs : List (Option Result)} {go : State → State}
    (h : ∀ u, (go u).pending = u.pending) (s : State) :
    (checked p cs go s).pending = s.pending := by
  unfold checked
  split
  · exact pending_of_steady (steady_reply _ _ _ _)
  · exact h s

@[simp] theorem reply_pending (p : Port) (r : Result) (fs : List Byte) (s : State) :
    (reply p r fs s).pending = s.pending := pending_of_steady (steady_reply _ _ _ _)

@[simp] theorem runLeases_pending (f : Lease → LeaseFate) (s : State) :
    (runLeases f s).pending = s.pending := pending_of_steady (steady_runLeases _ _)

@[simp] theorem setRights_pending (ns : Fin 8) (r w : PortSet) (q : Nat) (s : State) :
    (setRights ns r w q s).pending = s.pending := runLeases_pending _ _

@[simp] theorem putNs_pending (ns : Fin 8) (e : NsEntry) (s : State) :
    (putNs ns e s).pending = s.pending := rfl

/-- No granted command's procedure touches the queue. -/
theorem procedureOf_pending (c : Code) (p : Port) (f : Frame) (s : State) :
    (procedureOf c p f s).pending = s.pending := by
  cases c
  all_goals simp only [procedureOf]
  case fetch | probe | scan | putOpen | remove | leaseTake | leaseRenew | leaseDrop =>
    simp only [fetchProcedure, probeProcedure, scanProcedure, putOpenProcedure, removeProcedure,
      leaseTakeProcedure, leaseRenewProcedure, leaseDropProcedure]
    split
    · exact reply_pending _ _ _ _
    · refine checked_pending (fun u => ?_) s
      repeat' split
      all_goals exact pending_of_steady (by simp)
  case watch | unwatch =>
    simp only [watchProcedure, unwatchProcedure]
    split
    · exact reply_pending _ _ _ _
    · exact checked_pending (fun u => by simp) s
  case putCommit | reclaim => exact checked_pending (fun u => pending_of_steady (by simp)) s
  case putCancel | storeTune | nsSet | nsFreeze =>
    simp only [putCancelProcedure, storeTuneProcedure, nsSetProcedure, nsFreezeProcedure, closeTxn]
    repeat' split
    all_goals simp
  case storeQuery | format => exact pending_of_steady (by simp)

theorem grantCommand_pending (c : Code) (p : Port) (s : State) :
    (grantCommand c p (procedureOf c p) s).pending = s.pending := by
  unfold grantCommand
  dsimp only
  repeat' split
  · simp
  · simp
  · exact procedureOf_pending _ _ _ _
  · rfl
  · rfl

theorem hostWrite_pending (p : Port) (f : PortUnit → PortUnit) (s : State) :
    (hostWrite p f s).pending = s.pending := by
  unfold hostWrite
  split <;> rfl

/-! ### The commands with more than one outcome -/

theorem answersNext_teardownRequest (p : Port) (s : State) :
    AnswersNext s (execTeardownRequest p s) := by
  unfold execTeardownRequest
  split
  · exact ⟨_, rfl, runLeases_pending _ s⟩
  · exact ⟨_, rfl, rfl⟩

theorem answersNext_relocate (s : State) : AnswersNext s (execRelocate s) := by
  unfold execRelocate
  split
  · exact ⟨_, rfl, pending_of_steady (by simp)⟩
  · exact ⟨_, rfl, rfl⟩

theorem answersNext_purge (s : State) : AnswersNext s (execPurge s) := by
  unfold execPurge
  split
  · dsimp only
    split
    all_goals exact ⟨_, rfl, pending_of_steady (by simp)⟩
  · exact ⟨_, rfl, rfl⟩

theorem answersNext_allocationRequest (r : Requester) (s : State) :
    AnswersNext s (execAllocationRequest r s) := by
  unfold execAllocationRequest
  split
  · exact ⟨_, rfl, pending_of_steady (by simp)⟩
  · exact ⟨_, rfl, rfl⟩

theorem answersNext_readComplete (first : Bool) (seen : SectorImage) (s : State) :
    AnswersNext s (execReadComplete first seen s) := by
  unfold execReadComplete
  split
  · exact ⟨_, rfl, pending_of_steady (steady_afterOutcome (fun u => steady_readEnded _ _ _ _ u) s)⟩
  · exact ⟨_, rfl, rfl⟩

theorem endProgram_pending (met : ArrayContents) (ok : Bool) (left : SpanLeft) (first : Bool)
    (r : Requester) (op : ArrayOp) (s : State) :
    (endProgram met ok left first r op s).pending = s.pending := by
  unfold endProgram
  exact (pending_of_steady (steady_afterOutcome (fun u => steady_programEnded r ok u) _)).trans rfl

theorem endErase_pending (ok : Bool) (left : SectorImage) (first : Bool) (e : EraseJob) (s : State) :
    (endErase ok left first e s).pending = s.pending := by
  unfold endErase
  exact (pending_of_steady (steady_afterOutcome (fun u => steady_eraseEnded e.requester ok u) _)).trans
    rfl

theorem answersNext_programComplete (pass : Bool) (left : ProgramLeft) (first : Bool) (s : State) :
    AnswersNext s (execProgramComplete pass left first s) := by
  unfold execProgramComplete
  repeat' split
  · exact ⟨_, rfl, endProgram_pending _ _ _ _ _ _ s⟩
  all_goals exact ⟨_, rfl, rfl⟩

theorem answersNext_programTimeout (left : ProgramLeft) (first : Bool) (s : State) :
    AnswersNext s (execProgramTimeout left first s) := by
  unfold execProgramTimeout
  repeat' split
  · exact ⟨_, rfl, endProgram_pending _ _ _ _ _ _ s⟩
  all_goals exact ⟨_, rfl, rfl⟩

theorem answersNext_eraseComplete (pass : Bool) (left : SectorImage) (first : Bool) (s : State) :
    AnswersNext s (execEraseComplete pass left first s) := by
  unfold execEraseComplete
  repeat' split
  · exact ⟨_, rfl, endErase_pending _ _ _ _ s⟩
  all_goals exact ⟨_, rfl, rfl⟩

theorem answersNext_eraseTimeout (left : SectorImage) (first : Bool) (s : State) :
    AnswersNext s (execEraseTimeout left first s) := by
  unfold execEraseTimeout
  repeat' split
  · exact ⟨_, rfl, endErase_pending _ _ _ _ s⟩
  all_goals exact ⟨_, rfl, rfl⟩

theorem answersNext_resetNRise (s : State) : AnswersNext s (execResetNRise s) := by
  unfold execResetNRise
  split
  all_goals exact ⟨_, rfl, rfl⟩

/-- Settles O3: the granted commands by their procedures, the others one by one. -/
theorem everyCommandAnswersANextState : Obligations.EveryCommandAnswersANextState := by
  intro c s
  cases c
  case fetch | probe | scan | putOpen | putCommit | putCancel | remove | leaseTake | leaseRenew |
      leaseDrop | watch | unwatch | storeQuery | storeTune | reclaim | format | nsSet | nsFreeze =>
    exact ⟨_, rfl, grantCommand_pending _ _ s⟩
  case teardownRequest p => exact answersNext_teardownRequest p s
  case relocate => exact answersNext_relocate s
  case purge => exact answersNext_purge s
  case allocationRequest r => exact answersNext_allocationRequest r s
  case readComplete first seen => exact answersNext_readComplete first seen s
  case programComplete pass left first => exact answersNext_programComplete pass left first s
  case programTimeout left first => exact answersNext_programTimeout left first s
  case eraseComplete pass left first => exact answersNext_eraseComplete pass left first s
  case eraseTimeout left first => exact answersNext_eraseTimeout left first s
  case timebaseStep | leaseExpiry => exact ⟨_, rfl, runLeases_pending _ s⟩
  case cmd | param | submit | stage | flags | portReset | interruptPolarity | registerWrite =>
    exact ⟨_, rfl, hostWrite_pending _ _ s⟩
  case resp | notice | powerGoodFall | powerGoodRise | powerOnReset | deviceReset =>
    exact ⟨_, rfl, rfl⟩
  case resetNRise => exact answersNext_resetNRise s

end Sys2Proof.Machine
end

section
/-! The bus accesses and the power-good edges: whose unit they change, and that an access is taken
only with RESET_N high, power-good high and the port not ABSENT (R183, R190, R194). -/

namespace Sys2Proof.Machine

open Sys2Proof

/-! ### Taken and not taken -/

/-- What a taken access needs, in the window's words (R190, R194). -/
theorem busTaken_iff (s : State) (p : Port) :
    busTaken s p = true ↔
      s.resetLow = false ∧ (s.port p).powerGood = true ∧ (s.port p).link ≠ .absent := by
  simp [busTaken, and_assoc]

theorem hostWrite_untaken {s : State} {p : Port} (h : busTaken s p = false)
    (f : PortUnit → PortUnit) : hostWrite p f s = s := if_neg (by simp [h])

theorem dataLines_taken {s : State} {p : Port} (h : busTaken s p = true) (o : Fin 16) :
    dataLines s p o = some (windowRead s.space.store p (s.port p) o) := if_pos h

theorem dataLines_untaken {s : State} {p : Port} (h : busTaken s p = false) (o : Fin 16) :
    dataLines s p o = none := if_neg (by simp [h])

/-- A read that is taken drives the register's value and makes its change. -/
theorem hostRead_taken {s : State} {p : Port} (h : busTaken s p = true) (o : Fin 16)
    (f : PortUnit → PortUnit) :
    hostRead p o f s = s.setPort p { f (s.port p) with
      dataOut := some (windowRead s.space.store p (s.port p) o) } := by
  rw [hostRead, if_pos h, dataLines_taken h]

theorem hostRead_untaken {s : State} {p : Port} (h : busTaken s p = false) (o : Fin 16)
    (f : PortUnit → PortUnit) :
    hostRead p o f s = s.setPort p { s.port p with dataOut := none } := by
  rw [hostRead, if_neg (by simp [h]), dataLines_untaken h]

/-! ### The commands of a port's bus and of its power -/

/-- Every write access is a `hostWrite` of its port. -/
theorem exec_write {p : Port} {i : Instr} (h : isWriteAt p i = true) (s : State) :
    ∃ f, exec i s = .next (hostWrite p f s) := by
  cases i
  case cmd | param | submit | stage | flags | portReset | interruptPolarity | registerWrite =>
    obtain rfl := eq_of_beq h
    exact ⟨_, rfl⟩
  all_goals cases h

/-- Every read access with a row of its own is a `hostRead` of its port. -/
theorem exec_read {p : Port} {i : Instr} (h : isReadAt p i = true) (s : State) :
    ∃ o f, exec i s = .next (hostRead p o f s) := by
  cases i
  case resp | notice =>
    obtain rfl := eq_of_beq h
    exact ⟨_, _, rfl⟩
  all_goals cases h

/-- Every power-good edge is a `powerEdge` of its port. -/
theorem exec_edge {p : Port} {i : Instr} (h : isEdgeAt p i = true) (s : State) :
    ∃ level f, exec i s = .next (powerEdge p level f s) := by
  cases i
  case powerGoodFall | powerGoodRise =>
    obtain rfl := eq_of_beq h
    exact ⟨_, _, rfl⟩
  all_goals cases h

theorem hostWrite_local (p : Port) (f : PortUnit → PortUnit) (s : State) :
    ∃ u, hostWrite p f s = s.setPort p u := by
  cases h : busTaken s p with
  | false => exact ⟨s.port p, by rw [hostWrite_untaken h, State.setPort_self]⟩
  | true => exact ⟨_, hostWrite_taken h f⟩

/-- Settles O21: every access and edge is one of three operations on its port's unit. -/
theorem hostAccessIsLocalToItsPort : Obligations.HostAccessIsLocalToItsPort := by
  refine fun s p i => ⟨?_, fun hb => ⟨fun hw => ?_, fun hr => ?_⟩⟩
  · rintro (hw | hr | he)
    · obtain ⟨f, hx⟩ := exec_write hw s
      obtain ⟨u, hu⟩ := hostWrite_local p f s
      exact ⟨u, by rw [hx, hu]⟩
    · obtain ⟨o, f, hx⟩ := exec_read hr s
      exact ⟨_, hx⟩
    · obtain ⟨level, f, hx⟩ := exec_edge he s
      exact ⟨_, hx⟩
  · obtain ⟨f, hx⟩ := exec_write hw s
    rw [hx, hostWrite_untaken hb]
  · obtain ⟨o, f, hx⟩ := exec_read hr s
    rw [hx, hostRead_untaken hb]

end Sys2Proof.Machine
end

section
/-! The mailbox and the notice queue at the window: the writes that build a frame (R184, R185) and the reads
that take a byte (R96, R186). -/

namespace Sys2Proof.Machine

open Sys2Proof

/-! ### Writes -/

theorem writeCmd_teardown {u : PortUnit} (h : u.link = .teardown) (b : Byte) :
    writeCmd b u = latchCollision u := if_pos h

/-- Out of TEARDOWN a CMD write goes by the mailbox state alone. -/
theorem writeCmd_begin {u : PortUnit} (hl : u.link ≠ .teardown)
    (hm : u.mailbox.state = .idle ∨ u.mailbox.state = .filling) (b : Byte) :
    writeCmd b u = beginFrame b u := by
  rcases hm with hm | hm <;> simp only [writeCmd, if_neg hl, hm]

theorem writeCmd_collision {u : PortUnit} (hl : u.link ≠ .teardown)
    (hm : u.mailbox.state = .waiting ∨ u.mailbox.state = .running) (b : Byte) :
    writeCmd b u = latchCollision u := by
  rcases hm with hm | hm <;> simp only [writeCmd, if_neg hl, hm]

theorem writeCmd_done {u : PortUnit} (hl : u.link ≠ .teardown) (hm : u.mailbox.state = .done)
    (b : Byte) :
    writeCmd b u = beginFrame b { u with latched := { u.latched with responseLost := true } } := by
  simp only [writeCmd, if_neg hl, hm]

/-- In FILLING of a PRESENT port a PARAM byte joins the frame. -/
theorem writeParam_filling {u : PortUnit} (hl : u.link ≠ .teardown) (hm : u.mailbox.state = .filling)
    (b : Byte) :
    writeParam b u = { u with mailbox := { u.mailbox with
      frame := appendParam b u.mailbox.frame } } := if_pos ⟨hl, hm⟩

theorem writeParam_collision {u : PortUnit} (h : u.link = .teardown ∨ u.mailbox.state ≠ .filling)
    (b : Byte) : writeParam b u = latchCollision u := if_neg (by tauto)

theorem writeSubmit_filling {u : PortUnit} (hl : u.link ≠ .teardown)
    (hm : u.mailbox.state = .filling) :
    writeSubmit u = { u with mailbox := { u.mailbox with state := .waiting } } := if_pos ⟨hl, hm⟩

theorem writeSubmit_collision {u : PortUnit} (h : u.link = .teardown ∨ u.mailbox.state ≠ .filling) :
    writeSubmit u = latchCollision u := if_neg (by tauto)

/-- The seventeenth byte is the first that marks a frame over-long (R172). -/
theorem appendParam_room {f : Frame} (h : f.params.length < 16) (b : Byte) :
    appendParam b f = { f with params := f.params ++ [b] } := if_pos h

theorem appendParam_full {f : Frame} (h : 16 ≤ f.params.length) (b : Byte) :
    appendParam b f = { f with overLong := true } := if_neg (by omega)

theorem cmdByte_noFrame {m : Mailbox} (h : m.state = .idle ∨ m.state = .done) : cmdByte m = 0 := by
  rcases h with h | h <;> simp only [cmdByte, h]

theorem cmdByte_frame {m : Mailbox}
    (h : m.state = .filling ∨ m.state = .waiting ∨ m.state = .running) :
    cmdByte m = if m.frame.overLong then 17 else byteOf m.frame.params.length := by
  rcases h with h | h | h <;> simp only [cmdByte, h]

/-- Settles O22: the three writes by link and mailbox state, and the count that a read of CMD finds. -/
theorem cmdParamAndSubmitBuildTheFrame : Obligations.CmdParamAndSubmitBuildTheFrame := by
  rintro s p b u rfl hb
  have hcmd : exec (.cmd p b) s = .next (s.setPort p (writeCmd b (s.port p))) :=
    congrArg Host.Outcome.next (hostWrite_taken hb _)
  have hparam : exec (.param p b) s = .next (s.setPort p (writeParam b (s.port p))) :=
    congrArg Host.Outcome.next (hostWrite_taken hb _)
  have hsubmit : exec (.submit p b) s = .next (s.setPort p (writeSubmit (s.port p))) :=
    congrArg Host.Outcome.next (hostWrite_taken hb _)
  rw [hcmd, hparam, hsubmit]
  have present {u : PortUnit} (h : u.link = .present) : u.link ≠ .teardown := by simp [h]
  refine ⟨fun hl => ?_, fun hl => ⟨fun hm => ?_, fun hm => ?_, fun hm => ?_⟩,
    fun st => ⟨cmdByte_noFrame, cmdByte_frame⟩, fun hl hm => ?_, fun h => ?_⟩
  · rw [writeCmd_teardown hl]
    rfl
  · rw [writeCmd_begin (present hl) hm]
    rfl
  · rw [writeCmd_collision (present hl) hm]
    rfl
  · rw [writeCmd_done (present hl) hm]
    rfl
  · rw [writeParam_filling (present hl) hm, writeSubmit_filling (present hl) hm]
    exact ⟨fun h => by rw [appendParam_room h], fun h => by rw [appendParam_full h], rfl⟩
  · rw [writeParam_collision h, writeSubmit_collision h]
    exact ⟨rfl, rfl⟩

/-! ### Reads -/

theorem readResp_more {u : PortUnit} {b b' : Byte} {rest : List Byte}
    (hm : u.mailbox.state = .done) (hr : u.mailbox.response = b :: b' :: rest) :
    readResp u = { u with mailbox := { u.mailbox with response := b' :: rest } } := by
  simp only [readResp, hm, hr]

theorem readResp_last {u : PortUnit} {b : Byte} (hm : u.mailbox.state = .done)
    (hr : u.mailbox.response = [b]) : readResp u = { u with mailbox := .empty } := by
  simp only [readResp, hm, hr]

theorem readResp_underrun {u : PortUnit} (hm : u.mailbox.state ≠ .done) :
    readResp u = latchUnderrun u := by
  unfold readResp
  split
  · exact absurd ‹_› hm
  · exact absurd ‹_› hm
  · rfl

theorem respByte_done {m : Mailbox} {b : Byte} {bs : List Byte} (hm : m.state = .done)
    (hr : m.response = b :: bs) : respByte m = b := by
  simp only [respByte, hm, hr]

theorem respByte_underrun {m : Mailbox} (hm : m.state ≠ .done) : respByte m = 0xFF := by
  unfold respByte
  split
  · exact absurd ‹_› hm
  · rfl

theorem readNotice_underrun {u : PortUnit} (h : u.queue.entries = []) :
    readNotice u = latchUnderrun u := if_pos (by rw [h]; rfl)

/-- Seven reads stay at the head entry; the eighth removes it (R96). -/
theorem readNotice_entry {u : PortUnit} {e : NoticeEntry} {es : List NoticeEntry}
    (h : u.queue.entries = e :: es) :
    readNotice u = { u with queue := if u.queue.taken < 7
      then { u.queue with taken := u.queue.taken + 1 } else ⟨es, 0⟩ } := by
  simp only [readNotice, takeNoticeByte, h, List.isEmpty_cons, Bool.false_eq_true, if_false]

theorem noticeByte_entry {q : NoticeQueue} {e : NoticeEntry} {es : List NoticeEntry}
    (h : q.entries = e :: es) : noticeByte q = (entryBytes e).getD q.taken 0 := by
  simp only [noticeByte, h]

theorem noticeByte_empty {q : NoticeQueue} (h : q.entries = []) : noticeByte q = 0 := by
  simp only [noticeByte, h]

/-- Settles O24: the byte driven and the change made, by what is there to read. -/
theorem respAndNoticeReadsTakeOneByte : Obligations.RespAndNoticeReadsTakeOneByte := by
  refine ⟨?_, fun _ _ => rfl, fun _ _ => rfl, fun _ => rfl, fun _ => rfl, fun _ => rfl⟩
  rintro s p u rfl hb
  have hresp : exec (.resp p) s = .next (s.setPort p { readResp (s.port p) with
      dataOut := some (respByte (s.port p).mailbox) }) :=
    congrArg Host.Outcome.next (hostRead_taken hb 3 readResp)
  have hnotice : exec (.notice p) s = .next (s.setPort p { readNotice (s.port p) with
      dataOut := some (noticeByte (s.port p).queue) }) :=
    congrArg Host.Outcome.next (hostRead_taken hb 11 readNotice)
  rw [hresp, hnotice]
  refine ⟨fun b b' rest hm hr => ?_, fun b hm hr => ?_, fun hm => ?_, fun e es he => ?_, fun he => ?_⟩
  · rw [readResp_more hm hr, respByte_done hm hr]
  · rw [readResp_last hm hr, respByte_done hm hr]
    rfl
  · rw [readResp_underrun hm, respByte_underrun hm]
    rfl
  · rw [readNotice_entry he, noticeByte_entry he]
    exact ⟨fun hlt => by rw [if_pos hlt], fun h7 => by rw [if_neg (by omega), h7]⟩
  · rw [readNotice_underrun he, noticeByte_empty he]
    rfl

end Sys2Proof.Machine
end

section
/-! FLAGS bit by bit, its write, and the interrupt line (R188, R189). -/

namespace Sys2Proof.Machine

open Sys2Proof

theorem getLsbD_bitAt {n k : Nat} (hk : k < 8) (b : Bool) :
    (bitAt n b).getLsbD k = (b && decide (n = k)) := by
  cases b with
  | false => exact BitVec.getLsbD_zero
  | true => simp only [bitAt, if_true, byteOf, BitVec.getLsbD_ofNat, hk, decide_true, Bool.true_and,
      Nat.testBit_two_pow]

/-- FLAGS bit by bit (window table). -/
theorem getLsbD_flagsByte (u : PortUnit) :
    (flagsByte u).getLsbD 0 = responseReady u ∧ (flagsByte u).getLsbD 1 = noticePending u ∧
    (flagsByte u).getLsbD 2 = u.latched.collision ∧
    (flagsByte u).getLsbD 3 = u.latched.responseLost ∧
    (flagsByte u).getLsbD 4 = u.latched.underrun ∧
    (flagsByte u).getLsbD 5 = u.latched.stageOverrun ∧
    (flagsByte u).getLsbD 6 = u.latched.storeChange ∧
    (flagsByte u).getLsbD 7 = u.latched.teardownDone := by
  simp only [flagsByte, BitVec.getLsbD_or]
  refine ⟨?_, ?_, ?_, ?_, ?_, ?_, ?_, ?_⟩
  all_goals simp [-BitVec.getLsbD_eq_getElem, getLsbD_bitAt]

/-- With no response, no notice and nothing latched every flag is 0. -/
theorem flagsByte_quiet {u : PortUnit} (hm : u.mailbox = .empty) (hq : u.queue = .empty)
    (hl : u.latched = .clear) : flagsByte u = 0 := by
  rw [flagsByte, responseReady, noticePending, hm, hq, hl]
  rfl

/-- Clearing takes the named bits out of FLAGS, but for bits 0 and 1, which are not latched. -/
theorem flagsByte_writeFlags (b : Byte) (u : PortUnit) :
    flagsByte (writeFlags b u) = flagsByte u &&& (~~~ b ||| 0x03) := by
  obtain ⟨o0, o1, o2, o3, o4, o5, o6, o7⟩ := getLsbD_flagsByte u
  obtain ⟨n0, n1, n2, n3, n4, n5, n6, n7⟩ := getLsbD_flagsByte (writeFlags b u)
  refine BitVec.eq_of_getLsbD_eq fun k hk => ?_
  rw [BitVec.getLsbD_and, BitVec.getLsbD_or, BitVec.getLsbD_not]
  interval_cases k
  all_goals simp only [n0, n1, n2, n3, n4, n5, n6, n7, o0, o1, o2, o3, o4, o5, o6, o7]
  all_goals simp [responseReady, noticePending, writeFlags, clearFlags]

/-- The line is active where some bit is set in FLAGS and in ENABLE. -/
theorem irqActive_iff (u : PortUnit) :
    irqActive u = true ↔
      ∃ n, n < 8 ∧ (flagsByte u).getLsbD n = true ∧ u.enable.getLsbD n = true := by
  rw [irqActive, bne_iff_ne]
  constructor
  · intro hne
    by_contra hno
    refine hne (BitVec.eq_of_getLsbD_eq fun k hk => ?_)
    rw [BitVec.getLsbD_and, show (0 : Byte).getLsbD k = false from BitVec.getLsbD_zero,
      Bool.eq_false_iff, Ne, Bool.and_eq_true]
    exact fun hset => hno ⟨k, hk, hset⟩
  · rintro ⟨n, -, hf, he⟩ hzero
    have hbit : (flagsByte u &&& u.enable).getLsbD n = true := by
      rw [BitVec.getLsbD_and, hf, he]
      rfl
    rw [hzero] at hbit
    exact Bool.false_ne_true (BitVec.getLsbD_zero.symm.trans hbit)

theorem irqLine_highZ {low : Bool} {u : PortUnit}
    (h : low = true ∨ u.link = .absent ∨ (u.link = .teardown ∧ u.powerGood = false)) :
    irqLine low u = .highZ := by
  refine if_pos ?_
  rcases h with h | h | ⟨hl, hp⟩
  · simp [h]
  · simp [h]
  · simp [hl, hp]

/-- A driven line is at the level of its polarity while it is active, and at the other one else. -/
theorem irqLine_driven {u : PortUnit}
    (h : u.link = .present ∨ (u.link = .teardown ∧ u.powerGood = true)) :
    irqLine false u = if irqActive u != u.activeLow then .high else .low := by
  refine if_neg ?_
  rcases h with h | ⟨hl, hp⟩
  · simp [h]
  · simp [hl, hp]

/-- Settles O25: the two registers bit by bit, and the line by its three rules. -/
theorem flagsEnableAndTheInterruptLine : Obligations.FlagsEnableAndTheInterruptLine := by
  refine ⟨fun s p b hb => ⟨⟨_, congrArg Host.Outcome.next (hostWrite_taken hb _), ?_, ?_⟩,
    congrArg Host.Outcome.next (hostWrite_taken hb _)⟩, fun low u => ⟨irqLine_highZ, ?_⟩⟩
  · rw [State.setPort_port_self]
    rfl
  · rw [State.setPort_port_self, flagsByte_writeFlags]
  rintro rfl hdriven
  rw [irqLine_driven hdriven]
  refine ⟨fun hset => ?_, fun hclear => ?_⟩
  · rw [(irqActive_iff u).2 hset]
    cases u.activeLow <;> rfl
  · have hquiet : irqActive u = false := by
      rw [Bool.eq_false_iff, Ne, irqActive_iff]
      rintro ⟨n, hn, hf, he⟩
      rw [hclear n hn hf] at he
      cases he
    rw [hquiet]
    cases u.activeLow <;> rfl

end Sys2Proof.Machine
end

section
/-! CONTROL and the power-good edges: where a teardown begins (R189 to R192). -/

namespace Sys2Proof.Machine

open Sys2Proof

/-- All that a teardown's beginning changes, in one step (R191). -/
theorem teardownBegin_eq (u : PortUnit) :
    teardownBegin u = { u with
      mailbox := ⟨.idle, ⟨0, [], false⟩, []⟩
      generation := u.generation + 1
      queue := ⟨[], 0⟩
      latched := ⟨false, false, false, false, false, false⟩
      enable := 0
      activeLow := false
      txn := if u.txn.state = .open_ then { u.txn with state := .none_, staged := 0 } else u.txn
      link := .teardown } := by
  unfold teardownBegin closeOpenTxn
  split <;> rfl

/-- The byte of a PORT_RESET has bit 0 set. -/
theorem writeControl_reset (rest : BitVec 7) (u : PortUnit) :
    writeControl (rest ++ (1 : BitVec 1)) u = if u.link = .present then teardownBegin u else u :=
  if_pos (BitVec.getLsbD_append.trans rfl)

/-- The byte of an INTERRUPT_POLARITY has it clear, and bit 1 is the lowest of the others. -/
theorem writeControl_polarity (rest : BitVec 7) (u : PortUnit) :
    writeControl (rest ++ (0 : BitVec 1)) u = { u with activeLow := rest.getLsbD 0 } := by
  rw [writeControl, BitVec.getLsbD_append, BitVec.getLsbD_append]
  rfl

/-- Settles O26: the byte's bit 0 decides, and with it set the link state. -/
theorem controlWriteResetsOrSetsPolarity : Obligations.ControlWriteResetsOrSetsPolarity := by
  rintro s p rest u rfl hb
  have hreset : exec (.portReset p rest) s =
      .next (s.setPort p (writeControl (rest ++ (1 : BitVec 1)) (s.port p))) :=
    congrArg Host.Outcome.next (hostWrite_taken hb _)
  have hpolarity : exec (.interruptPolarity p rest) s =
      .next (s.setPort p (writeControl (rest ++ (0 : BitVec 1)) (s.port p))) :=
    congrArg Host.Outcome.next (hostWrite_taken hb _)
  rw [hreset, hpolarity, writeControl_reset, writeControl_polarity]
  refine ⟨fun hl => ?_, fun hl => ?_, rfl⟩
  · rw [if_pos hl, teardownBegin_eq]
  · rw [if_neg (by simp [hl]), State.setPort_self]

theorem powerEdge_high {s : State} (h : s.resetLow = false) (p : Port) (level : Bool)
    (f : PortUnit → PortUnit) : powerEdge p level f s = s.setPort p (f (s.port p)) := by
  rw [powerEdge, h]
  rfl

/-- Settles O28: each edge by the link state that it finds. -/
theorem powerGoodEdgesMoveTheLink : Obligations.PowerGoodEdgesMoveTheLink := by
  rintro s p u rfl hlow
  have hfall : exec (.powerGoodFall p) s = .next (s.setPort p (powerFall (s.port p))) :=
    congrArg Host.Outcome.next (powerEdge_high hlow p false powerFall)
  have hrise : exec (.powerGoodRise p) s = .next (s.setPort p (powerRise (s.port p))) :=
    congrArg Host.Outcome.next (powerEdge_high hlow p true powerRise)
  rw [hfall, hrise]
  refine ⟨fun hl => ?_, fun hl => ?_, fun hl => ⟨_, rfl, ?_⟩, fun hl => ?_⟩
  · rw [powerFall, if_pos hl, teardownBegin_eq]
  · rw [powerFall, if_neg hl]
  · rw [powerRise, if_pos hl]
    exact ⟨rfl, rfl, rfl, rfl, rfl, flagsByte_quiet rfl rfl rfl, rfl, rfl, rfl, rfl⟩
  · rw [powerRise, if_neg hl]

end Sys2Proof.Machine
end

section
/-! The window's table, read by read (R183, R186, R188). -/

namespace Sys2Proof.Machine

open Sys2Proof

/-- The offsets with nothing to store a write in. -/
theorem writeRegister_readOnly {o : Fin 16}
    (h : o ∈ ([3, 4, 5, 9, 10, 11, 12, 14, 15] : List (Fin 16))) (b : Byte) (u : PortUnit) :
    writeRegister o b u = u := by
  fin_cases h <;> rfl

/-- Settles O27: the data lines by whether the access is taken, and the table register by register. -/
theorem windowReadsByTheTable : Obligations.WindowReadsByTheTable := by
  refine ⟨fun s p o => ⟨fun hr hp hl => ?_, fun h => ?_⟩, fun st p u => ?_, fun s p b o hb ho => ?_⟩
  · exact dataLines_taken ((busTaken_iff s p).2 ⟨hr, hp, hl⟩) o
  · refine dataLines_untaken (Bool.eq_false_iff.2 fun hb => ?_) o
    obtain ⟨hr, hp, hl⟩ := (busTaken_iff s p).1 hb
    simp [hr, hp, hl] at h
  · obtain ⟨f0, f1, f2, f3, f4, f5, f6, f7⟩ := getLsbD_flagsByte u
    refine ⟨rfl, rfl, rfl, fun b bs => respByte_done, respByte_underrun, ?_, ?_, rfl, ?_, ?_, f2, f3,
      f4, f5, f6, f7, rfl, rfl, rfl, fun e es => noticeByte_entry, noticeByte_empty, rfl, ?_, rfl, rfl⟩
    · show byteOf (respLeft u.mailbox) = _
      unfold respLeft
      split <;> rfl
    · show statusByte st u = _
      unfold statusByte
      cases u.txn.state <;> cases st <;> rfl
    · rw [f0, responseReady, beq_iff_eq]
    · rw [f1, noticePending]
      simp
    · show bitAt 1 u.activeLow = _
      cases u.activeLow <;> rfl
  · show Host.Outcome.next (hostWrite p (writeRegister o b) s) = _
    rw [hostWrite_taken hb, writeRegister_readOnly ho, State.setPort_self]

end Sys2Proof.Machine
end

section
/-! The three resets: the RAM at its reset values (R49, R66, R85, R98, R116, R119, R192, R193), and what
stands in the array where a PROGRAM or an ERASE was cut off (R42, R152, R171). -/

namespace Sys2Proof.Machine

open Sys2Proof

/-! ### An ERASE cut off -/

/-- Contents `b` are those of `a` but in sector i, where a byte may be 0FFH, a record header gone, broken
or without its state, and the sector header of a class that R152 allows. -/
structure Mixture (i : Sector) (a b : ArrayContents) : Prop where
  byte (n : Nat) : byteAt n b.bytes = byteAt n a.bytes ∨
    (byteAt n b.bytes = erasedByte ∧ n / 8192 = i.val)
  record (n : Nat) (h' : RecHeader) : cellAt n b.recs = some (.written h') →
    ∃ h, cellAt n a.recs = some (.written h) ∧ (h' = h ∨ h' = { h with state := none })
  header (k : Sector) : k ≠ i → sectorHeader b k = sectorHeader a k
  class_ : classify (sectorHeader b i) ∈
    [.blank, .unintelligible, classify (sectorHeader a i)]

theorem Mixture.refl (i : Sector) (a : ArrayContents) : Mixture i a a where
  byte _ := .inl rfl
  record _ h' h := ⟨h', h, .inl rfl⟩
  header _ _ := rfl
  class_ := by simp

theorem byteAt_cutErase (a : ArrayContents) (i : Sector) (c : EraseCut) (n : Nat) :
    byteAt n (cutErase a i c).bytes = byteAt n a.bytes ∨
      byteAt n (cutErase a i c).bytes = erasedByte := by
  have hcell := cellAt_filter (fun n => !(n / 8192 == i.val &&
    (c.bytes.contains (n % 8192) || (cellAt (n / 16) a.recs).isSome))) n a.bytes
  split at hcell
  · exact .inl (congrArg (·.getD erasedByte) hcell)
  · exact .inr (congrArg (·.getD erasedByte) hcell)

/-- A header that a cut-off ERASE leaves whole stood there, with its state field or without. -/
theorem written_of_cutAt {i : Sector} {cuts : List (Nat × RecCut)} {n : Nat} {c : RecCell}
    {h' : RecHeader} (hcut : cutAt i cuts n c = some (.written h')) :
    ∃ h, c = .written h ∧ (h' = h ∨ h' = { h with state := none }) := by
  unfold cutAt at hcut
  split at hcut
  · cases hk : cellAt (n % 512) cuts with
    | none =>
      rw [hk] at hcut
      cases hcut
      exact ⟨h', rfl, .inl rfl⟩
    | some k =>
      rw [hk] at hcut
      cases k with
      | erased | broken => cases hcut
      | torn =>
        cases c with
        | broken => cases hcut
        | written h =>
          cases hcut
          exact ⟨h, rfl, .inr rfl⟩
  · cases hcut
    exact ⟨h', rfl, .inl rfl⟩

theorem sectorHeader_cutErase (a : ArrayContents) (i k : Sector) (c : EraseCut) :
    sectorHeader (cutErase a i c) k =
      if k = i then cutHeader c (sectorHeader a i) else sectorHeader a k := vset_get _ _ _ _

theorem classify_badIdentity (g : HeaderGroup Activation) (m : Option SectorMark) :
    classify ⟨.bad, g, m⟩ = .unintelligible :=
  classify_noIdentity (by simp [SectorHeader.blank]) (by simp)

/-- A mixture of a fourth class is taken with its identity group failing (log 40). -/
theorem classify_cutHeader (c : EraseCut) (h : SectorHeader) :
    classify (cutHeader c h) ∈ [.blank, .unintelligible, classify h] := by
  unfold cutHeader
  dsimp only
  split
  · rename_i hclass
    simpa using hclass
  · simp [classify_badIdentity]

theorem mixture_cutErase (a : ArrayContents) (i : Sector) (c : EraseCut) :
    Mixture i a (cutErase a i c) where
  byte n := by
    by_cases hn : n / 8192 = i.val
    · exact (byteAt_cutErase a i c n).imp_right fun h => ⟨h, hn⟩
    · exact .inl (byteAt_cutErase_ne a i c hn)
  record n h' hwritten := by
    rw [show (cutErase a i c).recs = cutRecs i c.recs a.recs from rfl, cellAt_cutRecs,
      Option.bind_eq_some_iff] at hwritten
    obtain ⟨x, hx, hcut⟩ := hwritten
    obtain ⟨h, rfl, hh⟩ := written_of_cutAt hcut
    exact ⟨h, hx, hh⟩
  header k hk := by rw [sectorHeader_cutErase, if_neg hk]
  class_ := by
    rw [sectorHeader_cutErase, if_pos rfl]
    exact classify_cutHeader c _

/-! ### A PROGRAM cut off -/

/-- R171 speaks of a FORMAT's marks and of its activation program; every other program is cut off as R152
says. -/
theorem cutServing_plain {s : State} {r : Requester} {op : ArrayOp} (hs : s.ctl.serving = some (r, op))
    (hm : ∀ i m, op ≠ .programMark i m) (ha : ∀ i g, op ≠ .programActivation i g) (span : SpanLeft)
    (a : ArrayContents) : cutServing s span a = programCut a span op := by
  unfold cutServing
  rw [hs]
  cases r with
  | drain => rfl
  | engine =>
    show formatCut s a (programCut a span op) op = _
    unfold formatCut
    split
    · exact absurd rfl (hm _ _)
    · exact absurd rfl (ha _ _)
    · rfl

/-- With no PROGRAM in service there is none to cut off. -/
theorem cutServing_noProgram {s : State}
    (h : ∀ r op, s.ctl.serving = some (r, op) → isProgram op = false) (span : SpanLeft)
    (a : ArrayContents) : cutServing s span a = a := by
  cases hs : s.ctl.serving with
  | none =>
    unfold cutServing
    rw [hs]
  | some x =>
    obtain ⟨r, op⟩ := x
    have hop := h r op hs
    cases op with
    | read | erase => exact cutServing_plain hs nofun nofun _ _
    | programHeader | programState | programBytes | programIdentity | programActivation | programMark =>
      cases hop

theorem programCut_header (a : ArrayContents) (span : SpanLeft) (p : Place) (h : RecHeader) :
    programCut a span (.programHeader p h) = a ∨
      ∃ st, (st = none ∨ st = recStateAt a p) ∧
        programCut a span (.programHeader p h) = putRec a p (.broken st) := by
  by_cases hold : span.field = .old
  · exact .inl (if_pos hold)
  · exact .inr ⟨_, ite_eq_or_eq _ _ _, if_neg hold⟩

/-- Until a FORMAT's first DISCARDED program has completed every header is as before it (R171). -/
theorem cutServing_firstMark {s : State} {i : Sector} {m : SectorMark} {p : Port} {gen : Byte}
    (hs : s.ctl.serving = some (.engine, .programMark i m)) (hj : s.engine.job = .format p gen (.mark i))
    (hfirst : ∀ k, k < i → (s.space.rec_ k).state ≠ .discarded) (span : SpanLeft) (a : ArrayContents) :
    cutServing s span a = a := by
  have hmark : firstMark i s.space = true := by
    simp only [firstMark, List.all_eq_true, Bool.or_eq_true, decide_eq_true_eq, bne_iff_ne]
    exact fun k _ => (Nat.lt_or_ge k.val i.val).elim (fun h => .inr (hfirst k h)) .inl
  unfold cutServing
  simp only [hs, formatCut, hj, hmark, if_true]

/-- A state field at ERASED that was asked for another value reads as one of the two, or as none. -/
theorem markLeft_erased (m : SectorMark) (l : FieldLeft) :
    markLeft (some .erased) m l ∈ [some .erased, some m, none] := by
  unfold markLeft settle
  repeat' split
  all_goals simp

/-- An activated state without an activation group that passes its check is UNINTELLIGIBLE, and so is ERASED
with a group that fails it (R101). -/
theorem classify_badActivation {h : SectorHeader} {n : EraseCount} (hi : h.identity = .written n)
    (ha : h.activation = .bad) (hm : h.mark ∈ [some SectorMark.erased, some .active, none]) :
    classify h = .unintelligible := by
  have hg : activationOf h = none := activationOf_unwritten (.inr ha)
  rw [classify_identity hi]
  simp only [List.mem_cons, List.not_mem_nil, or_false] at hm
  rcases hm with hm | hm | hm
  · rw [hm]
    exact if_neg (by simp [ha])
  · rw [hm]
    exact if_pos hg
  · rw [hm]
    exact if_pos hg

/-- Until a FORMAT's activation program has passed the chosen sector is UNINTELLIGIBLE (R171). -/
theorem cutServing_activation {s : State} {i : Sector} {g : Activation} {p : Port} {gen : Byte}
    {n : EraseCount} (hs : s.ctl.serving = some (.engine, .programActivation i g))
    (hj : s.engine.job = .format p gen .activate) (span : SpanLeft) {a : ArrayContents}
    (hi : (sectorHeader a i).identity = .written n) (hm : (sectorHeader a i).mark = some .erased) :
    classify (sectorHeader (cutServing s span a) i) = .unintelligible := by
  unfold cutServing
  simp only [hs, formatCut, hj]
  split
  · assumption
  · simp only [programCut, sectorHeader_putHeader_self]
    refine classify_badActivation (n := n) hi rfl ?_
    dsimp only
    rw [hm]
    exact markLeft_erased .active _

/-! ### The array after a reset -/

/-- An ERASE in whose suspension a PROGRAM of its sector has ended has done nothing more since (R150). -/
theorem unseen_of_shown {c : Controller} {e : EraseJob} (he : c.erase = some e)
    (hsus : e.suspended = true) (hshown : e.shown = true) : c.unseen = none := by
  unfold Controller.unseen
  rw [he]
  exact if_pos (by rw [hsus, hshown]; rfl)

theorem arrayCut_of_unseen {s : State} (h : s.ctl.unseen = none) (span : SpanLeft)
    (sector : EraseCut) : arrayCut s span sector = cutServing s span s.array := by
  unfold arrayCut
  rw [h]
  rfl

section Left

variable {s : State} {span : SpanLeft} {sector : EraseCut} {b : ArrayContents}
  (hb : b = s.array ∨ b = arrayCut s span sector)
include hb

theorem reset_array_kept (hu : s.ctl.unseen = none)
    (hp : ∀ r op, s.ctl.serving = some (r, op) → isProgram op = false) : b = s.array := by
  obtain rfl | rfl := hb
  · rfl
  · rw [arrayCut_of_unseen hu, cutServing_noProgram hp]

theorem reset_array_mixture {e : EraseJob} (hs : s.ctl.serving = none) (he : s.ctl.erase = some e) :
    Mixture e.sector s.array b := by
  have hp : ∀ r op, s.ctl.serving = some (r, op) → isProgram op = false := fun r op h => by
    rw [hs] at h
    cases h
  obtain rfl | rfl := hb
  · exact .refl _ _
  · obtain hcut | ⟨e', he', hcut⟩ := arrayCut_cases s span sector
    all_goals rw [hcut, cutServing_noProgram hp]
    · exact .refl _ _
    · cases he.symm.trans he'
      exact mixture_cutErase _ _ _

theorem reset_array_header {r : Requester} {p : Place} {h : RecHeader} (he : s.ctl.erase = none)
    (hs : s.ctl.serving = some (r, .programHeader p h)) :
    b = s.array ∨ ∃ st, (st = none ∨ st = recStateAt s.array p) ∧
      b = putRec s.array p (.broken st) := by
  obtain rfl | rfl := hb
  · exact .inl rfl
  · rw [arrayCut_of_unseen (unseen_of_no_erase he),
      cutServing_plain hs nofun nofun]
    exact programCut_header _ _ _ _

theorem reset_array_firstMark {i : Sector} {m : SectorMark} {p : Port} {gen : Byte}
    (he : s.ctl.erase = none) (hs : s.ctl.serving = some (.engine, .programMark i m))
    (hj : s.engine.job = .format p gen (.mark i))
    (hfirst : ∀ k, k < i → (s.space.rec_ k).state ≠ .discarded) : b = s.array := by
  obtain rfl | rfl := hb
  · rfl
  · rw [arrayCut_of_unseen (unseen_of_no_erase he), cutServing_firstMark hs hj hfirst]

end Left

/-! ### The RAM after a reset -/

/-- Each of the three resets is `resetPart`, with what it keeps (R49, R116, R153, R194). -/
theorem exec_reset {s : State} {span : SpanLeft} {sector : EraseCut} {held : Bool} {c : Instr}
    {low : Bool} (h : (c = .powerOnReset span sector ∧ low = s.resetLow) ∨
      (c = .deviceReset held span sector ∧ low = held) ∨
      (c = .resetNRise ∧ s.resetLow = true ∧ low = false)) :
    ∃ names mark b, exec c s = .next (resetPart names mark low b s) ∧
      (b = s.array ∨ b = arrayCut s span sector) ∧
      (c ≠ .resetNRise → b = arrayCut s span sector) ∧
      (c = .powerOnReset span sector → names = namesAtPowerOn ∧ mark = lowWaterAtPowerOn) ∧
      (c ≠ .powerOnReset span sector → names = s.engine.names ∧ mark = s.space.lowWater) := by
  rcases h with ⟨rfl, rfl⟩ | ⟨rfl, rfl⟩ | ⟨rfl, hlow, rfl⟩
  · exact ⟨_, _, _, rfl, .inr rfl, fun _ => rfl, fun _ => ⟨rfl, rfl⟩, fun h => absurd rfl h⟩
  · exact ⟨_, _, _, rfl, .inr rfl, fun _ => rfl, nofun, fun _ => ⟨rfl, rfl⟩⟩
  · exact ⟨_, _, _, if_pos hlow, .inl rfl, fun h => absurd rfl h, nofun,
      fun _ => ⟨rfl, rfl⟩⟩

theorem resetPart_ctl (names : Vector NsEntry 8) (mark : Nat) (low : Bool) (b : ArrayContents)
    (s : State) : (resetPart names mark low b s).ctl.erase = none ∧
      (resetPart names mark low b s).ctl.drain = none := by
  cases low <;> exact ⟨rfl, rfl⟩

theorem resetPart_port (names : Vector NsEntry 8) (mark : Nat) (low : Bool) (b : ArrayContents)
    (s : State) (p : Port) :
    (resetPart names mark low b s).port p = .atReset (s.port p).powerGood := Ports.get_each _ _ _

/-- Settles O60: the RAM by `resetPart`, the array by what was under way. -/
theorem resetsLeaveTheResetValues : Obligations.ResetsLeaveTheResetValues := by
  intro s span sector held c low h
  obtain ⟨names, mark, b, hx, hb, hcut, hpower, hkept⟩ := exec_reset h
  have hctl := resetPart_ctl names mark low b s
  refine ⟨_, hx, rfl, rfl, rfl, rfl, rfl, rfl, rfl, rfl, rfl, rfl, rfl, rfl, hctl.1, hctl.2, rfl,
    fun p => ?_, fun hs he => ?_, fun e hs he => ?_, fun e he hsus hshown hp => ?_,
    fun he => ⟨fun r p x hs => ?_, fun i p gen hs hj hfirst => ?_, fun i g p gen n hc hs hj hi hm => ?_⟩,
    fun hc => ?_, fun hc => ?_⟩
  · rw [resetPart_port]
    exact ⟨rfl, rfl, rfl, rfl, flagsByte_quiet rfl rfl rfl, rfl, rfl, rfl, rfl⟩
  · exact reset_array_kept hb (unseen_of_no_erase he) (fun r op h => by cases hs.symm.trans h)
  · obtain ⟨hbyte, hrecord, hheader, hclass⟩ := reset_array_mixture hb hs he
    exact ⟨hbyte, fun p h' => hrecord _ h', hheader, hclass⟩
  · exact reset_array_kept hb (unseen_of_shown he hsus hshown) hp
  · exact reset_array_header hb he hs
  · exact reset_array_firstMark hb he hs hj hfirst
  · show classify (sectorHeader b i) = _
    rw [hcut hc, arrayCut_of_unseen (unseen_of_no_erase he)]
    exact cutServing_activation hs hj span hi hm
  · obtain ⟨rfl, rfl⟩ := hpower hc
    exact ⟨rfl, namesAtPowerOn_get⟩
  · obtain ⟨rfl, rfl⟩ := hkept hc
    exact ⟨rfl, rfl⟩

end Sys2Proof.Machine
end

section
/-! A command waits at the front of the queue: the step is that command's. -/

namespace Sys2Proof.Machine

open Sys2Proof

/-- Settles O1: the shape of the queue picks the branch of `step`, as `step_empty` does for an empty queue. -/
theorem stepRunsTheFrontCommand : Obligations.StepRunsTheFrontCommand := by
  intro c rest s hfront
  unfold step
  rw [hfront]

end Sys2Proof.Machine
end
